-- ==== Sys2Proof/Word.lean ====
section
/-! DEFINITION. The word types of the HCE: the 8-bit byte of streams and buffers and the 32-bit word of
the host bus and the registers (spec/00_scope.md R9, R17). All values are unsigned (R17). -/

namespace Sys2Proof

/-- A byte of a stream or a buffer; also the type of a symbol (R14 `SYMBOL_BITS`). -/
abbrev Byte := BitVec 8

/-- A register, a command word, or the data of one bus transaction (R9, R80). -/
abbrev Word := BitVec 32

end Sys2Proof
end

