-- ==== Sys2Proof/Config.lean ====
section
/-! DEFINITION. What an instance of the HCE fixes (spec/00_scope.md R14) and the free values: what the
spec leaves open and nothing constrains. A free value is an opaque constant without a body. -/

namespace Sys2Proof.Config

/-- The constant the ID register reads (10_state.md R31). -/
def idValue : Word := 0x48434501

/-- `LZW_W`: codeword width in bits (R14, 43_lzw.md R200). -/
def lzwWidth : Nat := 12

/-- `LZW_CAP`: dictionary capacity (R14, R200). -/
def lzwCap : Nat := 4096

/-- `LZW_EOF`: the end-of-file code (R14, R200). -/
def lzwEof : Nat := 256

/-- `LZW_FIRST`: the first assignable code (R14, R200). -/
def lzwFirst : Nat := 257

/-- `COUNT_BITS`: width of the Huffman symbol-count field (R14). -/
def countBits : Nat := 32

/-- `MAX_CODE_LEN`: the longest code the table holds (R14, 45_huffman_build.md R244). -/
def maxCodeLen : Nat := 64

/-- `MAX_NODES`: entries of the trie arena (R14, 10_state.md R59). -/
def maxNodes : Nat := 511

/-- `MAX_WIDTH`: the largest width of WBITS and RBITS (R14, 30_encoding.md R112). -/
def maxWidth : Nat := 32

/-- A legal buffer size is a power of two from 4 to 2^24 bytes (R14); `e` in 0..22 stands for 2^(e+2). -/
def bufSize (e : Fin 23) : Nat := 2 ^ (e.val + 2)

/-- The default of both buffer sizes, 65536 = 2^(14+2) (R14; log 6). -/
def defaultExp : Fin 23 := 14

/-- FREE VALUE. The power-on contents of IBUF, byte by byte (10_state.md R61, 70_reset_and_hazards.md R342; log 5). -/
opaque powerOnIbuf : Nat → Byte

/-- FREE VALUE. The power-on contents of OBUF, byte by byte (10_state.md R62, R342; log 5). -/
opaque powerOnObuf : Nat → Byte

/-- FREE VALUE. What a host read with no specified value returns while BUSY = 1 (20_memory.md R97; log 4). -/
opaque busyRead : Nat → Word

/-- FREE VALUE. What a host read of a buffer word returns during reset (R340; log 9). -/
opaque resetRead : Nat → Word

/-- FREE VALUE. How many of its OBUF bytes a command had written when reset abandoned it
(93_implementation_defined.md U19; log 8). -/
opaque abandonAfter : Nat → Nat

end Sys2Proof.Config
end

