-- ==== Sys2Proof/Syntax.lean ====
section
/-! DEFINITION. The commands of the HCE as terms: one constructor per row of spec/opcode_table.json, in the
table's order, with the operands of 30_encoding.md R113. -/

namespace Sys2Proof

/-- A command (30_encoding.md R114). Formats (R112): N has no operand; BIT a bit; W the whole 8-bit field A,
bounded by 32 (`Instr.wf`); S a symbol; X an arena index; L a codeword and the grow flag. -/
inductive Instr where
  /-- NOP, format N, R146. -/
  | nop
  /-- CLRERR, format N, R147. -/
  | clrerr
  /-- SRESET, format N, R148. -/
  | sreset
  /-- WINIT, format N, R164. -/
  | winit
  /-- WBIT b, format BIT, R165. -/
  | wbit (b : Bool)
  /-- WBITS n, format W, R166; the value is ARG. -/
  | wbits (n : Byte)
  /-- WFLUSH, format N, R167. -/
  | wflush
  /-- RINIT, format N, R184. -/
  | rinit
  /-- RBIT, format N, R185. -/
  | rbit
  /-- RBITS n, format W, R186. -/
  | rbits (n : Byte)
  /-- LINIT, format N, R201. -/
  | linit
  /-- LEMIT c, g, format L, R203. -/
  | lemit (c : BitVec 12) (g : Bool)
  /-- LEOF, format N, R204. -/
  | leof
  /-- LREAD, format N, R205. -/
  | lread
  /-- FCLR, format N, R221. -/
  | fclr
  /-- FCOUNT, format N, R222. -/
  | fcount
  /-- FRD s, format S, R223. -/
  | frd (sym : Byte)
  /-- FWR s, format S, R224; the value is ARG. -/
  | fwr (sym : Byte)
  /-- HBUILD, format N, R245. -/
  | hbuild
  /-- HLEN s, format S, R246. -/
  | hlen (sym : Byte)
  /-- HCODELO s, format S, R247. -/
  | hcodelo (sym : Byte)
  /-- HCODEHI s, format S, R248. -/
  | hcodehi (sym : Byte)
  /-- HNODE i, format X, R249. -/
  | hnode (i : BitVec 12)
  /-- HNODEF i, format X, R250. -/
  | hnodef (i : BitVec 12)
  /-- HTRIE, format N, R261. -/
  | htrie
  /-- HCOUNTW, format N, R262. -/
  | hcountw
  /-- HSYM s, format S, R264. -/
  | hsym (sym : Byte)
  /-- HSYMS, format N, R265. -/
  | hsyms
  /-- HCOMP, format N, R266. -/
  | hcomp
  /-- HRTRIE, format N, R282. -/
  | hrtrie
  /-- HRCOUNT, format N, R284. -/
  | hrcount
  /-- HDSYM, format N, R285. -/
  | hdsym
  /-- HDSYMS, format N, R286. -/
  | hdsyms
  /-- HEXP, format N, R287. -/
  | hexp
  deriving DecidableEq, Repr

end Sys2Proof
end

