-- ==== Sys2Proof/WellFormed.lean ====
section
/-! DEFINITION. When a command term stands for a legal command word: the only bound that an operand's type does
not already give is the width of format W, at most 32 (30_encoding.md R112, R115). -/

namespace Sys2Proof

/-- The check of format W: `A <= 32` (R115). -/
def widthOk (n : Byte) : Bool := decide (n.toNat ≤ Config.maxWidth)

/-- The term's word is legal (R115). -/
def Instr.wf : Instr → Bool
  | .nop => true
  | .clrerr => true
  | .sreset => true
  | .winit => true
  | .wbit _ => true
  | .wbits n => widthOk n
  | .wflush => true
  | .rinit => true
  | .rbit => true
  | .rbits n => widthOk n
  | .linit => true
  | .lemit _ _ => true
  | .leof => true
  | .lread => true
  | .fclr => true
  | .fcount => true
  | .frd _ => true
  | .fwr _ => true
  | .hbuild => true
  | .hlen _ => true
  | .hcodelo _ => true
  | .hcodehi _ => true
  | .hnode _ => true
  | .hnodef _ => true
  | .htrie => true
  | .hcountw => true
  | .hsym _ => true
  | .hsyms => true
  | .hcomp => true
  | .hrtrie => true
  | .hrcount => true
  | .hdsym => true
  | .hdsyms => true
  | .hexp => true

end Sys2Proof
end

