-- ==== Sys2Proof/Decode.lean ====
section
/-! DEFINITION. Command words: field extraction (30_encoding.md R111), the decoder, total on every word, with a
name for each reason a word is illegal (R115, R116), and after it the encoder. -/

namespace Sys2Proof

/-! ### Fields (R111) -/

/-- OP, bits 7:0. -/
def fieldOp (w : Word) : Byte := w.extractLsb' 0 8
/-- A, bits 15:8. -/
def fieldA (w : Word) : Byte := w.extractLsb' 8 8
/-- B, bits 27:16. -/
def fieldB (w : Word) : BitVec 12 := w.extractLsb' 16 12
/-- G, bit 28. -/
def fieldG (w : Word) : Bool := w.getLsbD 28
/-- RSV, bits 31:29. -/
def fieldRsv (w : Word) : BitVec 3 := w.extractLsb' 29 3

/-- Why a word is not legal. Every one of these raises ILLEGAL_CMD when the word is executed (R116). -/
inductive IllegalWord where
  /-- RSV is not 0. -/
  | reservedBits
  /-- OP is none of the 34 opcodes of R114. -/
  | unknownOpcode
  /-- A field that the format does not use is not 0. -/
  | unusedField
  /-- WBIT with A above 1. -/
  | bitOperand
  /-- WBITS or RBITS with A above 32. -/
  | widthOperand
  deriving DecidableEq, Repr

/-! ### The six formats (R112, R115) -/

/-- Format N: A = 0, B = 0, G = 0. -/
def decodeN (i : Instr) (w : Word) : Except IllegalWord Instr :=
  if fieldA w = 0 ∧ fieldB w = 0 ∧ fieldG w = false then .ok i else .error .unusedField

/-- Format BIT: A <= 1, B = 0, G = 0; the operand is A[0]. -/
def decodeBit (mk : Bool → Instr) (w : Word) : Except IllegalWord Instr :=
  if fieldB w = 0 ∧ fieldG w = false then
    if (fieldA w).toNat ≤ 1 then .ok (mk ((fieldA w).getLsbD 0)) else .error .bitOperand
  else .error .unusedField

/-- Format W: A <= 32, B = 0, G = 0; the operand is A. -/
def decodeW (mk : Byte → Instr) (w : Word) : Except IllegalWord Instr :=
  if fieldB w = 0 ∧ fieldG w = false then
    if widthOk (fieldA w) then .ok (mk (fieldA w)) else .error .widthOperand
  else .error .unusedField

/-- Format S: B = 0, G = 0; the operand is A. -/
def decodeS (mk : Byte → Instr) (w : Word) : Except IllegalWord Instr :=
  if fieldB w = 0 ∧ fieldG w = false then .ok (mk (fieldA w)) else .error .unusedField

/-- Format X: A = 0, G = 0; the operand is B. -/
def decodeX (mk : BitVec 12 → Instr) (w : Word) : Except IllegalWord Instr :=
  if fieldA w = 0 ∧ fieldG w = false then .ok (mk (fieldB w)) else .error .unusedField

/-- Format L: A = 0; the operands are B and G. -/
def decodeL (mk : BitVec 12 → Bool → Instr) (w : Word) : Except IllegalWord Instr :=
  if fieldA w = 0 then .ok (mk (fieldB w) (fieldG w)) else .error .unusedField

/-- The opcode map (R114), on a word whose RSV is 0. -/
def decodeOp (w : Word) : Except IllegalWord Instr :=
  match (fieldOp w).toNat with
  | 0x00 => decodeN .nop w
  | 0x01 => decodeN .clrerr w
  | 0x02 => decodeN .sreset w
  | 0x10 => decodeN .winit w
  | 0x11 => decodeBit .wbit w
  | 0x12 => decodeW .wbits w
  | 0x13 => decodeN .wflush w
  | 0x20 => decodeN .rinit w
  | 0x21 => decodeN .rbit w
  | 0x22 => decodeW .rbits w
  | 0x30 => decodeN .linit w
  | 0x31 => decodeL .lemit w
  | 0x32 => decodeN .leof w
  | 0x33 => decodeN .lread w
  | 0x40 => decodeN .fclr w
  | 0x41 => decodeN .fcount w
  | 0x42 => decodeS .frd w
  | 0x43 => decodeS .fwr w
  | 0x50 => decodeN .hbuild w
  | 0x51 => decodeS .hlen w
  | 0x52 => decodeS .hcodelo w
  | 0x53 => decodeS .hcodehi w
  | 0x54 => decodeX .hnode w
  | 0x55 => decodeX .hnodef w
  | 0x60 => decodeN .htrie w
  | 0x61 => decodeN .hcountw w
  | 0x62 => decodeS .hsym w
  | 0x63 => decodeN .hsyms w
  | 0x64 => decodeN .hcomp w
  | 0x70 => decodeN .hrtrie w
  | 0x71 => decodeN .hrcount w
  | 0x72 => decodeN .hdsym w
  | 0x73 => decodeN .hdsyms w
  | 0x74 => decodeN .hexp w
  | _ => .error .unknownOpcode

/-- The decoder: `legal(w)` of R115 with the operands of R113. -/
def decode (w : Word) : Except IllegalWord Instr :=
  if fieldRsv w = 0 then decodeOp w else .error .reservedBits

/-! ### The encoder -/

/-- A word from its fields, RSV = 0 (R111). -/
def packWord (op a : Byte) (b : BitVec 12) (g : Bool) : Word :=
  op.setWidth 32 ||| (a.setWidth 32 <<< 8) ||| (b.setWidth 32 <<< 16) ||| ((BitVec.ofBool g).setWidth 32 <<< 28)

/-- Format N. -/
def packN (op : Byte) : Word := packWord op 0 0 false
/-- Formats W and S: the operand in A. -/
def packA (op a : Byte) : Word := packWord op a 0 false

/-- The word of a command (R111 to R114, R118). -/
def encode : Instr → Word
  | .nop => packN 0x00
  | .clrerr => packN 0x01
  | .sreset => packN 0x02
  | .winit => packN 0x10
  | .wbit b => packA 0x11 ((BitVec.ofBool b).setWidth 8)
  | .wbits n => packA 0x12 n
  | .wflush => packN 0x13
  | .rinit => packN 0x20
  | .rbit => packN 0x21
  | .rbits n => packA 0x22 n
  | .linit => packN 0x30
  | .lemit c g => packWord 0x31 0 c g
  | .leof => packN 0x32
  | .lread => packN 0x33
  | .fclr => packN 0x40
  | .fcount => packN 0x41
  | .frd sym => packA 0x42 sym
  | .fwr sym => packA 0x43 sym
  | .hbuild => packN 0x50
  | .hlen sym => packA 0x51 sym
  | .hcodelo sym => packA 0x52 sym
  | .hcodehi sym => packA 0x53 sym
  | .hnode i => packWord 0x54 0 i false
  | .hnodef i => packWord 0x55 0 i false
  | .htrie => packN 0x60
  | .hcountw => packN 0x61
  | .hsym sym => packA 0x62 sym
  | .hsyms => packN 0x63
  | .hcomp => packN 0x64
  | .hrtrie => packN 0x70
  | .hrcount => packN 0x71
  | .hdsym => packN 0x72
  | .hdsyms => packN 0x73
  | .hexp => packN 0x74

/-- The word the table's numbering gives: `w` cut to `nbits` bits, the rest 0. A command is one 32-bit word written
to CMD as it stands (R110), so there is no byte order to lay out. -/
def tableWord (nbits w : Nat) : Word := BitVec.ofNat 32 (w % 2 ^ nbits)

/-- The instruction the decoder reads from a word of the opcode table. -/
def decodeTableWord (nbits w : Nat) : Option Instr :=
  match decode (tableWord nbits w) with
  | .ok i => some i
  | .error _ => none

end Sys2Proof
end

