-- ==== Sys2Proof/Machine/State.lean ====
section
/-! DEFINITION. The state of the HCE as plain data (spec/10_state.md), the reasons a step may stop, and the state
right after reset (70_reset_and_hazards.md R341). -/

namespace Sys2Proof.Machine

/-- A buffer's bytes by index, as cells with strictly rising indices. An index that is not listed is a byte that
nothing has written since power-on: it has no value of its own here, and the machine reads the free value of Config
there (log 5). -/
abbrev Memory := List Host.Cell

/-- One entry of the trie arena (R59). LEFT and RIGHT are arena indices. -/
structure Node where
  /-- LEAF: 1 for a leaf. -/
  leaf : Bool
  /-- SYM: the symbol of a leaf. -/
  sym : Byte
  /-- LEFT: the left child of an internal node. -/
  left : Fin 511
  /-- RIGHT: the right child of an internal node. -/
  right : Fin 511
  /-- F: the node's frequency. -/
  f : Word
  deriving DecidableEq, Repr

/-- What can happen next at the machine's ports, and the engine's turns between (00_scope.md R9 to R12; log 1). -/
inductive HostAction where
  /-- `HostRead(addr)` (20_memory.md R80). -/
  | read (addr : BitVec 26)
  /-- `HostWrite(addr, v)` (R80). -/
  | write (addr : BitVec 26) (v : Word)
  /-- The engine's turn: it executes and completes the running command, if there is one. -/
  | engine
  /-- `rst_n` goes to 0 (R340). -/
  | resetLow
  /-- `rst_n` returns to 1 (R340). -/
  | resetHigh
  deriving DecidableEq, Repr

/-- The whole machine. Each field cites the rule that names it; INVENTORY.md lists them with their reset values. -/
structure State where
  /-- ARG (R33). -/
  arg : Word
  /-- RESULT (R34). -/
  result : Word
  /-- STATUS.BUSY (R35). -/
  busy : Bool
  /-- STATUS.ERR (R35). -/
  err : Bool
  /-- STATUS.EOI (R36). -/
  eoi : Bool
  /-- STATUS.TVALID (R35). -/
  tvalid : Bool
  /-- ERRCODE.CODE (R37). -/
  errCode : Byte
  /-- ERRCODE.OP (R37). -/
  errOp : Byte
  /-- CTRL.DONE_IE (R38). -/
  doneIe : Bool
  /-- CTRL.ERR_IE (R38). -/
  errIe : Bool
  /-- IRQSTAT.DONE (R39). -/
  irqDone : Bool
  /-- IRQSTAT.ERRI (R39). -/
  irqErri : Bool
  /-- CMDCNT (R53). -/
  cmdcnt : Word
  /-- ILEN (R40). -/
  ilen : Word
  /-- IPTR (R41). -/
  iptr : Word
  /-- RSTATE.RACC (R42). -/
  racc : Byte
  /-- RSTATE.RCNT, 0 to 8 (R42). -/
  rcnt : Fin 9
  /-- OPTR (R43). -/
  optr : Word
  /-- WSTATE.WACC (R44). -/
  wacc : Byte
  /-- WSTATE.WCNT, 0 to 7 (R44). -/
  wcnt : Fin 8
  /-- FREQ (R55). -/
  freq : Vector Word 256
  /-- TOTAL (R45). -/
  total : Word
  /-- LEN (R56). -/
  len : Vector (BitVec 7) 256
  /-- CODE (R57). -/
  code : Vector (BitVec 64) 256
  /-- NODE (R59). -/
  node : Vector Node 511
  /-- HTREE.ROOT (R46). -/
  root : Fin 511
  /-- HTREE.NODES, 0 to 511 (R46). -/
  nodes : Fin 512
  /-- HREM (R47). -/
  hrem : Word
  /-- LZWE.ENEXT (R48). -/
  enext : BitVec 13
  /-- LZWD.DNEXT (R49). -/
  dnext : BitVec 13
  /-- LZWD.DFIRST (R49). -/
  dfirst : Bool
  /-- IBUF (R61). -/
  ibuf : Memory
  /-- OBUF (R62). -/
  obuf : Memory
  /-- PENDING, the launched word (R64, 40_control.md R140). -/
  pending : Word
  /-- The level of the pin `rst_n` (00_scope.md R9, R340). -/
  rstN : Bool
  /-- The instance's IBUF_SIZE as an exponent (R14, R52; log 6). -/
  ibufExp : Fin 23
  /-- The instance's OBUF_SIZE as an exponent (R14, R52; log 6). -/
  obufExp : Fin 23
  /-- The model's own: the host actions still to come, oldest first (log 1). -/
  hostq : List HostAction
  /-- The model's own: the data of the last `HostRead` (log 3). -/
  hostData : Word
  /-- The model's own: how many free values have been drawn (log 4). -/
  draws : Nat
  deriving DecidableEq, Repr

/-- Model faults. There is none: the hardware has no state in which it stops (60_exceptions.md R315), every error
it describes is recorded and the command completes (R310, R141), and every value it leaves open is a free value. -/
inductive Fault where
  deriving DecidableEq, Repr

/-- Why an instruction has no meaning. -/
inductive Refusal where
  /-- Answered only by an arm of `exec` whose instruction is not modelled yet (safe: the machine stops where the
  hardware goes on). No arm answers it. -/
  | notModelled (mnemonic : String)
  deriving DecidableEq, Repr

/-- An arena entry with every field 0 (R59). -/
def Node.zero : Node := { leaf := false, sym := 0, left := 0, right := 0, f := 0 }

/-- The state right after reset (70_reset_and_hazards.md R340, R341), of an instance with the default buffer sizes
(R14; log 6), nothing placed at its ports (log 1) and no buffer byte written (log 5). PENDING, `hostData` and `draws` hold
values the model names (log 7, log 3, log 4). -/
def State.reset : State where
  arg := 0
  result := 0
  busy := false
  err := false
  eoi := false
  tvalid := false
  errCode := 0
  errOp := 0
  doneIe := false
  errIe := false
  irqDone := false
  irqErri := false
  cmdcnt := 0
  ilen := 0
  iptr := 0
  racc := 0
  rcnt := 0
  optr := 0
  wacc := 0
  wcnt := 0
  freq := Vector.replicate 256 0
  total := 0
  len := Vector.replicate 256 0
  code := Vector.replicate 256 0
  node := Vector.replicate 511 Node.zero
  root := 0
  nodes := 0
  hrem := 0
  enext := 257
  dnext := 257
  dfirst := true
  ibuf := []
  obuf := []
  pending := 0
  rstN := true
  ibufExp := Config.defaultExp
  obufExp := Config.defaultExp
  hostq := []
  hostData := 0
  draws := 0

end Sys2Proof.Machine
end

