-- ==== Sys2Proof/Machine/Ops.lean ====
section
/-! DEFINITION. The named operations over memory, tables and registers; the result of a command body; recording an
error (60_exceptions.md R310), completing a command (40_control.md R141), and clearing the error (R147). -/

namespace Sys2Proof.Machine

/-! ### Buffers -/

/-- The byte listed at index `a`, if any. -/
def Memory.get? : Memory → Nat → Option Byte
  | [], _ => none
  | (k, v) :: m, a => if a = k then some v else Memory.get? m a

/-- Store byte `b` at index `a`, keeping the indices strictly rising. -/
def Memory.set : Memory → Nat → Byte → Memory
  | [], a, b => [(a, b)]
  | (k, v) :: m, a, b =>
    if a < k then (a, b) :: (k, v) :: m
    else if a = k then (a, b) :: m
    else (k, v) :: Memory.set m a b

/-- Every listed index is above `lo`, and the indices rise strictly. -/
def Memory.risingFrom : Memory → Nat → Bool
  | [], _ => true
  | (k, _) :: m, lo => decide (lo ≤ k) && Memory.risingFrom m (k + 1)

/-- The canonical form: strictly rising indices. An unlisted index has no value, so no entry can equal it. -/
def Memory.wf (m : Memory) : Bool := m.risingFrom 0

/-- Every listed index is below `n`. -/
def Memory.below (m : Memory) (n : Nat) : Bool := m.all fun c => decide (c.1 < n)

/-- `IBUF_SIZE` of this instance (R14). -/
def State.ibufSize (s : State) : Nat := Config.bufSize s.ibufExp

/-- `OBUF_SIZE` of this instance (R14). -/
def State.obufSize (s : State) : Nat := Config.bufSize s.obufExp

/-- `IBUF[i]`; a byte nothing has written is its power-on value (R61, R342). -/
def State.ibufByte (s : State) (i : Nat) : Byte := (s.ibuf.get? i).getD (Config.powerOnIbuf i)

/-- `OBUF[i]`; a byte nothing has written is its power-on value (R62, R342). -/
def State.obufByte (s : State) (i : Nat) : Byte := (s.obuf.get? i).getD (Config.powerOnObuf i)

/-- `IBUF[i] <- b`, by the host only (R84, R92). -/
def State.setIbufByte (s : State) (i : Nat) (b : Byte) : State := { s with ibuf := s.ibuf.set i b }

/-- `OBUF[i] <- b` (R85, R92). -/
def State.setObufByte (s : State) (i : Nat) (b : Byte) : State := { s with obuf := s.obuf.set i b }

/-- The input `IBUF[0..ILEN-1]` in index order, as FCOUNT and HSYMS scan it (R92). -/
def State.input (s : State) : List Byte := (List.range s.ilen.toNat).map s.ibufByte

/-! ### Tables -/

/-- A symbol's table index is below 256. -/
theorem symbol_lt (c : Byte) : c.toNat < 256 := c.isLt

/-- `FREQ[c]` (R55). -/
def State.freqOf (s : State) (c : Byte) : Word := s.freq[c.toNat]'(symbol_lt c)

/-- `LEN[c]` (R56). -/
def State.lenOf (s : State) (c : Byte) : BitVec 7 := s.len[c.toNat]'(symbol_lt c)

/-- `CODE[c]` (R57). -/
def State.codeOf (s : State) (c : Byte) : BitVec 64 := s.code[c.toNat]'(symbol_lt c)

/-- `NODE[i]` (R59). -/
def State.nodeAt (s : State) (i : Fin 511) : Node := s.node[i.val]'i.isLt

/-- `NODE[i] <- n` (R59). -/
def State.setNode (s : State) (i : Fin 511) (n : Node) : State :=
  { s with node := s.node.set i.val n i.isLt }

/-- The byte values 0 to 255 in ascending order. -/
def symbols : List Byte := (List.range 256).map (BitVec.ofNat 8)

/-! ### Errors and completion -/

/-- The errors a command or a host write can raise (60_exceptions.md R301). -/
inductive ErrKind where
  | illegalCmd
  | cmdWhileBusy
  | writeWhileBusy
  | obufOverflow
  | countOverflow
  | noTrie
  | noCode
  | codeTooLong
  | malformedStream
  | badCode
  deriving DecidableEq, Repr

/-- The code of R301 that ERRCODE.CODE holds. -/
def errCodeOf : ErrKind → Byte
  | .illegalCmd => 0x01
  | .cmdWhileBusy => 0x02
  | .writeWhileBusy => 0x03
  | .obufOverflow => 0x04
  | .countOverflow => 0x05
  | .noTrie => 0x06
  | .noCode => 0x07
  | .codeTooLong => 0x08
  | .malformedStream => 0x09
  | .badCode => 0x0A

/-- How a part of a command's body ends: with a value, or with `raise e`. Both carry the state reached, since an
error takes nothing back (00_scope.md R21, 60_exceptions.md R311). -/
inductive Res (α : Type) where
  | ok (a : α) (s : State)
  | raised (e : ErrKind) (s : State)

/-- Sequence: what follows a `raise` does not run (R300). -/
def Res.bind {α β : Type} (r : Res α) (k : α → State → Res β) : Res β :=
  match r with
  | .ok a s => k a s
  | .raised e s => .raised e s

/-- The state a body reached. -/
def Res.state {α : Type} : Res α → State
  | .ok _ s => s
  | .raised _ s => s

/-- The error a body raised, if any. -/
def Res.error? {α : Type} : Res α → Option ErrKind
  | .ok _ _ => none
  | .raised e _ => some e

/-- Error entry, `record(e, op)` (R310): the first error is kept, every error sets ERRI. -/
def record (e : ErrKind) (op : Byte) (s : State) : State :=
  if s.err then { s with irqErri := true }
  else { s with err := true, errCode := errCodeOf e, errOp := op, irqErri := true }

/-- Return from an error, the effect of CLRERR (R147, R314): ERR and ERRCODE are cleared, all else stays. -/
def clearError (s : State) : State := { s with err := false, errCode := 0, errOp := 0 }

/-- The completion effects common to every command (R141). -/
def finish (s : State) : State := { s with cmdcnt := s.cmdcnt + 1, irqDone := true, busy := false }

/-- Completion of a command whose body ended with `r` (R141): an error is recorded under the launched word's opcode. -/
def complete (r : Res Unit) : State :=
  match r with
  | .ok _ s => finish s
  | .raised e s => finish (record e (fieldOp s.pending) s)

/-- What `exec` answers for a body: the state after completion. -/
def completed (r : Res Unit) : Host.Outcome State Fault Refusal := .next (complete r)

/-! ### Reset values (70_reset_and_hazards.md R341) -/

/-- Every register, field and table at its reset value, except CTRL and the buffers (R148, R341). PENDING, the pin, the
instance's sizes and the model's own fields are not among those the rule sets (log 7). -/
def resetEngine (s : State) : State :=
  { s with
    arg := 0, result := 0, busy := false, err := false, eoi := false, tvalid := false, errCode := 0, errOp := 0,
    irqDone := false, irqErri := false, cmdcnt := 0, ilen := 0, iptr := 0, racc := 0, rcnt := 0, optr := 0,
    wacc := 0, wcnt := 0, freq := Vector.replicate 256 0, total := 0, len := Vector.replicate 256 0,
    code := Vector.replicate 256 0, node := Vector.replicate 511 Node.zero, root := 0, nodes := 0, hrem := 0,
    enext := 257, dnext := 257, dfirst := true }

/-- Hardware reset's values: those of SRESET and CTRL at 0 (R340, R341). -/
def resetAll (s : State) : State := { resetEngine s with doneIe := false, errIe := false }

end Sys2Proof.Machine
end

