-- ==== Sys2Proof/Machine/Operands.lean ====
section
/-! DEFINITION. The operand forms of commands (30_encoding.md R113) and the packing of register and result values:
field layouts of 10_state.md and of the RESULT words of 43_lzw.md R203, R205 and 45_huffman_build.md R249. -/

namespace Sys2Proof.Machine

/-! ### Operands (R113): all unsigned, zero-extended, none scaled -/

/-- BIT: the bit to write. -/
def bitOperand (b : Bool) : Bool := b

/-- W: the width in bits. -/
def widthOperand (n : Byte) : Nat := n.toNat

/-- The value operand of WBITS and FWR: ARG (R33). -/
def argOperand (s : State) : Word := s.arg

/-- X: the arena index 0 to 4095. -/
def indexOperand (i : BitVec 12) : Nat := i.toNat

/-- L: the codeword 0 to 4095. -/
def codeOperand (c : BitVec 12) : Nat := c.toNat

/-! ### Values as the 64-bit argument of `write_bits` -/

/-- A 32-bit value, zero-extended. -/
def wideOfWord (v : Word) : BitVec 64 := v.setWidth 64
/-- A byte, zero-extended. -/
def wideOfByte (v : Byte) : BitVec 64 := v.setWidth 64
/-- A 12-bit codeword, zero-extended. -/
def wideOfCode (v : BitVec 12) : BitVec 64 := v.setWidth 64

/-! ### RESULT words -/

/-- LEMIT's RESULT when an entry is created: `0x8000_0000 | ENEXT` (R203). -/
def lemitResult (enext : BitVec 13) : Word := 0x80000000 ||| enext.setWidth 32

/-- LREAD's RESULT for the EOF codeword: `0x0000_2000 | c` (R205). -/
def lreadEofResult (c : BitVec 12) : Word := 0x2000 ||| c.setWidth 32

/-- LREAD's RESULT `c | cls << 12`, with ADDED and the created index when there is one (R205). -/
def lreadResult (c : BitVec 12) (self : Bool) (added : Option (BitVec 13)) : Word :=
  let r : Word := c.setWidth 32 ||| ((BitVec.ofBool self).setWidth 32 <<< 12)
  match added with
  | none => r
  | some d => r ||| (1 <<< 15) ||| (d.setWidth 32 <<< 16)

/-- HNODE's RESULT for a node below NODES (R249). -/
def hnodeResult (n : Node) : Word :=
  if n.leaf then 0xC0000000 ||| n.sym.setWidth 32
  else 0x80000000 ||| (BitVec.ofNat 32 n.right.val <<< 16) ||| BitVec.ofNat 32 n.left.val

end Sys2Proof.Machine
end

