-- ==== Sys2Proof/Machine/Flags.lean ====
section
/-! DEFINITION. Flags (10_state.md R63) and the registers as the host reads them: the words that STATUS, ERRCODE, CTRL,
IRQSTAT, RSTATE, WSTATE, HTREE, LZWE and LZWD pack, the write-one-to-clear of IRQSTAT, and the `irq` output. -/

namespace Sys2Proof.Machine

/-- One bit at position `n` of a word. -/
def bitAt (b : Bool) (n : Nat) : Word := (BitVec.ofBool b).setWidth 32 <<< n

/-- EOI <- 1 (R36, 42_bitreader.md R181). -/
def setEoi (s : State) : State := { s with eoi := true }

/-- STATUS (R35). -/
def statusWord (s : State) : Word := bitAt s.busy 0 ||| bitAt s.err 1 ||| bitAt s.eoi 2 ||| bitAt s.tvalid 3

/-- ERRCODE (R37). -/
def errcodeWord (s : State) : Word := s.errCode.setWidth 32 ||| (s.errOp.setWidth 32 <<< 8)

/-- CTRL (R38). -/
def ctrlWord (s : State) : Word := bitAt s.doneIe 0 ||| bitAt s.errIe 1

/-- IRQSTAT (R39). -/
def irqstatWord (s : State) : Word := bitAt s.irqDone 0 ||| bitAt s.irqErri 1

/-- RSTATE (R42). -/
def rstateWord (s : State) : Word := s.racc.setWidth 32 ||| (BitVec.ofNat 32 s.rcnt.val <<< 8)

/-- WSTATE (R44). -/
def wstateWord (s : State) : Word := s.wacc.setWidth 32 ||| (BitVec.ofNat 32 s.wcnt.val <<< 8)

/-- HTREE (R46). -/
def htreeWord (s : State) : Word := BitVec.ofNat 32 s.root.val ||| (BitVec.ofNat 32 s.nodes.val <<< 16)

/-- LZWE (R48). -/
def lzweWord (s : State) : Word := s.enext.setWidth 32

/-- LZWD (R49). -/
def lzwdWord (s : State) : Word := s.dnext.setWidth 32 ||| bitAt s.dfirst 16

/-- A host write of CTRL: bits 0 and 1 are stored, the rest ignored (R38). -/
def writeCtrl (v : Word) (s : State) : State := { s with doneIe := v.getLsbD 0, errIe := v.getLsbD 1 }

/-- A host write of IRQSTAT: a 1 clears its bit, a 0 leaves it (R39, 60_exceptions.md R322; log 11). -/
def writeIrqstat (v : Word) (s : State) : State :=
  { s with irqDone := s.irqDone && !v.getLsbD 0, irqErri := s.irqErri && !v.getLsbD 1 }

/-- The interrupt output (R320). -/
def State.irq (s : State) : Bool := (s.doneIe && s.irqDone) || (s.errIe && s.irqErri)

end Sys2Proof.Machine
end

