-- ==== Sys2Proof/Machine/Bus.lean ====
section
/-! DEFINITION. The host bus (20_memory.md): the address map, the 21 registers (10_state.md R54), `HostRead` and
`HostWrite`, the launch of a command (40_control.md R140, R142, R143) and the checked writes (R149). -/

namespace Sys2Proof.Machine

/-- The registers of the register block (R54). -/
inductive Reg where
  | id | cmd | arg | result | status | errcode | ctrl | irqstat | ilen | iptr | rstate | optr | wstate | total
  | htree | hrem | lzwe | lzwd | cmdcnt | ibufsz | obufsz
  deriving DecidableEq, Repr

/-- The register at a byte offset of the register block (R54); none in the holes (R50). -/
def regAt (offset : Nat) : Option Reg :=
  match offset with
  | 0x000 => some .id
  | 0x004 => some .cmd
  | 0x008 => some .arg
  | 0x00C => some .result
  | 0x010 => some .status
  | 0x014 => some .errcode
  | 0x018 => some .ctrl
  | 0x01C => some .irqstat
  | 0x020 => some .ilen
  | 0x024 => some .iptr
  | 0x028 => some .rstate
  | 0x02C => some .optr
  | 0x030 => some .wstate
  | 0x034 => some .total
  | 0x038 => some .htree
  | 0x03C => some .hrem
  | 0x040 => some .lzwe
  | 0x044 => some .lzwd
  | 0x048 => some .cmdcnt
  | 0x04C => some .ibufsz
  | 0x050 => some .obufsz
  | _ => none

/-- What a bus address names: a register, word `k` of a buffer, or nothing (R81, R83 to R86). -/
inductive Target where
  | reg (r : Reg)
  | ibufWord (k : Nat)
  | obufWord (k : Nat)
  | nothing
  deriving DecidableEq, Repr

/-- First byte of the IBUF window (R81). -/
def ibufBase : Nat := 0x1000000
/-- First byte of the OBUF window (R81). -/
def obufBase : Nat := 0x2000000
/-- Size of each window, 16 MiB (R81). -/
def windowSize : Nat := 0x1000000

/-- The address map (R81), on the aligned word of the address: bits 1:0 are ignored (R82). A window word beyond its buffer
names nothing, as a hole does (R83, R86; log 17). -/
def target (s : State) (addr : BitVec 26) : Target :=
  let a := addr.toNat / 4 * 4
  if a < 0x1000 then
    match regAt a with
    | some r => .reg r
    | none => .nothing
  else if ibufBase ≤ a ∧ a < ibufBase + windowSize then
    if (a - ibufBase) / 4 < s.ibufSize / 4 then .ibufWord ((a - ibufBase) / 4) else .nothing
  else if obufBase ≤ a ∧ a < obufBase + windowSize then
    if (a - obufBase) / 4 < s.obufSize / 4 then .obufWord ((a - obufBase) / 4) else .nothing
  else .nothing

/-! ### Reads -/

/-- The value of a register (R31 to R53, R91); CMD reads 0 (R32). -/
def regValue (s : State) : Reg → Word
  | .id => Config.idValue
  | .cmd => 0
  | .arg => s.arg
  | .result => s.result
  | .status => statusWord s
  | .errcode => errcodeWord s
  | .ctrl => ctrlWord s
  | .irqstat => irqstatWord s
  | .ilen => s.ilen
  | .iptr => s.iptr
  | .rstate => rstateWord s
  | .optr => s.optr
  | .wstate => wstateWord s
  | .total => s.total
  | .htree => htreeWord s
  | .hrem => s.hrem
  | .lzwe => lzweWord s
  | .lzwd => lzwdWord s
  | .cmdcnt => s.cmdcnt
  | .ibufsz => BitVec.ofNat 32 s.ibufSize
  | .obufsz => BitVec.ofNat 32 s.obufSize

/-- Word `k` of a buffer, little-endian (R84, R85, R90). -/
def bufferWord (byteAt : Nat → Byte) (k : Nat) : Word :=
  byteAt (4 * k + 3) ++ byteAt (4 * k + 2) ++ byteAt (4 * k + 1) ++ byteAt (4 * k)

/-- The registers whose read is specified while BUSY = 1, beside STATUS.BUSY (R97). -/
def readableWhileBusy : Reg → Bool
  | .id | .ctrl | .irqstat | .ibufsz | .obufsz => true
  | _ => false

/-- The bus answers a read with `v`. -/
def answer (v : Word) (s : State) : State := { s with hostData := v }

/-- The bus answers a read with a free value, which is drawn. -/
def answerDrawn (v : Word) (s : State) : State := { s with hostData := v, draws := s.draws + 1 }

/-- A read while BUSY = 0: the value of the register or buffer word, 0 where there is nothing (R83 to R85). -/
def readIdle (t : Target) (s : State) : State :=
  match t with
  | .reg r => answer (regValue s r) s
  | .ibufWord k => answer (bufferWord s.ibufByte k) s
  | .obufWord k => answer (bufferWord s.obufByte k) s
  | .nothing => answer 0 s

/-- A read while BUSY = 1 (R97, R35): only the registers of `readableWhileBusy`, STATUS.BUSY, STATUS's reserved bits and
the holes have their values; every other bit is drawn (log 4). -/
def readBusy (t : Target) (s : State) : State :=
  match t with
  | .reg .status => answerDrawn (1 ||| (Config.busyRead s.draws &&& 0xE)) s
  | .reg r => if readableWhileBusy r then answer (regValue s r) s else answerDrawn (Config.busyRead s.draws) s
  | .ibufWord _ => answerDrawn (Config.busyRead s.draws) s
  | .obufWord _ => answerDrawn (Config.busyRead s.draws) s
  | .nothing => answer 0 s

/-- A read while `rst_n` is 0 (R340): a register's reset value, unspecified bytes of a buffer word (log 9). -/
def readInReset (t : Target) (s : State) : State :=
  match t with
  | .reg r => answer (regValue (resetAll s) r) s
  | .ibufWord _ => answerDrawn (Config.resetRead s.draws) s
  | .obufWord _ => answerDrawn (Config.resetRead s.draws) s
  | .nothing => answer 0 s

/-- `HostRead(addr)`: the data goes to `hostData`; nothing else of the machine changes (R93). -/
def hostRead (addr : BitVec 26) (s : State) : State :=
  if s.rstN then (if s.busy then readBusy (target s addr) s else readIdle (target s addr) s)
  else readInReset (target s addr) s

/-! ### Writes -/

/-- The exact words that are accepted while ERR = 1: CLRERR and SRESET (R140, R143). -/
def recoveryWord (w : Word) : Bool := decide (w = 0x00000001) || decide (w = 0x00000002)

/-- A write of CMD: launch (R140), CMD_WHILE_BUSY (R142), or a silent drop (R143). -/
def writeCmd (w : Word) (s : State) : State :=
  if s.busy then record .cmdWhileBusy (fieldOp w) s
  else if s.err && !recoveryWord w then s
  else { s with pending := w, busy := true }

/-- A write that is checked against BUSY: dropped with WRITE_WHILE_BUSY while a command runs (R149). -/
def checkedWrite (store : State → State) (s : State) : State :=
  if s.busy then record .writeWhileBusy (fieldOp s.pending) s else store s

/-- ILEN is WARL: `min(v, IBUF_SIZE)` (R40). -/
def storeIlen (v : Word) (s : State) : State := { s with ilen := BitVec.ofNat 32 (min v.toNat s.ibufSize) }

/-- The four byte stores of a buffer word, lowest index from bits 7:0 (R84, R85). -/
def storeWord (setByte : Nat → Byte → State → State) (k : Nat) (v : Word) (s : State) : State :=
  setByte (4 * k + 3) (v.extractLsb' 24 8) (setByte (4 * k + 2) (v.extractLsb' 16 8)
    (setByte (4 * k + 1) (v.extractLsb' 8 8) (setByte (4 * k) (v.extractLsb' 0 8) s)))

/-- A write of a register; read-only registers ignore it (R51). -/
def writeReg (r : Reg) (v : Word) (s : State) : State :=
  match r with
  | .cmd => writeCmd v s
  | .arg => checkedWrite (fun s => { s with arg := v }) s
  | .ctrl => writeCtrl v s
  | .irqstat => writeIrqstat v s
  | .ilen => checkedWrite (storeIlen v) s
  | .id | .result | .status | .errcode | .iptr | .rstate | .optr | .wstate | .total | .htree | .hrem | .lzwe | .lzwd
  | .cmdcnt | .ibufsz | .obufsz => s

/-- `HostWrite(addr, v)` (R83 to R85, R93); ignored while `rst_n` is 0 (R340). -/
def hostWrite (addr : BitVec 26) (v : Word) (s : State) : State :=
  if s.rstN then
    match target s addr with
    | .reg r => writeReg r v s
    | .ibufWord k => checkedWrite (storeWord (fun i b s => s.setIbufByte i b) k v) s
    | .obufWord k => checkedWrite (storeWord (fun i b s => s.setObufByte i b) k v) s
    | .nothing => s
  else s

end Sys2Proof.Machine
end

