-- ==== Sys2Proof/Machine/Control.lean ====
section
/-! DEFINITION. The control commands NOP, CLRERR and SRESET (40_control.md R146 to R148) and the execution of an illegal
word (R144). -/

namespace Sys2Proof.Machine

/-- An illegal word: ILLEGAL_CMD and no other effect but completion (R144, 30_encoding.md R116). -/
def execIllegal (s : State) : Host.Outcome State Fault Refusal := completed (.raised .illegalCmd s)

/-- NOP (R146). -/
def execNop (s : State) : Host.Outcome State Fault Refusal := completed (.ok () s)

/-- CLRERR (R147): the return from an error. -/
def execClrerr (s : State) : Host.Outcome State Fault Refusal := completed (.ok () (clearError s))

/-- SRESET (R148): reset values everywhere but in CTRL and the buffers, then completion. -/
def execSreset (s : State) : Host.Outcome State Fault Refusal := completed (.ok () (resetEngine s))

end Sys2Proof.Machine
end

