-- ==== Sys2Proof/Machine/BitWriter.lean ====
section
/-! DEFINITION. The bit writer (41_bitwriter.md): the primitives write_bit, write_bits and flush, and WINIT, WBIT, WBITS,
WFLUSH. -/

namespace Sys2Proof.Machine

/-! ### Primitives -/

/-- Emit byte `b` at OBUF[OPTR] and empty the accumulator. -/
def emitByte (b : Byte) (s : State) : State :=
  { s.setObufByte s.optr.toNat b with optr := s.optr + 1, wacc := 0, wcnt := 0 }

/-- `write_bit(b)` (R161). -/
def writeBit (b : Bool) (s : State) : Res Unit :=
  let acc : Byte := (s.wacc <<< 1) ||| (BitVec.ofBool b).setWidth 8
  if h : s.wcnt.val = 7 then
    if s.optr.toNat = s.obufSize then .raised .obufOverflow s
    else .ok () (emitByte acc s)
  else .ok () { s with wacc := acc, wcnt := ⟨s.wcnt.val + 1, by omega⟩ }

/-- `write_bits(v, n)` (R162, for widths up to 64 by 46_huffman_encode.md R263): bits `n-1` down to 0. -/
def writeBits (v : BitVec 64) : Nat → State → Res Unit
  | 0, s => .ok () s
  | n + 1, s => (writeBit (v.getLsbD n) s).bind fun _ s => writeBits v n s

/-- `flush()` (R163). -/
def flush (s : State) : Res Unit :=
  if s.wcnt.val = 0 then .ok () s
  else if s.optr.toNat = s.obufSize then .raised .obufOverflow s
  else .ok () (emitByte (s.wacc <<< (8 - s.wcnt.val)) s)

/-! ### Bodies -/

/-- WINIT's body (R164). -/
def winit (s : State) : Res Unit := .ok () { s with optr := 0, wacc := 0, wcnt := 0 }

/-- WBITS's body (R166): the low `n` bits of ARG; a width above 32 is ILLEGAL_CMD. -/
def wbits (n : Byte) (s : State) : Res Unit :=
  if widthOk n then writeBits (wideOfWord (argOperand s)) (widthOperand n) s else .raised .illegalCmd s

/-! ### Commands -/

/-- WINIT (R164). -/
def execWinit (s : State) : Host.Outcome State Fault Refusal := completed (winit s)

/-- WBIT (R165). -/
def execWbit (b : Bool) (s : State) : Host.Outcome State Fault Refusal := completed (writeBit (bitOperand b) s)

/-- WBITS (R166). -/
def execWbits (n : Byte) (s : State) : Host.Outcome State Fault Refusal := completed (wbits n s)

/-- WFLUSH (R167). -/
def execWflush (s : State) : Host.Outcome State Fault Refusal := completed (flush s)

end Sys2Proof.Machine
end

