-- ==== Sys2Proof/Machine/BitReader.lean ====
section
/-! DEFINITION. The bit reader (42_bitreader.md): the primitives read_bit, read_bits, dec_bit and dec_bits, and RINIT, RBIT,
RBITS. -/

namespace Sys2Proof.Machine

/-! ### Primitives -/

/-- The refill of `read_bit` (R181): when no bit is left, load the next byte; none at the end of the source. -/
def refill (s : State) : Option State :=
  if s.rcnt.val = 0 then
    if s.iptr < s.ilen then
      some { s with racc := s.ibufByte s.iptr.toNat, iptr := s.iptr + 1, rcnt := 8 }
    else none
  else some s

/-- Take the next bit of RACC: `RCNT <- RCNT - 1; return RACC[RCNT]` (R181). -/
def takeBit (s : State) : Bool × State :=
  (s.racc.getLsbD (s.rcnt.val - 1), { s with rcnt := ⟨s.rcnt.val - 1, by omega⟩ })

/-- `read_bit()` (R181): past the end it sets EOI, returns 0 and changes nothing else. -/
def readBit (s : State) : Bool × State :=
  match refill s with
  | none => (false, setEoi s)
  | some t => takeBit t

/-- The loop of `read_bits` (R182): `k` more bits into the value `v`. -/
def readBitsFrom : Nat → Word → State → Word × State
  | 0, v, s => (v, s)
  | k + 1, v, s =>
    let r := readBit s
    readBitsFrom k ((v <<< 1) ||| (BitVec.ofBool r.1).setWidth 32) r.2

/-- `read_bits(n)` (R182). -/
def readBits (n : Nat) (s : State) : Word × State := readBitsFrom n 0 s

/-- `dec_bit()` (R183): end of input is MALFORMED_STREAM. -/
def decBit (s : State) : Res Bool :=
  let r := readBit s
  if r.2.eoi then .raised .malformedStream r.2 else .ok r.1 r.2

/-- The loop of `dec_bits` (R183). -/
def decBitsFrom : Nat → Word → State → Res Word
  | 0, v, s => .ok v s
  | k + 1, v, s =>
    (decBit s).bind fun b s => decBitsFrom k ((v <<< 1) ||| (BitVec.ofBool b).setWidth 32) s

/-- `dec_bits(n)` (R183), for `n` up to 32. -/
def decBits (n : Nat) (s : State) : Res Word := decBitsFrom n 0 s

/-! ### Bodies -/

/-- RINIT's body (R184). -/
def rinit (s : State) : Res Unit := .ok () { s with iptr := 0, racc := 0, rcnt := 0, eoi := false }

/-- RBIT's body (R185). -/
def rbit (s : State) : Res Unit :=
  let r := readBit s
  .ok () { r.2 with result := (BitVec.ofBool r.1).setWidth 32 }

/-- RBITS's body (R186); a width above 32 is ILLEGAL_CMD. -/
def rbits (n : Byte) (s : State) : Res Unit :=
  if widthOk n then
    let r := readBits (widthOperand n) s
    .ok () { r.2 with result := r.1 }
  else .raised .illegalCmd s

/-! ### Commands -/

/-- RINIT (R184). -/
def execRinit (s : State) : Host.Outcome State Fault Refusal := completed (rinit s)

/-- RBIT (R185). -/
def execRbit (s : State) : Host.Outcome State Fault Refusal := completed (rbit s)

/-- RBITS (R186). -/
def execRbits (n : Byte) (s : State) : Host.Outcome State Fault Refusal := completed (rbits n s)

end Sys2Proof.Machine
end

