-- ==== Sys2Proof/Machine/Lzw.lean ====
section
/-! DEFINITION. The LZW code emitter and codeword classifier (43_lzw.md): LINIT, LEMIT, LEOF, LREAD. -/

namespace Sys2Proof.Machine

/-! ### Bodies -/

/-- LINIT's body (R201). -/
def linit (s : State) : Res Unit := .ok () { s with enext := 257, dnext := 257, dfirst := true }

/-- The code assignment that ends LEMIT (R203): a new entry when asked for and while capacity remains. -/
def assignCode (g : Bool) (s : State) : State :=
  if g = true ∧ s.enext.toNat < Config.lzwCap then
    { s with result := lemitResult s.enext, enext := s.enext + 1 }
  else { s with result := 0 }

/-- LEMIT's body (R203). -/
def lemit (c : BitVec 12) (g : Bool) (s : State) : Res Unit :=
  if codeOperand c = Config.lzwEof ∨ s.enext.toNat ≤ codeOperand c then .raised .badCode s
  else (writeBits (wideOfCode c) Config.lzwWidth s).bind fun _ s => .ok () (assignCode g s)

/-- LEOF's body (R204). -/
def leof (s : State) : Res Unit := writeBits (wideOfWord (BitVec.ofNat 32 Config.lzwEof)) Config.lzwWidth s

/-- The entry that a codeword after the first creates while capacity remains, and RESULT (R205). -/
def appendEntry (c : BitVec 12) (self : Bool) (s : State) : State :=
  if s.dnext.toNat < Config.lzwCap then
    { s with result := lreadResult c self (some s.dnext), dnext := s.dnext + 1 }
  else { s with result := lreadResult c self none }

/-- The classification of a codeword that has been read (R205). -/
def classify (c : BitVec 12) (s : State) : Res Unit :=
  if c.toNat = Config.lzwEof then .ok () { s with result := lreadEofResult c }
  else if s.dfirst then
    if Config.lzwFirst ≤ c.toNat then .raised .malformedStream s
    else .ok () { s with dfirst := false, result := lreadResult c false none }
  else if c.toNat < s.dnext.toNat then .ok () (appendEntry c false s)
  else if c.toNat = s.dnext.toNat then .ok () (appendEntry c true s)
  else .raised .malformedStream s

/-- LREAD's body (R205). -/
def lread (s : State) : Res Unit :=
  (decBits Config.lzwWidth s).bind fun v s => classify (v.setWidth 12) s

/-! ### Commands -/

/-- LINIT (R201). -/
def execLinit (s : State) : Host.Outcome State Fault Refusal := completed (linit s)

/-- LEMIT (R203). -/
def execLemit (c : BitVec 12) (g : Bool) (s : State) : Host.Outcome State Fault Refusal := completed (lemit c g s)

/-- LEOF (R204). -/
def execLeof (s : State) : Host.Outcome State Fault Refusal := completed (leof s)

/-- LREAD (R205). -/
def execLread (s : State) : Host.Outcome State Fault Refusal := completed (lread s)

end Sys2Proof.Machine
end

