-- ==== Sys2Proof/Machine/Frequency.lean ====
section
/-! DEFINITION. The frequency counter (44_frequency.md): FCLR, FCOUNT, FRD, FWR. -/

namespace Sys2Proof.Machine

/-- `FREQ[c] <- FREQ[c] + 1` (R222). -/
def bump (freq : Vector Word 256) (c : Byte) : Vector Word 256 :=
  freq.set c.toNat (freq[c.toNat]'(symbol_lt c) + 1) (symbol_lt c)

/-- The counting loop of FCOUNT over the input's bytes (R222). -/
def countAll (freq : Vector Word 256) (input : List Byte) : Vector Word 256 := input.foldl bump freq

/-! ### Bodies -/

/-- FCLR's body (R221). -/
def fclr (s : State) : Res Unit := .ok () { s with freq := Vector.replicate 256 0, total := 0 }

/-- FCOUNT's body (R222): the check is made before any counter changes. -/
def fcount (s : State) : Res Unit :=
  if 2 ^ 32 - 1 < s.total.toNat + s.ilen.toNat then .raised .countOverflow s
  else .ok () { s with freq := countAll s.freq s.input, total := s.total + s.ilen }

/-- The exact new total of FWR, `TOTAL - FREQ[c] + ARG` (R224). -/
def newTotal (c : Byte) (s : State) : Int := (s.total.toNat : Int) - (s.freqOf c).toNat + (argOperand s).toNat

/-- FWR's body (R224). -/
def fwr (c : Byte) (s : State) : Res Unit :=
  if 2 ^ 32 - 1 < newTotal c s then .raised .countOverflow s
  else .ok () { s with freq := s.freq.set c.toNat (argOperand s) (symbol_lt c), total := BitVec.ofInt 32 (newTotal c s) }

/-- FRD's body (R223). -/
def frd (c : Byte) (s : State) : Res Unit := .ok () { s with result := s.freqOf c }

/-! ### Commands -/

/-- FCLR (R221). -/
def execFclr (s : State) : Host.Outcome State Fault Refusal := completed (fclr s)

/-- FCOUNT (R222). -/
def execFcount (s : State) : Host.Outcome State Fault Refusal := completed (fcount s)

/-- FRD (R223). -/
def execFrd (c : Byte) (s : State) : Host.Outcome State Fault Refusal := completed (frd c s)

/-- FWR (R224). -/
def execFwr (c : Byte) (s : State) : Host.Outcome State Fault Refusal := completed (fwr c s)

end Sys2Proof.Machine
end

