-- ==== Sys2Proof/Machine/HuffmanBuild.lean ====
section
/-! DEFINITION. The Huffman trie builder and code table (45_huffman_build.md): HBUILD, HLEN, HCODELO, HCODEHI, HNODE,
HNODEF. -/

namespace Sys2Proof.Machine

/-! ### Leaves (R241) -/

/-- A leaf of symbol `c` with frequency `f`. -/
def leafNode (c : Byte) (f : Word) : Node := { leaf := true, sym := c, left := 0, right := 0, f := f }

/-- The symbols that occur, in ascending order. -/
def occurring (freq : Vector Word 256) : List Byte := symbols.filter fun c => freq[c.toNat]'(symbol_lt c) ≠ 0

/-- The symbols of the dummy leaves: the smallest that do not occur, until there are two leaves. -/
def dummies (freq : Vector Word 256) : List Byte :=
  (symbols.filter fun c => freq[c.toNat]'(symbol_lt c) = 0).take (2 - (occurring freq).length)

/-- The leaves in arena order. -/
def leaves (freq : Vector Word 256) : List Node :=
  (occurring freq).map (fun c => leafNode c (freq[c.toNat]'(symbol_lt c))) ++ (dummies freq).map fun c => leafNode c 0

/-! ### Merging (R242) -/

/-- An element of the queue: a node's frequency and its arena index, which is its sequence number. -/
abbrev QueueItem := Word × Nat

/-- The queue's order: least frequency first, then least index. -/
def queueLt (a b : QueueItem) : Bool := decide (a.1 < b.1) || (decide (a.1 = b.1) && decide (a.2 < b.2))

/-- The least element of the queue and the queue without it. -/
def extractLeast : List QueueItem → Option (QueueItem × List QueueItem)
  | [] => none
  | a :: q =>
    match extractLeast q with
    | none => some (a, [])
    | some (m, r) => if queueLt a m then some (a, q) else some (m, a :: r)

/-- An internal node over the arena indices `x` and `y`; both are below 511 (log 13). -/
def internalNode (x y : Nat) (f : Word) : Node :=
  { leaf := false, sym := 0, left := Fin.ofNat 511 x, right := Fin.ofNat 511 y, f := f }

/-- The merging loop on the queue `q` and the arena entries `ns` made so far, run at most `k` times (R242). The first
node extracted becomes the left child. -/
def mergeLoop : Nat → List QueueItem → List Node → List Node
  | 0, _, ns => ns
  | k + 1, q, ns =>
    match extractLeast q with
    | none => ns
    | some (x, q1) =>
      match extractLeast q1 with
      | none => ns
      | some (y, q2) =>
        mergeLoop k (q2 ++ [(x.1 + y.1, ns.length)]) (ns ++ [internalNode x.2 y.2 (x.1 + y.1)])

/-- The queue that holds every leaf under its arena index. -/
def initialQueue (ns : List Node) : List QueueItem := (ns.map Node.f).zip (List.range ns.length)

/-- All arena entries of the trie built from `freq`, in arena order; the last one is the root (R241, R242). -/
def buildNodes (freq : Vector Word 256) : List Node :=
  mergeLoop (leaves freq).length (initialQueue (leaves freq)) (leaves freq)

/-- Write arena entries from index `i` on; the entries above keep their stale contents (R60). -/
def storeNodes : Vector Node 511 → Nat → List Node → Vector Node 511
  | a, _, [] => a
  | a, i, n :: ns => storeNodes (a.setIfInBounds i n) (i + 1) ns

/-! ### Code table (R243) -/

/-- The code table under construction and the flag `too_long`. -/
structure CodeTable where
  /-- LEN. -/
  len : Vector (BitVec 7) 256
  /-- CODE. -/
  code : Vector (BitVec 64) 256
  /-- Some leaf is deeper than 64. -/
  tooLong : Bool
  deriving DecidableEq, Repr

/-- LEN and CODE all 0. -/
def emptyTable : CodeTable :=
  { len := Vector.replicate 256 0, code := Vector.replicate 256 0, tooLong := false }

/-- A leaf at depth `d` on path `p` (R243). -/
def enterLeaf (c : Byte) (d p : Nat) (t : CodeTable) : CodeTable :=
  if Config.maxCodeLen < d then { t with tooLong := true }
  else { t with len := t.len.set c.toNat (BitVec.ofNat 7 d) (symbol_lt c),
                code := t.code.set c.toNat (BitVec.ofNat 64 p) (symbol_lt c) }

/-- `walk(i, d, p)` (R243), at most `k` edges deep (log 12). -/
def walk (arena : Vector Node 511) : Nat → Fin 511 → Nat → Nat → CodeTable → CodeTable
  | 0, _, _, _, t => t
  | k + 1, i, d, p, t =>
    let n := arena[i.val]'i.isLt
    if n.leaf then enterLeaf n.sym d p t
    else walk arena k n.right (d + 1) (2 * p + 1) (walk arena k n.left (d + 1) (2 * p) t)

/-- The code table of the trie at `root`; a trie of 511 nodes is less than 511 edges deep (log 12). -/
def codeTable (arena : Vector Node 511) (root : Fin 511) : CodeTable :=
  walk arena Config.maxNodes root 0 0 emptyTable

/-! ### Bodies -/

/-- HBUILD's arena, ROOT and NODES, with TVALID at 0 (R240 to R242). -/
def buildTrie (s : State) : State :=
  let ns := buildNodes s.freq
  { s with tvalid := false, node := storeNodes s.node 0 ns, root := Fin.ofNat 511 (ns.length - 1),
           nodes := Fin.ofNat 512 ns.length }

/-- HBUILD's body (R245), with the length limit of R244. -/
def hbuild (s : State) : Res Unit :=
  let s1 := buildTrie s
  let t := codeTable s1.node s1.root
  if t.tooLong then
    .raised .codeTooLong { s1 with len := Vector.replicate 256 0, code := Vector.replicate 256 0 }
  else .ok () { s1 with len := t.len, code := t.code, tvalid := true }

/-- HLEN's body (R246). -/
def hlen (c : Byte) (s : State) : Res Unit := .ok () { s with result := (s.lenOf c).setWidth 32 }

/-- HCODELO's body (R247). -/
def hcodelo (c : Byte) (s : State) : Res Unit := .ok () { s with result := (s.codeOf c).extractLsb' 0 32 }

/-- HCODEHI's body (R248). -/
def hcodehi (c : Byte) (s : State) : Res Unit := .ok () { s with result := (s.codeOf c).extractLsb' 32 32 }

/-- The node an index operand names: none at or beyond NODES (R249, R250). -/
def namedNode (i : BitVec 12) (s : State) : Option Node :=
  if indexOperand i < s.nodes.val then some (s.nodeAt (Fin.ofNat 511 (indexOperand i))) else none

/-- HNODE's body (R249). -/
def hnode (i : BitVec 12) (s : State) : Res Unit :=
  .ok () { s with result := match namedNode i s with
                            | none => 0
                            | some n => hnodeResult n }

/-- HNODEF's body (R250). -/
def hnodef (i : BitVec 12) (s : State) : Res Unit :=
  .ok () { s with result := match namedNode i s with
                            | none => 0
                            | some n => n.f }

/-! ### Commands -/

/-- HBUILD (R245). -/
def execHbuild (s : State) : Host.Outcome State Fault Refusal := completed (hbuild s)

/-- HLEN (R246). -/
def execHlen (c : Byte) (s : State) : Host.Outcome State Fault Refusal := completed (hlen c s)

/-- HCODELO (R247). -/
def execHcodelo (c : Byte) (s : State) : Host.Outcome State Fault Refusal := completed (hcodelo c s)

/-- HCODEHI (R248). -/
def execHcodehi (c : Byte) (s : State) : Host.Outcome State Fault Refusal := completed (hcodehi c s)

/-- HNODE (R249). -/
def execHnode (i : BitVec 12) (s : State) : Host.Outcome State Fault Refusal := completed (hnode i s)

/-- HNODEF (R250). -/
def execHnodef (i : BitVec 12) (s : State) : Host.Outcome State Fault Refusal := completed (hnodef i s)

end Sys2Proof.Machine
end

