-- ==== Sys2Proof/Machine/HuffmanEncode.lean ====
section
/-! DEFINITION. The Huffman encoder (46_huffman_encode.md): the primitives ser and emit, and HTRIE, HCOUNTW, HSYM, HSYMS,
HCOMP. -/

namespace Sys2Proof.Machine

/-! ### Primitives -/

/-- `ser(i)` (R260), at most `k` levels deep. -/
def ser : Nat → Fin 511 → State → Res Unit
  | 0, _, s => .raised .obufOverflow s
  | k + 1, i, s =>
    let n := s.nodeAt i
    if n.leaf then
      (writeBit true s).bind fun _ s => writeBits (wideOfByte n.sym) 8 s
    else
      (writeBit false s).bind fun _ s => (ser k n.left s).bind fun _ s => ser k n.right s

/-- More levels than any walk can enter: each level writes a bit before it goes deeper, and fewer than this many bits
fit before OPTR meets OBUF_SIZE, whatever the state (log 12). -/
def serDepth : Nat := 2 ^ 36

/-- `emit(c)` (R263). -/
def emitCode (c : Byte) (s : State) : Res Unit :=
  if s.lenOf c = 0 then .raised .noCode s else writeBits (s.codeOf c) (s.lenOf c).toNat s

/-- The loop of HSYMS over the input's bytes (R265). -/
def emitAll : List Byte → State → Res Unit
  | [], s => .ok () s
  | c :: cs, s => (emitCode c s).bind fun _ s => emitAll cs s

/-- `if TVALID == 0: raise NO_TRIE`, then the rest. -/
def needTrie (body : State → Res Unit) (s : State) : Res Unit :=
  if s.tvalid then body s else .raised .noTrie s

/-! ### Bodies -/

/-- HTRIE's body (R261). -/
def htrie (s : State) : Res Unit := needTrie (fun s => ser serDepth s.root s) s

/-- HCOUNTW's body (R262). -/
def hcountw (s : State) : Res Unit := writeBits (wideOfWord s.ilen) Config.countBits s

/-- HSYM's body (R264). -/
def hsym (c : Byte) (s : State) : Res Unit := needTrie (emitCode c) s

/-- HSYMS's body (R265). -/
def hsyms (s : State) : Res Unit := needTrie (fun s => emitAll s.input s) s

/-- HCOMP's body (R266): the eight bodies in order, stopping at the first error. -/
def hcomp (s : State) : Res Unit :=
  (winit s).bind fun _ s => (fclr s).bind fun _ s => (fcount s).bind fun _ s => (hbuild s).bind fun _ s =>
  (htrie s).bind fun _ s => (hcountw s).bind fun _ s => (hsyms s).bind fun _ s => flush s

/-! ### Commands -/

/-- HTRIE (R261). -/
def execHtrie (s : State) : Host.Outcome State Fault Refusal := completed (htrie s)

/-- HCOUNTW (R262). -/
def execHcountw (s : State) : Host.Outcome State Fault Refusal := completed (hcountw s)

/-- HSYM (R264). -/
def execHsym (c : Byte) (s : State) : Host.Outcome State Fault Refusal := completed (hsym c s)

/-- HSYMS (R265). -/
def execHsyms (s : State) : Host.Outcome State Fault Refusal := completed (hsyms s)

/-- HCOMP (R266). -/
def execHcomp (s : State) : Host.Outcome State Fault Refusal := completed (hcomp s)

end Sys2Proof.Machine
end

