-- ==== Sys2Proof/Machine/HuffmanDecode.lean ====
section
/-! DEFINITION. The Huffman decoder (47_huffman_decode.md): the primitives parse and decode_symbol, and HRTRIE, HRCOUNT,
HDSYM, HDSYMS, HEXP. -/

namespace Sys2Proof.Machine

/-! ### Primitives -/

/-- `parse()` (R281), at most `k` levels deep: the tag is read before the 511-node limit is checked (60_exceptions.md
R312), and a field is written only when its value is known. -/
def parse : Nat → State → Res (Fin 511)
  | 0, s => .raised .malformedStream s
  | k + 1, s =>
    (decBit s).bind fun b s =>
      if h : s.nodes.val = 511 then .raised .malformedStream s
      else
        let i : Fin 511 := ⟨s.nodes.val, by omega⟩
        let s := { s.setNode i { Node.zero with leaf := b } with nodes := ⟨s.nodes.val + 1, by omega⟩ }
        if b then
          (decBits 8 s).bind fun v s => .ok i (s.setNode i { s.nodeAt i with sym := v.setWidth 8 })
        else
          (parse k s).bind fun l s =>
            let s := s.setNode i { s.nodeAt i with left := l }
            (parse k s).bind fun r s => .ok i (s.setNode i { s.nodeAt i with right := r })

/-- More levels than `parse` can enter: each level allocates a node, and there are 511 (47_huffman_decode.md R280; log 12). -/
def parseDepth : Nat := 512

/-- The loop of `decode_symbol` (R283) from node `i`, passing at most `k` internal nodes. -/
def decodeFrom : Nat → Fin 511 → State → Res Byte
  | 0, _, s => .raised .malformedStream s
  | k + 1, i, s =>
    let n := s.nodeAt i
    if n.leaf then .ok n.sym s
    else (decBit s).bind fun b s => decodeFrom k (if b then n.right else n.left) s

/-- More internal nodes than a decode can pass: each consumes a bit of the input, and the input has fewer bits than
this, whatever the state (log 12). -/
def decodeDepth : Nat := 2 ^ 36

/-- `decode_symbol()` (R283). -/
def decodeSymbol (s : State) : Res Byte := decodeFrom decodeDepth s.root s

/-- The loop of HDSYMS for the `n` symbols of HREM (R286). -/
def decodeAll : Nat → State → Res Unit
  | 0, s => .ok () s
  | n + 1, s =>
    (decodeSymbol s).bind fun c s =>
      (writeBits (wideOfByte c) 8 s).bind fun _ s => decodeAll n { s with hrem := s.hrem - 1 }

/-! ### Bodies -/

/-- HRTRIE's body (R282). -/
def hrtrie (s : State) : Res Unit :=
  (parse parseDepth { s with tvalid := false, len := Vector.replicate 256 0, code := Vector.replicate 256 0,
                             nodes := 0, root := 0 }).bind fun _ s => .ok () { s with tvalid := true }

/-- HRCOUNT's body (R284). -/
def hrcount (s : State) : Res Unit := (decBits Config.countBits s).bind fun v s => .ok () { s with hrem := v }

/-- HDSYM's body (R285). -/
def hdsym (s : State) : Res Unit :=
  needTrie (fun s => (decodeSymbol s).bind fun c s => .ok () { s with result := c.setWidth 32 }) s

/-- HDSYMS's body (R286). -/
def hdsyms (s : State) : Res Unit := needTrie (fun s => decodeAll s.hrem.toNat s) s

/-- HEXP's body (R287): the six bodies in order, stopping at the first error. -/
def hexp (s : State) : Res Unit :=
  (rinit s).bind fun _ s => (winit s).bind fun _ s => (hrtrie s).bind fun _ s => (hrcount s).bind fun _ s =>
  (hdsyms s).bind fun _ s => flush s

/-! ### Commands -/

/-- HRTRIE (R282). -/
def execHrtrie (s : State) : Host.Outcome State Fault Refusal := completed (hrtrie s)

/-- HRCOUNT (R284). -/
def execHrcount (s : State) : Host.Outcome State Fault Refusal := completed (hrcount s)

/-- HDSYM (R285). -/
def execHdsym (s : State) : Host.Outcome State Fault Refusal := completed (hdsym s)

/-- HDSYMS (R286). -/
def execHdsyms (s : State) : Host.Outcome State Fault Refusal := completed (hdsyms s)

/-- HEXP (R287). -/
def execHexp (s : State) : Host.Outcome State Fault Refusal := completed (hexp s)

end Sys2Proof.Machine
end

