-- ==== Sys2Proof/Machine/Dispatch.lean ====
section
/-! DEFINITION. One arm per command: `exec` is the whole execution of a legal command, from its body to its completion
(40_control.md R144, R141). -/

namespace Sys2Proof.Machine

-- The meaning of each command (30_encoding.md R114), in the order of the opcode table.
def exec (i : Instr) (s : State) : Host.Outcome State Fault Refusal :=
  match i with
  | .nop => Sys2Proof.Machine.execNop s
  | .clrerr => Sys2Proof.Machine.execClrerr s
  | .sreset => Sys2Proof.Machine.execSreset s
  | .winit => Sys2Proof.Machine.execWinit s
  | .wbit b => Sys2Proof.Machine.execWbit b s
  | .wbits n => Sys2Proof.Machine.execWbits n s
  | .wflush => Sys2Proof.Machine.execWflush s
  | .rinit => Sys2Proof.Machine.execRinit s
  | .rbit => Sys2Proof.Machine.execRbit s
  | .rbits n => Sys2Proof.Machine.execRbits n s
  | .linit => Sys2Proof.Machine.execLinit s
  | .lemit c g => Sys2Proof.Machine.execLemit c g s
  | .leof => Sys2Proof.Machine.execLeof s
  | .lread => Sys2Proof.Machine.execLread s
  | .fclr => Sys2Proof.Machine.execFclr s
  | .fcount => Sys2Proof.Machine.execFcount s
  | .frd sym => Sys2Proof.Machine.execFrd sym s
  | .fwr sym => Sys2Proof.Machine.execFwr sym s
  | .hbuild => Sys2Proof.Machine.execHbuild s
  | .hlen sym => Sys2Proof.Machine.execHlen sym s
  | .hcodelo sym => Sys2Proof.Machine.execHcodelo sym s
  | .hcodehi sym => Sys2Proof.Machine.execHcodehi sym s
  | .hnode idx => Sys2Proof.Machine.execHnode idx s
  | .hnodef idx => Sys2Proof.Machine.execHnodef idx s
  | .htrie => Sys2Proof.Machine.execHtrie s
  | .hcountw => Sys2Proof.Machine.execHcountw s
  | .hsym sym => Sys2Proof.Machine.execHsym sym s
  | .hsyms => Sys2Proof.Machine.execHsyms s
  | .hcomp => Sys2Proof.Machine.execHcomp s
  | .hrtrie => Sys2Proof.Machine.execHrtrie s
  | .hrcount => Sys2Proof.Machine.execHrcount s
  | .hdsym => Sys2Proof.Machine.execHdsym s
  | .hdsyms => Sys2Proof.Machine.execHdsyms s
  | .hexp => Sys2Proof.Machine.execHexp s

end Sys2Proof.Machine
end

