-- ==== Sys2Proof/Machine/Engine.lean ====
section
/-! DEFINITION. The engine's turn (00_scope.md R12, 40_control.md R144): fetch PENDING, decode it, execute it; and hardware
reset, which may abandon a running command (70_reset_and_hazards.md R340). -/

namespace Sys2Proof.Machine

/-- The word the engine executes (R140, R144): commands are not fetched from memory (20_memory.md R100). -/
def fetch (s : State) : Word := s.pending

/-- Execute the launched word and complete it (R144, R141). -/
def engineRun (s : State) : Host.Outcome State Fault Refusal :=
  match decode (fetch s) with
  | .ok i => exec i s
  | .error _ => execIllegal s

/-- The engine's turn: it runs the launched command, if there is one and reset is not asserted. -/
def engineTurn (s : State) : Host.Outcome State Fault Refusal :=
  if s.rstN && s.busy then engineRun s else .next s

/-! ### Reset -/

/-- The OBUF index at which the running command starts to write: the composite commands begin with WINIT (R266, R287). -/
def obufStart (s : State) : Nat :=
  match decode (fetch s) with
  | .ok .hcomp => 0
  | .ok .hexp => 0
  | _ => s.optr.toNat

/-- Copy the OBUF bytes `lo .. lo+n-1` of `t` into `m`, in index order. -/
def copyBytes (t : State) (lo n : Nat) (m : Memory) : Memory :=
  (List.range n).foldl (fun m j => m.set (lo + j) (t.obufByte (lo + j))) m

/-- OBUF after reset has abandoned the running command (93_implementation_defined.md U19): the command writes its OBUF bytes
in ascending index order, and a free number of them had been written (log 8). -/
def abandonedObuf (s : State) : Memory :=
  match engineRun s with
  | .next t => copyBytes t (obufStart s) (min (Config.abandonAfter s.draws) (t.optr.toNat - obufStart s)) s.obuf
  | .fault _ => s.obuf
  | .refused _ => s.obuf

/-- `rst_n` goes to 0 (R340): every register and table takes its reset value; a running command is abandoned with no
completion; the buffers keep their contents but for what an abandoned command had written. -/
def assertReset (s : State) : State :=
  if s.rstN && s.busy then
    { resetAll s with rstN := false, obuf := abandonedObuf s, draws := s.draws + 1 }
  else { resetAll s with rstN := false }

/-- `rst_n` returns to 1 (R340, R343): the engine is idle and accepts the first CMD write. -/
def releaseReset (s : State) : State := { s with rstN := true }

end Sys2Proof.Machine
end

