-- ==== Sys2Proof/Machine/Step.lean ====
section
/-! DEFINITION. One step of the whole machine (00_scope.md R10 to R13): the next host action in order, or the engine's
turn (log 1, log 2). -/

namespace Sys2Proof.Machine

/-- One host action, already taken off `hostq`. -/
def act (a : HostAction) (s : State) : Host.Outcome State Fault Refusal :=
  match a with
  | .read addr => .next (hostRead addr s)
  | .write addr v => .next (hostWrite addr v s)
  | .engine => engineTurn s
  | .resetLow => .next (assertReset s)
  | .resetHigh => .next (releaseReset s)

/-- The step: the oldest host action; with none to come, the engine's turn (weak fairness, R13), in which an idle engine
changes nothing. -/
def step (s : State) : Host.Outcome State Fault Refusal :=
  match s.hostq with
  | [] => engineTurn s
  | a :: q => act a { s with hostq := q }

/-- `s` with the command word `w` launched (PENDING, BUSY; R140), reset released, and the engine's turn next, so that the
very next step executes it (log 15). -/
def State.withFetchWord (s : State) (nbits w : Nat) : State :=
  { s with pending := tableWord nbits w, busy := true, rstN := true, hostq := .engine :: s.hostq }

end Sys2Proof.Machine
end

