-- ==== Sys2Proof/Safety.lean ====
section
/-! DEFINITION. The terms that claims about the machine use: the bits a stream carries, the trie as a tree, which words are
legal, the machine's invariants, and what a host that keeps its obligations does. -/

namespace Sys2Proof.Machine

/-! ### Streams of bits (spec/00_scope.md R23, 20_memory.md R87 to R89) -/

/-- The low `n` bits of `v`, most significant first (R89). -/
def bitsMsb (v : BitVec 64) (n : Nat) : List Bool := (List.range n).map fun j => v.getLsbD (n - 1 - j)

/-- The bits of a byte in stream order: bit 7 first (R87). -/
def byteBits (b : Byte) : List Bool := (List.range 8).map fun j => b.getLsbD (7 - j)

/-- The unsigned number that a bit string spells, first bit most significant (R89). -/
def numOf (bits : List Bool) : Nat := bits.foldl (fun v b => 2 * v + b.toNat) 0

/-- Every bit written since WINIT: the complete bytes OBUF[0..OPTR-1], then the pending bits of WACC (R44, 41_bitwriter.md
R161). -/
def State.written (s : State) : List Bool :=
  (List.range s.optr.toNat).flatMap (fun i => byteBits (s.obufByte i)) ++
    (List.range s.wcnt.val).map fun j => s.wacc.getLsbD (s.wcnt.val - 1 - j)

/-- Every bit the reader can still return: the unconsumed bits of RACC, then the bytes IBUF[IPTR..ILEN-1] (R42,
42_bitreader.md R181). -/
def State.remaining (s : State) : List Bool :=
  (List.range s.rcnt.val).map (fun j => s.racc.getLsbD (s.rcnt.val - 1 - j)) ++
    (List.range (s.ilen.toNat - s.iptr.toNat)).flatMap fun j => byteBits (s.ibufByte (s.iptr.toNat + j))

/-- How many bits the writer accepts before it must emit a byte at OPTR = OBUF_SIZE (R161). -/
def State.room (s : State) : Nat := 8 * (s.obufSize - s.optr.toNat) + 7 - s.wcnt.val

/-- The zero bits that complete the last byte of a bit string (41_bitwriter.md R163). -/
def padBits (n : Nat) : List Bool := List.replicate ((8 - n % 8) % 8) false

/-- From `s` to `t` only the bit writer's state changed: OPTR, WSTATE and OBUF (R160). -/
def OnlyWriter (s t : State) : Prop :=
  t = { s with optr := t.optr, wacc := t.wacc, wcnt := t.wcnt, obuf := t.obuf }

/-- From `s` to `t` only the bit reader's state changed: IPTR, RSTATE and EOI (R180). -/
def OnlyReader (s t : State) : Prop :=
  t = { s with iptr := t.iptr, racc := t.racc, rcnt := t.rcnt, eoi := t.eoi }

/-- OBUF bytes outside the indices `lo` to `hi - 1` read the same in `s` and `t`. -/
def ObufSameOutside (s t : State) (lo hi : Nat) : Prop :=
  ∀ i : Nat, ¬ (lo ≤ i ∧ i < hi) → t.obufByte i = s.obufByte i

/-- From `s` to `t` only the bit reader's state, the arena and NODES changed (47_huffman_decode.md R281). -/
def OnlyParser (s t : State) : Prop :=
  t = { s with iptr := t.iptr, racc := t.racc, rcnt := t.rcnt, eoi := t.eoi, node := t.node, nodes := t.nodes }

/-- From `s` to `t` only the reader, the writer and HREM changed (47_huffman_decode.md R286). -/
def OnlyDecoder (s t : State) : Prop :=
  t = { s with iptr := t.iptr, racc := t.racc, rcnt := t.rcnt, eoi := t.eoi, optr := t.optr, wacc := t.wacc,
               wcnt := t.wcnt, obuf := t.obuf, hrem := t.hrem }

/-- From `s` to `u` the reader took the next `n` bits, or all that remained if fewer (42_bitreader.md R181): what remains, the
position `8 IPTR - RCNT` in the input, the lazy refill (RCNT is below 8 after a read, and no byte is loaded where nothing is
read), and the byte in RACC. -/
def Consumed (n : Nat) (s u : State) : Prop :=
  s.iptr.toNat ≤ u.iptr.toNat ∧ u.remaining = s.remaining.drop n ∧
    8 * s.iptr.toNat + min n s.remaining.length + u.rcnt.val = 8 * u.iptr.toNat + s.rcnt.val ∧
    (0 < n → u.rcnt.val < 8) ∧ (n = 0 → u.iptr = s.iptr) ∧
    u.racc = if u.iptr = s.iptr then s.racc else s.ibufByte (u.iptr.toNat - 1)

/-! ### Completion, in the words of 40_control.md R141 and 60_exceptions.md R310 -/

/-- The completion of a command that raised no error, on the state `u` its body reached (R141 with `e = 0`): CMDCNT, DONE
and BUSY, nothing else; PENDING stays as in `u` (log 7). -/
def doneOk (u : State) : State := { u with cmdcnt := u.cmdcnt + 1, irqDone := true, busy := false }

/-- `record(e, op)` (R310) with the code as a number of R301. -/
def recorded (code op : Byte) (u : State) : State :=
  { u with err := true, errCode := if u.err then u.errCode else code, errOp := if u.err then u.errOp else op,
           irqErri := true }

/-- The completion of a command that raised the error `code`, on the state `u` its body reached (R141). -/
def doneErr (code : Byte) (u : State) : State := recorded code (u.pending.setWidth 8) (doneOk u)

/-- From `t` to `t'` only ERR, ERRCODE and ERRI differ. -/
def SameButErrors (t t' : State) : Prop :=
  t' = { t with err := t'.err, errCode := t'.errCode, errOp := t'.errOp, irqErri := t'.irqErri }

/-- From `s` command `i` appends exactly `bits` to the output stream; where they do not fit, it appends the bits that fit and
raises OBUF_OVERFLOW (41_bitwriter.md R161, R162, 60_exceptions.md R311). Bytes are stored from index OPTR on only. -/
def Sends (i : Instr) (s : State) (bits : List Bool) : Prop :=
  (bits.length ≤ s.room →
    ∃ u, exec i s = .next (doneOk u) ∧ OnlyWriter s u ∧ u.written = s.written ++ bits ∧
      ObufSameOutside s u s.optr.toNat u.optr.toNat) ∧
  (s.room < bits.length →
    ∃ u, exec i s = .next (doneErr 0x04 u) ∧ OnlyWriter s u ∧ u.written = s.written ++ bits.take s.room ∧
      ObufSameOutside s u s.optr.toNat u.optr.toNat)

/-- What SRESET makes of the engine before it completes (40_control.md R148): the state after reset, with CTRL, the buffers,
and what is no engine state (the pin, the instance, the model's own fields) kept. PENDING, which R341 leaves unspecified, is
whatever `latch` says. -/
def freshEngine (latch : Word) (s : State) : State :=
  { State.reset with
    doneIe := s.doneIe, errIe := s.errIe, ibuf := s.ibuf, obuf := s.obuf, pending := latch, rstN := s.rstN,
    ibufExp := s.ibufExp, obufExp := s.obufExp, hostq := s.hostq, hostData := s.hostData, draws := s.draws }

/-- The reset values of 70_reset_and_hazards.md R341, CTRL and the buffers apart. -/
def State.AtReset (s : State) : Prop :=
  (s.arg = 0 ∧ s.result = 0 ∧ s.busy = false ∧ s.err = false ∧ s.eoi = false ∧ s.tvalid = false ∧ s.errCode = 0 ∧
    s.errOp = 0 ∧ s.irqDone = false ∧ s.irqErri = false ∧ s.cmdcnt = 0) ∧
  (s.ilen = 0 ∧ s.iptr = 0 ∧ s.racc = 0 ∧ s.rcnt = 0 ∧ s.optr = 0 ∧ s.wacc = 0 ∧ s.wcnt = 0) ∧
  (s.total = 0 ∧ s.root = 0 ∧ s.nodes = 0 ∧ s.hrem = 0 ∧ s.enext = 257 ∧ s.dnext = 257 ∧ s.dfirst = true) ∧
  (∀ c : Byte, s.freqOf c = 0 ∧ s.lenOf c = 0 ∧ s.codeOf c = 0) ∧
  ∀ i : Fin 511, s.nodeAt i = { leaf := false, sym := 0, left := 0, right := 0, f := 0 }

/-! ### Sequences of commands -/

/-- Run commands one after the other, stopping after the first that leaves ERR at 1 (46_huffman_encode.md R266). -/
def runParts : List Instr → State → Option State
  | [], s => some s
  | i :: is, s =>
    match exec i s with
    | .next t => if t.err then some t else runParts is t
    | _ => none

/-- A field of a stream: a value and a width (42_bitreader.md R188). -/
abbrev StreamField := Word × Byte

/-- The host writes ARG and runs WBITS for each field (R188). -/
def writeFields : List StreamField → State → Option State
  | [], s => some s
  | f :: fs, s =>
    match exec (.wbits f.2) { s with arg := f.1 } with
    | .next t => writeFields fs t
    | _ => none

/-- The host runs RBITS for each width and collects RESULT (R188). -/
def readFields : List Byte → State → Option (List Word × State)
  | [], s => some ([], s)
  | n :: ns, s =>
    match exec (.rbits n) s with
    | .next t => (readFields ns t).map fun r => (t.result :: r.1, r.2)
    | _ => none

/-! ### Who raises and who writes what -/

/-- The codes each command can raise, after its word was found legal ("raised by" of 60_exceptions.md R301). -/
def errorsOf : Instr → List Byte
  | .wbit _ | .wflush | .leof | .htrie | .hcountw | .hsym _ | .hsyms | .hcomp =>
    [0x04]
  | .wbits _ => [0x04]
  | .lemit _ _ => [0x04, 0x0A]
  | .lread | .hrtrie | .hrcount | .hdsym => [0x09]
  | .hdsyms | .hexp => [0x04, 0x09]
  | .fcount | .fwr _ => [0x05]
  | .nop | .clrerr | .sreset | .winit | .rinit | .rbit | .rbits _ | .linit | .fclr | .frd _ | .hbuild | .hlen _
  | .hcodelo _ | .hcodehi _ | .hnode _ | .hnodef _ => []

/-- The commands that raise NO_TRIE while TVALID is 0 (R301). -/
def needsTrie : Instr → Bool
  | .htrie | .hsym _ | .hsyms | .hdsym | .hdsyms => true
  | _ => false

/-- The commands that raise NO_CODE (R301). -/
def needsCode : Instr → Bool
  | .hsym _ | .hsyms => true
  | _ => false

/-- The result-producing commands (40_control.md R145). -/
def writesResult : Instr → Bool
  | .rbit | .rbits _ | .lemit _ _ | .lread | .frd _ | .hlen _ | .hcodelo _ | .hcodehi _ | .hnode _ | .hnodef _ | .hdsym =>
    true
  | _ => false

/-- The commands through which EOI is written: those that read bits, and RINIT (10_state.md R63), and SRESET. -/
def writesEoi : Instr → Bool
  | .rinit | .rbit | .rbits _ | .lread | .hrtrie | .hrcount | .hdsym | .hdsyms | .hexp | .sreset => true
  | _ => false

/-- The commands through which TVALID is written: HBUILD, HRTRIE, SRESET, and the composites that contain them (R63). -/
def writesTvalid : Instr → Bool
  | .hbuild | .hcomp | .hrtrie | .hexp | .sreset => true
  | _ => false

/-- The commands through which DFIRST is written (R63). -/
def writesDfirst : Instr → Bool
  | .linit | .lread | .sreset => true
  | _ => false

/-- The OBUF index at which a command's output starts: 0 for the composites, which begin with WINIT (46_huffman_encode.md
R266, 47_huffman_decode.md R287), else OPTR (20_memory.md R92). -/
def outputStart (i : Instr) (s : State) : Nat :=
  match i with
  | .hcomp => 0
  | .hexp => 0
  | _ => s.optr.toNat

/-! ### The trie as a tree (R59, R60) -/

/-- A trie: "Leaf(symbol) or Internal(left, right)" (R59). -/
inductive Tree where
  | leaf (c : Byte)
  | node (l r : Tree)
  deriving DecidableEq, Repr

/-- How many nodes a trie has. -/
def Tree.size : Tree → Nat
  | .leaf _ => 1
  | .node l r => 1 + l.size + r.size

/-- The symbols of the leaves, left to right. -/
def Tree.leafSyms : Tree → List Byte
  | .leaf c => [c]
  | .node l r => l.leafSyms ++ r.leafSyms

/-- The serialization of a trie (46_huffman_encode.md R260). -/
def Tree.bits : Tree → List Bool
  | .leaf c => true :: byteBits c
  | .node l r => false :: (l.bits ++ r.bits)

/-- Every leaf with its path from the root, 0 for a left edge and 1 for a right one (45_huffman_build.md R243). -/
def Tree.paths : Tree → List (Byte × List Bool)
  | .leaf c => [(c, [])]
  | .node l r => (l.paths.map fun e => (e.1, false :: e.2)) ++ r.paths.map fun e => (e.1, true :: e.2)

/-- The arena holds the trie `t` at index `i`. -/
def Represents (arena : Vector Node 511) : Fin 511 → Tree → Prop
  | i, .leaf c => (arena[i.val]'i.isLt).leaf = true ∧ (arena[i.val]'i.isLt).sym = c
  | i, .node l r =>
    (arena[i.val]'i.isLt).leaf = false ∧ Represents arena (arena[i.val]'i.isLt).left l ∧
      Represents arena (arena[i.val]'i.isLt).right r

/-- The arena indices that the trie `t` at index `i` occupies, in preorder. -/
def indicesOf (arena : Vector Node 511) : Fin 511 → Tree → List Nat
  | i, .leaf _ => [i.val]
  | i, .node l r =>
    i.val :: (indicesOf arena (arena[i.val]'i.isLt).left l ++ indicesOf arena (arena[i.val]'i.isLt).right r)

/-- The entries that `parse` makes of a whole trie, in preorder, the first at arena index `i` (47_huffman_decode.md R281). -/
def Tree.entries : Tree → Nat → List Node
  | .leaf c, _ => [{ Node.zero with leaf := true, sym := c }]
  | .node l r, i =>
    { Node.zero with left := Fin.ofNat 511 (i + 1), right := Fin.ofNat 511 (i + 1 + l.size) } ::
      (l.entries (i + 1) ++ r.entries (i + 1 + l.size))

/-- A trie whose `parse` has not come to its end (R281): it stopped at a tag, before the node was allocated; in a leaf, with
the bits `bs` of its symbol read; in the left subtree; or in the right one. -/
inductive CutTree where
  | tag
  | leaf (bs : List Bool)
  | left (l : CutTree)
  | right (l : Tree) (r : CutTree)
  deriving DecidableEq, Repr

/-- How many nodes were allocated. -/
def CutTree.size : CutTree → Nat
  | .tag => 0
  | .leaf _ => 1
  | .left l => 1 + l.size
  | .right l r => 1 + l.size + r.size

/-- The bits read before the stop. -/
def CutTree.bits : CutTree → List Bool
  | .tag => []
  | .leaf bs => true :: bs
  | .left l => false :: l.bits
  | .right l r => false :: (l.bits ++ r.bits)

/-- How many bits of a symbol were read, where `parse` stopped in a leaf; none where it stopped at a tag. -/
def CutTree.symBits : CutTree → Option Nat
  | .tag => none
  | .leaf bs => some bs.length
  | .left l => l.symBits
  | .right _ r => r.symBits

/-- The entries made before the stop, in preorder, the first at arena index `i`: "an error inside a subtree leaves the parent's
LEFT or RIGHT at 0 and an unfinished leaf's SYM at 0" (R281). -/
def CutTree.entries : CutTree → Nat → List Node
  | .tag, _ => []
  | .leaf _, _ => [{ Node.zero with leaf := true }]
  | .left l, i => Node.zero :: l.entries (i + 1)
  | .right l r, i =>
    { Node.zero with left := Fin.ofNat 511 (i + 1) } :: (l.entries (i + 1) ++ r.entries (i + 1 + l.size))

/-- The current trie is the tree `t`, and it occupies every arena entry below NODES exactly once (R60). -/
def State.HoldsTrie (s : State) (t : Tree) : Prop :=
  Represents s.node s.root t ∧ (indicesOf s.node s.root t).Perm (List.range s.nodes.val)

/-- The bits of symbol `c`'s code, first bit first (R57). -/
def State.codeBits (s : State) (c : Byte) : List Bool := bitsMsb (s.codeOf c) (s.lenOf c).toNat

/-- The sum of the 256 counters (R45). -/
def freqSum (freq : Vector Word 256) : Nat := (freq.toList.map BitVec.toNat).sum

/-! ### Huffman's construction on trees (45_huffman_build.md R241, R242, 46_huffman_encode.md R267)

The source's algorithm on trees and exact numbers, independent of the arena, of the 32-bit fields and of the code table:
what HBUILD and HCOMP are compared with. -/

/-- A queue element: its frequency, its sequence number, and its tree. -/
abbrev QueueTree := Nat × Nat × Tree

/-- The queue's order by (frequency, sequence number) (R242). -/
def treeLt (a b : QueueTree) : Bool := decide (a.1 < b.1) || (decide (a.1 = b.1) && decide (a.2.1 < b.2.1))

/-- The least element of the queue, and the queue without it. -/
def takeLeast : List QueueTree → Option (QueueTree × List QueueTree)
  | [] => none
  | a :: q =>
    match takeLeast q with
    | none => some (a, [])
    | some (m, r) => if treeLt a m then some (a, q) else some (m, a :: r)

/-- Replace the two least elements by their parent, `n` being the next sequence number, until one is left (R242). -/
def mergeTrees : Nat → Nat → List QueueTree → Option Tree
  | 0, _, q => q.head?.map fun e => e.2.2
  | k + 1, n, q =>
    match takeLeast q with
    | none => none
    | some (x, q1) =>
      match takeLeast q1 with
      | none => some x.2.2
      | some (y, q2) => mergeTrees k (n + 1) (q2 ++ [(x.1 + y.1, n, .node x.2.2 y.2.2)])

/-- The symbols of the leaves: those that occur, ascending, then dummies until there are two (R241). -/
def leafSymbols (count : Byte → Nat) : List Byte :=
  let occ := symbols.filter fun c => count c ≠ 0
  occ ++ (symbols.filter fun c => count c = 0).take (2 - occ.length)

/-- The leaves in the queue, numbered in their order (R241). -/
def leafQueue (count : Byte → Nat) : List QueueTree :=
  (leafSymbols count).zipIdx.map fun e => (count e.1, e.2, .leaf e.1)

/-- The Huffman trie of a frequency table (R241, R242). -/
def huffmanTree (count : Byte → Nat) : Tree :=
  (mergeTrees (leafQueue count).length (leafQueue count).length (leafQueue count)).getD (.leaf 0)

/-- The path of symbol `c` in a trie; empty where it has no leaf. -/
def Tree.pathOf (t : Tree) (c : Byte) : List Bool :=
  match t.paths.find? fun e => decide (e.1 = c) with
  | some e => e.2
  | none => []

/-- The source's Huffman compressed format of an input, before the last byte is padded: the trie, the 32-bit symbol count, and
each byte's code (46_huffman_encode.md R267). -/
def huffmanStream (input : List Byte) : List Bool :=
  let t := huffmanTree fun c => input.count c
  t.bits ++ bitsMsb (BitVec.ofNat 64 input.length) 32 ++ input.flatMap t.pathOf

/-- Arena entry `m` has `i` as a child. -/
def hasChild (arena : Vector Node 511) (m i : Nat) : Bool :=
  match arena[m]? with
  | some n => decide (n.left.val = i) || decide (n.right.val = i)
  | none => false

/-- The set Q of R242 when entry `n` is made, `leaves` being the number of leaves: the earlier entries that no earlier internal
node has taken. -/
def queueAt (arena : Vector Node 511) (leaves n : Nat) : List Nat :=
  (List.range n).filter fun i => !((List.range n).any fun m => decide (leaves ≤ m) && hasChild arena m i)

/-- The frequency of an arena entry. -/
def weightAt (arena : Vector Node 511) (i : Nat) : Nat :=
  match arena[i]? with
  | some n => n.f.toNat
  | none => 0

/-- `x` is the element of `q` with the least (F, index), in lexicographic order (R242). -/
def IsLeast (arena : Vector Node 511) (q : List Nat) (x : Nat) : Prop :=
  x ∈ q ∧ ∀ i ∈ q, weightAt arena x < weightAt arena i ∨ (weightAt arena x = weightAt arena i ∧ x ≤ i)

/-- How many symbols occur in a frequency table. -/
def distinctCount (count : Byte → Nat) : Nat := (symbols.filter fun c => count c ≠ 0).length

/-- The counters of a state as numbers. -/
def State.counts (s : State) (c : Byte) : Nat := (s.freqOf c).toNat

/-! ### Legal words (30_encoding.md R112, R114, R115) -/

/-- The formats of R112. -/
inductive Format where
  | n | bit | w | s | x | l
  deriving DecidableEq, Repr

/-- The opcode map of R114: opcode and format. -/
def opcodeMap : List (Nat × Format) :=
  [(0x00, .n), (0x01, .n), (0x02, .n), (0x10, .n), (0x11, .bit), (0x12, .w), (0x13, .n), (0x20, .n), (0x21, .n),
   (0x22, .w), (0x30, .n), (0x31, .l), (0x32, .n), (0x33, .n)] ++
  [(0x40, .n), (0x41, .n), (0x42, .s), (0x43, .s), (0x50, .n), (0x51, .s), (0x52, .s), (0x53, .s), (0x54, .x),
   (0x55, .x), (0x60, .n), (0x61, .n), (0x62, .s), (0x63, .n), (0x64, .n)] ++
  [(0x70, .n), (0x71, .n), (0x72, .n), (0x73, .n), (0x74, .n)]

/-- The constraint of each format on the fields A, B and G, as numbers (R115). -/
def formatOk (f : Format) (a b g : Nat) : Bool :=
  match f with
  | .n => a == 0 && b == 0 && g == 0
  | .bit => decide (a ≤ 1) && b == 0 && g == 0
  | .w => decide (a ≤ 32) && b == 0 && g == 0
  | .s => b == 0 && g == 0
  | .x => a == 0 && g == 0
  | .l => a == 0

/-- `legal(w)` of R115 on the word as a number: OP = w mod 2^8, A, B, G and RSV above it (R111). -/
def legal (w : Word) : Bool :=
  w.toNat / 2 ^ 29 == 0 &&
    opcodeMap.any fun e =>
      e.1 == w.toNat % 2 ^ 8 &&
        formatOk e.2 (w.toNat / 2 ^ 8 % 2 ^ 8) (w.toNat / 2 ^ 16 % 2 ^ 12) (w.toNat / 2 ^ 28 % 2)

/-! ### Invariants -/

/-- Both buffers are in canonical form and hold bytes only below their sizes (R61, R62, R84 to R86). -/
def State.BuffersOk (s : State) : Prop :=
  s.ibuf.wf = true ∧ s.obuf.wf = true ∧ s.ibuf.below s.ibufSize = true ∧ s.obuf.below s.obufSize = true

/-- The ranges of ILEN, IPTR and OPTR (R40, R41, R43). -/
def State.PointersOk (s : State) : Prop :=
  s.ilen.toNat ≤ s.ibufSize ∧ s.iptr.toNat ≤ s.ibufSize ∧ s.optr.toNat ≤ s.obufSize

/-- `WACC < 2^WCNT` (R44). -/
def State.WriterOk (s : State) : Prop := s.wacc.toNat < 2 ^ s.wcnt.val

/-- The ranges of ENEXT and DNEXT (R48, R49, 43_lzw.md R207). -/
def State.LzwOk (s : State) : Prop :=
  257 ≤ s.enext.toNat ∧ s.enext.toNat ≤ 4096 ∧ 257 ≤ s.dnext.toNat ∧ s.dnext.toNat ≤ 4096

/-- TOTAL is the sum of the counters (R45, 44_frequency.md R225). -/
def State.TotalOk (s : State) : Prop := s.total.toNat = freqSum s.freq

/-- `LEN[c] <= 64` and `CODE[c] < 2^LEN[c]` (R56, R57). -/
def State.CodesOk (s : State) : Prop :=
  ∀ c : Byte, (s.lenOf c).toNat ≤ 64 ∧ (s.codeOf c).toNat < 2 ^ (s.lenOf c).toNat

/-- No code is a leading part of another symbol's code (R58). -/
def State.PrefixFree (s : State) : Prop :=
  ∀ c d : Byte, c ≠ d → s.lenOf c ≠ 0 → s.lenOf d ≠ 0 → ¬ (s.codeBits c <+: s.codeBits d)

/-- ERRCODE is 0 whenever ERR is 0, and holds a code of R301 when ERR is 1 (R37, 60_exceptions.md R301). -/
def State.ErrorOk (s : State) : Prop :=
  (s.err = false → s.errCode = 0 ∧ s.errOp = 0) ∧ (s.err = true → 1 ≤ s.errCode.toNat ∧ s.errCode.toNat ≤ 10)

/-- While TVALID is 1 the arena holds one trie in its first NODES entries (R60). -/
def State.TrieOk (s : State) : Prop := s.tvalid = true → ∃ t : Tree, s.HoldsTrie t

/-- While `rst_n` is 0 every register and table, CTRL included, holds its reset value (70_reset_and_hazards.md R340, R341). -/
def State.ResetOk (s : State) : Prop := s.rstN = false → s.AtReset ∧ s.doneIe = false ∧ s.errIe = false

/-! ### The host's obligations (R350, R351) -/

/-- A write that a busy engine turns into an error: of CMD, ARG, ILEN or a buffer word. -/
def checkedTarget : Target → Bool
  | .reg .cmd | .reg .arg | .reg .ilen | .ibufWord _ | .obufWord _ => true
  | _ => false

/-- The host's next action keeps R350 and R351: it writes CMD, ARG, ILEN and the buffers only while BUSY is 0. -/
def orderly (s : State) : Bool :=
  match s.hostq with
  | .write addr _ :: _ => !(s.busy && checkedTarget (target s addr))
  | _ => true

/-- A safe run of `k` steps: the machine never stops and the host keeps its obligations at every step. -/
def SafeRun : Nat → State → Prop
  | 0, _ => True
  | k + 1, s => orderly s = true ∧ ∃ t, step s = .next t ∧ SafeRun k t

end Sys2Proof.Machine
end

