-- ==== Sys2Proof/Certificates/Slice0/Obligations.lean ====
section
/-! DEFINITION. The statements for the provers. Each docstring names the rules of spec/ it rests on and, where a clause rests
on a choice of the model, the log entry. -/

open Sys2Proof Sys2Proof.Machine

/-! ### Encoding -/

/-- Every legal command, with every operand its encoding admits, is decoded from its own word (30_encoding.md R111 to R114). -/
def Obligations.EncodeThenDecode : Prop := ∀ i : Instr, i.wf = true → decode (encode i) = .ok i

/-- R115: a word is legal exactly when the decoder gives a command for it; and that command is legal and has that very word, so no
two words mean one command. -/
def Obligations.LegalWordsDecode : Prop :=
  ∀ w : Word, (legal w = true ↔ ∃ i : Instr, decode w = .ok i) ∧
    ∀ i : Instr, decode w = .ok i → i.wf = true ∧ encode i = w

/-- R117: the listed words. -/
def Obligations.ListedWordsDecode : Prop :=
  decode 0x00000000 = .ok .nop ∧ decode 0x00000001 = .ok .clrerr ∧ decode 0x00000002 = .ok .sreset ∧
    decode 0x00000111 = .ok (.wbit true) ∧ decode 0x00000C12 = .ok (.wbits 12) ∧ decode 0x00002022 = .ok (.rbits 32) ∧
    decode 0x00004142 = .ok (.frd 0x41) ∧ decode 0x000A0054 = .ok (.hnode 10) ∧
    decode 0x11010031 = .ok (.lemit 257 true) ∧ decode 0x00410031 = .ok (.lemit 65 false) ∧
    decode 0x00000032 = .ok .leof ∧ decode 0x00000064 = .ok .hcomp ∧ decode 0x00000074 = .ok .hexp

/-! ### The life cycle of a command -/

/-- When the launched word decodes to a command, the step that is the engine's turn is `exec` of that command, with the turn
taken off the schedule; and a step on `withFetchWord` runs the command of the table's word. The schedule and
`withFetchWord` are the model's (logs 1, 2, 15); the rest is 40_control.md R144. -/
def Obligations.StepRunsTheDecodedCommand : Prop :=
  (∀ (s : State) (i : Instr), s.rstN = true → s.busy = true → decode s.pending = .ok i →
    (s.hostq = [] → step s = exec i s) ∧
    ∀ q : List HostAction, s.hostq = .engine :: q → step s = exec i { s with hostq := q }) ∧
  ∀ (s : State) (nbits w : Nat) (i : Instr), decodeTableWord nbits w = some i →
    step (s.withFetchWord nbits w) = exec i { s with pending := tableWord nbits w, busy := true, rstN := true }

/-- R144: the engine decodes PENDING and dispatches on it; an illegal word changes nothing but the completion effects of R141
with ILLEGAL_CMD. -/
def Obligations.ExecuteByLegality : Prop :=
  ∀ s : State, s.rstN = true → s.busy = true →
    (legal s.pending = true → ∃ i : Instr, i.wf = true ∧ encode i = s.pending ∧ engineTurn s = exec i s) ∧
    (legal s.pending = false → engineTurn s = .next (doneErr 0x01 s))

/-- R140: the CMD write that launches, and the engine's turn after it that completes the command. -/
def Obligations.CmdWriteLaunches : Prop :=
  ∀ (s : State) (addr : BitVec 26) (w : Word), s.rstN = true → s.busy = false → addr.toNat / 4 = 1 →
    (s.err = false ∨ w = 0x00000001 ∨ w = 0x00000002) →
    hostWrite addr w s = { s with pending := w, busy := true } ∧
      ∃ t, engineTurn (hostWrite addr w s) = .next t ∧ t.busy = false ∧ t.irqDone = true

/-- R142: a CMD write while BUSY is dropped with CMD_WHILE_BUSY, recorded at once; the running command completes as it would
have, and keeps that record. CLRERR clears it and SRESET resets it, as they do any record. -/
def Obligations.CmdWriteWhileBusy : Prop :=
  ∀ (s : State) (addr : BitVec 26) (w : Word), s.rstN = true → s.busy = true → addr.toNat / 4 = 1 →
    hostWrite addr w s = recorded 0x02 (w.setWidth 8) s ∧
    ∀ t, engineTurn s = .next t →
      ∃ t', engineTurn (hostWrite addr w s) = .next t' ∧ SameButErrors t t' ∧
        (s.pending ≠ 0x00000001 → s.pending ≠ 0x00000002 →
          t'.err = true ∧ t'.errCode = (if s.err then s.errCode else 0x02) ∧
            t'.errOp = (if s.err then s.errOp else w.setWidth 8))

/-- R143: with ERR = 1 and BUSY = 0 every CMD write but the exact CLRERR and SRESET words changes nothing. -/
def Obligations.CmdWriteDroppedAfterError : Prop :=
  ∀ (s : State) (addr : BitVec 26) (w : Word), s.rstN = true → s.busy = false → s.err = true → addr.toNat / 4 = 1 →
    w ≠ 0x00000001 → w ≠ 0x00000002 → hostWrite addr w s = s

/-- R149: writes of ARG, ILEN, IBUF and OBUF while BUSY are dropped with WRITE_WHILE_BUSY and leave the running command as it
was; CTRL and IRQSTAT are never checked; every other write is ignored without an error. -/
def Obligations.WriteWhileBusy : Prop :=
  ∀ (s : State) (addr : BitVec 26) (v : Word), s.rstN = true → s.busy = true →
    ((addr.toNat / 4 = 2 ∨ addr.toNat / 4 = 8 ∨ (0x1000000 ≤ addr.toNat ∧ addr.toNat < 0x1000000 + s.ibufSize) ∨
        (0x2000000 ≤ addr.toNat ∧ addr.toNat < 0x2000000 + s.obufSize)) →
      hostWrite addr v s = recorded 0x03 (s.pending.setWidth 8) s ∧
      ∀ t, engineTurn s = .next t → ∃ t', engineTurn (hostWrite addr v s) = .next t' ∧ SameButErrors t t') ∧
    (addr.toNat / 4 = 6 → hostWrite addr v s = { s with doneIe := v.getLsbD 0, errIe := v.getLsbD 1 }) ∧
    (addr.toNat / 4 = 7 →
      hostWrite addr v s = { s with irqDone := s.irqDone && !v.getLsbD 0, irqErri := s.irqErri && !v.getLsbD 1 }) ∧
    (addr.toNat / 4 ∉ [1, 2, 6, 7, 8] → addr.toNat < 0x1000000 → hostWrite addr v s = s) ∧
    (0x1000000 + s.ibufSize ≤ addr.toNat → addr.toNat < 0x2000000 → hostWrite addr v s = s) ∧
    (0x2000000 + s.obufSize ≤ addr.toNat → hostWrite addr v s = s)

/-- R141: every command completes, from every state: DONE is set, BUSY is cleared, CMDCNT advances (SRESET leaves it at 1,
R148), and the error record is either left alone or extended as `record` says. -/
def Obligations.EveryCommandCompletes : Prop :=
  ∀ (i : Instr) (s : State),
    ∃ t, exec i s = .next t ∧ t.busy = false ∧ t.irqDone = true ∧
      t.cmdcnt = (if i = .sreset then 1 else s.cmdcnt + 1) ∧
      (i ≠ .sreset → i ≠ .clrerr →
        (t.err = s.err ∧ t.errCode = s.errCode ∧ t.errOp = s.errOp ∧ t.irqErri = s.irqErri) ∨
        ∃ e : Byte, 1 ≤ e.toNat ∧ e.toNat ≤ 10 ∧ t.err = true ∧ t.irqErri = true ∧
          t.errCode = (if s.err then s.errCode else e) ∧ t.errOp = if s.err then s.errOp else s.pending.setWidth 8)

/-- R314: the return from an error, by CLRERR (all other state as the error left it) or by SRESET; no other command word is
accepted, and ERRI stays until the host clears it. What the latch PENDING holds after either is left open (R64, R341). -/
def Obligations.ReturnFromError : Prop :=
  ∀ (s : State) (addr : BitVec 26), s.rstN = true → s.busy = false → s.err = true → addr.toNat / 4 = 1 →
    (∃ latch : Word, engineTurn (hostWrite addr 0x00000001 s) =
      .next (doneOk { s with pending := latch, err := false, errCode := 0, errOp := 0 })) ∧
    (∃ latch : Word, engineTurn (hostWrite addr 0x00000002 s) = .next (doneOk (freshEngine latch s))) ∧
    ∀ w : Word, w ≠ 0x00000001 → w ≠ 0x00000002 → hostWrite addr w s = s

/-! ### The host bus -/

/-- 10_state.md R31 to R53: what a read of each register returns while BUSY is 0, field by field; the read changes nothing but
the data on the bus (20_memory.md R93). -/
def Obligations.RegisterReads : Prop :=
  ∀ (s : State) (addr : BitVec 26), s.rstN = true → s.busy = false → addr.toNat < 0x54 →
    hostRead addr s = { s with hostData := (hostRead addr s).hostData } ∧
    (hostRead addr s).hostData.toNat =
      match addr.toNat / 4 with
      | 0 => 0x48434501
      | 1 => 0
      | 2 => s.arg.toNat
      | 3 => s.result.toNat
      | 4 => s.busy.toNat + 2 * s.err.toNat + 4 * s.eoi.toNat + 8 * s.tvalid.toNat
      | 5 => s.errCode.toNat + 2 ^ 8 * s.errOp.toNat
      | 6 => s.doneIe.toNat + 2 * s.errIe.toNat
      | 7 => s.irqDone.toNat + 2 * s.irqErri.toNat
      | 8 => s.ilen.toNat
      | 9 => s.iptr.toNat
      | 10 => s.racc.toNat + 2 ^ 8 * s.rcnt.val
      | 11 => s.optr.toNat
      | 12 => s.wacc.toNat + 2 ^ 8 * s.wcnt.val
      | 13 => s.total.toNat
      | 14 => s.root.val + 2 ^ 16 * s.nodes.val
      | 15 => s.hrem.toNat
      | 16 => s.enext.toNat
      | 17 => s.dnext.toNat + 2 ^ 16 * s.dfirst.toNat
      | 18 => s.cmdcnt.toNat
      | 19 => s.ibufSize
      | _ => s.obufSize

/-- R93: no read has a side effect (the model's count of free values drawn, log 4, is its own), a repeated read at rest gives
the same data, and writing the same value twice to any address but CMD is writing it once. -/
def Obligations.BusIsIdempotent : Prop :=
  ∀ (s : State) (addr : BitVec 26) (v : Word), s.BuffersOk →
    (hostRead addr s = { s with hostData := (hostRead addr s).hostData, draws := (hostRead addr s).draws }) ∧
    (s.rstN = true → s.busy = false → hostRead addr (hostRead addr s) = hostRead addr s) ∧
    (addr.toNat / 4 ≠ 1 → hostWrite addr v (hostWrite addr v s) = hostWrite addr v s)

/-- R84, and R85 for OBUF: a window word is its four bytes, the lowest index in bits 7:0 (R90); a write while BUSY is 0 stores
exactly those four, a write while BUSY is 1 none. -/
def Obligations.BufferWindows : Prop :=
  ∀ (s : State) (addr : BitVec 26) (v : Word) (k : Nat), s.rstN = true →
    (k < s.ibufSize / 4 → addr.toNat / 4 * 4 = 0x1000000 + 4 * k →
      (s.busy = false →
        (hostRead addr s).hostData.toNat = (s.ibufByte (4 * k)).toNat + 2 ^ 8 * (s.ibufByte (4 * k + 1)).toNat +
          2 ^ 16 * (s.ibufByte (4 * k + 2)).toNat + 2 ^ 24 * (s.ibufByte (4 * k + 3)).toNat ∧
        hostWrite addr v s = { s with ibuf := (hostWrite addr v s).ibuf } ∧
        (∀ j < 4, (hostWrite addr v s).ibufByte (4 * k + j) = v.extractLsb' (8 * j) 8) ∧
        (∀ i, ¬ (4 * k ≤ i ∧ i < 4 * k + 4) → (hostWrite addr v s).ibufByte i = s.ibufByte i) ∧
        (hostRead addr (hostWrite addr v s)).hostData = v) ∧
      (s.busy = true → (hostWrite addr v s).ibuf = s.ibuf)) ∧
    (k < s.obufSize / 4 → addr.toNat / 4 * 4 = 0x2000000 + 4 * k →
      (s.busy = false →
        (hostRead addr s).hostData.toNat = (s.obufByte (4 * k)).toNat + 2 ^ 8 * (s.obufByte (4 * k + 1)).toNat +
          2 ^ 16 * (s.obufByte (4 * k + 2)).toNat + 2 ^ 24 * (s.obufByte (4 * k + 3)).toNat ∧
        hostWrite addr v s = { s with obuf := (hostWrite addr v s).obuf } ∧
        (∀ j < 4, (hostWrite addr v s).obufByte (4 * k + j) = v.extractLsb' (8 * j) 8) ∧
        (∀ i, ¬ (4 * k ≤ i ∧ i < 4 * k + 4) → (hostWrite addr v s).obufByte i = s.obufByte i) ∧
        (hostRead addr (hostWrite addr v s)).hostData = v) ∧
      (s.busy = true → (hostWrite addr v s).obuf = s.obuf))

/-- R83, R86, R50: unmapped addresses, holes and window words beyond a buffer read 0 and ignore writes, whatever the machine
does. That a window word beyond its buffer reads 0 while BUSY is 1 too, beside R97, is the model's reading (log 17), and so is
that every such address reads 0 during reset, beside R340 (logs 9, 17). -/
def Obligations.UnmappedAddresses : Prop :=
  ∀ (s : State) (addr : BitVec 26) (v : Word),
    ((0x54 ≤ addr.toNat ∧ addr.toNat < 0x1000000) ∨ (0x1000000 + s.ibufSize ≤ addr.toNat ∧ addr.toNat < 0x2000000) ∨
      0x2000000 + s.obufSize ≤ addr.toNat) →
    hostRead addr s = { s with hostData := 0 } ∧ hostWrite addr v s = s

/-- R97: which reads have a value while BUSY is 1. The others return the free value of log 4, whatever it is. -/
def Obligations.ReadsWhileBusy : Prop :=
  ∀ (s : State) (addr : BitVec 26), s.rstN = true → s.busy = true →
    (addr.toNat / 4 ∈ [0, 6, 7, 19, 20] →
      hostRead addr s = { s with hostData := (hostRead addr { s with busy := false }).hostData }) ∧
    (addr.toNat / 4 = 4 →
      (hostRead addr s).hostData.getLsbD 0 = true ∧ (hostRead addr s).hostData.toNat < 16 ∧
      ∀ j < 3, (hostRead addr s).hostData.getLsbD (j + 1) = (Config.busyRead s.draws).getLsbD (j + 1)) ∧
    (addr.toNat < 0x54 → addr.toNat / 4 ∉ [0, 4, 6, 7, 19, 20] → (hostRead addr s).hostData = Config.busyRead s.draws) ∧
    ((0x1000000 ≤ addr.toNat ∧ addr.toNat < 0x1000000 + s.ibufSize) ∨
        (0x2000000 ≤ addr.toNat ∧ addr.toNat < 0x2000000 + s.obufSize) →
      (hostRead addr s).hostData = Config.busyRead s.draws)

/-- R320: the interrupt line, in every state; R33, R38, R39, R40: the writable registers while BUSY is 0 (CTRL and IRQSTAT at
any time are in `WriteWhileBusy`). -/
def Obligations.HostRegisterWrites : Prop :=
  (∀ s : State, s.irq = true ↔ (s.doneIe = true ∧ s.irqDone = true) ∨ (s.errIe = true ∧ s.irqErri = true)) ∧
  ∀ (s : State) (addr : BitVec 26) (v : Word), s.rstN = true → s.busy = false →
    (addr.toNat / 4 = 2 → hostWrite addr v s = { s with arg := v }) ∧
    (addr.toNat / 4 = 6 → hostWrite addr v s = { s with doneIe := v.getLsbD 0, errIe := v.getLsbD 1 }) ∧
    (addr.toNat / 4 = 7 →
      hostWrite addr v s = { s with irqDone := s.irqDone && !v.getLsbD 0, irqErri := s.irqErri && !v.getLsbD 1 }) ∧
    (addr.toNat / 4 = 8 → ∃ l : Word, l.toNat = min v.toNat s.ibufSize ∧ hostWrite addr v s = { s with ilen := l }) ∧
    (addr.toNat / 4 ∉ [1, 2, 6, 7, 8] → addr.toNat < 0x1000000 → hostWrite addr v s = s)

/-! ### Reset -/

/-- R341: the reset values, right after reset, while `rst_n` is 0, and in SRESET before it completes; CTRL is 0 after reset and
kept by SRESET, the constants read as they do at all times, the buffers are kept. R341 gives PENDING no value, and none is
stated. -/
def Obligations.ResetValues : Prop :=
  State.reset.AtReset ∧ State.reset.doneIe = false ∧ State.reset.errIe = false ∧
  (∀ s : State, (assertReset s).AtReset ∧ (assertReset s).doneIe = false ∧ (assertReset s).errIe = false ∧
    (assertReset s).ibuf = s.ibuf ∧ (s.busy = false → (assertReset s).obuf = s.obuf) ∧
    regValue (assertReset s) .id = 0x48434501 ∧ regValue (assertReset s) .ibufsz = BitVec.ofNat 32 s.ibufSize ∧
    regValue (assertReset s) .obufsz = BitVec.ofNat 32 s.obufSize) ∧
  ∀ s : State, ∃ u, exec .sreset s = .next (doneOk u) ∧ u.AtReset ∧ u.doneIe = s.doneIe ∧ u.errIe = s.errIe ∧
    u.ibuf = s.ibuf ∧ u.obuf = s.obuf

/-- R148, R344: SRESET is the state after reset with CTRL and the buffers kept, then its own completion. What the latch PENDING
holds afterwards is left open (R341). -/
def Obligations.SoftReset : Prop :=
  ∀ s : State, ∃ (latch : Word) (t : State), exec .sreset s = .next t ∧ t = doneOk (freshEngine latch s) ∧ t.cmdcnt = 1 ∧
    statusWord t = 0 ∧ errcodeWord t = 0 ∧ irqstatWord t = 1 ∧ lzweWord t = 0x101 ∧ lzwdWord t = 0x00010101

/-- R340: while `rst_n` is 0 there is no completion, `irq` is 0, writes are ignored, a register reads its reset value, and the
engine does nothing; when it returns to 1 the engine is idle. What OBUF holds after an abandoned command (U19, log 8) is stated
as far as the rules go: no byte outside those the command writes. -/
def Obligations.HardwareReset : Prop :=
  ∀ s : State,
    (assertReset s).rstN = false ∧ (assertReset s).irq = false ∧ (assertReset s).cmdcnt = 0 ∧
    (assertReset s).ibuf = s.ibuf ∧ (s.busy = false → (assertReset s).obuf = s.obuf) ∧
    (∀ t, s.rstN = true → s.busy = true → engineTurn s = .next t →
      ∀ i : Nat, (assertReset s).obufByte i = s.obufByte i ∨ (assertReset s).obufByte i = t.obufByte i) ∧
    engineTurn (assertReset s) = .next (assertReset s) ∧
    (∀ (addr : BitVec 26) (v : Word), hostWrite addr v (assertReset s) = assertReset s) ∧
    (∀ addr : BitVec 26, addr.toNat < 0x54 →
      (hostRead addr (assertReset s)).hostData =
        (hostRead addr { State.reset with ibufExp := s.ibufExp, obufExp := s.obufExp }).hostData) ∧
    releaseReset (assertReset s) = { assertReset s with rstN := true }

/-! ### Invariants that every step keeps -/

/-- R61, R62, R40, R41, R43: the buffers stay within their sizes, and ILEN, IPTR and OPTR stay within them. That the buffers
are lists in canonical form is the model's choice (log 5). -/
def Obligations.BuffersAndPointersKept : Prop :=
  ∀ s t : State, s.BuffersOk → s.PointersOk → step s = .next t → t.BuffersOk ∧ t.PointersOk

/-- R44, R207 (R48, R49), R37 (R301): WACC stays below 2^WCNT, the LZW indices stay between 257 and 4096, and ERRCODE is 0
whenever ERR is 0 and holds a code of R301 when ERR is 1. -/
def Obligations.RegisterRangesKept : Prop :=
  ∀ s t : State, step s = .next t →
    (s.WriterOk → t.WriterOk) ∧ (s.LzwOk → t.LzwOk) ∧ (s.ErrorOk → t.ErrorOk)

/-- R45, R225: TOTAL stays the sum of the counters. -/
def Obligations.TotalIsTheSum : Prop := ∀ s t : State, s.TotalOk → step s = .next t → t.TotalOk

/-- R56, R57, R58: lengths are at most 64, codes are below 2^LEN, and the code table is prefix-free. -/
def Obligations.CodeTableKept : Prop :=
  ∀ s t : State, s.CodesOk → s.PrefixFree → step s = .next t → t.CodesOk ∧ t.PrefixFree

/-- R60: while TVALID is 1 the arena below NODES holds one trie, each entry reached once. -/
def Obligations.TrieKept : Prop := ∀ s t : State, s.TrieOk → step s = .next t → t.TrieOk

/-- R340, R341: while `rst_n` is 0 every register and table, CTRL included, stays at its reset value. -/
def Obligations.ResetHeld : Prop := ∀ s t : State, s.ResetOk → step s = .next t → t.ResetOk

/-- The state after reset meets every invariant. -/
def Obligations.ResetMeetsInvariants : Prop :=
  State.reset.BuffersOk ∧ State.reset.PointersOk ∧ State.reset.WriterOk ∧ State.reset.LzwOk ∧ State.reset.ErrorOk ∧
    State.reset.TotalOk ∧ State.reset.CodesOk ∧ State.reset.PrefixFree ∧ State.reset.TrieOk ∧ State.reset.ResetOk

/-! ### What no command does -/

/-- R145: only the result-producing commands write RESULT (SRESET sets it to 0), and none of them when it raises an error. -/
def Obligations.ResultWriters : Prop :=
  ∀ (i : Instr) (s t : State), exec i s = .next t →
    (i ≠ .sreset → writesResult i = false → t.result = s.result) ∧ (i = .sreset → t.result = 0) ∧
    (s.err = false → t.err = true → t.result = s.result)

/-- R63, R33, R40, R38: which commands change EOI, TVALID and DFIRST; no command but SRESET changes ARG or ILEN, and none
changes CTRL, the pin, the instance's sizes or the schedule. That a command other than SRESET leaves the latch PENDING as it
was is the model's choice (log 7). -/
def Obligations.FlagWriters : Prop :=
  ∀ (i : Instr) (s t : State), exec i s = .next t →
    (writesEoi i = false → t.eoi = s.eoi) ∧ (writesTvalid i = false → t.tvalid = s.tvalid) ∧
    (writesDfirst i = false → t.dfirst = s.dfirst) ∧
    (i ≠ .sreset → t.arg = s.arg ∧ t.ilen = s.ilen ∧ t.pending = s.pending) ∧
    t.doneIe = s.doneIe ∧ t.errIe = s.errIe ∧ t.rstN = s.rstN ∧ t.ibufExp = s.ibufExp ∧ t.obufExp = s.obufExp ∧
    t.hostq = s.hostq ∧ t.hostData = s.hostData ∧ t.draws = s.draws

/-- R92: no command writes IBUF, and a command writes OBUF only at the indices from its start up to where it leaves OPTR. -/
def Obligations.BufferWriters : Prop :=
  ∀ (i : Instr) (s t : State), s.optr.toNat ≤ s.obufSize → exec i s = .next t →
    t.ibuf = s.ibuf ∧ ObufSameOutside s t (outputStart i s) t.optr.toNat

/-- R92, R342: no command reads OBUF or an IBUF byte at or above ILEN: other contents there change nothing of its effect. -/
def Obligations.UnreadBytesDoNotMatter : Prop :=
  ∀ (i : Instr) (s t : State) (ib ob : Memory), s.optr.toNat ≤ s.obufSize → exec i s = .next t →
    (∀ j < s.ilen.toNat, ({ s with ibuf := ib } : State).ibufByte j = s.ibufByte j) →
    ∃ ob' : Memory, exec i { s with ibuf := ib, obuf := ob } = .next { t with ibuf := ib, obuf := ob' } ∧
      ∀ j : Nat, outputStart i s ≤ j → j < t.optr.toNat → ({ t with obuf := ob' } : State).obufByte j = t.obufByte j

/-- R301, the column "raised by": the only errors each legal command can raise; CODE_TOO_LONG never, while TOTAL is the sum of
the counters (R244). -/
def Obligations.ErrorsByCommand : Prop :=
  ∀ (i : Instr) (s t : State), i.wf = true → s.TotalOk → s.err = false → exec i s = .next t → t.err = true →
    t.errCode ∈ errorsOf i ∨ (needsTrie i = true ∧ t.errCode = 0x06 ∧ s.tvalid = false) ∨
      (needsCode i = true ∧ t.errCode = 0x07 ∧ s.tvalid = true)

/-- R311: the commands that check before they change anything change nothing when the check fails. The term forms WBITS and
RBITS with a width above 32 have no legal word; they raise ILLEGAL_CMD (log 14). -/
def Obligations.FailedChecksChangeNothing : Prop :=
  ∀ s : State,
    (∀ n : Byte, 32 < n.toNat → exec (.wbits n) s = .next (doneErr 0x01 s) ∧ exec (.rbits n) s = .next (doneErr 0x01 s)) ∧
    (2 ^ 32 ≤ s.total.toNat + s.ilen.toNat → exec .fcount s = .next (doneErr 0x05 s)) ∧
    (∀ c : Byte, 2 ^ 32 + (s.freqOf c).toNat ≤ s.total.toNat + s.arg.toNat → exec (.fwr c) s = .next (doneErr 0x05 s)) ∧
    (∀ (c : BitVec 12) (g : Bool), c.toNat = 256 ∨ s.enext.toNat ≤ c.toNat →
      exec (.lemit c g) s = .next (doneErr 0x0A s)) ∧
    (s.tvalid = false → ∀ i : Instr, needsTrie i = true → exec i s = .next (doneErr 0x06 s)) ∧
    ∀ c : Byte, s.tvalid = true → s.lenOf c = 0 → exec (.hsym c) s = .next (doneErr 0x07 s)

/-! ### Control, and the starts of streams -/

/-- R146, R147: NOP and CLRERR. -/
def Obligations.NopAndClrerr : Prop :=
  ∀ s : State, exec .nop s = .next (doneOk s) ∧
    exec .clrerr s = .next (doneOk { s with err := false, errCode := 0, errOp := 0 })

/-- R164, R184, R201, R221: WINIT, RINIT, LINIT and FCLR; after RINIT what remains is the bits of IBUF[0..ILEN-1] (R187). -/
def Obligations.StreamStarts : Prop :=
  ∀ s : State,
    exec .winit s = .next (doneOk { s with optr := 0, wacc := 0, wcnt := 0 }) ∧
    exec .rinit s = .next (doneOk { s with iptr := 0, racc := 0, rcnt := 0, eoi := false }) ∧
    ({ s with iptr := 0, racc := 0, rcnt := 0, eoi := false } : State).remaining =
      (List.range s.ilen.toNat).flatMap (fun i => byteBits (s.ibufByte i)) ∧
    exec .linit s = .next (doneOk { s with enext := 257, dnext := 257, dfirst := true }) ∧
    ∃ f : Vector Word 256, exec .fclr s = .next (doneOk { s with freq := f, total := 0 }) ∧
      ∀ c : Byte, f[c.toNat]? = some 0

/-! ### Bit writer -/

/-- R165, R166, R204, R262: WBIT sends its bit, WBITS the low `n` bits of ARG, LEOF the 12 bits of 256, HCOUNTW the 32 bits of
ILEN, most significant bit first. -/
def Obligations.WriterCommandsSend : Prop :=
  ∀ s : State, s.optr.toNat ≤ s.obufSize →
    (∀ b : Bool, Sends (.wbit b) s [b]) ∧
    (∀ n : Byte, n.toNat ≤ 32 → Sends (.wbits n) s (bitsMsb (s.arg.setWidth 64) n.toNat)) ∧
    Sends .leof s (bitsMsb 256 12) ∧ Sends .hcountw s (bitsMsb (s.ilen.setWidth 64) 32)

/-- R163, R167, R168: WFLUSH completes the last byte with zero bits, overflows with pending bits at OPTR = OBUF_SIZE, and a
second WFLUSH emits nothing. -/
def Obligations.FlushCompletesTheByte : Prop :=
  ∀ s : State, s.optr.toNat ≤ s.obufSize →
    (s.wcnt = 0 → exec .wflush s = .next (doneOk s)) ∧
    (s.wcnt ≠ 0 → s.optr.toNat = s.obufSize → exec .wflush s = .next (doneErr 0x04 s)) ∧
    (s.wcnt ≠ 0 → s.optr.toNat < s.obufSize →
      ∃ u, exec .wflush s = .next (doneOk u) ∧ OnlyWriter s u ∧ u.optr = s.optr + 1 ∧ u.wacc = 0 ∧ u.wcnt = 0 ∧
        u.written = s.written ++ padBits s.written.length ∧ ObufSameOutside s u s.optr.toNat (s.optr.toNat + 1) ∧
        exec .wflush u = .next (doneOk u))

/-- R169: after WINIT, writes of N bits in all, and WFLUSH, OPTR is N/8 rounded up, and the bytes are the fields' bits, most
significant first, followed by zero bits. -/
def Obligations.LengthLaw : Prop :=
  ∀ (s a : State) (fs : List StreamField), (∀ f ∈ fs, f.2.toNat ≤ 32) →
    (fs.map fun f => f.2.toNat).sum ≤ 8 * s.obufSize → exec .winit s = .next a →
    ∃ w u, writeFields fs a = some w ∧ exec .wflush w = .next u ∧
      u.optr.toNat = ((fs.map fun f => f.2.toNat).sum + 7) / 8 ∧ u.wcnt = 0 ∧
      (List.range u.optr.toNat).flatMap (fun i => byteBits (u.obufByte i)) =
        fs.flatMap (fun f => bitsMsb (f.1.setWidth 64) f.2.toNat) ++ padBits (fs.map fun f => f.2.toNat).sum

/-! ### Bit reader -/

/-- R181, R185: RBIT's three cases: a bit in RACC, a refill, the end of input. -/
def Obligations.RbitReadsOneBit : Prop :=
  ∀ s : State,
    (∀ k : Fin 8, s.rcnt.val = k.val + 1 →
      exec .rbit s = .next (doneOk { s with rcnt := k.castSucc, result := BitVec.ofNat 32 (s.racc.getLsbD k.val).toNat })) ∧
    (s.rcnt = 0 → s.iptr.toNat < s.ilen.toNat →
      exec .rbit s = .next (doneOk { s with
        racc := s.ibufByte s.iptr.toNat, iptr := s.iptr + 1, rcnt := 7,
        result := BitVec.ofNat 32 ((s.ibufByte s.iptr.toNat).getLsbD 7).toNat })) ∧
    (s.rcnt = 0 → s.ilen.toNat ≤ s.iptr.toNat → exec .rbit s = .next (doneOk { s with eoi := true, result := 0 }))

/-- R182, R186: RBITS takes the next `n` bits as a number, the first the most significant, zeros standing for the bits past the
end; EOI is set exactly when there are too few. -/
def Obligations.RbitsReadsANumber : Prop :=
  ∀ (s : State) (n : Byte), n.toNat ≤ 32 →
    let v := numOf (s.remaining.take n.toNat ++ List.replicate (n.toNat - s.remaining.length) false)
    ∃ u, exec (.rbits n) s = .next (doneOk { u with result := BitVec.ofNat 32 v }) ∧ OnlyReader s u ∧ Consumed n.toNat s u ∧ u.eoi = (s.eoi || decide (s.remaining.length < n.toNat))

/-- R188: fields written after WINIT and flushed, copied by the host to IBUF, are read back exactly. `r` is any state whose
IBUF holds the output. -/
def Obligations.FieldsReadBackExactly : Prop :=
  ∀ (s a w u r b : State) (fs : List StreamField), (∀ f ∈ fs, f.2.toNat ≤ 32) →
    (fs.map fun f => f.2.toNat).sum ≤ 8 * s.obufSize → exec .winit s = .next a → writeFields fs a = some w →
    exec .wflush w = .next u → r.ilen = u.optr → (∀ i < u.optr.toNat, r.ibufByte i = u.obufByte i) →
    exec .rinit r = .next b →
    ∃ v, readFields (fs.map Prod.snd) b = some (fs.map fun f => BitVec.ofNat 32 (f.1.toNat % 2 ^ f.2.toNat), v) ∧
      v.eoi = false

/-- R183: a decode command that starts with EOI = 1 raises MALFORMED_STREAM at its first bit read. -/
def Obligations.DecodeAfterEndOfInput : Prop :=
  ∀ s : State, s.eoi = true →
    (∃ u, exec .lread s = .next (doneErr 0x09 u) ∧ OnlyReader s u ∧ Consumed 1 s u ∧ u.eoi = true) ∧
    (∃ u, exec .hrcount s = .next (doneErr 0x09 u) ∧ OnlyReader s u ∧ Consumed 1 s u ∧ u.eoi = true) ∧
    (s.tvalid = true → (s.nodeAt s.root).leaf = false →
      (∃ u, exec .hdsym s = .next (doneErr 0x09 u) ∧ OnlyReader s u ∧ Consumed 1 s u ∧ u.eoi = true) ∧
      (s.hrem ≠ 0 → ∃ u, exec .hdsyms s = .next (doneErr 0x09 u) ∧ OnlyReader s u ∧ Consumed 1 s u ∧ u.eoi = true))

/-! ### LZW -/

/-- R203: LEMIT writes a code the dictionary holds and assigns the next one while asked and while capacity remains. -/
def Obligations.LemitEmitsAndAssigns : Prop :=
  ∀ (s : State) (c : BitVec 12) (g : Bool), s.optr.toNat ≤ s.obufSize →
    (c.toNat = 256 ∨ s.enext.toNat ≤ c.toNat → exec (.lemit c g) s = .next (doneErr 0x0A s)) ∧
    (c.toNat ≠ 256 → c.toNat < s.enext.toNat → 12 ≤ s.room →
      ∃ u, OnlyWriter s u ∧ u.written = s.written ++ bitsMsb (c.setWidth 64) 12 ∧
        ObufSameOutside s u s.optr.toNat u.optr.toNat ∧
        exec (.lemit c g) s = .next (doneOk
          (if g = true ∧ s.enext.toNat < 4096 then
            { u with result := BitVec.ofNat 32 (0x80000000 + s.enext.toNat), enext := s.enext + 1 }
          else { u with result := 0 }))) ∧
    (c.toNat ≠ 256 → c.toNat < s.enext.toNat → s.room < 12 →
      ∃ u, OnlyWriter s u ∧ u.written = s.written ++ (bitsMsb (c.setWidth 64) 12).take s.room ∧
        ObufSameOutside s u s.optr.toNat u.optr.toNat ∧ exec (.lemit c g) s = .next (doneErr 0x04 u))

/-- R205: LREAD reads a codeword `c` of 12 bits and classifies it. -/
def Obligations.LreadClassifies : Prop :=
  ∀ s : State, s.eoi = false →
    (12 ≤ s.remaining.length →
      ∃ u, OnlyReader s u ∧ Consumed 12 s u ∧ u.eoi = false ∧
        let c := numOf (s.remaining.take 12)
        let r := c + if c = s.dnext.toNat then 0x1000 else 0
        exec .lread s = .next
          (if c = 256 then doneOk { u with result := 0x2100 }
          else if s.dfirst = true then
            if 257 ≤ c then doneErr 0x09 u else doneOk { u with dfirst := false, result := BitVec.ofNat 32 c }
          else if s.dnext.toNat < c then doneErr 0x09 u
          else if s.dnext.toNat < 4096 then
            doneOk { u with dnext := s.dnext + 1, result := BitVec.ofNat 32 (r + 0x8000 + 0x10000 * s.dnext.toNat) }
          else doneOk { u with result := BitVec.ofNat 32 r })) ∧
    (s.remaining.length < 12 →
      ∃ u, exec .lread s = .next (doneErr 0x09 u) ∧ OnlyReader s u ∧ Consumed 12 s u ∧ u.eoi = true)

/-! ### Frequency counter -/

/-- R222, R225: FCOUNT adds the number of times each byte occurs in IBUF[0..ILEN-1], unless TOTAL would pass 2^32 - 1. The
premise is the invariant R45. -/
def Obligations.FcountCounts : Prop :=
  ∀ s : State,
    (2 ^ 32 ≤ s.total.toNat + s.ilen.toNat → exec .fcount s = .next (doneErr 0x05 s)) ∧
    (s.TotalOk → s.total.toNat + s.ilen.toNat < 2 ^ 32 →
      ∃ u, exec .fcount s = .next (doneOk u) ∧ u = { s with freq := u.freq, total := u.total } ∧
        u.total.toNat = s.total.toNat + s.ilen.toNat ∧
        ∀ c : Byte, u.counts c = s.counts c + ((List.range s.ilen.toNat).map s.ibufByte).count c)

/-- R223, R224: FRD reads a counter; FWR sets one and keeps TOTAL the sum, unless the sum would pass 2^32 - 1. The premise
`FREQ[s] <= TOTAL` follows from the invariant R45. -/
def Obligations.FrdAndFwr : Prop :=
  ∀ (s : State) (c : Byte),
    exec (.frd c) s = .next (doneOk { s with result := s.freqOf c }) ∧
    (2 ^ 32 + s.counts c ≤ s.total.toNat + s.arg.toNat → exec (.fwr c) s = .next (doneErr 0x05 s)) ∧
    (s.counts c ≤ s.total.toNat → s.total.toNat + s.arg.toNat < 2 ^ 32 + s.counts c →
      ∃ u, exec (.fwr c) s = .next (doneOk u) ∧ u = { s with freq := u.freq, total := u.total } ∧
        u.total.toNat = s.total.toNat - s.counts c + s.arg.toNat ∧ u.freqOf c = s.arg ∧
        ∀ d : Byte, d ≠ c → u.freqOf d = s.freqOf d)

/-! ### Huffman: build -/

/-- R240 to R245: HBUILD succeeds (CODE_TOO_LONG is unreachable while R45 holds, R244), builds the trie of the source's
algorithm, and the code of each symbol is the path to its leaf; nothing else changes, the entries at NODES and above
included. -/
def Obligations.HbuildBuildsTheHuffmanTrie : Prop :=
  ∀ s : State, s.TotalOk →
    ∃ u, exec .hbuild s = .next (doneOk u) ∧
      u = { s with tvalid := true, node := u.node, root := u.root, nodes := u.nodes, len := u.len, code := u.code } ∧
      u.HoldsTrie (huffmanTree s.counts) ∧ u.root.val + 1 = u.nodes.val ∧
      (∀ c : Byte, u.codeBits c = (huffmanTree s.counts).pathOf c) ∧ u.CodesOk ∧
      ∀ j : Nat, u.nodes.val ≤ j → u.node[j]? = s.node[j]?

/-- R241, R242: where HBUILD puts what in the arena: the leaves in order from index 0, then each internal node over the two least
elements of the queue as it stands then, left child first. -/
def Obligations.HbuildFollowsTheQueue : Prop :=
  ∀ s : State, s.TotalOk →
    ∃ u, exec .hbuild s = .next (doneOk u) ∧
      u.nodes.val + 1 = 2 * (leafSymbols s.counts).length ∧ u.root.val + 1 = u.nodes.val ∧
      (∀ (j : Nat) (c : Byte), (leafSymbols s.counts)[j]? = some c →
        u.node[j]? = some { leaf := true, sym := c, left := 0, right := 0, f := s.freqOf c }) ∧
      ∀ n : Nat, (leafSymbols s.counts).length ≤ n → n < u.nodes.val →
        ∃ (x y : Fin 511) (f : Word),
          u.node[n]? = some { leaf := false, sym := 0, left := x, right := y, f := f } ∧
          f.toNat = weightAt u.node x.val + weightAt u.node y.val ∧
          IsLeast u.node (queueAt u.node (leafSymbols s.counts).length n) x.val ∧
          IsLeast u.node ((queueAt u.node (leafSymbols s.counts).length n).erase x.val) y.val

/-- R251: the sizes, sums and completeness of the built trie, with `D` the number of distinct symbols. -/
def Obligations.BuiltTrieLaws : Prop :=
  ∀ s : State, s.TotalOk →
    ∃ u t, exec .hbuild s = .next (doneOk u) ∧ u.HoldsTrie t ∧
      t.leafSyms.length = max (distinctCount s.counts) 2 ∧ u.nodes.val + 1 = 2 * max (distinctCount s.counts) 2 ∧
      (2 ≤ distinctCount s.counts → ∀ c : Byte, c ∈ t.leafSyms ↔ s.counts c ≠ 0) ∧ t.leafSyms.Nodup ∧
      (t.leafSyms.map s.counts).sum = s.total.toNat ∧ (u.nodeAt u.root).f = s.total ∧
      (t.leafSyms.map fun c => 2 ^ (64 - (u.lenOf c).toNat)).sum = 2 ^ 64

/-- R246 to R250: the commands that read the code table and the arena. -/
def Obligations.TableReads : Prop :=
  ∀ (s : State) (c : Byte) (i : BitVec 12),
    exec (.hlen c) s = .next (doneOk { s with result := BitVec.ofNat 32 (s.lenOf c).toNat }) ∧
    exec (.hcodelo c) s = .next (doneOk { s with result := BitVec.ofNat 32 ((s.codeOf c).toNat % 2 ^ 32) }) ∧
    exec (.hcodehi c) s = .next (doneOk { s with result := BitVec.ofNat 32 ((s.codeOf c).toNat / 2 ^ 32) }) ∧
    (s.nodes.val ≤ i.toNat → exec (.hnode i) s = .next (doneOk { s with result := 0 }) ∧
      exec (.hnodef i) s = .next (doneOk { s with result := 0 })) ∧
    ∀ j : Fin 511, j.val = i.toNat → i.toNat < s.nodes.val →
      exec (.hnodef i) s = .next (doneOk { s with result := (s.nodeAt j).f }) ∧
      let v := if (s.nodeAt j).leaf then 0xC0000000 + (s.nodeAt j).sym.toNat
        else 0x80000000 + 0x10000 * (s.nodeAt j).right.val + (s.nodeAt j).left.val
      exec (.hnode i) s = .next (doneOk { s with result := BitVec.ofNat 32 v })

/-! ### Huffman: encode -/

/-- R260, R261, R264: HTRIE sends the serialization of the trie, 10 L - 1 bits for L leaves; HSYM sends the code of its
symbol. -/
def Obligations.HtrieAndHsymSend : Prop :=
  ∀ s : State, s.tvalid = true → s.optr.toNat ≤ s.obufSize →
    (∀ t : Tree, s.HoldsTrie t → Sends .htrie s t.bits ∧ t.bits.length + 1 = 10 * t.leafSyms.length) ∧
    ∀ c : Byte, (s.lenOf c = 0 → exec (.hsym c) s = .next (doneErr 0x07 s)) ∧
      (s.lenOf c ≠ 0 → Sends (.hsym c) s (s.codeBits c))

/-- R265: HSYMS sends the codes of the bytes IBUF[0..ILEN-1] in order; a byte without a code stops it with NO_CODE after the codes
before it. -/
def Obligations.HsymsSendsTheInput : Prop :=
  ∀ s : State, s.tvalid = true → s.optr.toNat ≤ s.obufSize →
    ((∀ c ∈ (List.range s.ilen.toNat).map s.ibufByte, s.lenOf c ≠ 0) →
      Sends .hsyms s (((List.range s.ilen.toNat).map s.ibufByte).flatMap s.codeBits)) ∧
    ∀ (pre post : List Byte) (c : Byte), (List.range s.ilen.toNat).map s.ibufByte = pre ++ c :: post →
      (∀ d ∈ pre, s.lenOf d ≠ 0) → s.lenOf c = 0 →
      ((pre.flatMap s.codeBits).length ≤ s.room →
        ∃ u, exec .hsyms s = .next (doneErr 0x07 u) ∧ OnlyWriter s u ∧ u.written = s.written ++ pre.flatMap s.codeBits ∧
          ObufSameOutside s u s.optr.toNat u.optr.toNat) ∧
      (s.room < (pre.flatMap s.codeBits).length →
        ∃ u, exec .hsyms s = .next (doneErr 0x04 u) ∧ OnlyWriter s u ∧
          u.written = s.written ++ (pre.flatMap s.codeBits).take s.room ∧
          ObufSameOutside s u s.optr.toNat u.optr.toNat)

/-- R266, R267: from every state HCOMP writes exactly the source's Huffman format of IBUF[0..ILEN-1], padded to a byte; where OBUF
is too small it stops with OBUF_OVERFLOW, the bits before written. It changes only the writer, the frequency table, the trie
and the code table. -/
def Obligations.HcompWritesTheFormat : Prop :=
  ∀ s : State,
    let input := (List.range s.ilen.toNat).map s.ibufByte
    let stream := huffmanStream input
    ∃ u, u = { s with optr := u.optr, wacc := u.wacc, wcnt := u.wcnt, obuf := u.obuf, freq := u.freq, total := u.total,
                      len := u.len, code := u.code, tvalid := true, node := u.node, root := u.root, nodes := u.nodes } ∧
      u.HoldsTrie (huffmanTree fun c => input.count c) ∧ (∀ c : Byte, u.counts c = input.count c) ∧
      u.total.toNat = s.ilen.toNat ∧ (∀ c : Byte, u.codeBits c = (huffmanTree fun c => input.count c).pathOf c) ∧
      ObufSameOutside s u 0 u.optr.toNat ∧
      (stream.length ≤ 8 * s.obufSize →
        exec .hcomp s = .next (doneOk u) ∧ u.written = stream ++ padBits stream.length ∧ u.wcnt = 0 ∧
          u.optr.toNat = (stream.length + 7) / 8) ∧
      (8 * s.obufSize < stream.length →
        exec .hcomp s = .next (doneErr 0x04 u) ∧ u.written = stream.take (8 * s.obufSize + 7))

/-! ### Huffman: decode -/

/-- R281, R282: HRTRIE reads the serialization of a trie of at most 511 nodes into the arena, in preorder from index 0, with F = 0;
on any other input, and with EOI already 1, it raises MALFORMED_STREAM and leaves no valid trie. Then the nodes allocated so far,
those of the cut trie `p`, are counted and kept, unfinished fields 0, and the bits read stay consumed (R311, U14): all of the
input and EOI = 1 where it ends inside the trie (R183), or up to the tag of a 512th node (R312). -/
def Obligations.HrtrieReadsATrie : Prop :=
  ∀ s : State,
    (∀ (t : Tree) (rest : List Bool), s.eoi = false → s.remaining = t.bits ++ rest → t.size ≤ 511 →
      ∃ u, exec .hrtrie s = .next (doneOk u) ∧
        u = { s with iptr := u.iptr, racc := u.racc, rcnt := u.rcnt, node := u.node, nodes := u.nodes, root := 0,
                     tvalid := true, len := Vector.replicate 256 0, code := Vector.replicate 256 0 } ∧
        Consumed t.bits.length s u ∧ u.nodes.val = t.size ∧ Represents u.node 0 t ∧
        indicesOf u.node 0 t = List.range t.size ∧
        (∀ j : Fin 511, j.val < t.size → (u.nodeAt j).f = 0 ∧
          ((u.nodeAt j).leaf = true → (u.nodeAt j).left = 0 ∧ (u.nodeAt j).right = 0) ∧
          ((u.nodeAt j).leaf = false → (u.nodeAt j).sym = 0)) ∧
        ∀ j : Fin 511, t.size ≤ j.val → u.nodeAt j = s.nodeAt j) ∧
    ((s.eoi = true ∨ ∀ (t : Tree) (rest : List Bool), t.size ≤ 511 → s.remaining ≠ t.bits ++ rest) →
      ∃ u, exec .hrtrie s = .next (doneErr 0x09 u) ∧
        u = { s with iptr := u.iptr, racc := u.racc, rcnt := u.rcnt, eoi := u.eoi, node := u.node, nodes := u.nodes,
                     root := 0, tvalid := false, len := Vector.replicate 256 0, code := Vector.replicate 256 0 } ∧
        (∀ j : Fin 511, u.nodes.val ≤ j.val → u.nodeAt j = s.nodeAt j) ∧
        ∃ p : CutTree, u.nodes.val = p.size ∧ Consumed (p.bits.length + 1) s u ∧
          (∀ j : Fin 511, j.val < p.size → (p.entries 0)[j.val]? = some (u.nodeAt j)) ∧
          ((s.eoi = true ∧ p = .tag ∧ u.eoi = true) ∨
            (s.eoi = false ∧ s.remaining = p.bits ∧ (∀ n ∈ p.symBits, n < 8) ∧ u.eoi = true) ∨
            (s.eoi = false ∧ p.symBits = none ∧ p.size = 511 ∧ (∃ b rest, s.remaining = p.bits ++ b :: rest) ∧
              u.eoi = false)))

/-- R284: HRCOUNT reads the 32-bit count into HREM; on an input that ends inside the field HREM is unchanged. -/
def Obligations.HrcountReadsTheCount : Prop :=
  ∀ s : State, s.eoi = false →
    (32 ≤ s.remaining.length →
      ∃ u, exec .hrcount s = .next (doneOk { u with hrem := BitVec.ofNat 32 (numOf (s.remaining.take 32)) }) ∧
        OnlyReader s u ∧ Consumed 32 s u ∧ u.eoi = false) ∧
    (s.remaining.length < 32 →
      ∃ u, exec .hrcount s = .next (doneErr 0x09 u) ∧ OnlyReader s u ∧ Consumed 32 s u ∧ u.eoi = true)

/-- R283, R285: HDSYM follows a path of the trie to its leaf, one bit per internal node, and returns the leaf's symbol; on an
input that ends inside the path it raises MALFORMED_STREAM with RESULT unchanged. Where the root is a leaf it reads no bit, and
succeeds with EOI = 1 too (with EOI = 1 and a bit to read: `DecodeAfterEndOfInput`). -/
def Obligations.HdsymDecodesOneSymbol : Prop :=
  ∀ (s : State) (t : Tree), s.tvalid = true → s.HoldsTrie t →
    ∀ (c : Byte) (p : List Bool), (c, p) ∈ t.paths →
      (∀ rest : List Bool, s.remaining = p ++ rest → (s.eoi = false ∨ p = []) →
        ∃ u, exec .hdsym s = .next (doneOk { u with result := c.setWidth 32 }) ∧ OnlyReader s u ∧
          Consumed p.length s u ∧ u.eoi = s.eoi) ∧
      (∀ more : List Bool, s.eoi = false → more ≠ [] → p = s.remaining ++ more →
        ∃ u, exec .hdsym s = .next (doneErr 0x09 u) ∧ OnlyReader s u ∧ Consumed p.length s u ∧ u.eoi = true)

/-- R286: HDSYMS decodes HREM symbols, `es` with their paths, and writes their bytes; where the input ends inside a code, or a
byte does not fit, it stops with the error, HREM counting the symbols not completed. Where no bit is read (HREM is 0, or the
root is a leaf) EOI = 1 changes nothing of this (with EOI = 1 and a bit to read: `DecodeAfterEndOfInput`). -/
def Obligations.HdsymsDecodesHremSymbols : Prop :=
  ∀ (s : State) (t : Tree) (es : List (Byte × List Bool)) (rest : List Bool), s.tvalid = true → s.HoldsTrie t →
    (s.eoi = false ∨ es.flatMap Prod.snd = []) → s.optr.toNat ≤ s.obufSize → (∀ e ∈ es, e ∈ t.paths) →
    s.remaining = es.flatMap Prod.snd ++ rest → es.length ≤ s.hrem.toNat →
    (8 * es.length ≤ s.room → es.length = s.hrem.toNat →
      ∃ u, exec .hdsyms s = .next (doneOk u) ∧ OnlyDecoder s u ∧ Consumed (es.flatMap Prod.snd).length s u ∧
        u.eoi = s.eoi ∧ u.hrem = 0 ∧ u.written = s.written ++ (es.map Prod.fst).flatMap byteBits ∧
        ObufSameOutside s u s.optr.toNat u.optr.toNat) ∧
    (8 * es.length ≤ s.room → es.length < s.hrem.toNat → s.eoi = false →
      (∃ e ∈ t.paths, ∃ more : List Bool, more ≠ [] ∧ e.2 = rest ++ more) →
      ∃ u, exec .hdsyms s = .next (doneErr 0x09 u) ∧ OnlyDecoder s u ∧ Consumed (s.remaining.length + 1) s u ∧ u.eoi = true ∧
        u.hrem.toNat = s.hrem.toNat - es.length ∧ u.written = s.written ++ (es.map Prod.fst).flatMap byteBits ∧
        ObufSameOutside s u s.optr.toNat u.optr.toNat) ∧
    (s.room < 8 * es.length →
      ∃ u, exec .hdsyms s = .next (doneErr 0x04 u) ∧ OnlyDecoder s u ∧ u.eoi = s.eoi ∧
        Consumed ((es.take (s.room / 8 + 1)).flatMap Prod.snd).length s u ∧
        u.hrem.toNat = s.hrem.toNat - s.room / 8 ∧
        u.written = s.written ++ ((es.map Prod.fst).flatMap byteBits).take s.room ∧
        ObufSameOutside s u s.optr.toNat u.optr.toNat)

/-- R287: HEXP on a stream of the format, whatever follows it, leaves the decoded bytes in OBUF; with the codes cut short it
raises MALFORMED_STREAM after the symbols before, with OBUF too small OBUF_OVERFLOW, and on an input that holds no trie and
count MALFORMED_STREAM with nothing written. -/
def Obligations.HexpExpands : Prop :=
  ∀ s : State,
    let bits := (List.range s.ilen.toNat).flatMap fun i => byteBits (s.ibufByte i)
    (∀ (t : Tree) (n : Word) (es : List (Byte × List Bool)) (rest : List Bool), t.size ≤ 511 →
      (∀ e ∈ es, e ∈ t.paths) → es.length ≤ n.toNat →
      bits = t.bits ++ bitsMsb (n.setWidth 64) 32 ++ es.flatMap Prod.snd ++ rest →
      ∃ u, u = { s with iptr := u.iptr, racc := u.racc, rcnt := u.rcnt, eoi := u.eoi, optr := u.optr, wacc := u.wacc,
                        wcnt := u.wcnt, obuf := u.obuf, node := u.node, nodes := u.nodes, root := 0, tvalid := true,
                        hrem := u.hrem, len := Vector.replicate 256 0, code := Vector.replicate 256 0 } ∧
        u.HoldsTrie t ∧ ObufSameOutside s u 0 u.optr.toNat ∧
        (es.length = n.toNat → n.toNat ≤ s.obufSize →
          exec .hexp s = .next (doneOk u) ∧ u.optr.toNat = n.toNat ∧ u.wcnt = 0 ∧ u.eoi = false ∧ u.hrem = 0 ∧
            (List.range n.toNat).map u.obufByte = es.map Prod.fst) ∧
        (es.length < n.toNat → es.length ≤ s.obufSize →
          (∃ e ∈ t.paths, ∃ more : List Bool, more ≠ [] ∧ e.2 = rest ++ more) →
          exec .hexp s = .next (doneErr 0x09 u) ∧ u.optr.toNat = es.length ∧ u.eoi = true ∧
            u.hrem.toNat = n.toNat - es.length ∧ (List.range es.length).map u.obufByte = es.map Prod.fst) ∧
        (s.obufSize < es.length →
          exec .hexp s = .next (doneErr 0x04 u) ∧ u.optr.toNat = s.obufSize ∧ u.hrem.toNat = n.toNat - s.obufSize ∧
            (List.range s.obufSize).map u.obufByte = (es.map Prod.fst).take s.obufSize)) ∧
    ((∀ (t : Tree) (cnt rest : List Bool), t.size ≤ 511 → cnt.length = 32 → bits ≠ t.bits ++ cnt ++ rest) →
      ∃ u, exec .hexp s = .next (doneErr 0x09 u) ∧ u.optr = 0 ∧ u.wcnt = 0 ∧ u.obuf = s.obuf ∧ u.hrem = s.hrem)

/-! ### Compositions -/

/-- R266, R287, R360: the composite commands are exactly their parts in order, stopping at the first error; they differ only in
the count of commands. -/
def Obligations.CompositesAreTheirParts : Prop :=
  ∀ s : State, s.err = false →
    (∃ w, runParts [.winit, .fclr, .fcount, .hbuild, .htrie, .hcountw, .hsyms, .wflush] s = some w ∧
      exec .hcomp s = .next { w with cmdcnt := s.cmdcnt + 1 }) ∧
    ∃ w, runParts [.rinit, .winit, .hrtrie, .hrcount, .hdsyms, .wflush] s = some w ∧
      exec .hexp s = .next { w with cmdcnt := s.cmdcnt + 1 }

/-- R289: the output of HCOMP, copied by the host to IBUF, is expanded by HEXP to the input, for every input, the empty one and
those of one symbol included. That OBUF has room for the N bytes is the premise of log 21, which R289 does not state; `r` is any
state whose IBUF holds the stream. -/
def Obligations.HuffmanRoundTrip : Prop :=
  ∀ s w r : State, exec .hcomp s = .next w → s.err = false → w.err = false → r.ilen = w.optr →
    (∀ i < w.optr.toNat, r.ibufByte i = w.obufByte i) → s.ilen.toNat ≤ r.obufSize →
    ∃ u, exec .hexp r = .next (doneOk u) ∧ u.optr.toNat = s.ilen.toNat ∧ u.hrem = 0 ∧ u.eoi = false ∧
      ∀ i < s.ilen.toNat, u.obufByte i = s.ibufByte i
end

