-- ==== Sys2Proof/Laws/State.lean ====
section
/-! SUPPORT. What each named update of State does to each field: one lemma per field, so that no later proof unfolds a
record update. -/

namespace Sys2Proof.Machine

/-! ### finish -/

@[simp] theorem finish_arg (s : State) : (finish s).arg = s.arg := rfl
@[simp] theorem finish_result (s : State) : (finish s).result = s.result := rfl
@[simp] theorem finish_busy (s : State) : (finish s).busy = false := rfl
@[simp] theorem finish_err (s : State) : (finish s).err = s.err := rfl
@[simp] theorem finish_eoi (s : State) : (finish s).eoi = s.eoi := rfl
@[simp] theorem finish_tvalid (s : State) : (finish s).tvalid = s.tvalid := rfl
@[simp] theorem finish_errCode (s : State) : (finish s).errCode = s.errCode := rfl
@[simp] theorem finish_errOp (s : State) : (finish s).errOp = s.errOp := rfl
@[simp] theorem finish_doneIe (s : State) : (finish s).doneIe = s.doneIe := rfl
@[simp] theorem finish_errIe (s : State) : (finish s).errIe = s.errIe := rfl
@[simp] theorem finish_irqDone (s : State) : (finish s).irqDone = true := rfl
@[simp] theorem finish_irqErri (s : State) : (finish s).irqErri = s.irqErri := rfl
@[simp] theorem finish_cmdcnt (s : State) : (finish s).cmdcnt = s.cmdcnt + 1 := rfl
@[simp] theorem finish_ilen (s : State) : (finish s).ilen = s.ilen := rfl
@[simp] theorem finish_iptr (s : State) : (finish s).iptr = s.iptr := rfl
@[simp] theorem finish_racc (s : State) : (finish s).racc = s.racc := rfl
@[simp] theorem finish_rcnt (s : State) : (finish s).rcnt = s.rcnt := rfl
@[simp] theorem finish_optr (s : State) : (finish s).optr = s.optr := rfl
@[simp] theorem finish_wacc (s : State) : (finish s).wacc = s.wacc := rfl
@[simp] theorem finish_wcnt (s : State) : (finish s).wcnt = s.wcnt := rfl
@[simp] theorem finish_freq (s : State) : (finish s).freq = s.freq := rfl
@[simp] theorem finish_total (s : State) : (finish s).total = s.total := rfl
@[simp] theorem finish_len (s : State) : (finish s).len = s.len := rfl
@[simp] theorem finish_code (s : State) : (finish s).code = s.code := rfl
@[simp] theorem finish_node (s : State) : (finish s).node = s.node := rfl
@[simp] theorem finish_root (s : State) : (finish s).root = s.root := rfl
@[simp] theorem finish_nodes (s : State) : (finish s).nodes = s.nodes := rfl
@[simp] theorem finish_hrem (s : State) : (finish s).hrem = s.hrem := rfl
@[simp] theorem finish_enext (s : State) : (finish s).enext = s.enext := rfl
@[simp] theorem finish_dnext (s : State) : (finish s).dnext = s.dnext := rfl
@[simp] theorem finish_dfirst (s : State) : (finish s).dfirst = s.dfirst := rfl
@[simp] theorem finish_ibuf (s : State) : (finish s).ibuf = s.ibuf := rfl
@[simp] theorem finish_obuf (s : State) : (finish s).obuf = s.obuf := rfl
@[simp] theorem finish_pending (s : State) : (finish s).pending = s.pending := rfl
@[simp] theorem finish_rstN (s : State) : (finish s).rstN = s.rstN := rfl
@[simp] theorem finish_ibufExp (s : State) : (finish s).ibufExp = s.ibufExp := rfl
@[simp] theorem finish_obufExp (s : State) : (finish s).obufExp = s.obufExp := rfl
@[simp] theorem finish_hostq (s : State) : (finish s).hostq = s.hostq := rfl
@[simp] theorem finish_hostData (s : State) : (finish s).hostData = s.hostData := rfl
@[simp] theorem finish_draws (s : State) : (finish s).draws = s.draws := rfl

/-! ### clearError -/

@[simp] theorem clearError_arg (s : State) : (clearError s).arg = s.arg := rfl
@[simp] theorem clearError_result (s : State) : (clearError s).result = s.result := rfl
@[simp] theorem clearError_busy (s : State) : (clearError s).busy = s.busy := rfl
@[simp] theorem clearError_err (s : State) : (clearError s).err = false := rfl
@[simp] theorem clearError_eoi (s : State) : (clearError s).eoi = s.eoi := rfl
@[simp] theorem clearError_tvalid (s : State) : (clearError s).tvalid = s.tvalid := rfl
@[simp] theorem clearError_errCode (s : State) : (clearError s).errCode = 0 := rfl
@[simp] theorem clearError_errOp (s : State) : (clearError s).errOp = 0 := rfl
@[simp] theorem clearError_doneIe (s : State) : (clearError s).doneIe = s.doneIe := rfl
@[simp] theorem clearError_errIe (s : State) : (clearError s).errIe = s.errIe := rfl
@[simp] theorem clearError_irqDone (s : State) : (clearError s).irqDone = s.irqDone := rfl
@[simp] theorem clearError_irqErri (s : State) : (clearError s).irqErri = s.irqErri := rfl
@[simp] theorem clearError_cmdcnt (s : State) : (clearError s).cmdcnt = s.cmdcnt := rfl
@[simp] theorem clearError_ilen (s : State) : (clearError s).ilen = s.ilen := rfl
@[simp] theorem clearError_iptr (s : State) : (clearError s).iptr = s.iptr := rfl
@[simp] theorem clearError_racc (s : State) : (clearError s).racc = s.racc := rfl
@[simp] theorem clearError_rcnt (s : State) : (clearError s).rcnt = s.rcnt := rfl
@[simp] theorem clearError_optr (s : State) : (clearError s).optr = s.optr := rfl
@[simp] theorem clearError_wacc (s : State) : (clearError s).wacc = s.wacc := rfl
@[simp] theorem clearError_wcnt (s : State) : (clearError s).wcnt = s.wcnt := rfl
@[simp] theorem clearError_freq (s : State) : (clearError s).freq = s.freq := rfl
@[simp] theorem clearError_total (s : State) : (clearError s).total = s.total := rfl
@[simp] theorem clearError_len (s : State) : (clearError s).len = s.len := rfl
@[simp] theorem clearError_code (s : State) : (clearError s).code = s.code := rfl
@[simp] theorem clearError_node (s : State) : (clearError s).node = s.node := rfl
@[simp] theorem clearError_root (s : State) : (clearError s).root = s.root := rfl
@[simp] theorem clearError_nodes (s : State) : (clearError s).nodes = s.nodes := rfl
@[simp] theorem clearError_hrem (s : State) : (clearError s).hrem = s.hrem := rfl
@[simp] theorem clearError_enext (s : State) : (clearError s).enext = s.enext := rfl
@[simp] theorem clearError_dnext (s : State) : (clearError s).dnext = s.dnext := rfl
@[simp] theorem clearError_dfirst (s : State) : (clearError s).dfirst = s.dfirst := rfl
@[simp] theorem clearError_ibuf (s : State) : (clearError s).ibuf = s.ibuf := rfl
@[simp] theorem clearError_obuf (s : State) : (clearError s).obuf = s.obuf := rfl
@[simp] theorem clearError_pending (s : State) : (clearError s).pending = s.pending := rfl
@[simp] theorem clearError_rstN (s : State) : (clearError s).rstN = s.rstN := rfl
@[simp] theorem clearError_ibufExp (s : State) : (clearError s).ibufExp = s.ibufExp := rfl
@[simp] theorem clearError_obufExp (s : State) : (clearError s).obufExp = s.obufExp := rfl
@[simp] theorem clearError_hostq (s : State) : (clearError s).hostq = s.hostq := rfl
@[simp] theorem clearError_hostData (s : State) : (clearError s).hostData = s.hostData := rfl
@[simp] theorem clearError_draws (s : State) : (clearError s).draws = s.draws := rfl

/-! ### record -/

@[simp] theorem record_arg (e : ErrKind) (op : Byte) (s : State) : (record e op s).arg = s.arg := by
  unfold record; split <;> simp_all
@[simp] theorem record_result (e : ErrKind) (op : Byte) (s : State) : (record e op s).result = s.result := by
  unfold record; split <;> simp_all
@[simp] theorem record_busy (e : ErrKind) (op : Byte) (s : State) : (record e op s).busy = s.busy := by
  unfold record; split <;> simp_all
@[simp] theorem record_err (e : ErrKind) (op : Byte) (s : State) : (record e op s).err = true := by
  unfold record; split <;> simp_all
@[simp] theorem record_eoi (e : ErrKind) (op : Byte) (s : State) : (record e op s).eoi = s.eoi := by
  unfold record; split <;> simp_all
@[simp] theorem record_tvalid (e : ErrKind) (op : Byte) (s : State) : (record e op s).tvalid = s.tvalid := by
  unfold record; split <;> simp_all
@[simp] theorem record_errCode (e : ErrKind) (op : Byte) (s : State) : (record e op s).errCode = if s.err then s.errCode else errCodeOf e := by
  unfold record; split <;> simp_all
@[simp] theorem record_errOp (e : ErrKind) (op : Byte) (s : State) : (record e op s).errOp = if s.err then s.errOp else op := by
  unfold record; split <;> simp_all
@[simp] theorem record_doneIe (e : ErrKind) (op : Byte) (s : State) : (record e op s).doneIe = s.doneIe := by
  unfold record; split <;> simp_all
@[simp] theorem record_errIe (e : ErrKind) (op : Byte) (s : State) : (record e op s).errIe = s.errIe := by
  unfold record; split <;> simp_all
@[simp] theorem record_irqDone (e : ErrKind) (op : Byte) (s : State) : (record e op s).irqDone = s.irqDone := by
  unfold record; split <;> simp_all
@[simp] theorem record_irqErri (e : ErrKind) (op : Byte) (s : State) : (record e op s).irqErri = true := by
  unfold record; split <;> simp_all
@[simp] theorem record_cmdcnt (e : ErrKind) (op : Byte) (s : State) : (record e op s).cmdcnt = s.cmdcnt := by
  unfold record; split <;> simp_all
@[simp] theorem record_ilen (e : ErrKind) (op : Byte) (s : State) : (record e op s).ilen = s.ilen := by
  unfold record; split <;> simp_all
@[simp] theorem record_iptr (e : ErrKind) (op : Byte) (s : State) : (record e op s).iptr = s.iptr := by
  unfold record; split <;> simp_all
@[simp] theorem record_racc (e : ErrKind) (op : Byte) (s : State) : (record e op s).racc = s.racc := by
  unfold record; split <;> simp_all
@[simp] theorem record_rcnt (e : ErrKind) (op : Byte) (s : State) : (record e op s).rcnt = s.rcnt := by
  unfold record; split <;> simp_all
@[simp] theorem record_optr (e : ErrKind) (op : Byte) (s : State) : (record e op s).optr = s.optr := by
  unfold record; split <;> simp_all
@[simp] theorem record_wacc (e : ErrKind) (op : Byte) (s : State) : (record e op s).wacc = s.wacc := by
  unfold record; split <;> simp_all
@[simp] theorem record_wcnt (e : ErrKind) (op : Byte) (s : State) : (record e op s).wcnt = s.wcnt := by
  unfold record; split <;> simp_all
@[simp] theorem record_freq (e : ErrKind) (op : Byte) (s : State) : (record e op s).freq = s.freq := by
  unfold record; split <;> simp_all
@[simp] theorem record_total (e : ErrKind) (op : Byte) (s : State) : (record e op s).total = s.total := by
  unfold record; split <;> simp_all
@[simp] theorem record_len (e : ErrKind) (op : Byte) (s : State) : (record e op s).len = s.len := by
  unfold record; split <;> simp_all
@[simp] theorem record_code (e : ErrKind) (op : Byte) (s : State) : (record e op s).code = s.code := by
  unfold record; split <;> simp_all
@[simp] theorem record_node (e : ErrKind) (op : Byte) (s : State) : (record e op s).node = s.node := by
  unfold record; split <;> simp_all
@[simp] theorem record_root (e : ErrKind) (op : Byte) (s : State) : (record e op s).root = s.root := by
  unfold record; split <;> simp_all
@[simp] theorem record_nodes (e : ErrKind) (op : Byte) (s : State) : (record e op s).nodes = s.nodes := by
  unfold record; split <;> simp_all
@[simp] theorem record_hrem (e : ErrKind) (op : Byte) (s : State) : (record e op s).hrem = s.hrem := by
  unfold record; split <;> simp_all
@[simp] theorem record_enext (e : ErrKind) (op : Byte) (s : State) : (record e op s).enext = s.enext := by
  unfold record; split <;> simp_all
@[simp] theorem record_dnext (e : ErrKind) (op : Byte) (s : State) : (record e op s).dnext = s.dnext := by
  unfold record; split <;> simp_all
@[simp] theorem record_dfirst (e : ErrKind) (op : Byte) (s : State) : (record e op s).dfirst = s.dfirst := by
  unfold record; split <;> simp_all
@[simp] theorem record_ibuf (e : ErrKind) (op : Byte) (s : State) : (record e op s).ibuf = s.ibuf := by
  unfold record; split <;> simp_all
@[simp] theorem record_obuf (e : ErrKind) (op : Byte) (s : State) : (record e op s).obuf = s.obuf := by
  unfold record; split <;> simp_all
@[simp] theorem record_pending (e : ErrKind) (op : Byte) (s : State) : (record e op s).pending = s.pending := by
  unfold record; split <;> simp_all
@[simp] theorem record_rstN (e : ErrKind) (op : Byte) (s : State) : (record e op s).rstN = s.rstN := by
  unfold record; split <;> simp_all
@[simp] theorem record_ibufExp (e : ErrKind) (op : Byte) (s : State) : (record e op s).ibufExp = s.ibufExp := by
  unfold record; split <;> simp_all
@[simp] theorem record_obufExp (e : ErrKind) (op : Byte) (s : State) : (record e op s).obufExp = s.obufExp := by
  unfold record; split <;> simp_all
@[simp] theorem record_hostq (e : ErrKind) (op : Byte) (s : State) : (record e op s).hostq = s.hostq := by
  unfold record; split <;> simp_all
@[simp] theorem record_hostData (e : ErrKind) (op : Byte) (s : State) : (record e op s).hostData = s.hostData := by
  unfold record; split <;> simp_all
@[simp] theorem record_draws (e : ErrKind) (op : Byte) (s : State) : (record e op s).draws = s.draws := by
  unfold record; split <;> simp_all

/-! ### setEoi -/

@[simp] theorem setEoi_arg (s : State) : (setEoi s).arg = s.arg := rfl
@[simp] theorem setEoi_result (s : State) : (setEoi s).result = s.result := rfl
@[simp] theorem setEoi_busy (s : State) : (setEoi s).busy = s.busy := rfl
@[simp] theorem setEoi_err (s : State) : (setEoi s).err = s.err := rfl
@[simp] theorem setEoi_eoi (s : State) : (setEoi s).eoi = true := rfl
@[simp] theorem setEoi_tvalid (s : State) : (setEoi s).tvalid = s.tvalid := rfl
@[simp] theorem setEoi_errCode (s : State) : (setEoi s).errCode = s.errCode := rfl
@[simp] theorem setEoi_errOp (s : State) : (setEoi s).errOp = s.errOp := rfl
@[simp] theorem setEoi_doneIe (s : State) : (setEoi s).doneIe = s.doneIe := rfl
@[simp] theorem setEoi_errIe (s : State) : (setEoi s).errIe = s.errIe := rfl
@[simp] theorem setEoi_irqDone (s : State) : (setEoi s).irqDone = s.irqDone := rfl
@[simp] theorem setEoi_irqErri (s : State) : (setEoi s).irqErri = s.irqErri := rfl
@[simp] theorem setEoi_cmdcnt (s : State) : (setEoi s).cmdcnt = s.cmdcnt := rfl
@[simp] theorem setEoi_ilen (s : State) : (setEoi s).ilen = s.ilen := rfl
@[simp] theorem setEoi_iptr (s : State) : (setEoi s).iptr = s.iptr := rfl
@[simp] theorem setEoi_racc (s : State) : (setEoi s).racc = s.racc := rfl
@[simp] theorem setEoi_rcnt (s : State) : (setEoi s).rcnt = s.rcnt := rfl
@[simp] theorem setEoi_optr (s : State) : (setEoi s).optr = s.optr := rfl
@[simp] theorem setEoi_wacc (s : State) : (setEoi s).wacc = s.wacc := rfl
@[simp] theorem setEoi_wcnt (s : State) : (setEoi s).wcnt = s.wcnt := rfl
@[simp] theorem setEoi_freq (s : State) : (setEoi s).freq = s.freq := rfl
@[simp] theorem setEoi_total (s : State) : (setEoi s).total = s.total := rfl
@[simp] theorem setEoi_len (s : State) : (setEoi s).len = s.len := rfl
@[simp] theorem setEoi_code (s : State) : (setEoi s).code = s.code := rfl
@[simp] theorem setEoi_node (s : State) : (setEoi s).node = s.node := rfl
@[simp] theorem setEoi_root (s : State) : (setEoi s).root = s.root := rfl
@[simp] theorem setEoi_nodes (s : State) : (setEoi s).nodes = s.nodes := rfl
@[simp] theorem setEoi_hrem (s : State) : (setEoi s).hrem = s.hrem := rfl
@[simp] theorem setEoi_enext (s : State) : (setEoi s).enext = s.enext := rfl
@[simp] theorem setEoi_dnext (s : State) : (setEoi s).dnext = s.dnext := rfl
@[simp] theorem setEoi_dfirst (s : State) : (setEoi s).dfirst = s.dfirst := rfl
@[simp] theorem setEoi_ibuf (s : State) : (setEoi s).ibuf = s.ibuf := rfl
@[simp] theorem setEoi_obuf (s : State) : (setEoi s).obuf = s.obuf := rfl
@[simp] theorem setEoi_pending (s : State) : (setEoi s).pending = s.pending := rfl
@[simp] theorem setEoi_rstN (s : State) : (setEoi s).rstN = s.rstN := rfl
@[simp] theorem setEoi_ibufExp (s : State) : (setEoi s).ibufExp = s.ibufExp := rfl
@[simp] theorem setEoi_obufExp (s : State) : (setEoi s).obufExp = s.obufExp := rfl
@[simp] theorem setEoi_hostq (s : State) : (setEoi s).hostq = s.hostq := rfl
@[simp] theorem setEoi_hostData (s : State) : (setEoi s).hostData = s.hostData := rfl
@[simp] theorem setEoi_draws (s : State) : (setEoi s).draws = s.draws := rfl

/-! ### setNode -/

@[simp] theorem State.setNode_arg (s : State) (i : Fin 511) (n : Node) : (s.setNode i n).arg = s.arg := rfl
@[simp] theorem State.setNode_result (s : State) (i : Fin 511) (n : Node) : (s.setNode i n).result = s.result := rfl
@[simp] theorem State.setNode_busy (s : State) (i : Fin 511) (n : Node) : (s.setNode i n).busy = s.busy := rfl
@[simp] theorem State.setNode_err (s : State) (i : Fin 511) (n : Node) : (s.setNode i n).err = s.err := rfl
@[simp] theorem State.setNode_eoi (s : State) (i : Fin 511) (n : Node) : (s.setNode i n).eoi = s.eoi := rfl
@[simp] theorem State.setNode_tvalid (s : State) (i : Fin 511) (n : Node) : (s.setNode i n).tvalid = s.tvalid := rfl
@[simp] theorem State.setNode_errCode (s : State) (i : Fin 511) (n : Node) : (s.setNode i n).errCode = s.errCode := rfl
@[simp] theorem State.setNode_errOp (s : State) (i : Fin 511) (n : Node) : (s.setNode i n).errOp = s.errOp := rfl
@[simp] theorem State.setNode_doneIe (s : State) (i : Fin 511) (n : Node) : (s.setNode i n).doneIe = s.doneIe := rfl
@[simp] theorem State.setNode_errIe (s : State) (i : Fin 511) (n : Node) : (s.setNode i n).errIe = s.errIe := rfl
@[simp] theorem State.setNode_irqDone (s : State) (i : Fin 511) (n : Node) : (s.setNode i n).irqDone = s.irqDone := rfl
@[simp] theorem State.setNode_irqErri (s : State) (i : Fin 511) (n : Node) : (s.setNode i n).irqErri = s.irqErri := rfl
@[simp] theorem State.setNode_cmdcnt (s : State) (i : Fin 511) (n : Node) : (s.setNode i n).cmdcnt = s.cmdcnt := rfl
@[simp] theorem State.setNode_ilen (s : State) (i : Fin 511) (n : Node) : (s.setNode i n).ilen = s.ilen := rfl
@[simp] theorem State.setNode_iptr (s : State) (i : Fin 511) (n : Node) : (s.setNode i n).iptr = s.iptr := rfl
@[simp] theorem State.setNode_racc (s : State) (i : Fin 511) (n : Node) : (s.setNode i n).racc = s.racc := rfl
@[simp] theorem State.setNode_rcnt (s : State) (i : Fin 511) (n : Node) : (s.setNode i n).rcnt = s.rcnt := rfl
@[simp] theorem State.setNode_optr (s : State) (i : Fin 511) (n : Node) : (s.setNode i n).optr = s.optr := rfl
@[simp] theorem State.setNode_wacc (s : State) (i : Fin 511) (n : Node) : (s.setNode i n).wacc = s.wacc := rfl
@[simp] theorem State.setNode_wcnt (s : State) (i : Fin 511) (n : Node) : (s.setNode i n).wcnt = s.wcnt := rfl
@[simp] theorem State.setNode_freq (s : State) (i : Fin 511) (n : Node) : (s.setNode i n).freq = s.freq := rfl
@[simp] theorem State.setNode_total (s : State) (i : Fin 511) (n : Node) : (s.setNode i n).total = s.total := rfl
@[simp] theorem State.setNode_len (s : State) (i : Fin 511) (n : Node) : (s.setNode i n).len = s.len := rfl
@[simp] theorem State.setNode_code (s : State) (i : Fin 511) (n : Node) : (s.setNode i n).code = s.code := rfl
@[simp] theorem State.setNode_node (s : State) (i : Fin 511) (n : Node) : (s.setNode i n).node = s.node.set i.val n i.isLt := rfl
@[simp] theorem State.setNode_root (s : State) (i : Fin 511) (n : Node) : (s.setNode i n).root = s.root := rfl
@[simp] theorem State.setNode_nodes (s : State) (i : Fin 511) (n : Node) : (s.setNode i n).nodes = s.nodes := rfl
@[simp] theorem State.setNode_hrem (s : State) (i : Fin 511) (n : Node) : (s.setNode i n).hrem = s.hrem := rfl
@[simp] theorem State.setNode_enext (s : State) (i : Fin 511) (n : Node) : (s.setNode i n).enext = s.enext := rfl
@[simp] theorem State.setNode_dnext (s : State) (i : Fin 511) (n : Node) : (s.setNode i n).dnext = s.dnext := rfl
@[simp] theorem State.setNode_dfirst (s : State) (i : Fin 511) (n : Node) : (s.setNode i n).dfirst = s.dfirst := rfl
@[simp] theorem State.setNode_ibuf (s : State) (i : Fin 511) (n : Node) : (s.setNode i n).ibuf = s.ibuf := rfl
@[simp] theorem State.setNode_obuf (s : State) (i : Fin 511) (n : Node) : (s.setNode i n).obuf = s.obuf := rfl
@[simp] theorem State.setNode_pending (s : State) (i : Fin 511) (n : Node) : (s.setNode i n).pending = s.pending := rfl
@[simp] theorem State.setNode_rstN (s : State) (i : Fin 511) (n : Node) : (s.setNode i n).rstN = s.rstN := rfl
@[simp] theorem State.setNode_ibufExp (s : State) (i : Fin 511) (n : Node) : (s.setNode i n).ibufExp = s.ibufExp := rfl
@[simp] theorem State.setNode_obufExp (s : State) (i : Fin 511) (n : Node) : (s.setNode i n).obufExp = s.obufExp := rfl
@[simp] theorem State.setNode_hostq (s : State) (i : Fin 511) (n : Node) : (s.setNode i n).hostq = s.hostq := rfl
@[simp] theorem State.setNode_hostData (s : State) (i : Fin 511) (n : Node) : (s.setNode i n).hostData = s.hostData := rfl
@[simp] theorem State.setNode_draws (s : State) (i : Fin 511) (n : Node) : (s.setNode i n).draws = s.draws := rfl

/-! ### setIbufByte -/

@[simp] theorem State.setIbufByte_arg (s : State) (i : Nat) (b : Byte) : (s.setIbufByte i b).arg = s.arg := rfl
@[simp] theorem State.setIbufByte_result (s : State) (i : Nat) (b : Byte) : (s.setIbufByte i b).result = s.result := rfl
@[simp] theorem State.setIbufByte_busy (s : State) (i : Nat) (b : Byte) : (s.setIbufByte i b).busy = s.busy := rfl
@[simp] theorem State.setIbufByte_err (s : State) (i : Nat) (b : Byte) : (s.setIbufByte i b).err = s.err := rfl
@[simp] theorem State.setIbufByte_eoi (s : State) (i : Nat) (b : Byte) : (s.setIbufByte i b).eoi = s.eoi := rfl
@[simp] theorem State.setIbufByte_tvalid (s : State) (i : Nat) (b : Byte) : (s.setIbufByte i b).tvalid = s.tvalid := rfl
@[simp] theorem State.setIbufByte_errCode (s : State) (i : Nat) (b : Byte) : (s.setIbufByte i b).errCode = s.errCode := rfl
@[simp] theorem State.setIbufByte_errOp (s : State) (i : Nat) (b : Byte) : (s.setIbufByte i b).errOp = s.errOp := rfl
@[simp] theorem State.setIbufByte_doneIe (s : State) (i : Nat) (b : Byte) : (s.setIbufByte i b).doneIe = s.doneIe := rfl
@[simp] theorem State.setIbufByte_errIe (s : State) (i : Nat) (b : Byte) : (s.setIbufByte i b).errIe = s.errIe := rfl
@[simp] theorem State.setIbufByte_irqDone (s : State) (i : Nat) (b : Byte) : (s.setIbufByte i b).irqDone = s.irqDone := rfl
@[simp] theorem State.setIbufByte_irqErri (s : State) (i : Nat) (b : Byte) : (s.setIbufByte i b).irqErri = s.irqErri := rfl
@[simp] theorem State.setIbufByte_cmdcnt (s : State) (i : Nat) (b : Byte) : (s.setIbufByte i b).cmdcnt = s.cmdcnt := rfl
@[simp] theorem State.setIbufByte_ilen (s : State) (i : Nat) (b : Byte) : (s.setIbufByte i b).ilen = s.ilen := rfl
@[simp] theorem State.setIbufByte_iptr (s : State) (i : Nat) (b : Byte) : (s.setIbufByte i b).iptr = s.iptr := rfl
@[simp] theorem State.setIbufByte_racc (s : State) (i : Nat) (b : Byte) : (s.setIbufByte i b).racc = s.racc := rfl
@[simp] theorem State.setIbufByte_rcnt (s : State) (i : Nat) (b : Byte) : (s.setIbufByte i b).rcnt = s.rcnt := rfl
@[simp] theorem State.setIbufByte_optr (s : State) (i : Nat) (b : Byte) : (s.setIbufByte i b).optr = s.optr := rfl
@[simp] theorem State.setIbufByte_wacc (s : State) (i : Nat) (b : Byte) : (s.setIbufByte i b).wacc = s.wacc := rfl
@[simp] theorem State.setIbufByte_wcnt (s : State) (i : Nat) (b : Byte) : (s.setIbufByte i b).wcnt = s.wcnt := rfl
@[simp] theorem State.setIbufByte_freq (s : State) (i : Nat) (b : Byte) : (s.setIbufByte i b).freq = s.freq := rfl
@[simp] theorem State.setIbufByte_total (s : State) (i : Nat) (b : Byte) : (s.setIbufByte i b).total = s.total := rfl
@[simp] theorem State.setIbufByte_len (s : State) (i : Nat) (b : Byte) : (s.setIbufByte i b).len = s.len := rfl
@[simp] theorem State.setIbufByte_code (s : State) (i : Nat) (b : Byte) : (s.setIbufByte i b).code = s.code := rfl
@[simp] theorem State.setIbufByte_node (s : State) (i : Nat) (b : Byte) : (s.setIbufByte i b).node = s.node := rfl
@[simp] theorem State.setIbufByte_root (s : State) (i : Nat) (b : Byte) : (s.setIbufByte i b).root = s.root := rfl
@[simp] theorem State.setIbufByte_nodes (s : State) (i : Nat) (b : Byte) : (s.setIbufByte i b).nodes = s.nodes := rfl
@[simp] theorem State.setIbufByte_hrem (s : State) (i : Nat) (b : Byte) : (s.setIbufByte i b).hrem = s.hrem := rfl
@[simp] theorem State.setIbufByte_enext (s : State) (i : Nat) (b : Byte) : (s.setIbufByte i b).enext = s.enext := rfl
@[simp] theorem State.setIbufByte_dnext (s : State) (i : Nat) (b : Byte) : (s.setIbufByte i b).dnext = s.dnext := rfl
@[simp] theorem State.setIbufByte_dfirst (s : State) (i : Nat) (b : Byte) : (s.setIbufByte i b).dfirst = s.dfirst := rfl
@[simp] theorem State.setIbufByte_ibuf (s : State) (i : Nat) (b : Byte) : (s.setIbufByte i b).ibuf = s.ibuf.set i b := rfl
@[simp] theorem State.setIbufByte_obuf (s : State) (i : Nat) (b : Byte) : (s.setIbufByte i b).obuf = s.obuf := rfl
@[simp] theorem State.setIbufByte_pending (s : State) (i : Nat) (b : Byte) : (s.setIbufByte i b).pending = s.pending := rfl
@[simp] theorem State.setIbufByte_rstN (s : State) (i : Nat) (b : Byte) : (s.setIbufByte i b).rstN = s.rstN := rfl
@[simp] theorem State.setIbufByte_ibufExp (s : State) (i : Nat) (b : Byte) : (s.setIbufByte i b).ibufExp = s.ibufExp := rfl
@[simp] theorem State.setIbufByte_obufExp (s : State) (i : Nat) (b : Byte) : (s.setIbufByte i b).obufExp = s.obufExp := rfl
@[simp] theorem State.setIbufByte_hostq (s : State) (i : Nat) (b : Byte) : (s.setIbufByte i b).hostq = s.hostq := rfl
@[simp] theorem State.setIbufByte_hostData (s : State) (i : Nat) (b : Byte) : (s.setIbufByte i b).hostData = s.hostData := rfl
@[simp] theorem State.setIbufByte_draws (s : State) (i : Nat) (b : Byte) : (s.setIbufByte i b).draws = s.draws := rfl

/-! ### setObufByte -/

@[simp] theorem State.setObufByte_arg (s : State) (i : Nat) (b : Byte) : (s.setObufByte i b).arg = s.arg := rfl
@[simp] theorem State.setObufByte_result (s : State) (i : Nat) (b : Byte) : (s.setObufByte i b).result = s.result := rfl
@[simp] theorem State.setObufByte_busy (s : State) (i : Nat) (b : Byte) : (s.setObufByte i b).busy = s.busy := rfl
@[simp] theorem State.setObufByte_err (s : State) (i : Nat) (b : Byte) : (s.setObufByte i b).err = s.err := rfl
@[simp] theorem State.setObufByte_eoi (s : State) (i : Nat) (b : Byte) : (s.setObufByte i b).eoi = s.eoi := rfl
@[simp] theorem State.setObufByte_tvalid (s : State) (i : Nat) (b : Byte) : (s.setObufByte i b).tvalid = s.tvalid := rfl
@[simp] theorem State.setObufByte_errCode (s : State) (i : Nat) (b : Byte) : (s.setObufByte i b).errCode = s.errCode := rfl
@[simp] theorem State.setObufByte_errOp (s : State) (i : Nat) (b : Byte) : (s.setObufByte i b).errOp = s.errOp := rfl
@[simp] theorem State.setObufByte_doneIe (s : State) (i : Nat) (b : Byte) : (s.setObufByte i b).doneIe = s.doneIe := rfl
@[simp] theorem State.setObufByte_errIe (s : State) (i : Nat) (b : Byte) : (s.setObufByte i b).errIe = s.errIe := rfl
@[simp] theorem State.setObufByte_irqDone (s : State) (i : Nat) (b : Byte) : (s.setObufByte i b).irqDone = s.irqDone := rfl
@[simp] theorem State.setObufByte_irqErri (s : State) (i : Nat) (b : Byte) : (s.setObufByte i b).irqErri = s.irqErri := rfl
@[simp] theorem State.setObufByte_cmdcnt (s : State) (i : Nat) (b : Byte) : (s.setObufByte i b).cmdcnt = s.cmdcnt := rfl
@[simp] theorem State.setObufByte_ilen (s : State) (i : Nat) (b : Byte) : (s.setObufByte i b).ilen = s.ilen := rfl
@[simp] theorem State.setObufByte_iptr (s : State) (i : Nat) (b : Byte) : (s.setObufByte i b).iptr = s.iptr := rfl
@[simp] theorem State.setObufByte_racc (s : State) (i : Nat) (b : Byte) : (s.setObufByte i b).racc = s.racc := rfl
@[simp] theorem State.setObufByte_rcnt (s : State) (i : Nat) (b : Byte) : (s.setObufByte i b).rcnt = s.rcnt := rfl
@[simp] theorem State.setObufByte_optr (s : State) (i : Nat) (b : Byte) : (s.setObufByte i b).optr = s.optr := rfl
@[simp] theorem State.setObufByte_wacc (s : State) (i : Nat) (b : Byte) : (s.setObufByte i b).wacc = s.wacc := rfl
@[simp] theorem State.setObufByte_wcnt (s : State) (i : Nat) (b : Byte) : (s.setObufByte i b).wcnt = s.wcnt := rfl
@[simp] theorem State.setObufByte_freq (s : State) (i : Nat) (b : Byte) : (s.setObufByte i b).freq = s.freq := rfl
@[simp] theorem State.setObufByte_total (s : State) (i : Nat) (b : Byte) : (s.setObufByte i b).total = s.total := rfl
@[simp] theorem State.setObufByte_len (s : State) (i : Nat) (b : Byte) : (s.setObufByte i b).len = s.len := rfl
@[simp] theorem State.setObufByte_code (s : State) (i : Nat) (b : Byte) : (s.setObufByte i b).code = s.code := rfl
@[simp] theorem State.setObufByte_node (s : State) (i : Nat) (b : Byte) : (s.setObufByte i b).node = s.node := rfl
@[simp] theorem State.setObufByte_root (s : State) (i : Nat) (b : Byte) : (s.setObufByte i b).root = s.root := rfl
@[simp] theorem State.setObufByte_nodes (s : State) (i : Nat) (b : Byte) : (s.setObufByte i b).nodes = s.nodes := rfl
@[simp] theorem State.setObufByte_hrem (s : State) (i : Nat) (b : Byte) : (s.setObufByte i b).hrem = s.hrem := rfl
@[simp] theorem State.setObufByte_enext (s : State) (i : Nat) (b : Byte) : (s.setObufByte i b).enext = s.enext := rfl
@[simp] theorem State.setObufByte_dnext (s : State) (i : Nat) (b : Byte) : (s.setObufByte i b).dnext = s.dnext := rfl
@[simp] theorem State.setObufByte_dfirst (s : State) (i : Nat) (b : Byte) : (s.setObufByte i b).dfirst = s.dfirst := rfl
@[simp] theorem State.setObufByte_ibuf (s : State) (i : Nat) (b : Byte) : (s.setObufByte i b).ibuf = s.ibuf := rfl
@[simp] theorem State.setObufByte_obuf (s : State) (i : Nat) (b : Byte) : (s.setObufByte i b).obuf = s.obuf.set i b := rfl
@[simp] theorem State.setObufByte_pending (s : State) (i : Nat) (b : Byte) : (s.setObufByte i b).pending = s.pending := rfl
@[simp] theorem State.setObufByte_rstN (s : State) (i : Nat) (b : Byte) : (s.setObufByte i b).rstN = s.rstN := rfl
@[simp] theorem State.setObufByte_ibufExp (s : State) (i : Nat) (b : Byte) : (s.setObufByte i b).ibufExp = s.ibufExp := rfl
@[simp] theorem State.setObufByte_obufExp (s : State) (i : Nat) (b : Byte) : (s.setObufByte i b).obufExp = s.obufExp := rfl
@[simp] theorem State.setObufByte_hostq (s : State) (i : Nat) (b : Byte) : (s.setObufByte i b).hostq = s.hostq := rfl
@[simp] theorem State.setObufByte_hostData (s : State) (i : Nat) (b : Byte) : (s.setObufByte i b).hostData = s.hostData := rfl
@[simp] theorem State.setObufByte_draws (s : State) (i : Nat) (b : Byte) : (s.setObufByte i b).draws = s.draws := rfl

/-! ### emitByte -/

@[simp] theorem emitByte_arg (b : Byte) (s : State) : (emitByte b s).arg = s.arg := rfl
@[simp] theorem emitByte_result (b : Byte) (s : State) : (emitByte b s).result = s.result := rfl
@[simp] theorem emitByte_busy (b : Byte) (s : State) : (emitByte b s).busy = s.busy := rfl
@[simp] theorem emitByte_err (b : Byte) (s : State) : (emitByte b s).err = s.err := rfl
@[simp] theorem emitByte_eoi (b : Byte) (s : State) : (emitByte b s).eoi = s.eoi := rfl
@[simp] theorem emitByte_tvalid (b : Byte) (s : State) : (emitByte b s).tvalid = s.tvalid := rfl
@[simp] theorem emitByte_errCode (b : Byte) (s : State) : (emitByte b s).errCode = s.errCode := rfl
@[simp] theorem emitByte_errOp (b : Byte) (s : State) : (emitByte b s).errOp = s.errOp := rfl
@[simp] theorem emitByte_doneIe (b : Byte) (s : State) : (emitByte b s).doneIe = s.doneIe := rfl
@[simp] theorem emitByte_errIe (b : Byte) (s : State) : (emitByte b s).errIe = s.errIe := rfl
@[simp] theorem emitByte_irqDone (b : Byte) (s : State) : (emitByte b s).irqDone = s.irqDone := rfl
@[simp] theorem emitByte_irqErri (b : Byte) (s : State) : (emitByte b s).irqErri = s.irqErri := rfl
@[simp] theorem emitByte_cmdcnt (b : Byte) (s : State) : (emitByte b s).cmdcnt = s.cmdcnt := rfl
@[simp] theorem emitByte_ilen (b : Byte) (s : State) : (emitByte b s).ilen = s.ilen := rfl
@[simp] theorem emitByte_iptr (b : Byte) (s : State) : (emitByte b s).iptr = s.iptr := rfl
@[simp] theorem emitByte_racc (b : Byte) (s : State) : (emitByte b s).racc = s.racc := rfl
@[simp] theorem emitByte_rcnt (b : Byte) (s : State) : (emitByte b s).rcnt = s.rcnt := rfl
@[simp] theorem emitByte_optr (b : Byte) (s : State) : (emitByte b s).optr = s.optr + 1 := rfl
@[simp] theorem emitByte_wacc (b : Byte) (s : State) : (emitByte b s).wacc = 0 := rfl
@[simp] theorem emitByte_wcnt (b : Byte) (s : State) : (emitByte b s).wcnt = 0 := rfl
@[simp] theorem emitByte_freq (b : Byte) (s : State) : (emitByte b s).freq = s.freq := rfl
@[simp] theorem emitByte_total (b : Byte) (s : State) : (emitByte b s).total = s.total := rfl
@[simp] theorem emitByte_len (b : Byte) (s : State) : (emitByte b s).len = s.len := rfl
@[simp] theorem emitByte_code (b : Byte) (s : State) : (emitByte b s).code = s.code := rfl
@[simp] theorem emitByte_node (b : Byte) (s : State) : (emitByte b s).node = s.node := rfl
@[simp] theorem emitByte_root (b : Byte) (s : State) : (emitByte b s).root = s.root := rfl
@[simp] theorem emitByte_nodes (b : Byte) (s : State) : (emitByte b s).nodes = s.nodes := rfl
@[simp] theorem emitByte_hrem (b : Byte) (s : State) : (emitByte b s).hrem = s.hrem := rfl
@[simp] theorem emitByte_enext (b : Byte) (s : State) : (emitByte b s).enext = s.enext := rfl
@[simp] theorem emitByte_dnext (b : Byte) (s : State) : (emitByte b s).dnext = s.dnext := rfl
@[simp] theorem emitByte_dfirst (b : Byte) (s : State) : (emitByte b s).dfirst = s.dfirst := rfl
@[simp] theorem emitByte_ibuf (b : Byte) (s : State) : (emitByte b s).ibuf = s.ibuf := rfl
@[simp] theorem emitByte_obuf (b : Byte) (s : State) : (emitByte b s).obuf = s.obuf.set s.optr.toNat b := rfl
@[simp] theorem emitByte_pending (b : Byte) (s : State) : (emitByte b s).pending = s.pending := rfl
@[simp] theorem emitByte_rstN (b : Byte) (s : State) : (emitByte b s).rstN = s.rstN := rfl
@[simp] theorem emitByte_ibufExp (b : Byte) (s : State) : (emitByte b s).ibufExp = s.ibufExp := rfl
@[simp] theorem emitByte_obufExp (b : Byte) (s : State) : (emitByte b s).obufExp = s.obufExp := rfl
@[simp] theorem emitByte_hostq (b : Byte) (s : State) : (emitByte b s).hostq = s.hostq := rfl
@[simp] theorem emitByte_hostData (b : Byte) (s : State) : (emitByte b s).hostData = s.hostData := rfl
@[simp] theorem emitByte_draws (b : Byte) (s : State) : (emitByte b s).draws = s.draws := rfl

end Sys2Proof.Machine
end

