-- ==== Sys2Proof/Laws/Memory.lean ====
section
/-! SUPPORT. Laws of the buffers: what a store changes and what it leaves, and that the canonical form is kept. -/

namespace Sys2Proof.Machine

namespace Memory

@[simp] theorem get?_nil (a : Nat) : Memory.get? [] a = none := rfl

/-- A store is read back. -/
@[simp] theorem get?_set_same (m : Memory) (a : Nat) (b : Byte) : (m.set a b).get? a = some b := by
  induction m with
  | nil => simp [set, get?]
  | cons c m ih =>
    obtain ⟨k, v⟩ := c
    simp only [set]
    split_ifs with h1 h2
    · simp [get?]
    · simp [get?]
    · simp [get?, h2, ih]

/-- A store leaves every other index alone. -/
theorem get?_set_other (m : Memory) {a x : Nat} (b : Byte) (h : x ≠ a) : (m.set a b).get? x = m.get? x := by
  induction m with
  | nil => simp [set, get?, h]
  | cons c m ih =>
    obtain ⟨k, v⟩ := c
    simp only [set]
    split_ifs with h1 h2
    · simp [get?, h]
    · subst h2; simp [get?, h]
    · simp [get?, ih]

/-- Rising from a bound is kept by a store at or above it. -/
theorem risingFrom_set (m : Memory) {lo a : Nat} (b : Byte) (h : lo ≤ a) (hm : m.risingFrom lo = true) :
    (m.set a b).risingFrom lo = true := by
  induction m generalizing lo with
  | nil => simp [set, risingFrom, h]
  | cons c m ih =>
    obtain ⟨k, v⟩ := c
    simp only [risingFrom, Bool.and_eq_true, decide_eq_true_eq] at hm
    simp only [set]
    split_ifs with h1 h2
    · simp [risingFrom, h, hm.2]; omega
    · subst h2; simp [risingFrom, hm.1, hm.2]
    · simp only [risingFrom, Bool.and_eq_true, decide_eq_true_eq]
      exact ⟨hm.1, ih (by omega) hm.2⟩

/-- Every store keeps the canonical form. -/
theorem wf_set {m : Memory} (a : Nat) (b : Byte) (hm : m.wf = true) : (m.set a b).wf = true :=
  risingFrom_set m b (Nat.zero_le a) hm

/-- A store below the size keeps every index below it. -/
theorem below_set {m : Memory} {a n : Nat} (b : Byte) (ha : a < n) (hm : m.below n = true) :
    (m.set a b).below n = true := by
  induction m with
  | nil => simp [set, below, ha]
  | cons c m ih =>
    obtain ⟨k, v⟩ := c
    have hc : k < n ∧ Memory.below m n = true := by simpa [below] using hm
    have cons_below : ∀ {x : Nat} {w : Byte} {l : Memory}, x < n → Memory.below l n = true →
        Memory.below ((x, w) :: l) n = true := by
      intro x w l hx hl; simpa [below, hx] using hl
    simp only [set]
    split_ifs
    · exact cons_below ha hm
    · exact cons_below ha hc.2
    · exact cons_below hc.1 (ih hc.2)

/-- In a canonical list that rises from `lo` nothing is listed below `lo`. -/
theorem get?_lt_of_risingFrom {m : Memory} {lo a : Nat} (h : m.risingFrom lo = true) (ha : a < lo) :
    m.get? a = none := by
  induction m generalizing lo with
  | nil => rfl
  | cons c m ih =>
    obtain ⟨k, v⟩ := c
    simp only [risingFrom, Bool.and_eq_true, decide_eq_true_eq] at h
    have : a ≠ k := by omega
    simp [get?, this, ih h.2 (by omega)]

/-- Memories that read alike are equal data: the canonical form is canonical. -/
theorem ext_of_risingFrom {m m' : Memory} {lo : Nat} (h : m.risingFrom lo = true) (h' : m'.risingFrom lo = true)
    (hr : ∀ a, m.get? a = m'.get? a) : m = m' := by
  induction m generalizing m' lo with
  | nil =>
    cases m' with
    | nil => rfl
    | cons c m' => have := hr c.1; simp [get?] at this
  | cons c m ih =>
    obtain ⟨k, v⟩ := c
    cases m' with
    | nil => have := hr k; simp [get?] at this
    | cons c' m' =>
      obtain ⟨k', v'⟩ := c'
      simp only [risingFrom, Bool.and_eq_true, decide_eq_true_eq] at h h'
      have hk : k = k' := by
        rcases Nat.lt_trichotomy k k' with hlt | heq | hgt
        · have := hr k
          simp [get?, Nat.ne_of_lt hlt, get?_lt_of_risingFrom h'.2 (by omega : k < k' + 1)] at this
        · exact heq
        · have := hr k'
          simp [get?, Nat.ne_of_lt hgt, get?_lt_of_risingFrom h.2 (by omega : k' < k + 1)] at this
      subst hk
      have hv : v = v' := by have := hr k; simpa [get?] using this
      subst hv
      congr 1
      refine ih h.2 h'.2 fun a => ?_
      by_cases ha : a = k
      · subst ha
        rw [get?_lt_of_risingFrom h.2 (by omega), get?_lt_of_risingFrom h'.2 (by omega)]
      · have := hr a; simpa [get?, ha] using this

/-- Two canonical memories that read alike are the same list. -/
theorem ext_of_wf {m m' : Memory} (h : m.wf = true) (h' : m'.wf = true) (hr : ∀ a, m.get? a = m'.get? a) : m = m' :=
  ext_of_risingFrom h h' hr

end Memory

/-! ### Bytes of the buffers -/

@[simp] theorem obufByte_setObufByte_same (s : State) (i : Nat) (b : Byte) : (s.setObufByte i b).obufByte i = b := by
  simp [State.obufByte]

theorem obufByte_setObufByte_other (s : State) {i x : Nat} (b : Byte) (h : x ≠ i) :
    (s.setObufByte i b).obufByte x = s.obufByte x := by
  simp [State.obufByte, Memory.get?_set_other _ _ h]

@[simp] theorem ibufByte_setIbufByte_same (s : State) (i : Nat) (b : Byte) : (s.setIbufByte i b).ibufByte i = b := by
  simp [State.ibufByte]

theorem ibufByte_setIbufByte_other (s : State) {i x : Nat} (b : Byte) (h : x ≠ i) :
    (s.setIbufByte i b).ibufByte x = s.ibufByte x := by
  simp [State.ibufByte, Memory.get?_set_other _ _ h]

@[simp] theorem obufByte_emitByte_same (b : Byte) (s : State) : (emitByte b s).obufByte s.optr.toNat = b := by
  simp [State.obufByte]

theorem obufByte_emitByte_other (b : Byte) (s : State) {x : Nat} (h : x ≠ s.optr.toNat) :
    (emitByte b s).obufByte x = s.obufByte x := by
  simp [State.obufByte, Memory.get?_set_other _ _ h]

/-- A buffer size is from 4 to 2^24 (R14). -/
theorem bufSize_bounds (e : Fin 23) : 4 ≤ Config.bufSize e ∧ Config.bufSize e ≤ 2 ^ 24 := by
  constructor
  · calc 4 = 2 ^ 2 := rfl
      _ ≤ 2 ^ (e.val + 2) := Nat.pow_le_pow_right (by decide) (by omega)
  · exact Nat.pow_le_pow_right (by decide) (by omega)

end Sys2Proof.Machine
end

