-- ==== Sys2Proof/Laws/Writer.lean ====
section
/-! SUPPORT. The bit writer (41_bitwriter.md) in terms of the bits written: what `write_bit`, `write_bits` and `flush` do,
when they overflow, and what they leave alone. -/

namespace Sys2Proof.Machine

/-! ### Results of bodies -/

@[simp] theorem Res.bind_ok {α β : Type} (a : α) (s : State) (k : α → State → Res β) : (Res.ok a s).bind k = k a s := rfl
@[simp] theorem Res.bind_raised {α β : Type} (e : ErrKind) (s : State) (k : α → State → Res β) :
    (Res.raised e s : Res α).bind k = .raised e s := rfl

theorem Res.bind_assoc {α β γ : Type} (r : Res α) (f : α → State → Res β) (g : β → State → Res γ) :
    (r.bind f).bind g = r.bind fun a s => (f a s).bind g := by
  cases r <;> rfl

@[simp] theorem Res.state_ok {α : Type} (a : α) (s : State) : (Res.ok a s).state = s := rfl
@[simp] theorem Res.state_raised {α : Type} (e : ErrKind) (s : State) : (Res.raised e s : Res α).state = s := rfl

/-! ### Frames -/

theorem OnlyWriter.refl (s : State) : OnlyWriter s s := rfl

theorem OnlyWriter.trans {s t u : State} (h1 : OnlyWriter s t) (h2 : OnlyWriter t u) : OnlyWriter s u := by
  unfold OnlyWriter at *
  conv_lhs => rw [h2]
  conv_lhs => rw [h1]

theorem OnlyReader.refl (s : State) : OnlyReader s s := rfl

theorem OnlyReader.trans {s t u : State} (h1 : OnlyReader s t) (h2 : OnlyReader t u) : OnlyReader s u := by
  unfold OnlyReader at *
  conv_lhs => rw [h2]
  conv_lhs => rw [h1]

theorem ObufSameOutside.refl (s : State) (lo hi : Nat) : ObufSameOutside s s lo hi := fun _ _ => rfl

theorem OnlyWriter.obufSize {s t : State} (h : OnlyWriter s t) : t.obufSize = s.obufSize := by
  rw [h]; rfl

theorem OnlyWriter.input {s t : State} (h : OnlyWriter s t) : t.input = s.input := by
  rw [h]; rfl

theorem emitByte_onlyWriter (b : Byte) (s : State) : OnlyWriter s (emitByte b s) := rfl

/-! ### `write_bit` -/

/-- The accumulator after one more bit (R161). -/
def accWith (b : Bool) (s : State) : Byte := (s.wacc <<< 1) ||| (BitVec.ofBool b).setWidth 8

/-- Everything `write_bit` can do. -/
theorem writeBit_cases (b : Bool) (s : State) :
    (s.wcnt.val = 7 ∧ s.optr.toNat = s.obufSize ∧ writeBit b s = .raised .obufOverflow s) ∨
    (s.wcnt.val = 7 ∧ s.optr.toNat ≠ s.obufSize ∧ writeBit b s = .ok () (emitByte (accWith b s) s)) ∨
    (∃ h : s.wcnt.val < 7, writeBit b s = .ok () { s with wacc := accWith b s, wcnt := ⟨s.wcnt.val + 1, by omega⟩ }) := by
  unfold writeBit
  by_cases h7 : s.wcnt.val = 7
  · by_cases hf : s.optr.toNat = s.obufSize
    · exact .inl ⟨h7, hf, by simp [h7, hf]⟩
    · exact .inr (.inl ⟨h7, hf, by simp [h7, hf, accWith]⟩)
  · exact .inr (.inr ⟨by omega, by simp [h7, accWith]⟩)

/-- The writer's bytes and pending bits, as `written` lists them. -/
theorem accWith_bit (b : Bool) (s : State) (j : Nat) (hj : j < 8) :
    (accWith b s).getLsbD j = if j = 0 then b else s.wacc.getLsbD (j - 1) := by
  unfold accWith
  rcases j with _ | j
  · cases b <;> simp
  · cases b <;> simp [hj, show j < 8 by omega]

/-- The pending bits, first written first. -/
def pendingBits (acc : Byte) (n : Nat) : List Bool := (List.range n).map fun j => acc.getLsbD (n - 1 - j)

theorem pendingBits_accWith (b : Bool) (s : State) {n : Nat} (hn : n < 8) :
    pendingBits (accWith b s) (n + 1) = pendingBits s.wacc n ++ [b] := by
  unfold pendingBits
  rw [List.range_succ, List.map_append]
  congr 1
  · refine List.map_congr_left fun j hj => ?_
    rw [List.mem_range] at hj
    rw [accWith_bit b s _ (by omega), if_neg (by omega)]
    congr 1; omega
  · have h0 := accWith_bit b s 0 (by omega)
    simpa using h0

theorem byteBits_eq_pendingBits (b : Byte) : byteBits b = pendingBits b 8 := rfl

theorem written_eq (s : State) :
    s.written = (List.range s.optr.toNat).flatMap (fun i => byteBits (s.obufByte i)) ++ pendingBits s.wacc s.wcnt.val := rfl

/-- Emitting a byte that holds the pending bits and more extends `written` by those bits. -/
theorem written_emitByte (b : Byte) (s : State) (h : s.optr.toNat < 2 ^ 32 - 1) :
    (emitByte b s).written = (List.range s.optr.toNat).flatMap (fun i => byteBits (s.obufByte i)) ++ byteBits b := by
  have ho : (s.optr + 1).toNat = s.optr.toNat + 1 := by rw [BitVec.toNat_add]; simp; omega
  rw [written_eq]
  simp only [emitByte_optr, ho, emitByte_wcnt, emitByte_wacc]
  rw [List.range_succ, List.flatMap_append]
  simp only [List.flatMap_singleton, obufByte_emitByte_same]
  have : (List.range s.optr.toNat).flatMap (fun i => byteBits ((emitByte b s).obufByte i)) =
      (List.range s.optr.toNat).flatMap (fun i => byteBits (s.obufByte i)) := by
    refine List.flatMap_congr fun i hi => ?_
    rw [List.mem_range] at hi
    rw [obufByte_emitByte_other b s (by omega)]
  rw [this]; simp [pendingBits]

/-- The effect of a `write_bit` that succeeds. -/
theorem writeBit_ok {b : Bool} {s t : State} (hp : s.optr.toNat ≤ s.obufSize) (h : writeBit b s = .ok () t) :
    OnlyWriter s t ∧ t.written = s.written ++ [b] ∧ t.optr.toNat ≤ t.obufSize ∧ t.room + 1 = s.room ∧
      s.optr.toNat ≤ t.optr.toNat ∧ ObufSameOutside s t s.optr.toNat t.optr.toNat := by
  have hsz := (bufSize_bounds s.obufExp).2
  have hsz' : s.obufSize ≤ 2 ^ 24 := hsz
  rcases writeBit_cases b s with ⟨-, -, hr⟩ | ⟨h7, hf, hr⟩ | ⟨h7, hr⟩
  · rw [hr] at h; cases h
  · rw [hr] at h; cases h
    have ho : (s.optr + 1).toNat = s.optr.toNat + 1 := by rw [BitVec.toNat_add]; simp; omega
    have hos : (emitByte (accWith b s) s).obufSize = s.obufSize := rfl
    refine ⟨rfl, ?_, ?_, ?_, ?_, ?_⟩
    · rw [written_emitByte _ _ (by omega), byteBits_eq_pendingBits, pendingBits_accWith b s (by omega), written_eq, h7,
        List.append_assoc]
    · rw [hos, emitByte_optr, ho]; omega
    · unfold State.room; rw [hos]; simp only [emitByte_optr, emitByte_wcnt, ho, h7]; simp; omega
    · rw [emitByte_optr, ho]; omega
    · intro i hi
      rw [emitByte_optr, ho] at hi
      exact obufByte_emitByte_other _ _ (by omega)
  · rw [hr] at h; cases h
    refine ⟨rfl, ?_, hp, ?_, Nat.le_refl _, fun _ _ => rfl⟩
    · rw [written_eq, written_eq, List.append_assoc, ← pendingBits_accWith b s (by omega)]
      rfl
    · unfold State.room State.obufSize; simp only; omega

/-- `write_bit` succeeds while there is room, and only then. -/
theorem writeBit_succeeds (b : Bool) {s : State} (hr : 0 < s.room) :
    ∃ t, writeBit b s = .ok () t := by
  rcases writeBit_cases b s with ⟨h7, hf, -⟩ | ⟨-, -, hr'⟩ | ⟨_, hr'⟩
  · exfalso; unfold State.room at hr; omega
  · exact ⟨_, hr'⟩
  · exact ⟨_, hr'⟩

theorem writeBit_overflows (b : Bool) {s : State} (hr : s.room = 0) (hp : s.optr.toNat ≤ s.obufSize) :
    writeBit b s = .raised .obufOverflow s := by
  rcases writeBit_cases b s with ⟨-, -, h⟩ | ⟨h7, hf, -⟩ | ⟨h7, -⟩
  · exact h
  · exfalso; unfold State.room at hr; omega
  · exfalso; unfold State.room at hr; omega

/-! ### Writing a bit string -/

/-- Write a bit string bit by bit: what every encoding primitive comes to. -/
def writeList : List Bool → State → Res Unit
  | [], s => .ok () s
  | b :: bs, s => (writeBit b s).bind fun _ s => writeList bs s

@[simp] theorem writeList_nil (s : State) : writeList [] s = .ok () s := rfl
theorem writeList_cons (b : Bool) (bs : List Bool) (s : State) :
    writeList (b :: bs) s = (writeBit b s).bind fun _ s => writeList bs s := rfl

theorem writeList_append (xs ys : List Bool) (s : State) :
    writeList (xs ++ ys) s = (writeList xs s).bind fun _ s => writeList ys s := by
  induction xs generalizing s with
  | nil => rfl
  | cons b xs ih =>
    rw [List.cons_append, writeList_cons, writeList_cons, Res.bind_assoc]
    congr 1; funext _ s; exact ih s

theorem bitsMsb_succ (v : BitVec 64) (n : Nat) : bitsMsb v (n + 1) = v.getLsbD n :: bitsMsb v n := by
  unfold bitsMsb
  rw [List.range_succ_eq_map, List.map_cons, List.map_map]
  congr 1
  refine List.map_congr_left fun j _ => ?_
  simp only [Function.comp]; congr 1; omega

@[simp] theorem bitsMsb_length (v : BitVec 64) (n : Nat) : (bitsMsb v n).length = n := by simp [bitsMsb]
@[simp] theorem byteBits_length (b : Byte) : (byteBits b).length = 8 := by simp [byteBits]

/-- `write_bits` writes the low `n` bits, most significant first (R162). -/
theorem writeBits_eq (v : BitVec 64) (n : Nat) (s : State) : writeBits v n s = writeList (bitsMsb v n) s := by
  induction n generalizing s with
  | zero => rfl
  | succ n ih =>
    rw [bitsMsb_succ, writeList_cons, writeBits]
    congr 1; funext _ s; exact ih s

theorem bitsMsb_wideOfByte (c : Byte) : bitsMsb (wideOfByte c) 8 = byteBits c := by
  unfold bitsMsb byteBits wideOfByte
  refine List.map_congr_left fun j hj => ?_
  rw [List.mem_range] at hj
  simp [show 8 - 1 - j < 64 by omega]

/-- Writing a bit string that fits. -/
theorem writeList_fits (bs : List Bool) {s : State} (hp : s.optr.toNat ≤ s.obufSize) (hr : bs.length ≤ s.room) :
    ∃ t, writeList bs s = .ok () t ∧ OnlyWriter s t ∧ t.written = s.written ++ bs ∧ t.optr.toNat ≤ t.obufSize ∧
      t.room + bs.length = s.room ∧ s.optr.toNat ≤ t.optr.toNat ∧ ObufSameOutside s t s.optr.toNat t.optr.toNat := by
  induction bs generalizing s with
  | nil => exact ⟨s, rfl, rfl, by simp, hp, rfl, Nat.le_refl _, fun _ _ => rfl⟩
  | cons b bs ih =>
    rw [List.length_cons] at hr
    obtain ⟨t, ht⟩ := writeBit_succeeds b (s := s) (by omega)
    obtain ⟨hf, hw, hpt, hroom, hle, hout⟩ := writeBit_ok hp ht
    obtain ⟨u, hu, hfu, hwu, hpu, hroomu, hleu, houtu⟩ := ih hpt (by omega)
    refine ⟨u, ?_, hf.trans hfu, ?_, hpu, ?_, by omega, ?_⟩
    · rw [writeList_cons, ht]; exact hu
    · rw [hwu, hw]; simp
    · rw [List.length_cons]; omega
    · intro i hi
      rw [houtu i (by omega), hout i (by omega)]

/-- Writing a bit string that does not fit stops at the first bit without room, the bits before it written (R161, R162). -/
theorem writeList_overflows (bs : List Bool) {s : State} (hp : s.optr.toNat ≤ s.obufSize) (hr : s.room < bs.length) :
    ∃ t, writeList bs s = .raised .obufOverflow t ∧ OnlyWriter s t ∧ t.written = s.written ++ bs.take s.room ∧
      t.optr.toNat = t.obufSize ∧ t.wcnt.val = 7 ∧ s.optr.toNat ≤ t.optr.toNat ∧
      ObufSameOutside s t s.optr.toNat t.optr.toNat := by
  induction bs generalizing s with
  | nil => simp at hr
  | cons b bs ih =>
    by_cases h0 : s.room = 0
    · refine ⟨s, ?_, rfl, by simp [h0], ?_, ?_, Nat.le_refl _, fun _ _ => rfl⟩
      · rw [writeList_cons, writeBit_overflows b h0 hp]; rfl
      all_goals unfold State.room at h0; omega
    · rw [List.length_cons] at hr
      obtain ⟨t, ht⟩ := writeBit_succeeds b (s := s) (by omega)
      obtain ⟨hf, hw, hpt, hroom, hle, hout⟩ := writeBit_ok hp ht
      obtain ⟨u, hu, hfu, hwu, hou, hcu, hleu, houtu⟩ := ih hpt (by omega)
      refine ⟨u, ?_, hf.trans hfu, ?_, hou, hcu, by omega, ?_⟩
      · rw [writeList_cons, ht]; exact hu
      · rw [hwu, hw, ← hroom, List.take_succ_cons]; simp
      · intro i hi
        rw [houtu i (by omega), hout i (by omega)]

/-- Whatever happens, writing a bit string touches only the writer. -/
theorem writeList_onlyWriter (bs : List Bool) (s : State) : OnlyWriter s (writeList bs s).state := by
  induction bs generalizing s with
  | nil => rfl
  | cons b bs ih =>
    rw [writeList_cons]
    rcases writeBit_cases b s with ⟨-, -, h⟩ | ⟨-, -, h⟩ | ⟨_, h⟩ <;> rw [h]
    · rfl
    · exact (emitByte_onlyWriter _ s).trans (ih _)
    · refine OnlyWriter.trans ?_ (ih _)
      rfl

/-- The writer raises nothing but OBUF_OVERFLOW. -/
theorem writeList_error {bs : List Bool} {s t : State} {e : ErrKind} (h : writeList bs s = .raised e t) :
    e = .obufOverflow := by
  induction bs generalizing s with
  | nil => cases h
  | cons b bs ih =>
    rw [writeList_cons] at h
    rcases writeBit_cases b s with ⟨-, -, hb⟩ | ⟨-, -, hb⟩ | ⟨_, hb⟩ <;> rw [hb] at h
    · cases h; rfl
    · exact ih h
    · exact ih h

/-! ### `flush` -/

theorem length_written (s : State) : s.written.length = 8 * s.optr.toNat + s.wcnt.val := by
  have h : ∀ n : Nat, ((List.range n).flatMap fun i => byteBits (s.obufByte i)).length = 8 * n := by
    intro n
    induction n with
    | zero => rfl
    | succ n ih => rw [List.range_succ, List.flatMap_append, List.length_append, ih]; simp; omega
  rw [written_eq, List.length_append, h]; simp [pendingBits]

theorem byteBits_shiftLeft (acc : Byte) {n : Nat} (hn : n ≤ 8) :
    byteBits (acc <<< (8 - n)) = pendingBits acc n ++ List.replicate (8 - n) false := by
  unfold byteBits pendingBits
  apply List.ext_getElem
  · simp; omega
  · intro j h1 _
    simp only [List.length_map, List.length_range] at h1
    simp only [List.getElem_map, List.getElem_range, BitVec.getLsbD_shiftLeft]
    by_cases hj : j < n
    · rw [List.getElem_append_left (by simpa using hj)]
      simp only [List.getElem_map, List.getElem_range, decide_eq_true (show 7 - j < 8 by omega), Bool.true_and]
      rw [decide_eq_false (by omega)]
      simp only [Bool.not_false, Bool.true_and]; congr 1; omega
    · rw [List.getElem_append_right (by simpa using Nat.not_lt.mp hj)]
      simp only [List.getElem_replicate]
      rw [decide_eq_true (show 7 - j < 8 - n by omega)]; simp

/-- `flush()` completes the last byte with zero bits (R163). -/
theorem flush_ok {s : State} (hp : s.optr.toNat ≤ s.obufSize) (h : s.wcnt.val = 0 ∨ s.optr.toNat < s.obufSize) :
    ∃ t, flush s = .ok () t ∧ OnlyWriter s t ∧ t.written = s.written ++ padBits s.written.length ∧ t.wcnt = 0 ∧
      t.optr.toNat ≤ t.obufSize ∧ s.optr.toNat ≤ t.optr.toNat ∧ ObufSameOutside s t s.optr.toNat t.optr.toNat := by
  have hsz : s.obufSize ≤ 2 ^ 24 := (bufSize_bounds s.obufExp).2
  unfold flush
  by_cases h0 : s.wcnt.val = 0
  · refine ⟨s, by simp [h0], rfl, ?_, Fin.ext h0, hp, Nat.le_refl _, fun _ _ => rfl⟩
    rw [length_written, h0]; simp [padBits]
  · have hlt : s.optr.toNat < s.obufSize := by omega
    have ho : (s.optr + 1).toNat = s.optr.toNat + 1 := by rw [BitVec.toNat_add]; simp; omega
    have hos : ∀ b, (emitByte b s).obufSize = s.obufSize := fun _ => rfl
    refine ⟨emitByte (s.wacc <<< (8 - s.wcnt.val)) s, by simp [h0, Nat.ne_of_lt hlt], rfl, ?_, rfl, ?_, ?_, ?_⟩
    · rw [written_emitByte _ _ (by omega), byteBits_shiftLeft _ (by omega), length_written, written_eq, List.append_assoc]
      congr 2
      unfold padBits
      congr 1; omega
    · rw [hos, emitByte_optr, ho]; omega
    · rw [emitByte_optr, ho]; omega
    · intro i hi
      rw [emitByte_optr, ho] at hi
      exact obufByte_emitByte_other _ _ (by omega)

theorem flush_onlyWriter (s : State) : OnlyWriter s (flush s).state := by
  unfold flush
  split_ifs <;> rfl

end Sys2Proof.Machine
end

