-- ==== Sys2Proof/Laws/Reader.lean ====
section
/-! SUPPORT. The bit reader (42_bitreader.md) in terms of the bits that remain: what `read_bit`, `read_bits`, `dec_bit` and
`dec_bits` return, when they meet the end of input, and what they leave alone. -/

namespace Sys2Proof.Machine

/-- A word with a bit shifted in (R182). -/
theorem shiftIn_eq (v : Word) (b : Bool) :
    (v <<< 1) ||| (BitVec.ofBool b).setWidth 32 = BitVec.ofNat 32 (2 * v.toNat + b.toNat) := by
  have hz : (v <<< 1) &&& (BitVec.ofBool b).setWidth 32 = 0#32 := by
    apply BitVec.eq_of_getLsbD_eq
    intro i hi
    rcases i with _ | i
    · simp
    · cases b <;> simp
  rw [← BitVec.add_eq_or_of_and_eq_zero _ _ hz]
  apply BitVec.eq_of_toNat_eq
  have hb : ((BitVec.ofBool b).setWidth 32).toNat = b.toNat := by cases b <;> rfl
  rw [BitVec.toNat_add, hb, BitVec.toNat_shiftLeft, BitVec.toNat_ofNat]
  simp [Nat.shiftLeft_eq, Nat.mul_comm]

/-- The number of a bit string that continues the value `v`. -/
def numFrom (v : Nat) (bits : List Bool) : Nat := bits.foldl (fun v b => 2 * v + b.toNat) v

theorem numOf_eq (bits : List Bool) : numOf bits = numFrom 0 bits := rfl
@[simp] theorem numFrom_nil (v : Nat) : numFrom v [] = v := rfl
@[simp] theorem numFrom_cons (v : Nat) (b : Bool) (bits : List Bool) :
    numFrom v (b :: bits) = numFrom (2 * v + b.toNat) bits := rfl

theorem numFrom_lt (bits : List Bool) (v : Nat) : numFrom v bits < (v + 1) * 2 ^ bits.length := by
  induction bits generalizing v with
  | nil => simp
  | cons b bits ih =>
    refine lt_of_lt_of_le (ih _) ?_
    rw [List.length_cons, pow_succ]
    have : b.toNat ≤ 1 := Bool.toNat_le b
    calc (2 * v + b.toNat + 1) * 2 ^ bits.length ≤ (2 * (v + 1)) * 2 ^ bits.length := Nat.mul_le_mul_right _ (by omega)
      _ = (v + 1) * (2 ^ bits.length * 2) := by ring

/-- A bit string of length `n` spells a number below 2^n. -/
theorem numOf_lt (bits : List Bool) : numOf bits < 2 ^ bits.length := by simpa [numOf_eq] using numFrom_lt bits 0

theorem numFrom_mod (bits : List Bool) {v w m : Nat} (h : v % m = w % m) : numFrom v bits % m = numFrom w bits % m := by
  induction bits generalizing v w with
  | nil => exact h
  | cons b bits ih =>
    refine ih ?_
    rw [Nat.add_mod, Nat.mul_mod, h, ← Nat.mul_mod, ← Nat.add_mod]

/-- The number that the low `n` bits of `v` spell is `v mod 2^n` (42_bitreader.md R188). -/
theorem numOf_bitsMsb (v : BitVec 64) (n : Nat) : numOf (bitsMsb v n) = v.toNat % 2 ^ n := by
  have h : ∀ (n w : Nat), numFrom w (bitsMsb v n) = w * 2 ^ n + v.toNat % 2 ^ n := by
    intro n
    induction n with
    | zero => intro w; simp [bitsMsb, Nat.mod_one]
    | succ n ih =>
      intro w
      rw [bitsMsb_succ, numFrom_cons, ih]
      have hb : (v.getLsbD n).toNat = v.toNat / 2 ^ n % 2 := by
        rw [BitVec.getLsbD, Nat.testBit_eq_decide_div_mod_eq]
        rcases Nat.mod_two_eq_zero_or_one (v.toNat / 2 ^ n) with h | h <;> simp [h]
      rw [hb, Nat.mod_pow_succ, pow_succ]; ring
  simpa [numOf_eq] using h n 0

/-! ### `read_bit` -/

theorem remaining_eq (s : State) : s.remaining = pendingBits s.racc s.rcnt.val ++
    (List.range (s.ilen.toNat - s.iptr.toNat)).flatMap fun j => byteBits (s.ibufByte (s.iptr.toNat + j)) := rfl

theorem pendingBits_succ (acc : Byte) (n : Nat) : pendingBits acc (n + 1) = acc.getLsbD n :: pendingBits acc n := by
  unfold pendingBits
  rw [List.range_succ_eq_map, List.map_cons, List.map_map]
  congr 1
  refine List.map_congr_left fun j _ => ?_
  simp only [Function.comp]; congr 1; omega

/-- Everything `read_bit` can do (R181): the next remaining bit, or the end of input. -/
theorem readBit_cases (s : State) :
    (s.remaining = [] ∧ readBit s = (false, setEoi s)) ∨
    (∃ b t, readBit s = (b, t) ∧ s.remaining = b :: t.remaining ∧ OnlyReader s t ∧ t.eoi = s.eoi) := by
  by_cases h0 : s.rcnt.val = 0
  · by_cases hlt : s.iptr < s.ilen
    · right
      have hlt' : s.iptr.toNat < s.ilen.toNat := hlt
      have hil : s.ilen.toNat < 2 ^ 32 := s.ilen.isLt
      have hp : (s.iptr + 1).toNat = s.iptr.toNat + 1 := by rw [BitVec.toNat_add]; simp; omega
      have hread : readBit s = takeBit { s with racc := s.ibufByte s.iptr.toNat, iptr := s.iptr + 1, rcnt := 8 } := by
        simp only [readBit, refill, h0, hlt, if_true]
      refine ⟨_, _, hread, ?_, rfl, rfl⟩
      rw [remaining_eq, remaining_eq, h0]
      simp only
      obtain ⟨k, hk⟩ : ∃ k, s.ilen.toNat - s.iptr.toNat = k + 1 := ⟨s.ilen.toNat - s.iptr.toNat - 1, by omega⟩
      simp only [hk, hp]
      rw [List.range_succ_eq_map, List.flatMap_cons, List.flatMap_map, byteBits_eq_pendingBits, pendingBits_succ]
      have hk' : s.ilen.toNat - (s.iptr.toNat + 1) = k := by omega
      rw [hk']
      have hrest : ((List.range k).flatMap fun j => byteBits (s.ibufByte (s.iptr.toNat + Nat.succ j))) =
          (List.range k).flatMap fun j => byteBits (s.ibufByte (s.iptr.toNat + 1 + j)) := by
        refine List.flatMap_congr fun j _ => ?_
        rw [Nat.succ_eq_add_one, show s.iptr.toNat + (j + 1) = s.iptr.toNat + 1 + j by omega]
      rw [hrest]; rfl
    · left
      have hle : s.ilen.toNat ≤ s.iptr.toNat := Nat.le_of_not_lt hlt
      refine ⟨?_, by simp [readBit, refill, h0, hlt]⟩
      rw [remaining_eq, h0, Nat.sub_eq_zero_of_le hle]; simp [pendingBits]
  · right
    obtain ⟨k, hk⟩ : ∃ k, s.rcnt.val = k + 1 := ⟨s.rcnt.val - 1, by omega⟩
    have hread : readBit s = takeBit s := by simp only [readBit, refill, h0, if_false]
    refine ⟨_, _, hread, ?_, rfl, rfl⟩
    rw [remaining_eq, remaining_eq]
    simp only
    simp only [hk, Nat.add_sub_cancel]
    rw [pendingBits_succ]; rfl

theorem readBit_onlyReader (s : State) : OnlyReader s (readBit s).2 := by
  rcases readBit_cases s with ⟨-, h⟩ | ⟨b, t, h, -, hf, -⟩ <;> rw [h]
  · rfl
  · exact hf

/-- `setEoi` leaves no bit where there was none. -/
@[simp] theorem remaining_setEoi (s : State) : (setEoi s).remaining = s.remaining := rfl

/-- `read_bits(n)` (R182): the next `n` remaining bits followed by zeros for those past the end; EOI is set exactly when
there are not enough. -/
theorem readBitsFrom_spec (n : Nat) (v : Word) (s : State) :
    ∃ t, readBitsFrom n v s =
        (BitVec.ofNat 32 (numFrom v.toNat (s.remaining.take n ++ List.replicate (n - s.remaining.length) false)), t) ∧
      OnlyReader s t ∧ t.remaining = s.remaining.drop n ∧ t.eoi = (s.eoi || decide (s.remaining.length < n)) := by
  induction n generalizing v s with
  | zero => exact ⟨s, by simp [readBitsFrom], rfl, by simp, by simp⟩
  | succ n ih =>
    have step : ∀ (b : Bool) (bits : List Bool),
        numFrom ((v <<< 1) ||| (BitVec.ofBool b).setWidth 32 : Word).toNat bits % 2 ^ 32 =
          numFrom v.toNat (b :: bits) % 2 ^ 32 := by
      intro b bits
      rw [shiftIn_eq, numFrom_cons]
      exact numFrom_mod bits (by rw [BitVec.toNat_ofNat, Nat.mod_mod])
    rcases readBit_cases s with ⟨hr, hb⟩ | ⟨b, t, hb, hr, hf, he⟩
    · obtain ⟨u, hu, hfu, hru, heu⟩ := ih ((v <<< 1) ||| (BitVec.ofBool false).setWidth 32) (setEoi s)
      refine ⟨u, ?_, OnlyReader.trans (t := setEoi s) rfl hfu, ?_, ?_⟩
      · rw [readBitsFrom, hb]
        simp only [hu, remaining_setEoi, hr, Prod.mk.injEq, and_true]
        apply BitVec.eq_of_toNat_eq
        rw [BitVec.toNat_ofNat, BitVec.toNat_ofNat, step]
        simp [List.replicate_succ]
      · rw [hru]; simp [hr]
      · rw [heu]; simp [hr]
    · obtain ⟨u, hu, hfu, hru, heu⟩ := ih ((v <<< 1) ||| (BitVec.ofBool b).setWidth 32) t
      refine ⟨u, ?_, hf.trans hfu, ?_, ?_⟩
      · rw [readBitsFrom, hb]
        simp only [hu, hr, Prod.mk.injEq, and_true]
        apply BitVec.eq_of_toNat_eq
        rw [BitVec.toNat_ofNat, BitVec.toNat_ofNat, step]
        simp
      · rw [hru, hr]; simp
      · rw [heu, he, hr]; simp

/-! ### `dec_bit`, `dec_bits` (R183) -/

/-- A decode read that finds its bit. -/
theorem decBit_ok {s : State} {b : Bool} {rest : List Bool} (he : s.eoi = false) (hr : s.remaining = b :: rest) :
    ∃ t, decBit s = .ok b t ∧ OnlyReader s t ∧ t.remaining = rest ∧ t.eoi = false := by
  rcases readBit_cases s with ⟨hn, -⟩ | ⟨b', t, hb, hr', hf, het⟩
  · rw [hn] at hr; cases hr
  · rw [hr'] at hr; cases hr
    exact ⟨t, by simp [decBit, hb, het, he], hf, rfl, by rw [het, he]⟩

/-- A decode read past the end of input. -/
theorem decBit_end {s : State} (hr : s.remaining = []) : decBit s = .raised .malformedStream (setEoi s) := by
  rcases readBit_cases s with ⟨-, h⟩ | ⟨b, t, -, h, -, -⟩
  · simp [decBit, h]
  · rw [h] at hr; cases hr

/-- Whatever happens, a decode read touches only the reader. -/
theorem decBit_onlyReader (s : State) : OnlyReader s (decBit s).state := by
  have h := readBit_onlyReader s
  unfold decBit
  simp only
  split_ifs <;> exact h

/-- A decode read raises nothing but MALFORMED_STREAM. -/
theorem decBit_error {s t : State} {e : ErrKind} (h : decBit s = .raised e t) : e = .malformedStream := by
  unfold decBit at h
  simp only at h
  split_ifs at h
  cases h; rfl

theorem decBitsFrom_ok (n : Nat) {v : Word} {s : State} (he : s.eoi = false) (hn : n ≤ s.remaining.length) :
    ∃ t, decBitsFrom n v s = .ok (BitVec.ofNat 32 (numFrom v.toNat (s.remaining.take n))) t ∧ OnlyReader s t ∧
      t.remaining = s.remaining.drop n ∧ t.eoi = false := by
  induction n generalizing v s with
  | zero => exact ⟨s, by simp [decBitsFrom], rfl, by simp, he⟩
  | succ n ih =>
    obtain ⟨b, rest, hr⟩ : ∃ b rest, s.remaining = b :: rest := by
      cases h : s.remaining with
      | nil => simp [h] at hn
      | cons b rest => exact ⟨b, rest, rfl⟩
    obtain ⟨t, ht, hf, hrt, het⟩ := decBit_ok he hr
    obtain ⟨u, hu, hfu, hru, heu⟩ := ih (v := (v <<< 1) ||| (BitVec.ofBool b).setWidth 32) het
      (by rw [hrt]; rw [hr, List.length_cons] at hn; omega)
    refine ⟨u, ?_, hf.trans hfu, ?_, heu⟩
    · rw [decBitsFrom, ht, Res.bind_ok, hu, hrt, hr, List.take_succ_cons]
      congr 1
      apply BitVec.eq_of_toNat_eq
      rw [BitVec.toNat_ofNat, BitVec.toNat_ofNat, shiftIn_eq, numFrom_cons]
      exact numFrom_mod _ (by rw [BitVec.toNat_ofNat, Nat.mod_mod])
    · rw [hru, hrt, hr]; simp

/-- `dec_bits(n)` with enough input (R183). -/
theorem decBits_ok {n : Nat} {s : State} (he : s.eoi = false) (hn : n ≤ s.remaining.length) :
    ∃ t, decBits n s = .ok (BitVec.ofNat 32 (numOf (s.remaining.take n))) t ∧ OnlyReader s t ∧
      t.remaining = s.remaining.drop n ∧ t.eoi = false := by
  simpa [numOf_eq, decBits] using decBitsFrom_ok n (v := 0) he hn

/-- `dec_bits(n)` on an input that ends inside the field (R183): all its bits are consumed. -/
theorem decBitsFrom_short (n : Nat) {v : Word} {s : State} (he : s.eoi = false) (hn : s.remaining.length < n) :
    ∃ t, decBitsFrom n v s = .raised .malformedStream t ∧ OnlyReader s t ∧ t.remaining = [] ∧ t.eoi = true := by
  induction n generalizing v s with
  | zero => simp at hn
  | succ n ih =>
    cases h : s.remaining with
    | nil =>
      exact ⟨setEoi s, by rw [decBitsFrom, decBit_end h]; rfl, rfl, h, rfl⟩
    | cons b rest =>
      obtain ⟨t, ht, hf, hrt, het⟩ := decBit_ok he h
      obtain ⟨u, hu, hfu, hru, heu⟩ := ih (v := (v <<< 1) ||| (BitVec.ofBool b).setWidth 32) het
        (by rw [hrt]; rw [h, List.length_cons] at hn; omega)
      exact ⟨u, by rw [decBitsFrom, ht]; exact hu, hf.trans hfu, hru, heu⟩

theorem decBitsFrom_onlyReader (n : Nat) (v : Word) (s : State) : OnlyReader s (decBitsFrom n v s).state := by
  induction n generalizing v s with
  | zero => rfl
  | succ n ih =>
    rw [decBitsFrom]
    have h := decBit_onlyReader s
    cases hb : decBit s with
    | ok b t => rw [hb] at h; exact h.trans (ih _ t)
    | raised e t => rw [hb] at h; exact h

theorem decBits_onlyReader (n : Nat) (s : State) : OnlyReader s (decBits n s).state := decBitsFrom_onlyReader n 0 s

/-- How many bits remain. -/
theorem length_remaining (s : State) :
    s.remaining.length = s.rcnt.val + 8 * (s.ilen.toNat - s.iptr.toNat) := by
  have h : ∀ n : Nat, ((List.range n).flatMap fun j => byteBits (s.ibufByte (s.iptr.toNat + j))).length = 8 * n := by
    intro n
    induction n with
    | zero => rfl
    | succ n ih => rw [List.range_succ, List.flatMap_append, List.length_append, ih]; simp; omega
  rw [remaining_eq, List.length_append, h]; simp [pendingBits]

/-- Fewer bits remain than a decode may pass nodes (log 12). -/
theorem remaining_lt_decodeDepth (s : State) : s.remaining.length < decodeDepth := by
  rw [length_remaining]
  have := s.ilen.isLt
  have := s.rcnt.isLt
  unfold decodeDepth
  omega

end Sys2Proof.Machine
end

