-- ==== Sys2Proof/Laws/Trie.lean ====
section
/-! SUPPORT. The trie in the arena: `ser`, `decode_symbol` and `parse` in terms of the tree that the arena represents
(46_huffman_encode.md R260, 47_huffman_decode.md R281, R283). -/

namespace Sys2Proof.Machine

/-! ### Trees -/

/-- The longest path of a trie. -/
def Tree.height : Tree → Nat
  | .leaf _ => 0
  | .node l r => 1 + max l.height r.height

theorem Tree.height_lt_size (t : Tree) : t.height < t.size := by
  induction t with
  | leaf c => simp [height, size]
  | node l r ihl ihr => simp only [height, size]; omega

theorem Tree.size_eq (t : Tree) : t.size + 1 = 2 * t.leafSyms.length := by
  induction t with
  | leaf c => rfl
  | node l r ihl ihr => simp only [size, leafSyms, List.length_append]; omega

theorem Tree.leafSyms_pos (t : Tree) : 0 < t.leafSyms.length := by
  have := t.size_eq; have := t.height_lt_size; omega

/-- A trie of `L` leaves serializes to `10 L - 1` bits (46_huffman_encode.md R260). -/
theorem Tree.bits_length (t : Tree) : t.bits.length + 1 = 10 * t.leafSyms.length := by
  induction t with
  | leaf c => simp [bits, leafSyms]
  | node l r ihl ihr => simp only [bits, leafSyms, List.length_cons, List.length_append]; omega

theorem Tree.paths_fst (t : Tree) : t.paths.map Prod.fst = t.leafSyms := by
  induction t with
  | leaf c => rfl
  | node l r ihl ihr => simp [paths, leafSyms, ← ihl, ← ihr, Function.comp_def]

theorem Tree.paths_length_le (t : Tree) {e : Byte × List Bool} (h : e ∈ t.paths) : e.2.length ≤ t.height := by
  induction t generalizing e with
  | leaf c => simp only [paths, List.mem_singleton] at h; subst h; simp
  | node l r ihl ihr =>
    simp only [paths, List.mem_append, List.mem_map] at h
    rcases h with ⟨e', he', rfl⟩ | ⟨e', he', rfl⟩
    · have := ihl he'; simp only [List.length_cons, height]; omega
    · have := ihr he'; simp only [List.length_cons, height]; omega

/-! ### The arena -/

theorem indicesOf_length (arena : Vector Node 511) (i : Fin 511) (t : Tree) : (indicesOf arena i t).length = t.size := by
  induction t generalizing i with
  | leaf c => rfl
  | node l r ihl ihr => simp only [indicesOf, Tree.size, List.length_cons, List.length_append, ihl, ihr]; omega

theorem indicesOf_lt (arena : Vector Node 511) (i : Fin 511) (t : Tree) {j : Nat} (h : j ∈ indicesOf arena i t) :
    j < 511 := by
  induction t generalizing i with
  | leaf c => simp only [indicesOf, List.mem_singleton] at h; omega
  | node l r ihl ihr =>
    simp only [indicesOf, List.mem_cons, List.mem_append] at h
    rcases h with h | h | h
    · omega
    · exact ihl _ h
    · exact ihr _ h

/-- What the arena represents depends only on the entries the tree occupies. -/
theorem Represents.congr {a a' : Vector Node 511} {t : Tree} {i : Fin 511}
    (h : ∀ (j : Nat) (hj : j < 511), j ∈ indicesOf a i t → a'[j] = a[j]) (hr : Represents a i t) :
    Represents a' i t ∧ indicesOf a' i t = indicesOf a i t := by
  induction t generalizing i with
  | leaf c =>
    have hi := h i.val i.isLt (by simp [indicesOf])
    simp only [Represents, indicesOf] at hr ⊢
    rw [hi]; exact ⟨hr, trivial⟩
  | node l r ihl ihr =>
    have hi := h i.val i.isLt (by simp [indicesOf])
    simp only [Represents] at hr ⊢
    obtain ⟨h0, hl, hrr⟩ := hr
    obtain ⟨hl1, hl2⟩ := ihl (fun j hj hm => h j hj (by simp [indicesOf, hm])) hl
    obtain ⟨hr1, hr2⟩ := ihr (fun j hj hm => h j hj (by simp [indicesOf, hm])) hrr
    simp only [indicesOf]
    rw [hi]
    exact ⟨⟨h0, hl1, hr1⟩, by rw [hl2, hr2]⟩

/-- A trie that the current state holds has at most 511 nodes. -/
theorem State.HoldsTrie.size_eq {s : State} {t : Tree} (h : s.HoldsTrie t) : t.size = s.nodes.val := by
  have := h.2.length_eq
  rwa [indicesOf_length, List.length_range] at this

theorem State.HoldsTrie.height_lt {s : State} {t : Tree} (h : s.HoldsTrie t) : t.height < 511 := by
  have := h.size_eq; have := t.height_lt_size; have := s.nodes.isLt; omega

/-! ### `ser` -/

theorem Res.bind_congr {α β : Type} {r : Res α} {f g : α → State → Res β}
    (h : ∀ a t, r = .ok a t → f a t = g a t) : r.bind f = r.bind g := by
  cases r with
  | ok a t => exact h a t rfl
  | raised e t => rfl

theorem writeList_ok_onlyWriter {bs : List Bool} {s t : State} (h : writeList bs s = .ok () t) : OnlyWriter s t := by
  have := writeList_onlyWriter bs s
  rwa [h] at this

theorem writeBit_eq (b : Bool) (s : State) : writeBit b s = writeList [b] s := by
  rw [writeList_cons]
  cases writeBit b s with
  | ok a t => rfl
  | raised e t => rfl

theorem writeBit_ok_onlyWriter {b : Bool} {s t : State} (h : writeBit b s = .ok () t) : OnlyWriter s t :=
  writeList_ok_onlyWriter (by rw [← writeBit_eq]; exact h)

/-- `ser` writes the serialization of the trie (R260). -/
theorem ser_eq {t : Tree} {k : Nat} {i : Fin 511} {s : State} (hr : Represents s.node i t) (hk : t.height < k) :
    ser k i s = writeList t.bits s := by
  induction t generalizing k i s with
  | leaf c =>
    obtain ⟨k, rfl⟩ : ∃ k', k = k' + 1 := ⟨k - 1, by omega⟩
    obtain ⟨h1, h2⟩ := hr
    simp only [ser, State.nodeAt, h1, if_true]
    rw [Tree.bits, writeList_cons]
    congr 1; funext _ s'
    rw [writeBits_eq, bitsMsb_wideOfByte, h2]
  | node l r ihl ihr =>
    obtain ⟨k, rfl⟩ : ∃ k', k = k' + 1 := ⟨k - 1, by omega⟩
    obtain ⟨h0, hl, hrr⟩ := hr
    simp only [Tree.height] at hk
    simp only [ser, State.nodeAt, h0, Bool.false_eq_true, if_false]
    rw [Tree.bits, writeList_cons]
    refine Res.bind_congr fun _ u hu => ?_
    have hfu := writeBit_ok_onlyWriter hu
    have hnu : u.node = s.node := by rw [hfu]
    rw [writeList_append, ihl (by rw [hnu]; exact hl) (by omega)]
    refine Res.bind_congr fun _ v hv => ?_
    have hfv := writeList_ok_onlyWriter hv
    have hnv : v.node = s.node := by rw [hfv, hnu]
    exact ihr (by rw [hnv]; exact hrr) (by omega)

/-- `emit(c)` writes the symbol's code (R263). -/
theorem emitCode_eq {c : Byte} {s : State} (h : s.lenOf c ≠ 0) : emitCode c s = writeList (s.codeBits c) s := by
  simp only [emitCode, h, if_false, writeBits_eq, State.codeBits]

theorem codeBits_congr {s t : State} (hl : t.len = s.len) (hc : t.code = s.code) (c : Byte) :
    t.codeBits c = s.codeBits c := by
  simp only [State.codeBits, State.codeOf, State.lenOf, hl, hc]

/-- HSYMS' loop writes the codes in order when every byte has one (R265). -/
theorem emitAll_eq {cs : List Byte} {s : State} (h : ∀ c ∈ cs, s.lenOf c ≠ 0) :
    emitAll cs s = writeList (cs.flatMap s.codeBits) s := by
  induction cs generalizing s with
  | nil => rfl
  | cons c cs ih =>
    rw [List.flatMap_cons, writeList_append, emitAll, emitCode_eq (h c (by simp))]
    refine Res.bind_congr fun _ t ht => ?_
    have hf := writeList_ok_onlyWriter ht
    have hl : t.len = s.len := by rw [hf]
    have hc : t.code = s.code := by rw [hf]
    rw [ih fun d hd => by
      have := h d (by simp [hd])
      simpa only [State.lenOf, hl] using this]
    congr 2
    funext d; exact codeBits_congr hl hc d

/-! ### `decode_symbol` -/

/-- A decode along a path of the trie (R283). -/
theorem decodeFrom_ok {t : Tree} {k : Nat} {i : Fin 511} {s : State} {c : Byte} {p rest : List Bool}
    (hr : Represents s.node i t) (hp : (c, p) ∈ t.paths) (hrem : s.remaining = p ++ rest)
    (he : s.eoi = false ∨ p = []) (hk : p.length < k) :
    ∃ u, decodeFrom k i s = .ok c u ∧ OnlyReader s u ∧ u.remaining = rest ∧ u.eoi = s.eoi := by
  induction t generalizing k i s p with
  | leaf d =>
    obtain ⟨k, rfl⟩ : ∃ k', k = k' + 1 := ⟨k - 1, by omega⟩
    simp only [Tree.paths, List.mem_singleton, Prod.mk.injEq] at hp
    obtain ⟨rfl, rfl⟩ := hp
    obtain ⟨h1, h2⟩ := hr
    exact ⟨s, by simp only [decodeFrom, State.nodeAt, h1, if_true, h2], rfl, hrem, rfl⟩
  | node l r ihl ihr =>
    obtain ⟨k, rfl⟩ : ∃ k', k = k' + 1 := ⟨k - 1, by omega⟩
    obtain ⟨h0, hl, hrr⟩ := hr
    simp only [Tree.paths, List.mem_append, List.mem_map] at hp
    have go : ∀ (b : Bool) (q : List Bool) (sub : Tree), p = b :: q → (c, q) ∈ sub.paths →
        (Represents s.node (if b then (s.node[i.val]'i.isLt).right else (s.node[i.val]'i.isLt).left) sub) →
        (∀ {k : Nat} {i : Fin 511} {s : State} {p : List Bool}, Represents s.node i sub → (c, p) ∈ sub.paths →
          s.remaining = p ++ rest → (s.eoi = false ∨ p = []) → p.length < k →
          ∃ u, decodeFrom k i s = .ok c u ∧ OnlyReader s u ∧ u.remaining = rest ∧ u.eoi = s.eoi) →
        ∃ u, decodeFrom (k + 1) i s = .ok c u ∧ OnlyReader s u ∧ u.remaining = rest ∧ u.eoi = s.eoi := by
      intro b q sub hpq hq hsub ih
      subst hpq
      have he0 : s.eoi = false := he.resolve_right (by simp)
      obtain ⟨t, ht, hf, hrt, het⟩ := decBit_ok he0 hrem
      have hn : t.node = s.node := by rw [hf]
      obtain ⟨u, hu, hfu, hru, heu⟩ := ih (k := k) (by rw [hn]; exact hsub) hq hrt (.inl het)
        (by rw [List.length_cons] at hk; omega)
      refine ⟨u, ?_, hf.trans hfu, hru, by rw [heu, het, he0]⟩
      simp only [decodeFrom, State.nodeAt, h0, Bool.false_eq_true, if_false, ht, Res.bind_ok]
      exact hu
    rcases hp with ⟨e, he', heq⟩ | ⟨e, he', heq⟩ <;> (cases heq)
    · exact go false e.2 l rfl he' hl ihl
    · exact go true e.2 r rfl he' hrr ihr

/-- A decode whose input ends inside a path (R283, R285). -/
theorem decodeFrom_short {t : Tree} {k : Nat} {i : Fin 511} {s : State} {c : Byte} {p more : List Bool}
    (hr : Represents s.node i t) (hp : (c, p) ∈ t.paths) (hrem : p = s.remaining ++ more) (hmore : more ≠ [])
    (he : s.eoi = false) (hk : s.remaining.length < k) :
    ∃ u, decodeFrom k i s = .raised .malformedStream u ∧ OnlyReader s u ∧ u.remaining = [] ∧ u.eoi = true := by
  induction t generalizing k i s p with
  | leaf d =>
    simp only [Tree.paths, List.mem_singleton, Prod.mk.injEq] at hp
    rw [hp.2] at hrem
    exact absurd (List.append_eq_nil_iff.mp hrem.symm).2 hmore
  | node l r ihl ihr =>
    obtain ⟨k, rfl⟩ : ∃ k', k = k' + 1 := ⟨k - 1, by omega⟩
    obtain ⟨h0, hl, hrr⟩ := hr
    cases hrm : s.remaining with
    | nil =>
      refine ⟨setEoi s, ?_, rfl, hrm, rfl⟩
      simp only [decodeFrom, State.nodeAt, h0, Bool.false_eq_true, if_false, decBit_end hrm, Res.bind_raised]
    | cons b rest =>
      obtain ⟨t, ht, hf, hrt, het⟩ := decBit_ok he hrm
      have hn : t.node = s.node := by rw [hf]
      rw [hrm, List.cons_append] at hrem
      rw [hrm, List.length_cons] at hk
      have step : decodeFrom (k + 1) i s =
          decodeFrom k (if b then (s.node[i.val]'i.isLt).right else (s.node[i.val]'i.isLt).left) t := by
        simp only [decodeFrom, State.nodeAt, h0, Bool.false_eq_true, if_false, ht, Res.bind_ok]
      simp only [Tree.paths, List.mem_append, List.mem_map] at hp
      rcases hp with ⟨e, he', heq⟩ | ⟨e, he', heq⟩
      · rw [Prod.mk.injEq] at heq
        obtain ⟨rfl, hpe⟩ := heq
        rw [hrem, List.cons.injEq] at hpe
        obtain ⟨rfl, hpe⟩ := hpe
        obtain ⟨u, hu, hfu, hru, heu⟩ := ihl (k := k) (p := e.2) (s := t) (by rw [hn]; exact hl) he' (by rw [hrt, hpe]) het
          (by rw [hrt]; omega)
        exact ⟨u, by rw [step]; exact hu, hf.trans hfu, hru, heu⟩
      · rw [Prod.mk.injEq] at heq
        obtain ⟨rfl, hpe⟩ := heq
        rw [hrem, List.cons.injEq] at hpe
        obtain ⟨rfl, hpe⟩ := hpe
        obtain ⟨u, hu, hfu, hru, heu⟩ := ihr (k := k) (p := e.2) (s := t) (by rw [hn]; exact hrr) he' (by rw [hrt, hpe]) het
          (by rw [hrt]; omega)
        exact ⟨u, by rw [step]; exact hu, hf.trans hfu, hru, heu⟩

theorem decodeFrom_onlyReader (k : Nat) (i : Fin 511) (s : State) : OnlyReader s (decodeFrom k i s).state := by
  induction k generalizing i s with
  | zero => rfl
  | succ k ih =>
    simp only [decodeFrom]
    split_ifs
    · rfl
    · have h := decBit_onlyReader s
      cases hb : decBit s with
      | ok b t => rw [hb] at h; exact h.trans (ih _ t)
      | raised e t => rw [hb] at h; exact h

end Sys2Proof.Machine
end

