-- ==== Sys2Proof/Laws/Parse.lean ====
section
/-! SUPPORT. Reading tries and symbols: `parse` builds the tree that the bits serialize (47_huffman_decode.md R281), and the
loop of HDSYMS decodes and writes symbols (R286). -/

namespace Sys2Proof.Machine

theorem OnlyParser.refl (s : State) : OnlyParser s s := rfl

theorem OnlyParser.trans {s t u : State} (h1 : OnlyParser s t) (h2 : OnlyParser t u) : OnlyParser s u := by
  unfold OnlyParser at *
  conv_lhs => rw [h2]
  conv_lhs => rw [h1]

theorem OnlyReader.onlyParser {s t : State} (h : OnlyReader s t) : OnlyParser s t := by
  unfold OnlyReader at h; unfold OnlyParser
  conv_lhs => rw [h]
  have hn : t.node = s.node := by rw [h]
  have hm : t.nodes = s.nodes := by rw [h]
  rw [hn, hm]

theorem OnlyParser.setNode (s : State) (i : Fin 511) (n : Node) : OnlyParser s (s.setNode i n) := rfl

@[simp] theorem remaining_setNode (s : State) (i : Fin 511) (n : Node) : (s.setNode i n).remaining = s.remaining := rfl

theorem setNode_get_same (s : State) (i : Fin 511) (n : Node) : (s.setNode i n).node[i.val]'i.isLt = n := by
  simp [State.setNode]

theorem setNode_get_other (s : State) (i : Fin 511) (n : Node) {j : Nat} (hj : j < 511) (h : j ≠ i.val) :
    (s.setNode i n).node[j] = s.node[j] := by
  simp only [State.setNode]
  exact Vector.getElem_set_ne _ _ (Ne.symm h)

/-- Allocate the next arena entry for a node with the tag `b` (R281). -/
def allocNode (b : Bool) (s : State) (h : s.nodes.val ≠ 511) : State :=
  { s.setNode ⟨s.nodes.val, by omega⟩ { Node.zero with leaf := b } with nodes := ⟨s.nodes.val + 1, by omega⟩ }

/-- `parse` after its tag has been read, below the node limit. -/
theorem parse_tag {k : Nat} {s t : State} {b : Bool} (ht : decBit s = .ok b t) (h : t.nodes.val ≠ 511) :
    parse (k + 1) s =
      if b then
        (decBits 8 (allocNode b t h)).bind fun v u =>
          .ok ⟨t.nodes.val, by omega⟩
            (u.setNode ⟨t.nodes.val, by omega⟩ { u.nodeAt ⟨t.nodes.val, by omega⟩ with sym := v.setWidth 8 })
      else
        (parse k (allocNode b t h)).bind fun l u =>
          (parse k (u.setNode ⟨t.nodes.val, by omega⟩ { u.nodeAt ⟨t.nodes.val, by omega⟩ with left := l })).bind fun r w =>
            .ok ⟨t.nodes.val, by omega⟩
              (w.setNode ⟨t.nodes.val, by omega⟩ { w.nodeAt ⟨t.nodes.val, by omega⟩ with right := r }) := by
  simp only [parse, ht, Res.bind_ok, h, dif_neg, not_false_eq_true]
  rfl

theorem numOf_byteBits (c : Byte) : numOf (byteBits c) = c.toNat := by
  rw [← bitsMsb_wideOfByte, numOf_bitsMsb, wideOfByte, BitVec.toNat_setWidth]
  have := c.isLt
  omega

/-- `parse` on the serialization of a trie that fits below the node limit (R281): nodes in preorder, the rest of the input
and the older entries untouched. -/
theorem parse_ok {t : Tree} {k : Nat} {s : State} {rest : List Bool} (hrem : s.remaining = t.bits ++ rest)
    (he : s.eoi = false) (hn : s.nodes.val + t.size ≤ 511) (hk : t.height < k) :
    ∃ (i : Fin 511) (u : State), parse k s = .ok i u ∧ i.val = s.nodes.val ∧ OnlyParser s u ∧ u.remaining = rest ∧
      u.eoi = false ∧ u.nodes.val = s.nodes.val + t.size ∧ Represents u.node i t ∧
      indicesOf u.node i t = List.range' s.nodes.val t.size ∧
      ∀ (j : Nat) (hj : j < 511), j < s.nodes.val → u.node[j] = s.node[j] := by
  induction t generalizing k s rest with
  | leaf c =>
    obtain ⟨k, rfl⟩ : ∃ k', k = k' + 1 := ⟨k - 1, by omega⟩
    simp only [Tree.size] at hn
    rw [Tree.bits, List.cons_append] at hrem
    obtain ⟨t, ht, hf, hrt, het⟩ := decBit_ok he hrem
    have htn : t.nodes = s.nodes := by rw [hf]
    have htd : t.node = s.node := by rw [hf]
    have hne : t.nodes.val ≠ 511 := by rw [htn]; omega
    have hrt' : (allocNode true t hne).remaining = byteBits c ++ rest := hrt
    obtain ⟨u, hu, hfu, hru, heu⟩ := decBits_ok (n := 8) (s := allocNode true t hne) het
      (by rw [hrt', List.length_append, byteBits_length]; omega)
    rw [hrt', List.take_left' (byteBits_length c), numOf_byteBits] at hu
    rw [hrt', List.drop_left' (byteBits_length c)] at hru
    have hval : (BitVec.ofNat 32 c.toNat).setWidth 8 = c := by
      apply BitVec.eq_of_toNat_eq
      have := c.isLt
      rw [BitVec.toNat_setWidth, BitVec.toNat_ofNat]; omega
    have hun : u.node = (allocNode true t hne).node := by rw [hfu]
    have huc : u.nodes = (allocNode true t hne).nodes := by rw [hfu]
    let i : Fin 511 := ⟨t.nodes.val, by omega⟩
    refine ⟨i, u.setNode i { u.nodeAt i with sym := c }, ?_, by rw [← htn], ?_, hru, heu, ?_, ?_, ?_, ?_⟩
    · rw [parse_tag ht hne, if_pos rfl, hu, Res.bind_ok, hval]
    · exact hf.onlyParser.trans (OnlyParser.trans (t := allocNode true t hne) rfl (hfu.onlyParser.trans rfl))
    · rw [State.setNode_nodes, huc, Tree.size, ← htn]; rfl
    · refine ⟨?_, ?_⟩
      · rw [setNode_get_same]
        simp only [State.nodeAt, hun, allocNode, setNode_get_same, i]
      · rw [setNode_get_same]
    · simp only [indicesOf, Tree.size, ← htn, List.range'_one, i]
    · intro j hj hlt
      rw [setNode_get_other _ _ _ hj (by simp only [i, htn]; omega), ← htd]
      simp only [hun, allocNode]
      exact setNode_get_other _ _ _ hj (by simp only [htn]; omega)
  | node l r ihl ihr =>
    obtain ⟨k, rfl⟩ : ∃ k', k = k' + 1 := ⟨k - 1, by omega⟩
    simp only [Tree.size] at hn
    simp only [Tree.height] at hk
    rw [Tree.bits, List.cons_append, List.append_assoc] at hrem
    obtain ⟨t, ht, hf, hrt, het⟩ := decBit_ok he hrem
    have htn : t.nodes = s.nodes := by rw [hf]
    have htd : t.node = s.node := by rw [hf]
    have hne : t.nodes.val ≠ 511 := by rw [htn]; omega
    let i : Fin 511 := ⟨t.nodes.val, by omega⟩
    have hav : (allocNode false t hne).nodes.val = s.nodes.val + 1 := by
      show t.nodes.val + 1 = _
      rw [htn]
    -- the left subtree
    obtain ⟨il, u, hu, hil, hfu, hru, heu, hcu, hrepu, hidu, holdu⟩ :=
      ihl (k := k) (s := allocNode false t hne) (rest := r.bits ++ rest) hrt het (by rw [hav]; omega) (by omega)
    rw [hav] at hil hcu hidu holdu
    have hui : u.node[i.val]'i.isLt = { Node.zero with leaf := false } := by
      rw [holdu i.val i.isLt (by simp only [i, htn]; omega)]
      simp only [allocNode, setNode_get_same, i]
    let u1 := u.setNode i { u.nodeAt i with left := il }
    have hu1n : u1.nodes.val = s.nodes.val + 1 + l.size := by simp only [u1, State.setNode_nodes, hcu]
    -- the right subtree
    obtain ⟨ir, w, hw, hir, hfw, hrw, hew, hcw, hrepw, hidw, holdw⟩ :=
      ihr (k := k) (s := u1) (rest := rest) hru heu (by rw [hu1n]; omega) (by omega)
    rw [hu1n] at hir hcw hidw holdw
    have hwi : w.node[i.val]'i.isLt = { Node.zero with leaf := false, left := il } := by
      rw [holdw i.val i.isLt (by simp only [i, htn]; omega)]
      simp only [u1, setNode_get_same, State.nodeAt, hui]
    let w1 := w.setNode i { w.nodeAt i with right := ir }
    have hw1i : w1.node[i.val]'i.isLt = { Node.zero with leaf := false, left := il, right := ir } := by
      simp only [w1, setNode_get_same, State.nodeAt, hwi]
    have hw1o : ∀ (j : Nat) (hj : j < 511), j ≠ i.val → w1.node[j] = w.node[j] := fun j hj hne' =>
      setNode_get_other _ _ _ hj hne'
    -- both subtrees in the final arena
    have hwu : ∀ (j : Nat) (hj : j < 511), j ≠ i.val → j < s.nodes.val + 1 + l.size → w1.node[j] = u.node[j] := by
      intro j hj hne' hlt
      rw [hw1o j hj hne', holdw j hj hlt]
      exact setNode_get_other _ _ _ hj hne'
    have hL := Represents.congr (a := u.node) (a' := w1.node) (t := l) (i := il) (by
      intro j hj hm
      rw [hidu, List.mem_range'_1] at hm
      exact hwu j hj (by simp only [i, htn]; omega) (by omega)) hrepu
    have hR := Represents.congr (a := w.node) (a' := w1.node) (t := r) (i := ir) (by
      intro j hj hm
      rw [hidw, List.mem_range'_1] at hm
      exact hw1o j hj (by simp only [i, htn]; omega)) hrepw
    refine ⟨i, w1, ?_, by simp only [i, htn], ?_, hrw, hew, ?_, ?_, ?_, ?_⟩
    · rw [parse_tag ht hne, if_neg (by simp), hu, Res.bind_ok]
      show (parse k u1).bind _ = _
      rw [hw, Res.bind_ok]
    · exact hf.onlyParser.trans (OnlyParser.trans (t := allocNode false t hne) rfl
        (hfu.trans (OnlyParser.trans (t := u1) rfl (hfw.trans rfl))))
    · show w.nodes.val = _
      rw [hcw]; simp only [Tree.size]; omega
    · simp only [Represents, hw1i]
      exact ⟨trivial, hL.1, hR.1⟩
    · simp only [indicesOf, hw1i, Tree.size]
      rw [hL.2, hR.2, hidu, hidw, show 1 + l.size + r.size = (l.size + r.size) + 1 by omega, List.range'_succ]
      congr 1
      · simp only [i, htn]
      · exact List.range'_append_1
    · intro j hj hlt
      rw [hwu j hj (by simp only [i, htn]; omega) (by omega), holdu j hj (by omega), ← htd]
      simp only [allocNode]
      exact setNode_get_other _ _ _ hj (by simp only [htn]; omega)

/-- Whatever happens, `parse` touches only the reader, the arena and NODES. -/
theorem parse_onlyParser (k : Nat) (s : State) : OnlyParser s (parse k s).state := by
  induction k generalizing s with
  | zero => rfl
  | succ k ih =>
    have hd := decBit_onlyReader s
    cases hb : decBit s with
    | raised e t =>
      rw [hb] at hd
      simp only [parse, hb, Res.bind_raised]
      exact hd.onlyParser
    | ok b t =>
      rw [hb] at hd
      by_cases h : t.nodes.val = 511
      · simp only [parse, hb, Res.bind_ok, h, dif_pos]
        exact hd.onlyParser
      · rw [parse_tag hb h]
        have ha : OnlyParser s (allocNode b t h) := hd.onlyParser.trans rfl
        split_ifs
        · have h8 := (decBits_onlyReader 8 (allocNode b t h)).onlyParser
          cases hv : decBits 8 (allocNode b t h) with
          | ok v u => rw [hv] at h8; exact (ha.trans h8).trans rfl
          | raised e u => rw [hv] at h8; exact ha.trans h8
        · have hl := ih (allocNode b t h)
          cases hp : parse k (allocNode b t h) with
          | raised e u => rw [hp] at hl; exact ha.trans hl
          | ok l u =>
            rw [hp] at hl
            simp only [Res.bind_ok]
            generalize hu1 : u.setNode ⟨t.nodes.val, by omega⟩ { u.nodeAt ⟨t.nodes.val, by omega⟩ with left := l } = u1
            have hau : OnlyParser s u1 := by subst hu1; exact (ha.trans hl).trans rfl
            have hr := ih u1
            cases hq : parse k u1 with
            | raised e w => rw [hq] at hr; exact hau.trans hr
            | ok r w => rw [hq] at hr; exact (hau.trans hr).trans rfl

/-! ### HDSYMS' loop -/

theorem OnlyDecoder.trans {s t u : State} (h1 : OnlyDecoder s t) (h2 : OnlyDecoder t u) : OnlyDecoder s u := by
  unfold OnlyDecoder at *
  conv_lhs => rw [h2]
  conv_lhs => rw [h1]

theorem OnlyReader.onlyDecoder {s t : State} (h : OnlyReader s t) : OnlyDecoder s t := by
  unfold OnlyDecoder
  have h1 : t.optr = s.optr := by rw [h]
  have h2 : t.wacc = s.wacc := by rw [h]
  have h3 : t.wcnt = s.wcnt := by rw [h]
  have h4 : t.obuf = s.obuf := by rw [h]
  have h5 : t.hrem = s.hrem := by rw [h]
  rw [h1, h2, h3, h4, h5]; exact h

theorem OnlyWriter.onlyDecoder {s t : State} (h : OnlyWriter s t) : OnlyDecoder s t := by
  unfold OnlyDecoder
  have h1 : t.iptr = s.iptr := by rw [h]
  have h2 : t.racc = s.racc := by rw [h]
  have h3 : t.rcnt = s.rcnt := by rw [h]
  have h4 : t.eoi = s.eoi := by rw [h]
  have h5 : t.hrem = s.hrem := by rw [h]
  rw [h1, h2, h3, h4, h5]; exact h

theorem OnlyWriter.remaining {s t : State} (h : OnlyWriter s t) : t.remaining = s.remaining := by
  rw [h]; rfl

theorem OnlyReader.written {s t : State} (h : OnlyReader s t) : t.written = s.written := by
  rw [h]; rfl

theorem OnlyReader.room {s t : State} (h : OnlyReader s t) : t.room = s.room := by
  rw [h]; rfl

/-- The decode loop on the codes of the symbols `es`, in order, with EOI = 0 or where no bit is read (R286). -/
theorem decodeAll_ok {t : Tree} (es : List (Byte × List Bool)) {s : State} {rest : List Bool}
    (hr : Represents s.node s.root t) (hes : ∀ e ∈ es, e ∈ t.paths) (ht : t.height < 511)
    (hrem : s.remaining = es.flatMap Prod.snd ++ rest) (he : s.eoi = false ∨ es.flatMap Prod.snd = []) (hp : s.optr.toNat ≤ s.obufSize)
    (hroom : 8 * es.length ≤ s.room) (hh : es.length ≤ s.hrem.toNat) :
    ∃ u, decodeAll es.length s = .ok () u ∧ OnlyDecoder s u ∧ u.remaining = rest ∧ u.eoi = s.eoi ∧
      u.written = s.written ++ (es.map Prod.fst).flatMap byteBits ∧ u.hrem.toNat = s.hrem.toNat - es.length ∧
      u.optr.toNat ≤ u.obufSize ∧ s.optr.toNat ≤ u.optr.toNat ∧ ObufSameOutside s u s.optr.toNat u.optr.toNat := by
  induction es generalizing s with
  | nil => exact ⟨s, rfl, rfl, hrem, rfl, by simp, by simp, hp, Nat.le_refl _, fun _ _ => rfl⟩
  | cons e es ih =>
    obtain ⟨c, p⟩ := e
    rw [List.flatMap_cons, List.append_assoc] at hrem
    rw [List.flatMap_cons, List.append_eq_nil_iff] at he
    rw [List.length_cons] at hroom hh
    have hmem : (c, p) ∈ t.paths := hes _ (by simp)
    have hpl := t.paths_length_le hmem
    obtain ⟨a, ha, hfa, hra, hea⟩ := decodeFrom_ok (k := decodeDepth) hr hmem hrem (he.imp_right And.left)
      (by simp only at hpl; unfold decodeDepth; omega)
    have haos : a.obufSize = s.obufSize := by rw [hfa]; rfl
    have hao : a.optr = s.optr := by rw [hfa]
    obtain ⟨b, hb, hfb, hwb, hpb, hroomb, hleb, houtb⟩ := writeList_fits (byteBits c) (s := a)
      (by rw [hao, haos]; exact hp) (by rw [byteBits_length, hfa.room]; omega)
    rw [byteBits_length, hfa.room] at hroomb
    have hbh : b.hrem = s.hrem := by rw [hfb]; show a.hrem = _; rw [hfa]
    have hbn : b.node = s.node := by rw [hfb]; show a.node = _; rw [hfa]
    have hbr : b.root = s.root := by rw [hfb]; show a.root = _; rw [hfa]
    have hbe : b.eoi = a.eoi := by rw [hfb]
    have hsub : (b.hrem - 1).toNat = s.hrem.toNat - 1 := by
      have := s.hrem.isLt
      rw [hbh, BitVec.toNat_sub]; simp; omega
    obtain ⟨u, hu, hfu, hru, heu, hwu, hhu, hpu, hleu, houtu⟩ := ih (s := { b with hrem := b.hrem - 1 })
      (by show Represents b.node b.root t; rw [hbn, hbr]; exact hr) (fun e he => hes e (by simp [he]))
      (by show b.remaining = _; rw [hfb.remaining]; exact hra) (by show b.eoi = false ∨ _; rw [hbe, hea]; exact he.imp_right And.right) hpb
      (by show 8 * es.length ≤ b.room; omega) (by show es.length ≤ (b.hrem - 1).toNat; rw [hsub]; omega)
    refine ⟨u, ?_, ?_, hru, heu.trans (hbe.trans hea), ?_, ?_, hpu, ?_, ?_⟩
    · rw [List.length_cons, decodeAll, decodeSymbol, ha, Res.bind_ok, writeBits_eq, bitsMsb_wideOfByte, hb, Res.bind_ok]
      exact hu
    · exact hfa.onlyDecoder.trans (hfb.onlyDecoder.trans (OnlyDecoder.trans (t := { b with hrem := b.hrem - 1 }) rfl hfu))
    · rw [hwu]
      show b.written ++ _ = _
      rw [hwb, hfa.written]; simp
    · rw [hhu]
      show (b.hrem - 1).toNat - _ = _
      rw [hsub, List.length_cons]; omega
    · have : b.optr.toNat ≤ u.optr.toNat := hleu
      rw [← hao]; omega
    · intro i hi
      have hle1 : a.optr.toNat ≤ b.optr.toNat := hleb
      have hle2 : b.optr.toNat ≤ u.optr.toNat := hleu
      rw [← hao] at hi
      have h1 : u.obufByte i = b.obufByte i := houtu i (by show ¬ (b.optr.toNat ≤ i ∧ _); omega)
      have h2 : b.obufByte i = a.obufByte i := houtb i (by omega)
      have h3 : a.obufByte i = s.obufByte i := by rw [hfa]; rfl
      rw [h1, h2, h3]

/-- Whatever happens, the decode loop touches only the reader, the writer and HREM. -/
theorem decodeAll_onlyDecoder (n : Nat) (s : State) : OnlyDecoder s (decodeAll n s).state := by
  induction n generalizing s with
  | zero => rfl
  | succ n ih =>
    rw [decodeAll, decodeSymbol]
    have h1 := (decodeFrom_onlyReader decodeDepth s.root s).onlyDecoder
    cases hd : decodeFrom decodeDepth s.root s with
    | raised e t => rw [hd] at h1; exact h1
    | ok c t =>
      rw [hd] at h1
      simp only [Res.bind_ok, writeBits_eq]
      have h2 := (writeList_onlyWriter (bitsMsb (wideOfByte c) 8) t).onlyDecoder
      cases hw : writeList (bitsMsb (wideOfByte c) 8) t with
      | raised e u => rw [hw] at h2; exact OnlyDecoder.trans h1 h2
      | ok a u =>
        rw [hw] at h2
        exact OnlyDecoder.trans (OnlyDecoder.trans h1 h2) (OnlyDecoder.trans (t := { u with hrem := u.hrem - 1 }) rfl (ih _))

end Sys2Proof.Machine
end

