-- ==== Sys2Proof/Laws/Position.lean ====
section
/-! SUPPORT. Where the reader stands: every primitive that reads leaves IPTR, RACC and RCNT as `Consumed` says (42_bitreader.md
R181), for whatever number of bits it took; `Took.consumed` turns what remains into that number. -/

namespace Sys2Proof.Machine

/-- From `s` to `u` the reader took some number of bits from the same source. -/
def Took (s u : State) : Prop :=
  (u.ilen = s.ilen ∧ u.ibuf = s.ibuf) ∧ ∃ n, Consumed n s u ∧ (n = 0 → u.rcnt = s.rcnt)

theorem rcnt_eq_zero_of_remaining {s : State} (h : s.remaining = []) : s.rcnt.val = 0 := by
  have := length_remaining s
  rw [h] at this
  simp only [List.length_nil] at this
  omega

theorem Took.refl (s : State) : Took s s :=
  ⟨⟨rfl, rfl⟩, 0, ⟨Nat.le_refl _, rfl, by simp, fun h => absurd h (by omega), fun _ => rfl, by simp⟩, fun _ => rfl⟩

theorem Took.trans {s t u : State} (h1 : Took s t) (h2 : Took t u) : Took s u := by
  obtain ⟨⟨hl1, hb1⟩, n, ⟨hp1, hr1, he1, hc1, hi1, ha1⟩, hz1⟩ := h1
  obtain ⟨⟨hl2, hb2⟩, m, ⟨hp2, hr2, he2, hc2, hi2, ha2⟩, hz2⟩ := h2
  refine ⟨⟨hl2.trans hl1, hb2.trans hb1⟩, n + m, ⟨by omega, ?_, ?_, ?_,
    fun h => (hi2 (by omega)).trans (hi1 (by omega)), ?_⟩, ?_⟩
  · rw [hr2, hr1, List.drop_drop]
  · have hlen : t.remaining.length = s.remaining.length - n := by rw [hr1, List.length_drop]
    rw [hlen] at he2
    omega
  · intro h
    by_cases hm : m = 0
    · rw [hz2 hm]; exact hc1 (by omega)
    · exact hc2 (by omega)
  · have hbyte : ∀ i, t.ibufByte i = s.ibufByte i := fun i => by simp only [State.ibufByte, hb1]
    rw [ha2, ha1]
    by_cases h1 : u.iptr = t.iptr
    · rw [if_pos h1, h1]
    · rw [if_neg h1, hbyte, if_neg]
      intro h
      apply h1
      apply BitVec.eq_of_toNat_eq
      rw [h] at hp2 ⊢
      omega
  · intro h
    rw [hz2 (by omega), hz1 (by omega)]

/-- What remains says how many bits were taken. -/
theorem Took.consumed {s u : State} {n : Nat} (h : Took s u) (hu : u.remaining = s.remaining.drop n) :
    Consumed n s u := by
  obtain ⟨-, m, ⟨hp, hr, he, hc, hi, ha⟩, -⟩ := h
  have hlen : s.remaining.length - m = s.remaining.length - n := by
    rw [← List.length_drop, ← List.length_drop, ← hr, hu]
  refine ⟨hp, hu, by omega, fun hn => ?_, fun hn => ?_, ha⟩
  by_cases hm : m = 0
  · have h0 : u.rcnt.val = 0 := rcnt_eq_zero_of_remaining (by
      rw [hu, List.drop_eq_nil_iff]; omega)
    omega
  · exact hc (by omega)
  · by_cases hm : m = 0
    · exact hi hm
    · have h0 : s.rcnt.val = 0 := rcnt_eq_zero_of_remaining (List.eq_nil_of_length_eq_zero (by omega))
      have := hc (by omega)
      exact BitVec.eq_of_toNat_eq (by omega)

theorem setEoi_took {s : State} (h : s.remaining = []) : Took s (setEoi s) := by
  have h0 := rcnt_eq_zero_of_remaining h
  refine ⟨⟨rfl, rfl⟩, 1, ⟨Nat.le_refl _, by simp [h], by simp [h], fun _ => ?_, fun _ => rfl, by simp⟩,
    fun h => absurd h (by omega)⟩
  show s.rcnt.val < 8
  omega

theorem readBit_took (s : State) : Took s (readBit s).2 := by
  by_cases h0 : s.rcnt.val = 0
  · by_cases hlt : s.iptr < s.ilen
    · have hlt' : s.iptr.toNat < s.ilen.toNat := hlt
      have hil : s.ilen.toNat < 2 ^ 32 := s.ilen.isLt
      have hp : (s.iptr + 1).toNat = s.iptr.toNat + 1 := by rw [BitVec.toNat_add]; simp; omega
      have hread : readBit s = takeBit { s with racc := s.ibufByte s.iptr.toNat, iptr := s.iptr + 1, rcnt := 8 } := by
        simp only [readBit, refill, h0, hlt, if_true]
      have hne : s.iptr + 1 ≠ s.iptr := by
        intro h
        have := congrArg BitVec.toNat h
        omega
      have hrem : s.remaining = (readBit s).1 :: (readBit s).2.remaining := by
        rcases readBit_cases s with ⟨hn, -⟩ | ⟨b, t, hb, hr, -, -⟩
        · have := length_remaining s
          rw [hn] at this
          simp only [List.length_nil] at this
          omega
        · rw [hb]; exact hr
      refine ⟨?_, 1, ⟨?_, ?_, ?_, ?_, fun h => absurd h (by omega), ?_⟩, fun h => absurd h (by omega)⟩
      · rw [hread]; exact ⟨rfl, rfl⟩
      · rw [hread]; show s.iptr.toNat ≤ (s.iptr + 1).toNat; omega
      · rw [hrem]; rfl
      · rw [hrem, List.length_cons, hread]
        show 8 * s.iptr.toNat + min 1 _ + (8 - 1) = 8 * (s.iptr + 1).toNat + s.rcnt.val
        omega
      · intro _; rw [hread]; show 8 - 1 < 8; omega
      · rw [hread]
        show s.ibufByte s.iptr.toNat = if s.iptr + 1 = s.iptr then s.racc else s.ibufByte ((s.iptr + 1).toNat - 1)
        rw [if_neg hne, hp, Nat.add_sub_cancel]
    · rcases readBit_cases s with ⟨hn, h⟩ | ⟨b, t, -, hr, -, -⟩
      · rw [h]; exact setEoi_took hn
      · have := length_remaining s
        have hle : s.ilen.toNat ≤ s.iptr.toNat := Nat.le_of_not_lt hlt
        rw [hr, List.length_cons] at this
        omega
  · have hread : readBit s = takeBit s := by simp only [readBit, refill, h0, if_false]
    have hrem : s.remaining = (readBit s).1 :: (readBit s).2.remaining := by
      rcases readBit_cases s with ⟨hn, -⟩ | ⟨b, t, hb, hr, -, -⟩
      · exact absurd (rcnt_eq_zero_of_remaining hn) h0
      · rw [hb]; exact hr
    refine ⟨?_, 1, ⟨?_, ?_, ?_, ?_, fun h => absurd h (by omega), ?_⟩, fun h => absurd h (by omega)⟩
    · rw [hread]; exact ⟨rfl, rfl⟩
    · rw [hread]; exact Nat.le_refl _
    · rw [hrem]; rfl
    · rw [hrem, List.length_cons, hread]
      show 8 * s.iptr.toNat + min 1 _ + (s.rcnt.val - 1) = 8 * s.iptr.toNat + s.rcnt.val
      omega
    · intro _; rw [hread]; show s.rcnt.val - 1 < 8; have := s.rcnt.isLt; omega
    · rw [hread]
      show s.racc = if s.iptr = s.iptr then s.racc else _
      rw [if_pos rfl]

theorem readBitsFrom_took (n : Nat) (v : Word) (s : State) : Took s (readBitsFrom n v s).2 := by
  induction n generalizing v s with
  | zero => exact Took.refl s
  | succ n ih => exact (readBit_took s).trans (ih _ _)

/-- A body whose reads can be followed. -/
def Takes {α : Type} (body : State → Res α) : Prop := ∀ s, Took s (body s).state

theorem Takes.bind {α β : Type} {f : State → Res α} {k : α → State → Res β} (hf : Takes f) (hk : ∀ a, Takes (k a)) :
    Takes fun s => (f s).bind k := by
  intro s
  have h := hf s
  simp only
  cases hfs : f s with
  | ok a t => rw [hfs] at h; exact h.trans (hk a t)
  | raised e t => rw [hfs] at h; exact h

theorem decBit_takes : Takes decBit := by
  intro s
  have h := readBit_took s
  unfold decBit
  simp only
  split_ifs <;> exact h

theorem decBitsFrom_takes (n : Nat) (v : Word) : Takes (decBitsFrom n v) := by
  induction n generalizing v with
  | zero => exact Took.refl
  | succ n ih => exact decBit_takes.bind fun b => ih _

theorem decBits_takes (n : Nat) : Takes (decBits n) := decBitsFrom_takes n 0

theorem decodeFrom_takes (k : Nat) (i : Fin 511) : Takes (decodeFrom k i) := by
  induction k generalizing i with
  | zero => exact Took.refl
  | succ k ih =>
    intro s
    simp only [decodeFrom]
    split_ifs
    · exact Took.refl s
    · exact (decBit_takes.bind fun b => ih _) s

theorem decodeSymbol_takes : Takes decodeSymbol := fun s => decodeFrom_takes decodeDepth s.root s

theorem parse_takes (k : Nat) : Takes (parse k) := by
  induction k with
  | zero => exact Took.refl
  | succ k ih =>
    intro s
    have hd := decBit_takes s
    cases hb : decBit s with
    | raised e t => rw [hb] at hd; simp only [parse, hb, Res.bind_raised]; exact hd
    | ok b t =>
      rw [hb] at hd
      by_cases h : t.nodes.val = 511
      · simp only [parse, hb, Res.bind_ok, h, dif_pos]; exact hd
      · rw [parse_tag hb h]
        have ha : Took s (allocNode b t h) := hd
        split_ifs
        · have h8 := decBits_takes 8 (allocNode b t h)
          cases hv : decBits 8 (allocNode b t h) <;> (rw [hv] at h8; exact ha.trans h8)
        · have hl := ih (allocNode b t h)
          cases hp : parse k (allocNode b t h) with
          | raised e u => rw [hp] at hl; exact ha.trans hl
          | ok x u =>
            rw [hp] at hl
            simp only [Res.bind_ok]
            have hr := ih (u.setNode ⟨t.nodes.val, by omega⟩ { u.nodeAt ⟨t.nodes.val, by omega⟩ with left := x })
            cases hq : parse k (u.setNode ⟨t.nodes.val, by omega⟩ { u.nodeAt ⟨t.nodes.val, by omega⟩ with left := x }) with
            | raised e w => rw [hq] at hr; exact (ha.trans hl).trans hr
            | ok r w => rw [hq] at hr; exact (ha.trans hl).trans hr

/-- The writer takes nothing from the input. -/
theorem OnlyWriter.took {s t : State} (h : OnlyWriter s t) : Took s t := by
  rw [h]; exact Took.refl s

theorem decodeAll_takes (n : Nat) : Takes (decodeAll n) := by
  induction n with
  | zero => exact Took.refl
  | succ n ih =>
    refine decodeSymbol_takes.bind fun c => Takes.bind (fun s => ?_) fun _ s => ih { s with hrem := s.hrem - 1 }
    rw [writeBits_eq]
    exact (writeList_onlyWriter _ s).took

end Sys2Proof.Machine
end

