-- ==== Sys2Proof/Laws/Arena.lean ====
section
/-! SUPPORT. What `parse` makes of the arena whether it succeeds or not, and that it succeeds only on the serialization of a trie
(47_huffman_decode.md R281). -/

namespace Sys2Proof.Machine

/-- A decode read that succeeds has found its bit, before the end of input. -/
theorem decBit_ok_inv {s t : State} {b : Bool} (h : decBit s = .ok b t) :
    s.eoi = false ∧ s.remaining = b :: t.remaining ∧ t.eoi = false ∧ OnlyReader s t := by
  rcases readBit_cases s with ⟨-, hb⟩ | ⟨b', t', hb, hr, hf, he⟩
  · simp [decBit, hb] at h
  · simp only [decBit, hb] at h
    split_ifs at h with h1
    cases h
    rw [Bool.not_eq_true] at h1
    exact ⟨by rw [← he, h1], hr, h1, hf⟩

theorem decBitsFrom_ok_inv {n : Nat} {v w : Word} {s t : State} (h : decBitsFrom n v s = .ok w t) (he : s.eoi = false) :
    n ≤ s.remaining.length ∧ t.remaining = s.remaining.drop n ∧ t.eoi = false := by
  by_cases hn : n ≤ s.remaining.length
  · obtain ⟨u, hu, -, hr, heu⟩ := decBitsFrom_ok n (v := v) he hn
    rw [hu] at h
    cases h
    exact ⟨hn, hr, heu⟩
  · obtain ⟨u, hu, -⟩ := decBitsFrom_short n (v := v) he (by omega)
    rw [hu] at h
    cases h

/-- Any eight bits spell a byte. -/
theorem exists_byteBits {bs : List Bool} (h : bs.length = 8) : ∃ c : Byte, byteBits c = bs := by
  refine ⟨BitVec.ofNat 8 (numOf bs), ?_⟩
  have h1 : ∀ b0 b1 b2 b3 b4 b5 b6 b7 : Bool,
      byteBits (BitVec.ofNat 8 (numOf [b0, b1, b2, b3, b4, b5, b6, b7])) = [b0, b1, b2, b3, b4, b5, b6, b7] := by decide
  match bs, h with
  | [b0, b1, b2, b3, b4, b5, b6, b7], _ => exact h1 b0 b1 b2 b3 b4 b5 b6 b7

/-- `parse` succeeds only where the input begins with the serialization of a trie that the arena has room for (R281). -/
theorem parse_ok_inv {k : Nat} {s u : State} {i : Fin 511} (h : parse k s = .ok i u) :
    ∃ t : Tree, s.eoi = false ∧ s.remaining = t.bits ++ u.remaining ∧ u.eoi = false ∧
      u.nodes.val = s.nodes.val + t.size := by
  induction k generalizing s u i with
  | zero => cases h
  | succ k ih =>
    cases hb : decBit s with
    | raised e t => simp [parse, hb] at h
    | ok b t =>
      obtain ⟨hes, hr, het, hf⟩ := decBit_ok_inv hb
      have htn : t.nodes = s.nodes := by rw [hf]
      by_cases h511 : t.nodes.val = 511
      · simp [parse, hb, h511] at h
      · rw [parse_tag hb h511] at h
        cases b with
        | true =>
          simp only [if_true] at h
          cases hv : decBits 8 (allocNode true t h511) with
          | raised e w => rw [hv] at h; cases h
          | ok v w =>
            rw [hv] at h
            simp only [Res.bind_ok] at h
            obtain ⟨h8, hrw, hew⟩ := decBitsFrom_ok_inv (n := 8) (v := 0) hv het
            have hra : (allocNode true t h511).remaining = t.remaining := rfl
            rw [hra] at h8 hrw
            obtain ⟨c, hc⟩ := exists_byteBits (bs := t.remaining.take 8) (by rw [List.length_take]; omega)
            have hwn : w.nodes = (allocNode true t h511).nodes := by
              have hfw : OnlyReader (allocNode true t h511) w := by
                have := decBits_onlyReader 8 (allocNode true t h511)
                rwa [hv] at this
              rw [hfw]
            cases h
            refine ⟨.leaf c, hes, ?_, hew, ?_⟩
            · show s.remaining = (true :: byteBits c) ++ w.remaining
              rw [hr, hc, hrw, List.cons_append, List.take_append_drop]
            · show w.nodes.val = s.nodes.val + 1
              rw [hwn, ← htn]; rfl
        | false =>
          simp only [Bool.false_eq_true, if_false] at h
          cases hl : parse k (allocNode false t h511) with
          | raised e w => rw [hl] at h; cases h
          | ok x w =>
            rw [hl] at h
            simp only [Res.bind_ok] at h
            obtain ⟨tl, -, hrl, hel, hnl⟩ := ih hl
            generalize hw1 : w.setNode ⟨t.nodes.val, by omega⟩ { w.nodeAt ⟨t.nodes.val, by omega⟩ with left := x } = w1 at h
            have hw1r : w1.remaining = w.remaining := by rw [← hw1]; rfl
            have hw1n : w1.nodes = w.nodes := by rw [← hw1]; rfl
            cases hq : parse k w1 with
            | raised e z => rw [hq] at h; cases h
            | ok y z =>
              rw [hq] at h
              simp only [Res.bind_ok] at h
              obtain ⟨tr, -, hrr, her, hnr⟩ := ih hq
              cases h
              refine ⟨.node tl tr, hes, ?_, her, ?_⟩
              · show s.remaining = (false :: (tl.bits ++ tr.bits)) ++ z.remaining
                have hra : (allocNode false t h511).remaining = t.remaining := rfl
                rw [hra] at hrl
                rw [hr, hrl, ← hw1r, hrr]; simp
              · show z.nodes.val = s.nodes.val + (1 + tl.size + tr.size)
                have : (allocNode false t h511).nodes.val = t.nodes.val + 1 := rfl
                rw [hnr, hw1n, hnl, this, htn]; omega

/-- `parse` raises nothing but MALFORMED_STREAM. -/
theorem parse_error {k : Nat} {s u : State} {e : ErrKind} (h : parse k s = .raised e u) : e = .malformedStream := by
  induction k generalizing s u with
  | zero => cases h; rfl
  | succ k ih =>
    cases hb : decBit s with
    | raised e' t =>
      simp only [parse, hb, Res.bind_raised] at h
      cases h
      exact decBit_error hb
    | ok b t =>
      by_cases h511 : t.nodes.val = 511
      · simp only [parse, hb, Res.bind_ok, h511, dif_pos] at h
        cases h; rfl
      · rw [parse_tag hb h511] at h
        split_ifs at h
        · cases hv : decBits 8 (allocNode b t h511) with
          | ok v w => rw [hv] at h; cases h
          | raised e' w =>
            rw [hv] at h
            cases h
            have hd : ∀ (n : Nat) (v : Word) (s : State), decBitsFrom n v s = .raised e u → e = .malformedStream := by
              intro n
              induction n with
              | zero => intro v s h; cases h
              | succ n ihn =>
                intro v s h
                rw [decBitsFrom] at h
                cases hb : decBit s with
                | ok b t => rw [hb] at h; exact ihn _ _ h
                | raised e t => rw [hb] at h; cases h; exact decBit_error hb
            exact hd 8 0 _ hv
        · cases hl : parse k (allocNode b t h511) with
          | raised e' w => rw [hl] at h; cases h; exact ih hl
          | ok x w =>
            rw [hl] at h
            simp only [Res.bind_ok] at h
            generalize w.setNode ⟨t.nodes.val, by omega⟩ { w.nodeAt ⟨t.nodes.val, by omega⟩ with left := x } = w1 at h
            cases hq : parse k w1 with
            | ok y z => rw [hq] at h; cases h
            | raised e' z => rw [hq] at h; cases h; exact ih hq

/-- The shape of an entry that `parse` makes: frequency 0, and only the fields of its kind (R281). -/
def Node.Parsed (n : Node) : Prop :=
  n.f = 0 ∧ (n.leaf = true → n.left = 0 ∧ n.right = 0) ∧ (n.leaf = false → n.sym = 0)

/-- The arena from `s` to `u`: entries are added in order, in the shape of parsed ones, the others are as they were. -/
def Grows (s u : State) : Prop :=
  s.nodes.val ≤ u.nodes.val ∧
    ∀ (j : Nat) (hj : j < 511), (j < s.nodes.val ∨ u.nodes.val ≤ j → u.node[j] = s.node[j]) ∧
      (s.nodes.val ≤ j → j < u.nodes.val → (u.node[j]).Parsed)

theorem Grows.of_eq {s u : State} (hn : u.nodes = s.nodes) (hd : u.node = s.node) : Grows s u := by
  refine ⟨by rw [hn], fun j hj => ⟨fun _ => by simp only [hd], fun h1 h2 => ?_⟩⟩
  rw [hn] at h2; omega

theorem Grows.trans {s t u : State} (h1 : Grows s t) (h2 : Grows t u) : Grows s u := by
  obtain ⟨hn1, he1⟩ := h1
  obtain ⟨hn2, he2⟩ := h2
  refine ⟨by omega, fun j hj => ⟨fun h => ?_, fun ha hb => ?_⟩⟩
  · rw [(he2 j hj).1 (by omega), (he1 j hj).1 (by omega)]
  · by_cases hjt : j < t.nodes.val
    · rw [(he2 j hj).1 (.inl hjt)]; exact (he1 j hj).2 ha hjt
    · exact (he2 j hj).2 (by omega) hb

theorem OnlyReader.grows {s u : State} (h : OnlyReader s u) : Grows s u :=
  Grows.of_eq (by rw [h]) (by rw [h])

theorem allocNode_grows (b : Bool) (t : State) (h : t.nodes.val ≠ 511) : Grows t (allocNode b t h) := by
  refine ⟨Nat.le_succ _, fun j hj => ⟨fun hc => ?_, fun ha hb => ?_⟩⟩
  · have hne : j ≠ t.nodes.val := by
      rcases hc with hc | hc
      · omega
      · have : t.nodes.val + 1 ≤ j := hc
        omega
    exact setNode_get_other t ⟨t.nodes.val, by omega⟩ _ hj hne
  · have hb' : j < t.nodes.val + 1 := hb
    obtain rfl : j = t.nodes.val := by omega
    have := setNode_get_same t ⟨t.nodes.val, by omega⟩ { Node.zero with leaf := b }
    show ((t.setNode ⟨t.nodes.val, by omega⟩ { Node.zero with leaf := b }).node[t.nodes.val]).Parsed
    rw [this]
    exact ⟨rfl, fun _ => ⟨rfl, rfl⟩, fun _ => rfl⟩

/-- Completing an entry that `parse` has allocated keeps its shape. -/
theorem Grows.setNode {s u : State} (h : Grows s u) (i : Fin 511) (n : Node) (hi : s.nodes.val ≤ i.val)
    (hi' : i.val < u.nodes.val) (hn : n.Parsed) : Grows s (u.setNode i n) := by
  obtain ⟨hle, he⟩ := h
  refine ⟨hle, fun j hj => ⟨fun hc => ?_, fun ha hb => ?_⟩⟩
  · have hc' : j < s.nodes.val ∨ u.nodes.val ≤ j := hc
    rw [setNode_get_other u i n hj (by omega)]
    exact (he j hj).1 hc'
  · by_cases hji : j = i.val
    · subst hji
      rw [setNode_get_same]; exact hn
    · rw [setNode_get_other u i n hj hji]
      exact (he j hj).2 ha hb

/-- Whatever happens, `parse` only adds entries to the arena. -/
theorem parse_grows (k : Nat) (s : State) : Grows s (parse k s).state := by
  induction k generalizing s with
  | zero => exact Grows.of_eq rfl rfl
  | succ k ih =>
    have hd := (decBit_onlyReader s).grows
    cases hb : decBit s with
    | raised e t => rw [hb] at hd; simp only [parse, hb, Res.bind_raised]; exact hd
    | ok b t =>
      rw [hb] at hd
      have hst : Grows s t := hd
      by_cases h : t.nodes.val = 511
      · simp only [parse, hb, Res.bind_ok, h, dif_pos]; exact hst
      · rw [parse_tag hb h]
        have ha := allocNode_grows b t h
        have hsn : s.nodes.val ≤ t.nodes.val := hst.1
        have han : (allocNode b t h).nodes.val = t.nodes.val + 1 := rfl
        have hi : (allocNode b t h).node[t.nodes.val] = { Node.zero with leaf := b } :=
          setNode_get_same t ⟨t.nodes.val, by omega⟩ _
        split_ifs with hbt
        · have h8 := (decBits_onlyReader 8 (allocNode b t h)).grows
          cases hv : decBits 8 (allocNode b t h) with
          | raised e u => rw [hv] at h8; exact hst.trans (ha.trans h8)
          | ok v u =>
            rw [hv] at h8
            have h8' : Grows (allocNode b t h) u := h8
            have hui : u.node[t.nodes.val] = { Node.zero with leaf := b } := by
              rw [(h8'.2 _ (by omega)).1 (.inl (by omega)), hi]
            refine Grows.setNode (hst.trans (ha.trans h8')) _ _ hsn (by have := h8'.1; show t.nodes.val < _; omega) ?_
            simp only [State.nodeAt, hui, hbt]
            exact ⟨rfl, fun _ => ⟨rfl, rfl⟩, fun h => by cases h⟩
        · have hl := ih (allocNode b t h)
          cases hp : parse k (allocNode b t h) with
          | raised e u => rw [hp] at hl; exact hst.trans (ha.trans hl)
          | ok x u =>
            rw [hp] at hl
            have hl' : Grows (allocNode b t h) u := hl
            simp only [Res.bind_ok]
            rw [Bool.not_eq_true] at hbt
            have hui : u.node[t.nodes.val] = { Node.zero with leaf := b } := by
              rw [(hl'.2 _ (by omega)).1 (.inl (by omega)), hi]
            have hun : t.nodes.val < u.nodes.val := by have := hl'.1; omega
            generalize hu1 : u.setNode ⟨t.nodes.val, by omega⟩ { u.nodeAt ⟨t.nodes.val, by omega⟩ with left := x } = u1
            have hs1 : Grows s u1 := by
              rw [← hu1]
              refine Grows.setNode (hst.trans (ha.trans hl')) _ _ hsn hun ?_
              simp only [State.nodeAt, hui, hbt]
              exact ⟨rfl, fun h => (by cases h), fun _ => rfl⟩
            have hu1i : u1.node[t.nodes.val] = { Node.zero with leaf := b, left := x } := by
              rw [← hu1, setNode_get_same u ⟨t.nodes.val, by omega⟩]
              simp only [State.nodeAt, hui]
            have hu1n : u1.nodes = u.nodes := by rw [← hu1]; rfl
            have hr := ih u1
            cases hq : parse k u1 with
            | raised e w => rw [hq] at hr; exact hs1.trans hr
            | ok y w =>
              rw [hq] at hr
              have hr' : Grows u1 w := hr
              have hwi : w.node[t.nodes.val] = { Node.zero with leaf := b, left := x } := by
                rw [(hr'.2 _ (by omega)).1 (.inl (by rw [hu1n]; exact hun)), hu1i]
              refine Grows.setNode (hs1.trans hr') _ _ hsn (by have := hr'.1; rw [hu1n] at this; show t.nodes.val < _; omega) ?_
              simp only [State.nodeAt, hwi, hbt]
              exact ⟨rfl, fun h => (by cases h), fun _ => rfl⟩

end Sys2Proof.Machine
end

