-- ==== Sys2Proof/Laws/Merge.lean ====
section
/-! SUPPORT. The merging loop of the builder (45_huffman_build.md R242): whatever the weights, it makes one trie of all the
leaves; with exact weights it makes the tree of `huffmanTree`. -/

namespace Sys2Proof.Machine

/-! ### The queue -/

theorem extractLeast_eq_none {q : List QueueItem} : extractLeast q = none ↔ q = [] := by
  cases q with
  | nil => simp [extractLeast]
  | cons a q =>
    simp only [extractLeast, reduceCtorEq, iff_false]
    cases extractLeast q with
    | none => simp
    | some r => simp only; split_ifs <;> simp

/-- Extraction takes one element and leaves the others. -/
theorem extractLeast_perm {q r : List QueueItem} {x : QueueItem} (h : extractLeast q = some (x, r)) : q.Perm (x :: r) := by
  induction q generalizing r x with
  | nil => cases h
  | cons a q ih =>
    simp only [extractLeast] at h
    cases hq : extractLeast q with
    | none => rw [hq] at h; rw [extractLeast_eq_none.mp hq]; cases h; exact List.Perm.refl _
    | some p =>
      obtain ⟨m, r'⟩ := p
      rw [hq] at h
      simp only at h
      split_ifs at h
      · cases h; exact List.Perm.refl _
      · cases h
        exact ((ih hq).cons a).trans (List.Perm.swap _ _ _)

/-! ### Tries in a list of nodes -/

/-- The list holds the trie `t` at index `i`. -/
def RepresentsIn (ns : List Node) : Nat → Tree → Prop
  | i, .leaf c => ∃ n, ns[i]? = some n ∧ n.leaf = true ∧ n.sym = c
  | i, .node l r => ∃ n, ns[i]? = some n ∧ n.leaf = false ∧ RepresentsIn ns n.left.val l ∧ RepresentsIn ns n.right.val r

/-- The indices that the trie `t` at index `i` occupies. -/
def indicesIn (ns : List Node) : Nat → Tree → List Nat
  | i, .leaf _ => [i]
  | i, .node l r =>
    match ns[i]? with
    | some n => i :: (indicesIn ns n.left.val l ++ indicesIn ns n.right.val r)
    | none => []

theorem getElem?_append_of_some {ns ms : List Node} {i : Nat} {n : Node} (h : ns[i]? = some n) :
    (ns ++ ms)[i]? = some n := by
  obtain ⟨hi, -⟩ := List.getElem?_eq_some_iff.mp h
  rw [List.getElem?_append_left hi, h]

theorem RepresentsIn.append {ns : List Node} {i : Nat} {t : Tree} (ms : List Node) (h : RepresentsIn ns i t) :
    RepresentsIn (ns ++ ms) i t ∧ indicesIn (ns ++ ms) i t = indicesIn ns i t := by
  induction t generalizing i with
  | leaf c =>
    obtain ⟨n, hn, h1, h2⟩ := h
    exact ⟨⟨n, getElem?_append_of_some hn, h1, h2⟩, rfl⟩
  | node l r ihl ihr =>
    obtain ⟨n, hn, h0, hl, hr⟩ := h
    have hn' : (ns ++ ms)[i]? = some n := getElem?_append_of_some hn
    refine ⟨⟨n, hn', h0, (ihl hl).1, (ihr hr).1⟩, ?_⟩
    simp only [indicesIn, hn, hn', (ihl hl).2, (ihr hr).2]

theorem RepresentsIn.lt {ns : List Node} {i : Nat} {t : Tree} (h : RepresentsIn ns i t) : i < ns.length := by
  cases t with
  | leaf c => obtain ⟨n, hn, -⟩ := h; exact (List.getElem?_eq_some_iff.mp hn).1
  | node l r => obtain ⟨n, hn, -⟩ := h; exact (List.getElem?_eq_some_iff.mp hn).1

/-- The new node over two tries that the list holds. -/
theorem RepresentsIn.internal {ns : List Node} {x y : Nat} {l r : Tree} {f : Word} (hl : RepresentsIn ns x l)
    (hr : RepresentsIn ns y r) (hlen : ns.length ≤ 511) :
    RepresentsIn (ns ++ [internalNode x y f]) ns.length (.node l r) ∧
      indicesIn (ns ++ [internalNode x y f]) ns.length (.node l r) = ns.length :: (indicesIn ns x l ++ indicesIn ns y r) := by
  have hn : (ns ++ [internalNode x y f])[ns.length]? = some (internalNode x y f) := by simp
  have hx : (internalNode x y f).left.val = x := by
    have := hl.lt
    simp only [internalNode, Fin.ofNat_eq_cast, Fin.val_natCast]; exact Nat.mod_eq_of_lt (by omega)
  have hy : (internalNode x y f).right.val = y := by
    have := hr.lt
    simp only [internalNode, Fin.ofNat_eq_cast, Fin.val_natCast]; exact Nat.mod_eq_of_lt (by omega)
  have h1 := hl.append [internalNode x y f]
  have h2 := hr.append [internalNode x y f]
  refine ⟨⟨_, hn, rfl, by rw [hx]; exact h1.1, by rw [hy]; exact h2.1⟩, ?_⟩
  simp only [indicesIn, hn, hx, hy, h1.2, h2.2]

/-! ### Whatever the weights -/

/-- A forest in a list of nodes: the tries `tree e` of the queue's elements, which together occupy the whole list, each entry
once, and whose leaves are the symbols `syms`. -/
def Forest (ns : List Node) (q : List QueueItem) (syms : List Byte) (tree : QueueItem → Tree) : Prop :=
  (∀ e ∈ q, RepresentsIn ns e.2 (tree e)) ∧
    (q.flatMap fun e => indicesIn ns e.2 (tree e)).Perm (List.range ns.length) ∧
    (q.flatMap fun e => (tree e).leafSyms).Perm syms

theorem Forest.perm {ns : List Node} {q q' : List QueueItem} {syms : List Byte} {tree : QueueItem → Tree}
    (h : Forest ns q syms tree) (hp : q.Perm q') : Forest ns q' syms tree :=
  ⟨fun e he => h.1 e (hp.mem_iff.mpr he), (hp.symm.flatMap_right _).trans h.2.1, (hp.symm.flatMap_right _).trans h.2.2⟩

/-- One merge of a forest. -/
theorem Forest.merge {ns : List Node} {q : List QueueItem} {x y : QueueItem} {f : Word} {syms : List Byte}
    {tree : QueueItem → Tree} (h : Forest ns (x :: y :: q) syms tree) (hlen : ns.length < 511) :
    Forest (ns ++ [internalNode x.2 y.2 f]) (q ++ [(f, ns.length)]) syms
      (fun e => if e.2 = ns.length then .node (tree x) (tree y) else tree e) := by
  obtain ⟨hh, hc, hs⟩ := h
  have hx := hh x (by simp)
  have hy := hh y (by simp)
  have hnew := hx.internal (f := f) hy (by omega)
  have hq : ∀ e ∈ q, RepresentsIn ns e.2 (tree e) := fun e he => hh e (by simp [he])
  have hne : ∀ e ∈ q, e.2 ≠ ns.length := fun e he => Nat.ne_of_lt (hq e he).lt
  refine ⟨?_, ?_, ?_⟩
  · intro e he
    rw [List.mem_append, List.mem_singleton] at he
    rcases he with he | rfl
    · simp only [hne e he, if_false]; exact ((hq e he).append _).1
    · simp only [if_true]; exact hnew.1
  · rw [List.flatMap_append, List.flatMap_singleton]
    simp only [if_true]
    rw [hnew.2]
    have hsame : (q.flatMap fun e => indicesIn (ns ++ [internalNode x.2 y.2 f]) e.2
        (if e.2 = ns.length then .node (tree x) (tree y) else tree e)) = q.flatMap fun e => indicesIn ns e.2 (tree e) := by
      refine List.flatMap_congr fun e he => ?_
      simp only [hne e he, if_false]; exact ((hq e he).append _).2
    rw [hsame, List.length_append, List.length_singleton, List.range_succ]
    rw [List.flatMap_cons, List.flatMap_cons] at hc
    refine List.perm_append_comm.trans ?_
    refine List.Perm.trans ?_ List.perm_append_comm
    show List.Perm (ns.length :: _) ([ns.length] ++ _)
    refine List.Perm.cons _ ?_
    rw [← List.append_assoc] at hc; exact hc
  · rw [List.flatMap_append, List.flatMap_singleton]
    simp only [if_true, Tree.leafSyms]
    have hsame : (q.flatMap fun e => (if e.2 = ns.length then Tree.node (tree x) (tree y) else tree e).leafSyms) =
        q.flatMap fun e => (tree e).leafSyms := by
      refine List.flatMap_congr fun e he => ?_
      simp only [hne e he, if_false]
    rw [hsame]
    rw [List.flatMap_cons, List.flatMap_cons, ← List.append_assoc] at hs
    exact List.perm_append_comm.trans hs

/-- What one turn of the merging loop does: with two elements or more, the two extracted ones are replaced by their parent. -/
theorem mergeLoop_succ (k : Nat) (q : List QueueItem) (ns : List Node) :
    (q.length ≤ 1 ∧ mergeLoop (k + 1) q ns = ns) ∨
    ∃ x q1 y q2, extractLeast q = some (x, q1) ∧ extractLeast q1 = some (y, q2) ∧ q.Perm (x :: y :: q2) ∧
      mergeLoop (k + 1) q ns =
        mergeLoop k (q2 ++ [(x.1 + y.1, ns.length)]) (ns ++ [internalNode x.2 y.2 (x.1 + y.1)]) := by
  cases h1 : extractLeast q with
  | none =>
    left
    rw [extractLeast_eq_none.mp h1]
    exact ⟨by simp, rfl⟩
  | some p =>
    obtain ⟨x, q1⟩ := p
    have hp1 := extractLeast_perm h1
    cases h2 : extractLeast q1 with
    | none =>
      left
      rw [extractLeast_eq_none.mp h2] at hp1
      exact ⟨by rw [hp1.length_eq]; simp, by simp [mergeLoop, h1, h2]⟩
    | some p =>
      obtain ⟨y, q2⟩ := p
      right
      exact ⟨x, q1, y, q2, rfl, h2, hp1.trans ((extractLeast_perm h2).cons x), by simp [mergeLoop, h1, h2]⟩

/-- The merging loop makes one trie of a forest, its root last (R242). -/
theorem mergeLoop_forest {k : Nat} {q : List QueueItem} {ns : List Node} {syms : List Byte} {tree : QueueItem → Tree}
    (h : Forest ns q syms tree) (hq : q ≠ []) (hk : q.length ≤ k + 1) (hlen : ns.length + q.length ≤ 512)
    (hlast : ∀ e, q = [e] → e.2 + 1 = ns.length) :
    ∃ t, RepresentsIn (mergeLoop k q ns) ((mergeLoop k q ns).length - 1) t ∧
      (indicesIn (mergeLoop k q ns) ((mergeLoop k q ns).length - 1) t).Perm (List.range (mergeLoop k q ns).length) ∧
      t.leafSyms.Perm syms ∧ (mergeLoop k q ns).length + 1 = ns.length + q.length ∧ ns <+: mergeLoop k q ns := by
  have base : ∀ {q : List QueueItem} {ns : List Node} {tree : QueueItem → Tree}, Forest ns q syms tree → q.length = 1 →
      (∀ e, q = [e] → e.2 + 1 = ns.length) →
      ∃ t, RepresentsIn ns (ns.length - 1) t ∧ (indicesIn ns (ns.length - 1) t).Perm (List.range ns.length) ∧
        t.leafSyms.Perm syms ∧ ns.length + 1 = ns.length + q.length ∧ ns <+: ns := by
    intro q ns tree h h1 hlast
    obtain ⟨e, rfl⟩ := List.length_eq_one_iff.mp h1
    have he := hlast e rfl
    obtain ⟨hh, hc, hs⟩ := h
    rw [List.flatMap_singleton] at hc hs
    have : ns.length - 1 = e.2 := by omega
    rw [this]
    exact ⟨tree e, hh e (by simp), hc, hs, by simp, List.prefix_refl _⟩
  induction k generalizing q ns tree with
  | zero =>
    have h1 : q.length = 1 := by
      have := List.length_pos_iff.mpr hq
      omega
    exact base h h1 hlast
  | succ k ih =>
    rcases mergeLoop_succ k q ns with ⟨hle, hm⟩ | ⟨x, q1, y, q2, -, -, hp, hm⟩
    · have h1 : q.length = 1 := by
        have := List.length_pos_iff.mpr hq
        omega
      rw [hm]; exact base h h1 hlast
    · have hql : q.length = q2.length + 2 := by rw [hp.length_eq]; simp
      rw [hm]
      obtain ⟨t, h1, h2, h3, h4, h5⟩ := ih ((h.perm hp).merge (f := x.1 + y.1) (by omega)) (by simp)
        (by rw [List.length_append, List.length_singleton]; omega)
        (by rw [List.length_append, List.length_append, List.length_singleton, List.length_singleton]; omega)
        (by
          intro e he
          rw [List.append_eq_singleton_iff] at he
          rcases he with ⟨-, he⟩ | ⟨-, he⟩
          · cases he; simp
          · cases he)
      refine ⟨t, h1, h2, h3, ?_, (List.prefix_append _ _).trans h5⟩
      rw [h4, List.length_append, List.length_append, List.length_singleton, List.length_singleton]; omega

end Sys2Proof.Machine
end

