-- ==== Sys2Proof/Laws/Build.lean ====
section
/-! SUPPORT. HBUILD's arena (45_huffman_build.md R241, R242): the leaves, the trie they are merged into, and its agreement with the
tree that the exact algorithm gives while the counters' sum fits 32 bits. -/

namespace Sys2Proof.Machine

/-! ### Leaves -/

theorem symbols_length : symbols.length = 256 := by simp [symbols]

theorem mem_symbols (c : Byte) : c ∈ symbols := by
  refine List.mem_map.mpr ⟨c.toNat, List.mem_range.mpr c.isLt, ?_⟩
  simp

theorem symbols_nodup : symbols.Nodup := by
  refine List.Nodup.map_on (fun a ha b hb h => ?_) List.nodup_range
  rw [List.mem_range] at ha hb
  have := congrArg BitVec.toNat h
  rwa [BitVec.toNat_ofNat, BitVec.toNat_ofNat, Nat.mod_eq_of_lt ha, Nat.mod_eq_of_lt hb] at this

theorem filter_zero_length (count : Byte → Nat) :
    (symbols.filter fun c => count c = 0).length + distinctCount count = 256 := by
  have h := List.length_eq_length_filter_add (l := symbols) fun c => decide (count c = 0)
  rw [symbols_length] at h
  have hd : (symbols.filter fun c => !decide (count c = 0)) = symbols.filter fun c => decide (count c ≠ 0) := by
    congr 1; funext c; simp
  rw [hd] at h
  unfold distinctCount
  omega

/-- There are as many leaves as symbols that occur, and at least two (R251). -/
theorem leafSymbols_length (count : Byte → Nat) : (leafSymbols count).length = max (distinctCount count) 2 := by
  have h := filter_zero_length count
  simp only [leafSymbols, List.length_append, List.length_take]
  unfold distinctCount at *
  omega

theorem distinctCount_le (count : Byte → Nat) : distinctCount count ≤ 256 := by
  have h := filter_zero_length count
  omega

theorem leafSymbols_nodup (count : Byte → Nat) : (leafSymbols count).Nodup := by
  refine List.nodup_append.mpr ⟨symbols_nodup.filter _, (symbols_nodup.filter _).sublist (List.take_sublist _ _), ?_⟩
  intro a ha b hb hab
  have h1 := (List.mem_filter.mp ha).2
  have h2 := (List.mem_filter.mp (List.mem_of_mem_take hb)).2
  subst hab
  simp at h1 h2
  exact h1 h2

theorem mem_leafSymbols_of_two {count : Byte → Nat} (h : 2 ≤ distinctCount count) (c : Byte) :
    c ∈ leafSymbols count ↔ count c ≠ 0 := by
  have h0 : 2 - (symbols.filter fun c => decide (count c ≠ 0)).length = 0 := by unfold distinctCount at h; omega
  simp only [leafSymbols, h0, List.take_zero, List.append_nil, List.mem_filter, mem_symbols, true_and, decide_eq_true_eq]

/-- The counters of a frequency table as numbers. -/
def countsOf (freq : Vector Word 256) (c : Byte) : Nat := (freq[c.toNat]'(symbol_lt c)).toNat

theorem State.counts_eq (s : State) : s.counts = countsOf s.freq := rfl

theorem freq_eq_zero_iff (freq : Vector Word 256) (c : Byte) :
    freq[c.toNat]'(symbol_lt c) = 0 ↔ countsOf freq c = 0 := by
  unfold countsOf
  exact ⟨fun h => by rw [h]; rfl, fun h => BitVec.eq_of_toNat_eq h⟩

/-- The leaves in arena order are those of `leafSymbols` (R241). -/
theorem leaves_eq (freq : Vector Word 256) :
    leaves freq = (leafSymbols (countsOf freq)).map fun c => leafNode c (freq[c.toNat]'(symbol_lt c)) := by
  have ho : occurring freq = symbols.filter fun c => decide (countsOf freq c ≠ 0) := by
    unfold occurring
    congr 1; funext c
    exact decide_eq_decide.mpr (not_congr (freq_eq_zero_iff freq c))
  have hz : (symbols.filter fun c => decide (freq[c.toNat]'(symbol_lt c) = 0)) =
      symbols.filter fun c => decide (countsOf freq c = 0) := by
    congr 1; funext c
    exact decide_eq_decide.mpr (freq_eq_zero_iff freq c)
  unfold leaves dummies
  rw [ho, hz, leafSymbols, List.map_append]
  congr 1
  refine List.map_congr_left fun c hc => ?_
  have := (List.mem_filter.mp (List.mem_of_mem_take hc)).2
  rw [(freq_eq_zero_iff freq c).mpr (by simpa using this)]

theorem leaves_length (freq : Vector Word 256) : (leaves freq).length = (leafSymbols (countsOf freq)).length := by
  rw [leaves_eq, List.length_map]

theorem leaves_length_bounds (freq : Vector Word 256) : 2 ≤ (leaves freq).length ∧ (leaves freq).length ≤ 256 := by
  have h1 := leafSymbols_length (countsOf freq)
  have h2 := distinctCount_le (countsOf freq)
  rw [leaves_length]
  omega

theorem initialQueue_length (ns : List Node) : (initialQueue ns).length = ns.length := by simp [initialQueue]

theorem initialQueue_eq (ns : List Node) : initialQueue ns = ns.zipIdx.map fun e => (e.1.f, e.2) := by
  apply List.ext_getElem
  · simp [initialQueue]
  · intro i h1 h2
    simp [initialQueue]

/-- The leaves, each a trie of its own. -/
theorem leaves_forest (freq : Vector Word 256) :
    Forest (leaves freq) (initialQueue (leaves freq)) (leafSymbols (countsOf freq))
      (fun e => .leaf (((leaves freq)[e.2]?.map Node.sym).getD 0)) := by
  have hsym : ∀ (j : Nat) (hj : j < (leaves freq).length), ((leaves freq)[j]).leaf = true := by
    intro j hj
    simp only [leaves_eq, List.getElem_map, leafNode]
  refine ⟨?_, ?_, ?_⟩
  · intro e he
    rw [initialQueue_eq, List.mem_map] at he
    obtain ⟨⟨n, j⟩, hj, rfl⟩ := he
    have hj' := List.mem_zipIdx' hj
    refine ⟨n, ?_, ?_, ?_⟩
    · simp only; rw [hj'.2]; exact List.getElem?_eq_getElem hj'.1
    · rw [hj'.2]; exact hsym j hj'.1
    · simp only [List.getElem?_eq_getElem hj'.1, Option.map_some, Option.getD_some, hj'.2]
  · have : ((initialQueue (leaves freq)).flatMap fun e => indicesIn (leaves freq) e.2
        (Tree.leaf (((leaves freq)[e.2]?.map Node.sym).getD 0))) = List.range (leaves freq).length := by
      simp only [indicesIn, ← List.map_eq_flatMap]
      simp [initialQueue, List.map_snd_zip]
    rw [this]
  · have : ((initialQueue (leaves freq)).flatMap fun e =>
        (Tree.leaf (((leaves freq)[e.2]?.map Node.sym).getD 0)).leafSyms) = leafSymbols (countsOf freq) := by
      simp only [Tree.leafSyms, ← List.map_eq_flatMap]
      apply List.ext_getElem
      · simp [initialQueue, leaves_length]
      · intro j h1 h2
        have hj : j < (leaves freq).length := by rw [leaves_length]; exact h2
        simp only [List.getElem_map, initialQueue, List.getElem_zip, List.getElem_range,
          List.getElem?_eq_getElem hj, Option.map_some, Option.getD_some]
        simp only [leaves_eq, List.getElem_map, leafNode]
    rw [this]

/-- All entries of the built trie: their number, their first part, and the trie they hold (R242, R60). -/
theorem buildNodes_trie (freq : Vector Word 256) :
    ∃ t, RepresentsIn (buildNodes freq) ((buildNodes freq).length - 1) t ∧
      (indicesIn (buildNodes freq) ((buildNodes freq).length - 1) t).Perm (List.range (buildNodes freq).length) ∧
      t.leafSyms.Perm (leafSymbols (countsOf freq)) ∧ (buildNodes freq).length + 1 = 2 * (leaves freq).length ∧
      leaves freq <+: buildNodes freq := by
  obtain ⟨h2, h256⟩ := leaves_length_bounds freq
  have hl := initialQueue_length (leaves freq)
  obtain ⟨t, h1, h2', h3, h4, h5⟩ := mergeLoop_forest (k := (leaves freq).length) (leaves_forest freq)
    (by intro h; rw [h] at hl; simp at hl; omega) (by omega) (by omega)
    (by intro e he; rw [he] at hl; simp at hl; omega)
  exact ⟨t, h1, h2', h3, by unfold buildNodes; omega, h5⟩

/-! ### The arena -/

theorem storeNodes_get (a : Vector Node 511) (i : Nat) (ns : List Node) {j : Nat} (hj : j < 511) :
    (storeNodes a i ns)[j] = if i ≤ j then (ns[j - i]?).getD a[j] else a[j] := by
  induction ns generalizing a i with
  | nil => simp [storeNodes]
  | cons n ns ih =>
    rw [storeNodes, ih]
    by_cases h1 : i + 1 ≤ j
    · obtain ⟨d, hd⟩ : ∃ d, j - i = d + 1 := ⟨j - i - 1, by omega⟩
      rw [if_pos h1, if_pos (by omega), hd, List.getElem?_cons_succ, show j - (i + 1) = d by omega,
        Vector.getElem_setIfInBounds_ne _ (by omega)]
    · rw [if_neg h1]
      by_cases h2 : i = j
      · subst h2; simp
      · rw [if_neg (by omega), Vector.getElem_setIfInBounds_ne _ h2]

/-- A stored entry. -/
theorem storeNodes_get_new {a : Vector Node 511} {ns : List Node} {j : Nat} {n : Node} (hj : j < 511)
    (h : ns[j]? = some n) : (storeNodes a 0 ns)[j] = n := by
  rw [storeNodes_get a 0 ns hj]; simp [h]

/-- The entries above keep their stale contents (R60). -/
theorem storeNodes_get_old {a : Vector Node 511} {ns : List Node} {j : Nat} (hj : j < 511) (h : ns.length ≤ j) :
    (storeNodes a 0 ns)[j] = a[j] := by
  rw [storeNodes_get a 0 ns hj]; simp [h]

/-- A trie of the list, once stored in the arena. -/
theorem RepresentsIn.stored {a : Vector Node 511} {ns : List Node} {i : Nat} {t : Tree} (h : RepresentsIn ns i t)
    (hi : i < 511) :
    Represents (storeNodes a 0 ns) ⟨i, hi⟩ t ∧ indicesOf (storeNodes a 0 ns) ⟨i, hi⟩ t = indicesIn ns i t := by
  induction t generalizing i with
  | leaf c =>
    obtain ⟨n, hn, h1, h2⟩ := h
    have := storeNodes_get_new (a := a) hi hn
    exact ⟨⟨by rw [this, h1], by rw [this, h2]⟩, rfl⟩
  | node l r ihl ihr =>
    obtain ⟨n, hn, h0, hl, hr⟩ := h
    have hs : (storeNodes a 0 ns)[i] = n := storeNodes_get_new hi hn
    have hL := ihl hl n.left.isLt
    have hR := ihr hr n.right.isLt
    refine ⟨⟨by rw [hs, h0], ?_, ?_⟩, ?_⟩
    · rw [hs]; exact hL.1
    · rw [hs]; exact hR.1
    · simp only [indicesOf, indicesIn, hn, hs]
      rw [hL.2, hR.2]

theorem buildNodes_length (freq : Vector Word 256) :
    3 ≤ (buildNodes freq).length ∧ (buildNodes freq).length ≤ 511 := by
  obtain ⟨t, -, -, -, h, -⟩ := buildNodes_trie freq
  have := leaves_length_bounds freq
  omega

theorem buildTrie_nodes (s : State) : (buildTrie s).nodes.val = (buildNodes s.freq).length := by
  have := buildNodes_length s.freq
  show (Fin.ofNat 512 (buildNodes s.freq).length).val = _
  simp only [Fin.ofNat_eq_cast, Fin.val_natCast]
  exact Nat.mod_eq_of_lt (by omega)

theorem buildTrie_root (s : State) : (buildTrie s).root.val = (buildNodes s.freq).length - 1 := by
  have := buildNodes_length s.freq
  show (Fin.ofNat 511 ((buildNodes s.freq).length - 1)).val = _
  simp only [Fin.ofNat_eq_cast, Fin.val_natCast]
  exact Nat.mod_eq_of_lt (by omega)

/-- HBUILD's arena holds a trie whose leaves are those of R241, each once. -/
theorem buildTrie_holds (s : State) :
    ∃ t, (buildTrie s).HoldsTrie t ∧ RepresentsIn (buildNodes s.freq) ((buildNodes s.freq).length - 1) t ∧
      t.leafSyms.Perm (leafSymbols s.counts) := by
  obtain ⟨t, h1, h2, h3, -, -⟩ := buildNodes_trie s.freq
  have hlen := buildNodes_length s.freq
  have hroot : (buildTrie s).root = ⟨(buildNodes s.freq).length - 1, by omega⟩ := Fin.ext (buildTrie_root s)
  have hs := h1.stored (a := s.node) (by omega)
  refine ⟨t, ⟨?_, ?_⟩, h1, h3⟩
  · rw [hroot]; exact hs.1
  · rw [hroot, buildTrie_nodes]
    show (indicesOf (storeNodes s.node 0 (buildNodes s.freq)) _ t).Perm _
    rw [hs.2]; exact h2

/-! ### The exact algorithm -/

/-- A queue element of the arena against one of the exact algorithm: the same weight, the same number, the same trie. -/
def Matches (ns : List Node) (e : QueueItem) (E : QueueTree) : Prop :=
  e.1.toNat = E.1 ∧ e.2 = E.2.1 ∧ RepresentsIn ns e.2 E.2.2

theorem queueLt_eq {ns : List Node} {a b : QueueItem} {A B : QueueTree} (ha : Matches ns a A) (hb : Matches ns b B) :
    queueLt a b = treeLt A B := by
  obtain ⟨h1, h2, -⟩ := ha
  obtain ⟨h3, h4, -⟩ := hb
  unfold queueLt treeLt
  rw [← h1, ← h2, ← h3, ← h4]
  congr 2
  exact decide_eq_decide.mpr ⟨fun h => congrArg _ h, fun h => BitVec.eq_of_toNat_eq h⟩

/-- Both queues give up the same element. -/
theorem extract_matches {ns : List Node} {q : List QueueItem} {Q : List QueueTree}
    (h : List.Forall₂ (Matches ns) q Q) :
    (extractLeast q = none ∧ takeLeast Q = none) ∨
    ∃ x r X R, extractLeast q = some (x, r) ∧ takeLeast Q = some (X, R) ∧ Matches ns x X ∧
      List.Forall₂ (Matches ns) r R := by
  induction h with
  | nil => exact .inl ⟨rfl, rfl⟩
  | @cons a A q Q ha hq ih =>
    right
    rcases ih with ⟨h1, h2⟩ | ⟨x, r, X, R, h1, h2, hx, hr⟩
    · exact ⟨a, [], A, [], by simp [extractLeast, h1], by simp [takeLeast, h2], ha, .nil⟩
    · by_cases hlt : queueLt a x = true
      · have hLt : treeLt A X = true := by rw [← queueLt_eq ha hx, hlt]
        exact ⟨a, q, A, Q, by simp [extractLeast, h1, hlt], by simp [takeLeast, h2, hLt], ha, hq⟩
      · have hLt : ¬ treeLt A X = true := by rw [← queueLt_eq ha hx]; exact hlt
        exact ⟨x, a :: r, X, A :: R, by simp [extractLeast, h1, hlt], by simp [takeLeast, h2, hLt], hx, .cons ha hr⟩

theorem takeLeast_perm {Q R : List QueueTree} {X : QueueTree} (h : takeLeast Q = some (X, R)) : Q.Perm (X :: R) := by
  induction Q generalizing R X with
  | nil => cases h
  | cons A Q ih =>
    simp only [takeLeast] at h
    cases hq : takeLeast Q with
    | none =>
      rw [hq] at h
      have hQ : Q = [] := by
        cases Q with
        | nil => rfl
        | cons B Q =>
          simp only [takeLeast] at hq
          cases hT : takeLeast Q with
          | none => rw [hT] at hq; simp at hq
          | some p => rw [hT] at hq; simp only at hq; split_ifs at hq
      cases h; rw [hQ]
    | some p =>
      obtain ⟨M, R'⟩ := p
      rw [hq] at h
      simp only at h
      split_ifs at h
      · cases h; exact List.Perm.refl _
      · cases h
        exact ((ih hq).cons A).trans (List.Perm.swap _ _ _)

/-- While the weights' sum fits 32 bits, the arena's trie is the tree of the exact algorithm (R242). -/
theorem mergeLoop_matches {k : Nat} {q : List QueueItem} {ns : List Node} {Q : List QueueTree}
    (h : List.Forall₂ (Matches ns) q Q) (hq : q ≠ []) (hk : q.length ≤ k) (hlen : ns.length + q.length ≤ 512)
    (hsum : (Q.map Prod.fst).sum < 2 ^ 32) (hlast : ∀ e, q = [e] → e.2 + 1 = ns.length) :
    ∃ t, mergeTrees k ns.length Q = some t ∧
      RepresentsIn (mergeLoop k q ns) ((mergeLoop k q ns).length - 1) t := by
  induction k generalizing q ns Q with
  | zero =>
    have := List.length_pos_iff.mpr hq
    omega
  | succ k ih =>
    rcases extract_matches h with ⟨h1, -⟩ | ⟨x, r, X, R, h1, H1, hx, hr⟩
    · exact absurd (extractLeast_eq_none.mp h1) hq
    · rcases extract_matches hr with ⟨h2, H2⟩ | ⟨y, r2, Y, R2, h2, H2, hy, hr2⟩
      · have hp := extractLeast_perm h1
        rw [extractLeast_eq_none.mp h2] at hp
        have hqe : q = [x] := List.perm_singleton.mp hp
        refine ⟨X.2.2, by simp [mergeTrees, H1, H2], ?_⟩
        have hm : mergeLoop (k + 1) q ns = ns := by simp [mergeLoop, h1, h2]
        have := hlast x hqe
        rw [hm, show ns.length - 1 = x.2 by omega]
        exact hx.2.2
      · have hp := (extractLeast_perm h1).trans ((extractLeast_perm h2).cons x)
        have hP := (takeLeast_perm H1).trans ((takeLeast_perm H2).cons X)
        have hql : q.length = r2.length + 2 := by rw [hp.length_eq]; simp
        have hs : (Q.map Prod.fst).sum = X.1 + (Y.1 + (R2.map Prod.fst).sum) := by
          rw [(hP.map Prod.fst).sum_eq]; simp
        have hw : (x.1 + y.1).toNat = X.1 + Y.1 := by
          rw [BitVec.toNat_add, hx.1, hy.1]
          exact Nat.mod_eq_of_lt (by omega)
        have hm : mergeLoop (k + 1) q ns =
            mergeLoop k (r2 ++ [(x.1 + y.1, ns.length)]) (ns ++ [internalNode x.2 y.2 (x.1 + y.1)]) := by
          simp [mergeLoop, h1, h2]
        have hM : mergeTrees (k + 1) ns.length Q =
            mergeTrees k (ns ++ [internalNode x.2 y.2 (x.1 + y.1)]).length
              (R2 ++ [(X.1 + Y.1, ns.length, .node X.2.2 Y.2.2)]) := by
          simp [mergeTrees, H1, H2]
        rw [hm, hM]
        apply ih
        · refine List.rel_append ?_ (.cons ⟨hw, rfl, ?_⟩ .nil)
          · exact hr2.imp fun e E he => ⟨he.1, he.2.1, (he.2.2.append _).1⟩
          · exact (hx.2.2.internal hy.2.2 (by omega)).1
        · simp
        · rw [List.length_append, List.length_singleton]; omega
        · rw [List.length_append, List.length_append, List.length_singleton, List.length_singleton]; omega
        · rw [List.map_append, List.sum_append]
          simp only [List.map_cons, List.map_nil, List.sum_cons, List.sum_nil]
          omega
        · intro e he
          rw [List.append_eq_singleton_iff] at he
          rcases he with ⟨-, he⟩ | ⟨-, he⟩
          · cases he; simp
          · cases he

/-- The list holds one trie at most at an index. -/
theorem RepresentsIn.unique {ns : List Node} {i : Nat} {t u : Tree} (ht : RepresentsIn ns i t) (hu : RepresentsIn ns i u) :
    t = u := by
  induction t generalizing i u with
  | leaf c =>
    obtain ⟨n, hn, h1, h2⟩ := ht
    cases u with
    | leaf d =>
      obtain ⟨m, hm, -, h4⟩ := hu
      rw [hn] at hm
      cases hm
      rw [← h2, ← h4]
    | node l r =>
      obtain ⟨m, hm, h3, -⟩ := hu
      rw [hn] at hm
      cases hm
      rw [h1] at h3; cases h3
  | node l r ihl ihr =>
    obtain ⟨n, hn, h1, hl, hr⟩ := ht
    cases u with
    | leaf d =>
      obtain ⟨m, hm, h3, -⟩ := hu
      rw [hn] at hm
      cases hm
      rw [h1] at h3; cases h3
    | node l' r' =>
      obtain ⟨m, hm, -, hl', hr'⟩ := hu
      rw [hn] at hm
      cases hm
      rw [ihl hl hl', ihr hr hr']

theorem leafQueue_matches (freq : Vector Word 256) :
    List.Forall₂ (Matches (leaves freq)) (initialQueue (leaves freq)) (leafQueue (countsOf freq)) := by
  rw [List.forall₂_iff_get]
  have hlen : (initialQueue (leaves freq)).length = (leafQueue (countsOf freq)).length := by
    rw [initialQueue_length, leaves_length]; simp [leafQueue]
  refine ⟨hlen, fun i h1 h2 => ?_⟩
  have hi : i < (leaves freq).length := by rwa [initialQueue_length] at h1
  have hi' : i < (leafSymbols (countsOf freq)).length := by rwa [leaves_length] at hi
  have hg : (leaves freq)[i] = leafNode (leafSymbols (countsOf freq))[i]
      (freq[((leafSymbols (countsOf freq))[i]).toNat]'(symbol_lt _)) := by simp only [leaves_eq, List.getElem_map]
  simp only [List.get_eq_getElem, initialQueue, leafQueue, List.getElem_zip, List.getElem_map, List.getElem_range,
    List.getElem_zipIdx, Nat.zero_add, hg]
  refine ⟨rfl, rfl, _, List.getElem?_eq_getElem hi, ?_, ?_⟩
  · rw [hg]; rfl
  · rw [hg]; rfl

theorem sum_filter_ne_zero (count : Byte → Nat) (l : List Byte) :
    ((l.filter fun c => count c ≠ 0).map count).sum = (l.map count).sum := by
  induction l with
  | nil => rfl
  | cons c l ih =>
    by_cases h : count c = 0
    · simp only [List.filter_cons, h, ne_eq, not_true, decide_false, Bool.false_eq_true, if_false, List.map_cons, List.sum_cons,
        Nat.zero_add]
      exact ih
    · simp only [List.filter_cons, h, ne_eq, not_false_eq_true, decide_true, if_true, List.map_cons, List.sum_cons]
      rw [← ih]

/-- The leaves' frequencies sum to all the counters' (R251). -/
theorem leafSymbols_sum (count : Byte → Nat) : ((leafSymbols count).map count).sum = (symbols.map count).sum := by
  have h0 : (((symbols.filter fun c => count c = 0).take
      (2 - (symbols.filter fun c => count c ≠ 0).length)).map count).sum = 0 := by
    refine List.sum_eq_zero fun x hx => ?_
    obtain ⟨c, hc, rfl⟩ := List.mem_map.mp hx
    simpa using (List.mem_filter.mp (List.mem_of_mem_take hc)).2
  simp only [leafSymbols, List.map_append, List.sum_append, h0, Nat.add_zero]
  exact sum_filter_ne_zero count symbols

theorem freqSum_eq (freq : Vector Word 256) : freqSum freq = (symbols.map (countsOf freq)).sum := by
  unfold freqSum
  congr 1
  apply List.ext_getElem
  · simp [symbols]
  · intro i h1 h2
    have hi : i < 256 := by simpa using h1
    simp [symbols, countsOf, Nat.mod_eq_of_lt hi]

theorem leafQueue_sum (count : Byte → Nat) : ((leafQueue count).map Prod.fst).sum = (symbols.map count).sum := by
  rw [← leafSymbols_sum]
  congr 1
  apply List.ext_getElem
  · simp [leafQueue]
  · intro i h1 h2
    simp [leafQueue]

/-- While TOTAL is the sum of the counters, HBUILD's trie is that of the exact algorithm (R241, R242). -/
theorem buildTrie_huffman {s : State} (h : s.TotalOk) :
    (buildTrie s).HoldsTrie (huffmanTree s.counts) ∧ (huffmanTree s.counts).leafSyms.Perm (leafSymbols s.counts) := by
  obtain ⟨h2, h256⟩ := leaves_length_bounds s.freq
  have hl := initialQueue_length (leaves s.freq)
  have hL : (leafQueue s.counts).length = (leaves s.freq).length := by
    rw [leaves_length, s.counts_eq]; simp [leafQueue]
  obtain ⟨t, ht, hr⟩ := mergeLoop_matches (k := (leaves s.freq).length) (leafQueue_matches s.freq)
    (by intro h; rw [h] at hl; simp at hl; omega) (by omega) (by omega)
    (by
      rw [leafQueue_sum, ← freqSum_eq, ← h]
      exact s.total.isLt)
    (by intro e he; rw [he] at hl; simp at hl; omega)
  have hu : huffmanTree s.counts = t := by
    unfold huffmanTree
    rw [hL, s.counts_eq, ht]; rfl
  obtain ⟨t', h1, h2, h3⟩ := buildTrie_holds s
  rw [hu, RepresentsIn.unique hr h2]
  exact ⟨h1, h3⟩

end Sys2Proof.Machine
end

