-- ==== Sys2Proof/Laws/Codes.lean ====
section
/-! SUPPORT. The code table (45_huffman_build.md R243): the walk enters each leaf's path, no path is a leading part of another
(10_state.md R58), and no path is longer than 45 while the counters' sum fits 32 bits (R244). -/

namespace Sys2Proof.Machine

/-! ### Paths -/

/-- Two paths of one trie, of which one is a leading part of the other, are the same (R58). -/
theorem Tree.paths_prefix (t : Tree) {e e' : Byte × List Bool} (h : e ∈ t.paths) (h' : e' ∈ t.paths) (hp : e.2 <+: e'.2)
    (hn : t.leafSyms.Nodup) : e = e' := by
  induction t generalizing e e' with
  | leaf c =>
    simp only [paths, List.mem_singleton] at h h'
    rw [h, h']
  | node l r ihl ihr =>
    simp only [leafSyms, List.nodup_append] at hn
    simp only [paths, List.mem_append, List.mem_map] at h h'
    rcases h with ⟨a, ha, rfl⟩ | ⟨a, ha, rfl⟩ <;> rcases h' with ⟨b, hb, rfl⟩ | ⟨b, hb, rfl⟩
    · rw [ihl ha hb (by simpa using hp) hn.1]
    · simp at hp
    · simp at hp
    · rw [ihr ha hb (by simpa using hp) hn.2.1]

theorem Tree.mem_paths_of_mem_leafSyms {t : Tree} {c : Byte} (h : c ∈ t.leafSyms) : ∃ p, (c, p) ∈ t.paths := by
  rw [← t.paths_fst, List.mem_map] at h
  obtain ⟨⟨c', p⟩, hp, rfl⟩ := h
  exact ⟨p, hp⟩

/-- A symbol's path, where the symbols are distinct. -/
theorem Tree.pathOf_eq {t : Tree} (hn : t.leafSyms.Nodup) {c : Byte} {p : List Bool} (h : (c, p) ∈ t.paths) :
    t.pathOf c = p := by
  unfold pathOf
  cases hf : t.paths.find? fun e => decide (e.1 = c) with
  | none =>
    have := List.find?_eq_none.mp hf _ h
    simp at this
  | some e =>
    have h1 := List.find?_some hf
    have h2 := List.mem_of_find?_eq_some hf
    have h1' : e.1 = c := by simpa using h1
    have hinj := List.inj_on_of_nodup_map (f := Prod.fst) (l := t.paths) (by rw [t.paths_fst]; exact hn)
    have := hinj h2 h h1'
    simp only [this]

theorem Tree.pathOf_eq_nil {t : Tree} {c : Byte} (h : c ∉ t.leafSyms) : t.pathOf c = [] := by
  unfold pathOf
  have : (t.paths.find? fun e => decide (e.1 = c)) = none := by
    rw [List.find?_eq_none]
    intro e he
    simp only [decide_eq_true_eq]
    intro hc
    apply h
    rw [← t.paths_fst, ← hc]
    exact List.mem_map_of_mem he
  rw [this]

/-! ### The walk -/

theorem numFrom_cons_false (p : Nat) (bs : List Bool) : numFrom p (false :: bs) = numFrom (2 * p) bs := by simp
theorem numFrom_cons_true (p : Nat) (bs : List Bool) : numFrom p (true :: bs) = numFrom (2 * p + 1) bs := by simp

/-- The walk enters the leaves from left to right, each at its depth and with its path (R243). -/
theorem walk_eq {arena : Vector Node 511} {k : Nat} {i : Fin 511} {t : Tree} (h : Represents arena i t) (hk : t.height < k)
    (d p : Nat) (tbl : CodeTable) :
    walk arena k i d p tbl =
      t.paths.foldl (fun tbl e => enterLeaf e.1 (d + e.2.length) (numFrom p e.2) tbl) tbl := by
  induction t generalizing k i d p tbl with
  | leaf c =>
    obtain ⟨k, rfl⟩ : ∃ k', k = k' + 1 := ⟨k - 1, by omega⟩
    obtain ⟨h1, h2⟩ := h
    simp [walk, h1, h2, Tree.paths]
  | node l r ihl ihr =>
    obtain ⟨k, rfl⟩ : ∃ k', k = k' + 1 := ⟨k - 1, by omega⟩
    obtain ⟨h0, hl, hr⟩ := h
    simp only [Tree.height] at hk
    simp only [walk, h0, Bool.false_eq_true, if_false]
    rw [ihl hl (by omega), ihr hr (by omega)]
    simp only [Tree.paths, List.foldl_append, List.foldl_map, numFrom_cons_false, numFrom_cons_true, List.length_cons]
    have hd : ∀ n, d + 1 + n = d + (n + 1) := fun n => by omega
    simp only [hd]

/-- Entering leaves no deeper than 64. -/
theorem foldl_enterLeaf {l : List (Byte × List Bool)} (hl : ∀ e ∈ l, e.2.length ≤ 64) (tbl : CodeTable) :
    (l.foldl (fun tbl e => enterLeaf e.1 (0 + e.2.length) (numFrom 0 e.2) tbl) tbl).tooLong = tbl.tooLong ∧
      ∀ (j : Nat) (hj : j < 256), ((∀ e ∈ l, e.1.toNat ≠ j) →
          (l.foldl (fun tbl e => enterLeaf e.1 (0 + e.2.length) (numFrom 0 e.2) tbl) tbl).len[j] = tbl.len[j] ∧
          (l.foldl (fun tbl e => enterLeaf e.1 (0 + e.2.length) (numFrom 0 e.2) tbl) tbl).code[j] = tbl.code[j]) ∧
        ((l.map Prod.fst).Nodup → ∀ e ∈ l, e.1.toNat = j →
          (l.foldl (fun tbl e => enterLeaf e.1 (0 + e.2.length) (numFrom 0 e.2) tbl) tbl).len[j] =
            BitVec.ofNat 7 e.2.length ∧
          (l.foldl (fun tbl e => enterLeaf e.1 (0 + e.2.length) (numFrom 0 e.2) tbl) tbl).code[j] =
            BitVec.ofNat 64 (numOf e.2)) := by
  induction l generalizing tbl with
  | nil => exact ⟨rfl, fun j hj => ⟨fun _ => ⟨rfl, rfl⟩, fun _ e he => by cases he⟩⟩
  | cons a l ih =>
    have ha : ¬ Config.maxCodeLen < 0 + a.2.length := by
      have := hl a (by simp)
      unfold Config.maxCodeLen; omega
    obtain ⟨h1, h2⟩ := ih (fun e he => hl e (by simp [he])) (enterLeaf a.1 (0 + a.2.length) (numFrom 0 a.2) tbl)
    have e1 : (enterLeaf a.1 (0 + a.2.length) (numFrom 0 a.2) tbl).tooLong = tbl.tooLong := by
      unfold enterLeaf; rw [if_neg ha]
    have e2 : ∀ (j : Nat) (hj : j < 256), (enterLeaf a.1 (0 + a.2.length) (numFrom 0 a.2) tbl).len[j] =
        if a.1.toNat = j then BitVec.ofNat 7 a.2.length else tbl.len[j] := by
      intro j hj
      unfold enterLeaf
      rw [if_neg ha, Nat.zero_add]
      exact Vector.getElem_set (symbol_lt _) hj
    have e3 : ∀ (j : Nat) (hj : j < 256), (enterLeaf a.1 (0 + a.2.length) (numFrom 0 a.2) tbl).code[j] =
        if a.1.toNat = j then BitVec.ofNat 64 (numFrom 0 a.2) else tbl.code[j] := by
      intro j hj
      unfold enterLeaf
      rw [if_neg ha]
      exact Vector.getElem_set (symbol_lt _) hj
    rw [List.foldl_cons]
    refine ⟨h1.trans e1, fun j hj => ⟨fun hne => ?_, fun hnd e he hej => ?_⟩⟩
    · have hj' := (h2 j hj).1 fun e he => hne e (by simp [he])
      have haj := hne a (by simp)
      rw [hj'.1, hj'.2, e2 j hj, e3 j hj, if_neg haj, if_neg haj]
      exact ⟨rfl, rfl⟩
    · rw [List.map_cons, List.nodup_cons] at hnd
      rw [List.mem_cons] at he
      rcases he with rfl | he
      · have hne : ∀ e' ∈ l, e'.1.toNat ≠ j := by
          intro e' he' h
          apply hnd.1
          have : e'.1 = e.1 := BitVec.eq_of_toNat_eq (h.trans hej.symm)
          rw [← this]
          exact List.mem_map_of_mem he'
        have hj' := (h2 j hj).1 hne
        rw [hj'.1, hj'.2, e2 j hj, e3 j hj, if_pos hej, if_pos hej]
        exact ⟨rfl, rfl⟩
      · exact (h2 j hj).2 hnd.2 e he hej

/-- A deeper leaf raises the flag. -/
theorem foldl_enterLeaf_tooLong (l : List (Byte × List Bool)) (tbl : CodeTable) :
    (l.foldl (fun tbl e => enterLeaf e.1 (0 + e.2.length) (numFrom 0 e.2) tbl) tbl).tooLong =
      (tbl.tooLong || l.any fun e => decide (64 < e.2.length)) := by
  induction l generalizing tbl with
  | nil => simp
  | cons a l ih =>
    rw [List.foldl_cons, ih, List.any_cons]
    unfold enterLeaf Config.maxCodeLen
    by_cases h : 64 < a.2.length
    · simp [h]
    · simp [h]

/-- The code table of a trie with distinct symbols and paths of at most 64 bits (R243). -/
theorem codeTable_eq {arena : Vector Node 511} {root : Fin 511} {t : Tree} (h : Represents arena root t)
    (hk : t.height < 511) (hn : t.leafSyms.Nodup) (hl : ∀ e ∈ t.paths, e.2.length ≤ 64) (c : Byte) :
    (codeTable arena root).tooLong = false ∧
      (codeTable arena root).len[c.toNat]'(symbol_lt c) = BitVec.ofNat 7 (t.pathOf c).length ∧
      (codeTable arena root).code[c.toNat]'(symbol_lt c) = BitVec.ofNat 64 (numOf (t.pathOf c)) := by
  have hw : codeTable arena root =
      t.paths.foldl (fun tbl e => enterLeaf e.1 (0 + e.2.length) (numFrom 0 e.2) tbl) emptyTable :=
    walk_eq h hk 0 0 emptyTable
  obtain ⟨h1, h2⟩ := foldl_enterLeaf hl emptyTable
  rw [hw]
  refine ⟨h1, ?_⟩
  by_cases hc : c ∈ t.leafSyms
  · obtain ⟨p, hp⟩ := Tree.mem_paths_of_mem_leafSyms hc
    rw [Tree.pathOf_eq hn hp]
    exact (h2 c.toNat (symbol_lt c)).2 (by rw [t.paths_fst]; exact hn) (c, p) hp rfl
  · have hne : ∀ e ∈ t.paths, e.1.toNat ≠ c.toNat := by
      intro e he hec
      apply hc
      rw [← t.paths_fst, ← BitVec.eq_of_toNat_eq hec]
      exact List.mem_map_of_mem he
    have := (h2 c.toNat (symbol_lt c)).1 hne
    rw [this.1, this.2, Tree.pathOf_eq_nil hc]
    simp [emptyTable, numOf]

/-- The flag of the walk: some leaf is deeper than 64 (R243). -/
theorem codeTable_tooLong {arena : Vector Node 511} {root : Fin 511} {t : Tree} (h : Represents arena root t)
    (hk : t.height < 511) : (codeTable arena root).tooLong = t.paths.any fun e => decide (64 < e.2.length) := by
  have hw : codeTable arena root =
      t.paths.foldl (fun tbl e => enterLeaf e.1 (0 + e.2.length) (numFrom 0 e.2) tbl) emptyTable :=
    walk_eq h hk 0 0 emptyTable
  rw [hw, foldl_enterLeaf_tooLong]; rfl

/-- A bit string is the bits of its own number. -/
theorem bitsMsb_numOf (bs : List Bool) (h : bs.length ≤ 64) : bitsMsb (BitVec.ofNat 64 (numOf bs)) bs.length = bs := by
  have key : ∀ (bs : List Bool) (v : Nat), bs.length ≤ 64 → bitsMsb (BitVec.ofNat 64 (numFrom v bs)) bs.length = bs := by
    intro bs
    induction bs with
    | nil => intro v _; rfl
    | cons b bs ih =>
      intro v hl
      rw [List.length_cons] at hl ⊢
      rw [bitsMsb_succ, numFrom_cons, ih _ (by omega)]
      congr 1
      have hnum : ∀ (bs : List Bool) (w : Nat), numFrom w bs = w * 2 ^ bs.length + numFrom 0 bs := by
        intro bs
        induction bs with
        | nil => intro w; simp
        | cons b bs ih => intro w; rw [numFrom_cons, ih, numFrom_cons, ih (2 * 0 + b.toNat), List.length_cons, pow_succ]; ring
      have hlt := numOf_lt bs
      rw [numOf_eq] at hlt
      rw [hnum bs, BitVec.getLsbD_ofNat, decide_eq_true (by omega : bs.length < 64), Bool.true_and,
        Nat.testBit_eq_decide_div_mod_eq, Nat.add_comm, Nat.add_mul_div_right _ _ (Nat.two_pow_pos _),
        Nat.div_eq_of_lt hlt, Nat.zero_add]
      cases b <;> simp
  exact key bs 0 h

/-! ### How long a code can be (R244) -/

/-- The sum of a trie's leaf frequencies. -/
def Tree.weight (count : Byte → Nat) : Tree → Nat
  | .leaf c => count c
  | .node l r => l.weight count + r.weight count

/-- The greater weight of the root's children; 0 for a leaf. -/
def Tree.childWeight (count : Byte → Nat) : Tree → Nat
  | .leaf _ => 0
  | .node l r => max (l.weight count) (r.weight count)

/-- Each subtree weighs at least what a child of its sibling weighs: what taking the two least elements gives. -/
def Tree.Balanced (count : Byte → Nat) : Tree → Prop
  | .leaf _ => True
  | .node l r => l.Balanced count ∧ r.Balanced count ∧ l.childWeight count ≤ r.weight count ∧
      r.childWeight count ≤ l.weight count

theorem Tree.weight_eq (count : Byte → Nat) (t : Tree) : t.weight count = (t.leafSyms.map count).sum := by
  induction t with
  | leaf c => simp [weight, leafSyms]
  | node l r ihl ihr => simp [weight, leafSyms, ihl, ihr]

/-- The weight of a balanced trie grows with its height as the Fibonacci numbers do (R244). -/
theorem Tree.Balanced.fib_le {count : Byte → Nat} {t : Tree} (h : t.Balanced count) (hp : ∀ c ∈ t.leafSyms, 1 ≤ count c) :
    Nat.fib (t.height + 2) ≤ t.weight count ∧ (t.height ≠ 0 → Nat.fib (t.height + 1) ≤ t.childWeight count) := by
  have one : ∀ t : Tree, (∀ c ∈ t.leafSyms, 1 ≤ count c) → 1 ≤ t.weight count := by
    intro t
    induction t with
    | leaf c => intro h; exact h c (by simp [leafSyms])
    | node l r ihl _ =>
      intro h
      have := ihl fun c hc => h c (by simp [leafSyms, hc])
      simp only [weight]; omega
  induction t with
  | leaf c => exact ⟨by simpa [height, weight] using hp c (by simp [leafSyms]), fun h => absurd rfl h⟩
  | node l r ihl ihr =>
    obtain ⟨hbl, hbr, hlr, hrl⟩ := h
    have hpl : ∀ c ∈ l.leafSyms, 1 ≤ count c := fun c hc => hp c (by simp [leafSyms, hc])
    have hpr : ∀ c ∈ r.leafSyms, 1 ≤ count c := fun c hc => hp c (by simp [leafSyms, hc])
    obtain ⟨hl1, hl2⟩ := ihl hbl hpl
    obtain ⟨hr1, hr2⟩ := ihr hbr hpr
    have go : ∀ (a b : Tree), Nat.fib (a.height + 2) ≤ a.weight count →
        (a.height ≠ 0 → Nat.fib (a.height + 1) ≤ a.childWeight count) → a.childWeight count ≤ b.weight count →
        1 ≤ b.weight count → Nat.fib (a.height + 3) ≤ a.weight count + b.weight count := by
      intro a b h1 h2 h3 h4
      have hf : Nat.fib (a.height + 3) = Nat.fib (a.height + 1) + Nat.fib (a.height + 2) := Nat.fib_add_two
      rw [hf]
      by_cases h0 : a.height = 0
      · rw [h0] at h1 ⊢
        have : Nat.fib (0 + 1) = 1 := rfl
        omega
      · have := h2 h0
        omega
    simp only [height, weight, childWeight]
    have h1 := one l hpl
    have h2 := one r hpr
    rcases Nat.le_total r.height l.height with hle | hle
    · rw [Nat.max_eq_left hle, show 1 + l.height + 2 = l.height + 3 by omega, show 1 + l.height + 1 = l.height + 2 by omega]
      exact ⟨go l r hl1 hl2 hlr h2, fun _ => le_trans hl1 (Nat.le_max_left _ _)⟩
    · rw [Nat.max_eq_right hle, show 1 + r.height + 2 = r.height + 3 by omega, show 1 + r.height + 1 = r.height + 2 by omega,
        Nat.add_comm (l.weight count)]
      exact ⟨go r l hr1 hr2 hrl h1, fun _ => le_trans hr1 (Nat.le_max_right _ _)⟩

/-- What is extracted weighs no more than what stays. -/
theorem takeLeast_le {Q R : List QueueTree} {X : QueueTree} (h : takeLeast Q = some (X, R)) : ∀ E ∈ R, X.1 ≤ E.1 := by
  induction Q generalizing R X with
  | nil => cases h
  | cons A Q ih =>
    simp only [takeLeast] at h
    cases hq : takeLeast Q with
    | none => rw [hq] at h; cases h; intro E hE; cases hE
    | some p =>
      obtain ⟨M, R'⟩ := p
      rw [hq] at h
      simp only at h
      have hM := ih hq
      have hP := takeLeast_perm hq
      split_ifs at h with hlt
      · cases h
        have hAM : A.1 ≤ M.1 := by
          simp only [treeLt, Bool.or_eq_true, Bool.and_eq_true, decide_eq_true_eq] at hlt
          omega
        intro E hE
        rcases List.mem_cons.mp (hP.mem_iff.mp hE) with hEM | hE
        · rw [hEM]; exact hAM
        · exact le_trans hAM (hM E hE)
      · cases h
        have hMA : X.1 ≤ A.1 := by
          simp only [treeLt, Bool.or_eq_true, Bool.and_eq_true, decide_eq_true_eq, not_or] at hlt
          omega
        intro E hE
        rcases List.mem_cons.mp hE with hEA | hE
        · rw [hEA]; exact hMA
        · exact hM E hE

/-- A queue in which every trie is balanced, and weighs at least what any child in the queue weighs. -/
def QueueBalanced (count : Byte → Nat) (Q : List QueueTree) : Prop :=
  ∀ E ∈ Q, E.1 = E.2.2.weight count ∧ E.2.2.Balanced count ∧ ∀ E' ∈ Q, E.2.2.childWeight count ≤ E'.1

theorem mergeTrees_balanced {count : Byte → Nat} {k n : Nat} {Q : List QueueTree} {t : Tree} (h : QueueBalanced count Q)
    (ht : mergeTrees k n Q = some t) : t.Balanced count := by
  induction k generalizing n Q with
  | zero =>
    simp only [mergeTrees] at ht
    cases Q with
    | nil => cases ht
    | cons E Q => cases ht; exact (h E (by simp)).2.1
  | succ k ih =>
    simp only [mergeTrees] at ht
    cases h1 : takeLeast Q with
    | none => rw [h1] at ht; cases ht
    | some p =>
      obtain ⟨X, R⟩ := p
      rw [h1] at ht
      simp only at ht
      have hP1 := takeLeast_perm h1
      have hX := h X (hP1.mem_iff.mpr (by simp))
      cases h2 : takeLeast R with
      | none => rw [h2] at ht; cases ht; exact hX.2.1
      | some p =>
        obtain ⟨Y, R2⟩ := p
        rw [h2] at ht
        simp only at ht
        have hP2 := takeLeast_perm h2
        have hYR : Y ∈ R := hP2.mem_iff.mpr (by simp)
        have hYQ : Y ∈ Q := hP1.mem_iff.mpr (by simp [hYR])
        have hXQ : X ∈ Q := hP1.mem_iff.mpr (by simp)
        have hY := h Y hYQ
        have hRQ : ∀ E ∈ R2, E ∈ Q ∧ X.1 ≤ E.1 ∧ Y.1 ≤ E.1 := fun E hE =>
          ⟨hP1.mem_iff.mpr (List.mem_cons_of_mem _ (hP2.mem_iff.mpr (List.mem_cons_of_mem _ hE))),
            takeLeast_le h1 E (hP2.mem_iff.mpr (List.mem_cons_of_mem _ hE)), takeLeast_le h2 E hE⟩
        refine ih ?_ ht
        intro E hE
        rw [List.mem_append, List.mem_singleton] at hE
        rcases hE with hE | rfl
        · have hEQ := h E (hRQ E hE).1
          refine ⟨hEQ.1, hEQ.2.1, fun E' hE' => ?_⟩
          rw [List.mem_append, List.mem_singleton] at hE'
          rcases hE' with hE' | rfl
          · exact hEQ.2.2 E' (hRQ E' hE').1
          · have := hEQ.2.2 X hXQ
            simp only; omega
        · refine ⟨by simp only [Tree.weight, hX.1, hY.1], ⟨hX.2.1, hY.2.1, ?_, ?_⟩, fun E' hE' => ?_⟩
          · rw [← hY.1]; exact hX.2.2 Y hYQ
          · rw [← hX.1]; exact hY.2.2 X hXQ
          · simp only [Tree.childWeight, ← hX.1, ← hY.1]
            rw [List.mem_append, List.mem_singleton] at hE'
            rcases hE' with hE' | rfl
            · have := hRQ E' hE'; omega
            · simp only; omega

theorem leafQueue_balanced (count : Byte → Nat) : QueueBalanced count (leafQueue count) := by
  intro E hE
  simp only [leafQueue, List.mem_map] at hE
  obtain ⟨e, -, rfl⟩ := hE
  exact ⟨rfl, trivial, fun _ _ => Nat.zero_le _⟩

/-- While the counters' sum fits 32 bits no code is longer than 45 bits, so CODE_TOO_LONG cannot occur (R244). -/
theorem huffmanTree_height {s : State} (h : s.TotalOk) : (huffmanTree s.counts).height ≤ 45 := by
  obtain ⟨-, hperm⟩ := buildTrie_huffman h
  have hlen := leafSymbols_length s.counts
  have hsize := (huffmanTree s.counts).size_eq
  have hhs := (huffmanTree s.counts).height_lt_size
  rw [hperm.length_eq] at hsize
  by_cases hD : 2 ≤ distinctCount s.counts
  · have hbal : (huffmanTree s.counts).Balanced s.counts := by
      unfold huffmanTree
      cases hm : mergeTrees (leafQueue s.counts).length (leafQueue s.counts).length (leafQueue s.counts) with
      | none => exact trivial
      | some t => exact mergeTrees_balanced (leafQueue_balanced _) hm
    have hfib := (hbal.fib_le fun c hc => by
      have := (mem_leafSymbols_of_two hD c).mp (hperm.mem_iff.mp hc)
      omega).1
    have hw : (huffmanTree s.counts).weight s.counts < 2 ^ 32 := by
      rw [Tree.weight_eq, (hperm.map s.counts).sum_eq, leafSymbols_sum, s.counts_eq, ← freqSum_eq, ← h]
      exact s.total.isLt
    by_contra hlt
    have hmono : Nat.fib 48 ≤ Nat.fib ((huffmanTree s.counts).height + 2) := Nat.fib_mono (by omega)
    have h48 : Nat.fib 48 = 4807526976 := by norm_num
    omega
  · omega

/-- The code table HBUILD enters: no leaf is too deep, and each symbol has its path in the exact algorithm's tree (R243). -/
theorem buildTrie_codes {s : State} (h : s.TotalOk) (c : Byte) :
    (codeTable (buildTrie s).node (buildTrie s).root).tooLong = false ∧
      (codeTable (buildTrie s).node (buildTrie s).root).len[c.toNat]'(symbol_lt c) =
        BitVec.ofNat 7 ((huffmanTree s.counts).pathOf c).length ∧
      (codeTable (buildTrie s).node (buildTrie s).root).code[c.toNat]'(symbol_lt c) =
        BitVec.ofNat 64 (numOf ((huffmanTree s.counts).pathOf c)) := by
  obtain ⟨hh, hperm⟩ := buildTrie_huffman h
  have hheight := huffmanTree_height h
  refine codeTable_eq hh.1 (by omega) (hperm.nodup_iff.mpr (leafSymbols_nodup _)) (fun e he => ?_) c
  have := (huffmanTree s.counts).paths_length_le he
  omega

end Sys2Proof.Machine
end

