-- ==== Sys2Proof/Laws/Cut.lean ====
section
/-! SUPPORT. What `parse` leaves where it stops: the entries of a whole trie where it succeeds, those of a cut one where it raises
MALFORMED_STREAM, and how far it has read (47_huffman_decode.md R281, 60_exceptions.md R311). -/

namespace Sys2Proof.Machine

theorem Tree.entries_length (t : Tree) (i : Nat) : (t.entries i).length = t.size := by
  induction t generalizing i with
  | leaf c => rfl
  | node l r ihl ihr => simp only [Tree.entries, Tree.size, List.length_cons, List.length_append, ihl, ihr]; omega

theorem CutTree.entries_length (p : CutTree) (i : Nat) : (p.entries i).length = p.size := by
  induction p generalizing i with
  | tag => rfl
  | leaf bs => rfl
  | left l ih => simp only [CutTree.entries, CutTree.size, List.length_cons, ih]; omega
  | right l r ih =>
    simp only [CutTree.entries, CutTree.size, List.length_cons, List.length_append, Tree.entries_length, ih]; omega

/-- From index `n` on the arena holds the entries `es`. -/
def EntriesAt (u : State) (n : Nat) (es : List Node) : Prop := ∀ j x, es[j]? = some x → u.node[n + j]? = some x

theorem EntriesAt.nil (u : State) (n : Nat) : EntriesAt u n [] := fun _ _ h => by simp at h

theorem EntriesAt.cons {u : State} {n : Nat} {x : Node} {es : List Node} (hx : u.node[n]? = some x)
    (hes : EntriesAt u (n + 1) es) : EntriesAt u n (x :: es) := by
  intro j y h
  cases j with
  | zero => cases h; exact hx
  | succ j => have := hes j y h; rwa [show n + (j + 1) = n + 1 + j by omega]

theorem EntriesAt.append {u : State} {n : Nat} {es fs : List Node} (h1 : EntriesAt u n es)
    (h2 : EntriesAt u (n + es.length) fs) : EntriesAt u n (es ++ fs) := by
  intro j y h
  by_cases hj : j < es.length
  · rw [List.getElem?_append_left hj] at h; exact h1 j y h
  · rw [List.getElem?_append_right (by omega)] at h
    have := h2 _ y h
    rwa [show n + es.length + (j - es.length) = n + j by omega] at this

/-- Entries stay where the arena only grows above them. -/
theorem EntriesAt.grows {u w : State} {n : Nat} {es : List Node} (h : EntriesAt u n es) (hg : Grows u w)
    (hn : n + es.length ≤ u.nodes.val) : EntriesAt w n es := by
  intro j x hx
  have hj : j < es.length := (List.getElem?_eq_some_iff.mp hx).1
  have hu := h j x hx
  have h511 : n + j < 511 := (Vector.getElem?_eq_some_iff.mp hu).1
  rw [← hu, Vector.getElem?_eq_getElem h511, Vector.getElem?_eq_getElem h511, (hg.2 _ h511).1 (.inl (by omega))]

/-- Entries stay where another entry is written. -/
theorem EntriesAt.setNode {u : State} {n : Nat} {es : List Node} (h : EntriesAt u n es) (i : Fin 511) (x : Node)
    (hi : i.val < n) : EntriesAt (u.setNode i x) n es := by
  intro j y hy
  have hu := h j y hy
  have h511 : n + j < 511 := (Vector.getElem?_eq_some_iff.mp hu).1
  rw [← hu, Vector.getElem?_eq_getElem h511, Vector.getElem?_eq_getElem h511, setNode_get_other _ _ _ h511 (by omega)]

/-- What `parse` leaves, whichever way it ends, from a state with EOI = 0. -/
def ParseLeaves (s : State) : Res (Fin 511) → Prop
  | .ok i u => ∃ t : Tree, i.val = s.nodes.val ∧ s.remaining = t.bits ++ u.remaining ∧ u.eoi = false ∧
      u.nodes.val = s.nodes.val + t.size ∧ EntriesAt u s.nodes.val (t.entries s.nodes.val)
  | .raised _ u => ∃ p : CutTree, u.nodes.val = s.nodes.val + p.size ∧ EntriesAt u s.nodes.val (p.entries s.nodes.val) ∧
      ((s.remaining = p.bits ∧ (∀ n ∈ p.symBits, n < 8) ∧ u.remaining = [] ∧ u.eoi = true) ∨
        (p.symBits = none ∧ u.nodes.val = 511 ∧ (∃ b, s.remaining = p.bits ++ b :: u.remaining) ∧ u.eoi = false))

theorem finOf_eq {x : Fin 511} {n : Nat} (h : x.val = n) : Fin.ofNat 511 n = x := by
  apply Fin.ext
  show n % 511 = x.val
  have := x.isLt
  omega

theorem node?_setNode_same (u : State) (i : Fin 511) (x : Node) : (u.setNode i x).node[i.val]? = some x := by
  rw [Vector.getElem?_eq_getElem i.isLt, setNode_get_same]

/-- `parse` leaves what R281 says, as long as its depth bound is one that it cannot reach (log 12). -/
theorem parse_leaves (k : Nat) {s : State} (he : s.eoi = false) (hk : 512 ≤ s.nodes.val + k) :
    ParseLeaves s (parse k s) := by
  induction k generalizing s with
  | zero => have := s.nodes.isLt; omega
  | succ k ih =>
    cases hr : s.remaining with
    | nil =>
      simp only [parse, decBit_end hr, Res.bind_raised]
      exact ⟨.tag, rfl, EntriesAt.nil _ _, .inl ⟨hr, (by intro n h; cases h), hr, rfl⟩⟩
    | cons b rest =>
      obtain ⟨t, ht, hf, hrt, het⟩ := decBit_ok he hr
      have htn : t.nodes = s.nodes := by rw [hf]
      by_cases h511 : t.nodes.val = 511
      · simp only [parse, ht, Res.bind_ok, h511, dif_pos]
        exact ⟨.tag, by rw [htn]; rfl, EntriesAt.nil _ _, .inr ⟨rfl, h511, ⟨b, by rw [hr, hrt]; rfl⟩, het⟩⟩
      rw [parse_tag ht h511]
      let i : Fin 511 := ⟨t.nodes.val, by omega⟩
      have hi : i.val = s.nodes.val := by rw [← htn]
      have han : (allocNode b t h511).nodes.val = s.nodes.val + 1 := by rw [← htn]; rfl
      have hai : (allocNode b t h511).node[i.val]'i.isLt = { Node.zero with leaf := b } := setNode_get_same t i _
      have har : (allocNode b t h511).remaining = rest := hrt
      cases b with
      | true =>
        rw [if_pos rfl]
        have keep : ∀ u : State, OnlyReader (allocNode true t h511) u →
            u.nodes.val = s.nodes.val + 1 ∧ u.node[i.val]'i.isLt = { Node.zero with leaf := true } := by
          intro u hu
          refine ⟨?_, ?_⟩
          · have : u.nodes = (allocNode true t h511).nodes := by rw [hu]
            rw [this, han]
          · have : u.node = (allocNode true t h511).node := by rw [hu]
            simp only [this, hai]
        by_cases h8 : 8 ≤ rest.length
        · obtain ⟨c, hc⟩ := exists_byteBits (bs := rest.take 8) (by rw [List.length_take]; omega)
          obtain ⟨u, hu, hfu, hru, heu⟩ := decBits_ok (n := 8) (s := allocNode true t h511) het (by rw [har]; exact h8)
          rw [har, ← hc, numOf_byteBits] at hu
          rw [har] at hru
          have hval : (BitVec.ofNat 32 c.toNat).setWidth 8 = c := by
            apply BitVec.eq_of_toNat_eq
            have := c.isLt
            rw [BitVec.toNat_setWidth, BitVec.toNat_ofNat]; omega
          obtain ⟨hun, hui⟩ := keep u hfu
          rw [hu, Res.bind_ok, hval]
          refine ⟨.leaf c, hi, ?_, heu, hun, ?_⟩
          · show s.remaining = (true :: byteBits c) ++ u.remaining
            rw [hr, hru, hc, List.cons_append, List.take_append_drop]
          · refine EntriesAt.cons ?_ (EntriesAt.nil _ _)
            rw [← hi]
            show (u.setNode i { u.nodeAt i with sym := c }).node[i.val]? = _
            rw [node?_setNode_same]
            simp only [State.nodeAt, hui]
        · obtain ⟨u, hu, hfu, hru, heu⟩ := decBitsFrom_short 8 (v := 0) (s := allocNode true t h511) het
            (by rw [har]; omega)
          obtain ⟨hun, hui⟩ := keep u hfu
          rw [decBits, hu, Res.bind_raised]
          refine ⟨.leaf rest, hun, EntriesAt.cons ?_ (EntriesAt.nil _ _), .inl ⟨hr, ?_, hru, heu⟩⟩
          · rw [← hi, Vector.getElem?_eq_getElem i.isLt, hui]
          · intro n hn
            cases hn
            show rest.length < 8
            omega
      | false =>
        rw [if_neg (by simp)]
        have hl := ih (s := allocNode false t h511) het (by omega)
        have hgl := parse_grows k (allocNode false t h511)
        cases hp : parse k (allocNode false t h511) with
        | raised e u =>
          rw [hp] at hl hgl
          obtain ⟨p, hpn, hpe, hstop⟩ := hl
          have hgl' : Grows (allocNode false t h511) u := hgl
          rw [Res.bind_raised]
          rw [han] at hpn hpe
          refine ⟨.left p, by rw [hpn]; simp only [CutTree.size]; omega, EntriesAt.cons ?_ hpe, ?_⟩
          · rw [← hi, Vector.getElem?_eq_getElem i.isLt, (hgl'.2 i.val i.isLt).1 (.inl (by rw [han]; omega)), hai]
            rfl
          · rw [har] at hstop
            rcases hstop with ⟨h1, h2, h3, h4⟩ | ⟨h1, h2, ⟨b, h3⟩, h4⟩
            · exact .inl ⟨by rw [hr, h1]; rfl, h2, h3, h4⟩
            · exact .inr ⟨h1, h2, ⟨b, by rw [hr, h3]; rfl⟩, h4⟩
        | ok x u =>
          rw [hp] at hl hgl
          obtain ⟨tl, hx, hrl, heu, hun, hule⟩ := hl
          have hgl' : Grows (allocNode false t h511) u := hgl
          rw [Res.bind_ok]
          rw [han] at hx hun hule
          rw [har] at hrl
          have hui : u.node[i.val]'i.isLt = Node.zero := by
            rw [(hgl'.2 i.val i.isLt).1 (.inl (by rw [han]; omega)), hai]; rfl
          generalize hu1 : u.setNode ⟨t.nodes.val, by omega⟩ { u.nodeAt ⟨t.nodes.val, by omega⟩ with left := x } = u1
          have hu1n : u1.nodes.val = s.nodes.val + 1 + tl.size := by rw [← hu1]; exact hun
          have hu1r : u1.remaining = u.remaining := by rw [← hu1]; rfl
          have hu1i : u1.node[i.val]'i.isLt = { Node.zero with left := x } := by
            rw [← hu1]
            show (u.setNode i { u.nodeAt i with left := x }).node[i.val]'i.isLt = _
            rw [setNode_get_same]
            simp only [State.nodeAt, hui]
          have hu1e : EntriesAt u1 (s.nodes.val + 1) (tl.entries (s.nodes.val + 1)) := by
            rw [← hu1]
            exact hule.setNode i _ (by omega)
          have hrr := ih (s := u1) (by rw [← hu1]; exact heu) (by omega)
          have hgr := parse_grows k u1
          cases hq : parse k u1 with
          | raised e w =>
            rw [hq] at hrr hgr
            obtain ⟨p, hpn, hpe, hstop⟩ := hrr
            have hgr' : Grows u1 w := hgr
            rw [hu1n] at hpn hpe
            rw [hu1r] at hstop
            refine ⟨.right tl p, by rw [hpn]; simp only [CutTree.size]; omega, EntriesAt.cons ?_ (EntriesAt.append
              (hu1e.grows hgr' (by rw [Tree.entries_length, hu1n])) (by rw [Tree.entries_length]; exact hpe)), ?_⟩
            · rw [finOf_eq hx, ← hi, Vector.getElem?_eq_getElem i.isLt,
                (hgr'.2 i.val i.isLt).1 (.inl (by rw [hu1n]; omega)), hu1i]
            · rcases hstop with ⟨h1, h2, h3, h4⟩ | ⟨h1, h2, ⟨b, h3⟩, h4⟩
              · exact .inl ⟨by rw [hr, hrl, h1]; rfl, h2, h3, h4⟩
              · exact .inr ⟨h1, h2, ⟨b, by rw [hr, hrl, h3]; simp [CutTree.bits]⟩, h4⟩
          | ok y w =>
            rw [hq] at hrr hgr
            obtain ⟨tr, hy, hrr, hew, hwn, hwre⟩ := hrr
            have hgr' : Grows u1 w := hgr
            rw [hu1n] at hy hwn hwre
            rw [hu1r] at hrr
            have hwi : w.node[i.val]'i.isLt = { Node.zero with left := x } := by
              rw [(hgr'.2 i.val i.isLt).1 (.inl (by rw [hu1n]; omega)), hu1i]
            have hwle := hu1e.grows hgr' (by rw [Tree.entries_length, hu1n])
            rw [Res.bind_ok]
            refine ⟨.node tl tr, hi, ?_, hew, ?_, EntriesAt.cons ?_ (EntriesAt.append ?_ ?_)⟩
            · show s.remaining = (false :: (tl.bits ++ tr.bits)) ++ w.remaining
              rw [hr, hrl, hrr]; simp
            · show w.nodes.val = s.nodes.val + (1 + tl.size + tr.size)
              omega
            · rw [finOf_eq hx, finOf_eq hy, ← hi]
              show (w.setNode i { w.nodeAt i with right := y }).node[i.val]? = _
              rw [node?_setNode_same]
              simp only [State.nodeAt, hwi]
            · exact hwle.setNode i _ (by omega)
            · rw [Tree.entries_length]
              exact hwre.setNode i _ (by omega)

end Sys2Proof.Machine
end

