-- ==== Sys2Proof/Laws/Encoding.lean ====
section
/-! SUPPORT. Command words as numbers (30_encoding.md R111): the number a word's fields make, and the fields of a number. -/

namespace Sys2Proof

open Sys2Proof.Machine

/-- A word from its fields, as a number (R111). -/
theorem packWord_toNat (op a : Byte) (b : BitVec 12) (g : Bool) :
    (packWord op a b g).toNat = op.toNat + 2 ^ 8 * a.toNat + 2 ^ 16 * b.toNat + 2 ^ 28 * g.toNat := by
  have h : packWord op a b g = (BitVec.ofBool g).setWidth 4 ++ b ++ a ++ op := by
    unfold packWord
    apply BitVec.eq_of_getLsbD_eq
    intro i hi
    simp only [BitVec.getLsbD_or, BitVec.getLsbD_setWidth, BitVec.getLsbD_shiftLeft, BitVec.getLsbD_append]
    rcases Nat.lt_or_ge i 8 with h | h
    · simp [h, show i < 16 by omega, show i < 28 by omega, hi]
    rcases Nat.lt_or_ge i 16 with h' | h'
    · simp [show ¬ i < 8 by omega, h', show i < 28 by omega, hi, show i - 8 < 8 by omega, show i - 8 < 32 by omega,
        BitVec.getLsbD_of_ge op i (by omega)]
    rcases Nat.lt_or_ge i 28 with h'' | h''
    · simp [show ¬ i < 8 by omega, show ¬ i < 16 by omega, h'', hi, show ¬ i - 8 < 8 by omega,
        BitVec.getLsbD_of_ge op i (by omega), BitVec.getLsbD_of_ge a (i - 8) (by omega), show i - 8 - 8 = i - 16 by omega,
        show i - 16 < 12 by omega, show i - 16 < 32 by omega]
    · simp [show ¬ i < 8 by omega, show ¬ i < 16 by omega, show ¬ i < 28 by omega, hi, show ¬ i - 8 < 8 by omega,
        BitVec.getLsbD_of_ge op i (by omega), BitVec.getLsbD_of_ge a (i - 8) (by omega),
        BitVec.getLsbD_of_ge b (i - 16) (by omega), show i - 8 - 8 = i - 16 by omega, show ¬ i - 16 < 12 by omega,
        show i - 16 - 12 = i - 28 by omega, show i - 28 < 4 by omega, show i - 28 < 32 by omega]
  have hg : ((BitVec.ofBool g).setWidth 4).toNat = g.toNat := by cases g <;> rfl
  rw [h, BitVec.toNat_append, BitVec.toNat_append, BitVec.toNat_append, hg]
  have h1 := op.isLt; have h2 := a.isLt; have h3 := b.isLt
  rw [← Nat.shiftLeft_add_eq_or_of_lt h1, ← Nat.shiftLeft_add_eq_or_of_lt h2, ← Nat.shiftLeft_add_eq_or_of_lt h3]
  simp only [Nat.shiftLeft_eq]
  omega

/-- The fields of a word, as numbers. -/
theorem fieldOp_toNat (w : Word) : (fieldOp w).toNat = w.toNat % 2 ^ 8 := by simp [fieldOp]
theorem fieldA_toNat (w : Word) : (fieldA w).toNat = w.toNat / 2 ^ 8 % 2 ^ 8 := by
  simp [fieldA, BitVec.extractLsb'_toNat, Nat.shiftRight_eq_div_pow]
theorem fieldB_toNat (w : Word) : (fieldB w).toNat = w.toNat / 2 ^ 16 % 2 ^ 12 := by
  simp [fieldB, BitVec.extractLsb'_toNat, Nat.shiftRight_eq_div_pow]
theorem fieldRsv_toNat (w : Word) : (fieldRsv w).toNat = w.toNat / 2 ^ 29 % 2 ^ 3 := by
  simp [fieldRsv, BitVec.extractLsb'_toNat, Nat.shiftRight_eq_div_pow]
theorem fieldG_toNat (w : Word) : (fieldG w).toNat = w.toNat / 2 ^ 28 % 2 := by
  unfold fieldG
  rw [BitVec.getLsbD, Nat.testBit_eq_decide_div_mod_eq]
  rcases Nat.mod_two_eq_zero_or_one (w.toNat / 2 ^ 28) with h | h <;> rw [h] <;> rfl

/-- A word is made of its fields. -/
theorem packWord_fields (w : Word) (h : fieldRsv w = 0) : packWord (fieldOp w) (fieldA w) (fieldB w) (fieldG w) = w := by
  apply BitVec.eq_of_toNat_eq
  have hr : (fieldRsv w).toNat = 0 := by rw [h]; rfl
  rw [fieldRsv_toNat] at hr
  rw [packWord_toNat, fieldOp_toNat, fieldA_toNat, fieldB_toNat, fieldG_toNat]
  have := w.isLt
  omega

/-- The fields of a packed word. -/
theorem fields_packWord (op a : Byte) (b : BitVec 12) (g : Bool) :
    fieldOp (packWord op a b g) = op ∧ fieldA (packWord op a b g) = a ∧ fieldB (packWord op a b g) = b ∧
      fieldG (packWord op a b g) = g ∧ fieldRsv (packWord op a b g) = 0 := by
  have h1 := op.isLt; have h2 := a.isLt; have h3 := b.isLt
  have h4 : g.toNat < 2 := Bool.toNat_lt g
  refine ⟨?_, ?_, ?_, ?_, ?_⟩
  · apply BitVec.eq_of_toNat_eq; rw [fieldOp_toNat, packWord_toNat]; omega
  · apply BitVec.eq_of_toNat_eq; rw [fieldA_toNat, packWord_toNat]; omega
  · apply BitVec.eq_of_toNat_eq; rw [fieldB_toNat, packWord_toNat]; omega
  · have : (fieldG (packWord op a b g)).toNat = g.toNat := by rw [fieldG_toNat, packWord_toNat]; omega
    revert this; cases fieldG (packWord op a b g) <;> cases g <;> simp
  · apply BitVec.eq_of_toNat_eq; rw [fieldRsv_toNat, packWord_toNat]; simp; omega

/-- Which packed words are legal (R115). -/
theorem legal_packWord (op a : Byte) (b : BitVec 12) (g : Bool) :
    legal (packWord op a b g) = opcodeMap.any fun e => e.1 == op.toNat && formatOk e.2 a.toNat b.toNat g.toNat := by
  have h1 := op.isLt; have h2 := a.isLt; have h3 := b.isLt
  have h4 : g.toNat < 2 := Bool.toNat_lt g
  unfold legal
  rw [packWord_toNat]
  have e1 : (op.toNat + 2 ^ 8 * a.toNat + 2 ^ 16 * b.toNat + 2 ^ 28 * g.toNat) / 2 ^ 29 = 0 := by omega
  have e2 : (op.toNat + 2 ^ 8 * a.toNat + 2 ^ 16 * b.toNat + 2 ^ 28 * g.toNat) % 2 ^ 8 = op.toNat := by omega
  have e3 : (op.toNat + 2 ^ 8 * a.toNat + 2 ^ 16 * b.toNat + 2 ^ 28 * g.toNat) / 2 ^ 8 % 2 ^ 8 = a.toNat := by omega
  have e4 : (op.toNat + 2 ^ 8 * a.toNat + 2 ^ 16 * b.toNat + 2 ^ 28 * g.toNat) / 2 ^ 16 % 2 ^ 12 = b.toNat := by omega
  have e5 : (op.toNat + 2 ^ 8 * a.toNat + 2 ^ 16 * b.toNat + 2 ^ 28 * g.toNat) / 2 ^ 28 % 2 = g.toNat := by omega
  rw [e1, e2, e3, e4, e5]; rfl

end Sys2Proof
end

