-- ==== Sys2Proof/Laws/LifeCycle.lean ====
section
/-! SUPPORT. The life cycle is apart from the bodies: a command's body neither reads nor writes BUSY, ERR, ERRCODE, IRQSTAT and
CMDCNT (10_state.md R63; CLRERR and SRESET, whose effect is on them, apart); and reset leaves the values of R341. -/

namespace Sys2Proof.Machine

/-- Values for the life-cycle fields. -/
structure LifeCycle where
  busy : Bool
  err : Bool
  errCode : Byte
  errOp : Byte
  irqDone : Bool
  irqErri : Bool
  cmdcnt : Word
  deriving DecidableEq, Repr

/-- `s` with other values in the life-cycle fields. -/
def withLife (l : LifeCycle) (s : State) : State :=
  { s with busy := l.busy, err := l.err, errCode := l.errCode, errOp := l.errOp, irqDone := l.irqDone,
           irqErri := l.irqErri, cmdcnt := l.cmdcnt }

/-- The life-cycle fields of `s`. -/
def State.life (s : State) : LifeCycle :=
  { busy := s.busy, err := s.err, errCode := s.errCode, errOp := s.errOp, irqDone := s.irqDone, irqErri := s.irqErri,
    cmdcnt := s.cmdcnt }

/-- Apply an update to the state a body reached. -/
def Res.mapState {α : Type} (f : State → State) : Res α → Res α
  | .ok a s => .ok a (f s)
  | .raised e s => .raised e (f s)

@[simp] theorem Res.mapState_ok {α : Type} (f : State → State) (a : α) (s : State) :
    (Res.ok a s).mapState f = .ok a (f s) := rfl
@[simp] theorem Res.mapState_raised {α : Type} (f : State → State) (e : ErrKind) (s : State) :
    (Res.raised e s : Res α).mapState f = .raised e (f s) := rfl

/-- A body that does not look at the life-cycle fields. -/
def LifeFree {α : Type} (body : State → Res α) : Prop :=
  ∀ (l : LifeCycle) (s : State), body (withLife l s) = (body s).mapState (withLife l)

theorem withLife_life (s : State) : withLife s.life s = s := rfl
theorem withLife_withLife (l m : LifeCycle) (s : State) : withLife l (withLife m s) = withLife l s := rfl

/-- What a life-free body leaves of the life cycle: everything. -/
theorem LifeFree.state {α : Type} {body : State → Res α} (h : LifeFree body) (s : State) :
    (body s).state.life = s.life := by
  have h1 := h s.life s
  rw [withLife_life] at h1
  rw [h1]
  cases body s <;> rfl

theorem LifeFree.ok {α : Type} (a : α) (f : State → State) (hf : ∀ l s, f (withLife l s) = withLife l (f s)) :
    LifeFree fun s => .ok a (f s) := by
  intro l s
  simp only [hf, Res.mapState_ok]

theorem LifeFree.raised {α : Type} (e : ErrKind) : LifeFree (α := α) fun s => .raised e s := fun _ _ => rfl

theorem LifeFree.bind {α β : Type} {f : State → Res α} {k : α → State → Res β} (hf : LifeFree f)
    (hk : ∀ a, LifeFree (k a)) : LifeFree fun s => (f s).bind k := by
  intro l s
  simp only [hf l s]
  cases f s with
  | ok a t => exact hk a l t
  | raised e t => rfl

theorem LifeFree.ite {α : Type} (p : State → Prop) [∀ s, Decidable (p s)] {f g : State → Res α}
    (hp : ∀ l s, p (withLife l s) ↔ p s) (hf : LifeFree f) (hg : LifeFree g) :
    LifeFree fun s => if p s then f s else g s := by
  intro l s
  by_cases h : p s
  · simp only [(hp l s).mpr h, h, if_true, hf l s]
  · simp only [(hp l s).not.mpr h, h, if_false, hg l s]

/-! ### Writer -/

theorem writeBit_lifeFree (b : Bool) : LifeFree (writeBit b) := by
  intro l s
  simp only [writeBit]
  show (if h : s.wcnt.val = 7 then if s.optr.toNat = s.obufSize then _ else _ else _) = _
  split_ifs <;> rfl

theorem writeList_lifeFree (bs : List Bool) : LifeFree (writeList bs) := by
  induction bs with
  | nil => exact fun _ _ => rfl
  | cons b bs ih => exact (writeBit_lifeFree b).bind fun _ => ih

theorem writeBits_lifeFree (v : BitVec 64) (n : Nat) : LifeFree (writeBits v n) := by
  have h : writeBits v n = writeList (bitsMsb v n) := funext fun s => writeBits_eq v n s
  rw [h]; exact writeList_lifeFree _

theorem flush_lifeFree : LifeFree flush := by
  intro l s
  show (if s.wcnt.val = 0 then _ else if s.optr.toNat = s.obufSize then _ else _) = _
  unfold flush
  split_ifs <;> rfl

theorem winit_lifeFree : LifeFree winit := fun _ _ => rfl

theorem wbits_lifeFree (n : Byte) : LifeFree (wbits n) := by
  intro l s
  simp only [wbits]
  split_ifs
  · exact writeBits_lifeFree _ _ l s
  · rfl

/-! ### Reader -/

theorem readBit_withLife (l : LifeCycle) (s : State) : readBit (withLife l s) = ((readBit s).1, withLife l (readBit s).2) := by
  have h : refill (withLife l s) = (refill s).map (withLife l) := by
    show (if s.rcnt.val = 0 then if s.iptr < s.ilen then _ else _ else _) = _
    unfold refill
    split_ifs <;> rfl
  simp only [readBit, h]
  cases refill s <;> rfl

theorem readBitsFrom_withLife (n : Nat) (v : Word) (l : LifeCycle) (s : State) :
    readBitsFrom n v (withLife l s) = ((readBitsFrom n v s).1, withLife l (readBitsFrom n v s).2) := by
  induction n generalizing v s with
  | zero => rfl
  | succ n ih => simp only [readBitsFrom, readBit_withLife, ih]

theorem rinit_lifeFree : LifeFree rinit := fun _ _ => rfl

theorem rbit_lifeFree : LifeFree rbit := by
  intro l s
  simp only [rbit, readBit_withLife]; rfl

theorem rbits_lifeFree (n : Byte) : LifeFree (rbits n) := by
  intro l s
  simp only [rbits, readBits, readBitsFrom_withLife]
  split_ifs <;> rfl

theorem decBit_lifeFree : LifeFree decBit := by
  intro l s
  simp only [decBit, readBit_withLife]
  show (if (readBit s).2.eoi = true then _ else _) = _
  split_ifs <;> rfl

theorem decBitsFrom_lifeFree (n : Nat) (v : Word) : LifeFree (decBitsFrom n v) := by
  induction n generalizing v with
  | zero => exact fun _ _ => rfl
  | succ n ih => exact decBit_lifeFree.bind fun b => ih _

theorem decBits_lifeFree (n : Nat) : LifeFree (decBits n) := decBitsFrom_lifeFree n 0

/-! ### LZW -/

theorem linit_lifeFree : LifeFree linit := fun _ _ => rfl

theorem lemit_lifeFree (c : BitVec 12) (g : Bool) : LifeFree (lemit c g) := by
  refine LifeFree.ite (fun s => codeOperand c = Config.lzwEof ∨ s.enext.toNat ≤ codeOperand c) (fun _ _ => Iff.rfl)
    (LifeFree.raised _) ((writeBits_lifeFree _ _).bind fun _ => ?_)
  refine LifeFree.ok () _ fun l s => ?_
  show (if g = true ∧ s.enext.toNat < Config.lzwCap then _ else _) = _
  unfold assignCode
  split_ifs <;> rfl

theorem leof_lifeFree : LifeFree leof := writeBits_lifeFree _ _

theorem classify_lifeFree (c : BitVec 12) : LifeFree (classify c) := by
  intro l s
  have ha : ∀ self, appendEntry c self (withLife l s) = withLife l (appendEntry c self s) := by
    intro self
    show (if s.dnext.toNat < Config.lzwCap then _ else _) = _
    unfold appendEntry
    split_ifs <;> rfl
  simp only [classify, ha]
  show (if c.toNat = Config.lzwEof then _ else if s.dfirst = true then _ else
    if c.toNat < s.dnext.toNat then _ else if c.toNat = s.dnext.toNat then _ else _) = _
  split_ifs <;> rfl

theorem lread_lifeFree : LifeFree lread := (decBits_lifeFree _).bind fun _ => classify_lifeFree _

/-! ### Frequency counter -/

theorem fclr_lifeFree : LifeFree fclr := fun _ _ => rfl

theorem fcount_lifeFree : LifeFree fcount :=
  LifeFree.ite (fun s => 2 ^ 32 - 1 < s.total.toNat + s.ilen.toNat) (fun _ _ => Iff.rfl) (LifeFree.raised _) fun _ _ => rfl

theorem frd_lifeFree (c : Byte) : LifeFree (frd c) := fun _ _ => rfl

theorem fwr_lifeFree (c : Byte) : LifeFree (fwr c) :=
  LifeFree.ite (fun s => 2 ^ 32 - 1 < newTotal c s) (fun _ _ => Iff.rfl) (LifeFree.raised _) fun _ _ => rfl

/-! ### Huffman -/

theorem hbuild_lifeFree : LifeFree hbuild :=
  LifeFree.ite (fun s => (codeTable (buildTrie s).node (buildTrie s).root).tooLong = true) (fun _ _ => Iff.rfl)
    (fun _ _ => rfl) fun _ _ => rfl

theorem hlen_lifeFree (c : Byte) : LifeFree (hlen c) := fun _ _ => rfl
theorem hcodelo_lifeFree (c : Byte) : LifeFree (hcodelo c) := fun _ _ => rfl
theorem hcodehi_lifeFree (c : Byte) : LifeFree (hcodehi c) := fun _ _ => rfl
theorem hnode_lifeFree (i : BitVec 12) : LifeFree (hnode i) := fun _ _ => rfl
theorem hnodef_lifeFree (i : BitVec 12) : LifeFree (hnodef i) := fun _ _ => rfl

theorem needTrie_lifeFree {body : State → Res Unit} (h : LifeFree body) : LifeFree (needTrie body) :=
  LifeFree.ite (fun s => s.tvalid = true) (fun _ _ => Iff.rfl) h (LifeFree.raised _)

theorem ser_lifeFree (k : Nat) (i : Fin 511) : LifeFree (ser k i) := by
  induction k generalizing i with
  | zero => exact fun _ _ => rfl
  | succ k ih =>
    intro l s
    simp only [ser]
    show (if (s.nodeAt i).leaf = true then _ else _) = _
    split_ifs
    · exact ((writeBit_lifeFree true).bind fun _ => writeBits_lifeFree _ _) l s
    · exact ((writeBit_lifeFree false).bind fun _ => (ih _).bind fun _ => ih _) l s

theorem htrie_lifeFree : LifeFree htrie := needTrie_lifeFree fun l s => ser_lifeFree serDepth s.root l s

theorem hcountw_lifeFree : LifeFree hcountw := fun l s => writeBits_lifeFree _ _ l s

theorem emitCode_lifeFree (c : Byte) : LifeFree (emitCode c) :=
  LifeFree.ite (fun s => s.lenOf c = 0) (fun _ _ => Iff.rfl) (LifeFree.raised _) fun l s => writeBits_lifeFree _ _ l s

theorem emitAll_lifeFree (cs : List Byte) : LifeFree (emitAll cs) := by
  induction cs with
  | nil => exact fun _ _ => rfl
  | cons c cs ih => exact (emitCode_lifeFree c).bind fun _ => ih

theorem hsym_lifeFree (c : Byte) : LifeFree (hsym c) := needTrie_lifeFree (emitCode_lifeFree c)
theorem hsyms_lifeFree : LifeFree hsyms := needTrie_lifeFree fun l s => emitAll_lifeFree s.input l s

theorem hcomp_lifeFree : LifeFree hcomp :=
  winit_lifeFree.bind fun _ => fclr_lifeFree.bind fun _ => fcount_lifeFree.bind fun _ => hbuild_lifeFree.bind fun _ =>
  htrie_lifeFree.bind fun _ => hcountw_lifeFree.bind fun _ => hsyms_lifeFree.bind fun _ => flush_lifeFree

theorem parse_lifeFree (k : Nat) : LifeFree (parse k) := by
  induction k with
  | zero => exact fun _ _ => rfl
  | succ k ih =>
    intro l s
    have hd := decBit_lifeFree l s
    cases hb : decBit s with
    | raised e t => rw [hb] at hd; simp only [parse, hd, hb]; rfl
    | ok b t =>
      rw [hb] at hd
      by_cases h : t.nodes.val = 511
      · have h' : (withLife l t).nodes.val = 511 := h
        rw [Res.mapState_ok] at hd
        simp only [parse, hd, hb, Res.bind_ok, h, h', dif_pos]; rfl
      · rw [parse_tag hb h, parse_tag (t := withLife l t) hd h]
        have ha : allocNode b (withLife l t) h = withLife l (allocNode b t h) := rfl
        rw [ha]
        split_ifs
        · rw [decBits_lifeFree 8 l]
          cases decBits 8 (allocNode b t h) <;> rfl
        · rw [ih l]
          cases hp : parse k (allocNode b t h) with
          | raised e u => rfl
          | ok x u =>
            simp only [Res.mapState_ok, Res.bind_ok]
            have hq := ih l (u.setNode ⟨t.nodes.val, by omega⟩ { u.nodeAt ⟨t.nodes.val, by omega⟩ with left := x })
            refine (congrArg (fun r => Res.bind r _) hq).trans ?_
            cases parse k (u.setNode ⟨t.nodes.val, by omega⟩ { u.nodeAt ⟨t.nodes.val, by omega⟩ with left := x }) <;> rfl

theorem decodeFrom_lifeFree (k : Nat) (i : Fin 511) : LifeFree (decodeFrom k i) := by
  induction k generalizing i with
  | zero => exact fun _ _ => rfl
  | succ k ih =>
    intro l s
    simp only [decodeFrom]
    show (if (s.nodeAt i).leaf = true then _ else _) = _
    split_ifs
    · rfl
    · exact (decBit_lifeFree.bind fun b => ih _) l s

theorem decodeSymbol_lifeFree : LifeFree decodeSymbol := fun l s => decodeFrom_lifeFree decodeDepth s.root l s

theorem decodeAll_lifeFree (n : Nat) : LifeFree (decodeAll n) := by
  induction n with
  | zero => exact fun _ _ => rfl
  | succ n ih =>
    exact decodeSymbol_lifeFree.bind fun c => (writeBits_lifeFree _ _).bind fun _ l s => ih l { s with hrem := s.hrem - 1 }

theorem hrtrie_lifeFree : LifeFree hrtrie := by
  intro l s
  have h := parse_lifeFree parseDepth l { s with
    tvalid := false, len := Vector.replicate 256 0, code := Vector.replicate 256 0, nodes := 0, root := 0 }
  unfold hrtrie
  refine (congrArg (fun r => Res.bind r fun _ s => .ok () { s with tvalid := true }) h).trans ?_
  generalize parse parseDepth _ = r
  cases r <;> rfl

theorem hrcount_lifeFree : LifeFree hrcount := (decBits_lifeFree _).bind fun _ => LifeFree.ok () _ fun _ _ => rfl

theorem hdsym_lifeFree : LifeFree hdsym :=
  needTrie_lifeFree (decodeSymbol_lifeFree.bind fun _ => LifeFree.ok () _ fun _ _ => rfl)

theorem hdsyms_lifeFree : LifeFree hdsyms := needTrie_lifeFree fun l s => decodeAll_lifeFree s.hrem.toNat l s

theorem hexp_lifeFree : LifeFree hexp :=
  rinit_lifeFree.bind fun _ => winit_lifeFree.bind fun _ => hrtrie_lifeFree.bind fun _ => hrcount_lifeFree.bind fun _ =>
  hdsyms_lifeFree.bind fun _ => flush_lifeFree

/-- Every command but CLRERR and SRESET completes a life-free body. -/
theorem exec_lifeFree (i : Instr) (h1 : i ≠ .clrerr) (h2 : i ≠ .sreset) :
    ∃ body, LifeFree body ∧ ∀ s, exec i s = completed (body s) := by
  cases i with
  | clrerr => exact absurd rfl h1
  | sreset => exact absurd rfl h2
  | nop => exact ⟨fun s => .ok () s, fun _ _ => rfl, fun _ => rfl⟩
  | winit => exact ⟨_, winit_lifeFree, fun _ => rfl⟩
  | wbit b => exact ⟨_, writeBit_lifeFree b, fun _ => rfl⟩
  | wbits n => exact ⟨_, wbits_lifeFree n, fun _ => rfl⟩
  | wflush => exact ⟨_, flush_lifeFree, fun _ => rfl⟩
  | rinit => exact ⟨_, rinit_lifeFree, fun _ => rfl⟩
  | rbit => exact ⟨_, rbit_lifeFree, fun _ => rfl⟩
  | rbits n => exact ⟨_, rbits_lifeFree n, fun _ => rfl⟩
  | linit => exact ⟨_, linit_lifeFree, fun _ => rfl⟩
  | lemit c g => exact ⟨_, lemit_lifeFree c g, fun _ => rfl⟩
  | leof => exact ⟨_, leof_lifeFree, fun _ => rfl⟩
  | lread => exact ⟨_, lread_lifeFree, fun _ => rfl⟩
  | fclr => exact ⟨_, fclr_lifeFree, fun _ => rfl⟩
  | fcount => exact ⟨_, fcount_lifeFree, fun _ => rfl⟩
  | frd c => exact ⟨_, frd_lifeFree c, fun _ => rfl⟩
  | fwr c => exact ⟨_, fwr_lifeFree c, fun _ => rfl⟩
  | hbuild => exact ⟨_, hbuild_lifeFree, fun _ => rfl⟩
  | hlen c => exact ⟨_, hlen_lifeFree c, fun _ => rfl⟩
  | hcodelo c => exact ⟨_, hcodelo_lifeFree c, fun _ => rfl⟩
  | hcodehi c => exact ⟨_, hcodehi_lifeFree c, fun _ => rfl⟩
  | hnode n => exact ⟨_, hnode_lifeFree n, fun _ => rfl⟩
  | hnodef n => exact ⟨_, hnodef_lifeFree n, fun _ => rfl⟩
  | htrie => exact ⟨_, htrie_lifeFree, fun _ => rfl⟩
  | hcountw => exact ⟨_, hcountw_lifeFree, fun _ => rfl⟩
  | hsym c => exact ⟨_, hsym_lifeFree c, fun _ => rfl⟩
  | hsyms => exact ⟨_, hsyms_lifeFree, fun _ => rfl⟩
  | hcomp => exact ⟨_, hcomp_lifeFree, fun _ => rfl⟩
  | hrtrie => exact ⟨_, hrtrie_lifeFree, fun _ => rfl⟩
  | hrcount => exact ⟨_, hrcount_lifeFree, fun _ => rfl⟩
  | hdsym => exact ⟨_, hdsym_lifeFree, fun _ => rfl⟩
  | hdsyms => exact ⟨_, hdsyms_lifeFree, fun _ => rfl⟩
  | hexp => exact ⟨_, hexp_lifeFree, fun _ => rfl⟩

/-! ### Reset -/

/-- Reset leaves the values of R341, CTRL included, whatever the state was. -/
theorem resetAll_atReset (s : State) : (resetAll s).AtReset ∧ (resetAll s).doneIe = false ∧ (resetAll s).errIe = false := by
  refine ⟨⟨by simp [resetAll, resetEngine], by simp [resetAll, resetEngine], by simp [resetAll, resetEngine], fun c => ?_,
    fun i => ?_⟩, rfl, rfl⟩
  · simp [State.freqOf, State.lenOf, State.codeOf, resetAll, resetEngine]
  · simp [State.nodeAt, resetAll, resetEngine, Node.zero]

end Sys2Proof.Machine
end

