-- ==== Sys2Proof/Laws/PerInstr.lean ====
section
/-! SUPPORT. One lemma per command for statements about all commands as syntax: the fields of the encoded word, as 30_encoding.md
R111 and R115 ask. -/

namespace Sys2Proof.Laws.EncodedFields

open Sys2Proof.Machine

/-- The word of `i` has RSV = 0 and is legal whenever `i` is well-formed (R111, R115). -/
def Statement (i : Instr) : Prop := fieldRsv (encode i) = 0 ∧ (i.wf = true → legal (encode i) = true)

theorem nop : Statement .nop := ⟨by decide, fun _ => by decide⟩
theorem clrerr : Statement .clrerr := ⟨by decide, fun _ => by decide⟩
theorem sreset : Statement .sreset := ⟨by decide, fun _ => by decide⟩
theorem winit : Statement .winit := ⟨by decide, fun _ => by decide⟩
theorem wbit (b : Bool) : Statement (.wbit b) := by cases b <;> exact ⟨by decide, fun _ => by decide⟩
theorem wbits (n : Byte) : Statement (.wbits n) :=
  ⟨(fields_packWord _ _ _ _).2.2.2.2, fun h => by
    have h : n.toNat ≤ 32 := of_decide_eq_true h
    simp [encode, packA, legal_packWord, opcodeMap, formatOk, h]⟩
theorem wflush : Statement .wflush := ⟨by decide, fun _ => by decide⟩
theorem rinit : Statement .rinit := ⟨by decide, fun _ => by decide⟩
theorem rbit : Statement .rbit := ⟨by decide, fun _ => by decide⟩
theorem rbits (n : Byte) : Statement (.rbits n) :=
  ⟨(fields_packWord _ _ _ _).2.2.2.2, fun h => by
    have h : n.toNat ≤ 32 := of_decide_eq_true h
    simp [encode, packA, legal_packWord, opcodeMap, formatOk, h]⟩
theorem linit : Statement .linit := ⟨by decide, fun _ => by decide⟩
theorem lemit (c : BitVec 12) (g : Bool) : Statement (.lemit c g) :=
  ⟨(fields_packWord _ _ _ _).2.2.2.2, fun _ => by simp [encode, legal_packWord, opcodeMap, formatOk]⟩
theorem leof : Statement .leof := ⟨by decide, fun _ => by decide⟩
theorem lread : Statement .lread := ⟨by decide, fun _ => by decide⟩
theorem fclr : Statement .fclr := ⟨by decide, fun _ => by decide⟩
theorem fcount : Statement .fcount := ⟨by decide, fun _ => by decide⟩
theorem frd (sym : Byte) : Statement (.frd sym) :=
  ⟨(fields_packWord _ _ _ _).2.2.2.2, fun _ => by simp [encode, packA, legal_packWord, opcodeMap, formatOk]⟩
theorem fwr (sym : Byte) : Statement (.fwr sym) :=
  ⟨(fields_packWord _ _ _ _).2.2.2.2, fun _ => by simp [encode, packA, legal_packWord, opcodeMap, formatOk]⟩
theorem hbuild : Statement .hbuild := ⟨by decide, fun _ => by decide⟩
theorem hlen (sym : Byte) : Statement (.hlen sym) :=
  ⟨(fields_packWord _ _ _ _).2.2.2.2, fun _ => by simp [encode, packA, legal_packWord, opcodeMap, formatOk]⟩
theorem hcodelo (sym : Byte) : Statement (.hcodelo sym) :=
  ⟨(fields_packWord _ _ _ _).2.2.2.2, fun _ => by simp [encode, packA, legal_packWord, opcodeMap, formatOk]⟩
theorem hcodehi (sym : Byte) : Statement (.hcodehi sym) :=
  ⟨(fields_packWord _ _ _ _).2.2.2.2, fun _ => by simp [encode, packA, legal_packWord, opcodeMap, formatOk]⟩
theorem hnode (i : BitVec 12) : Statement (.hnode i) :=
  ⟨(fields_packWord _ _ _ _).2.2.2.2, fun _ => by simp [encode, legal_packWord, opcodeMap, formatOk]⟩
theorem hnodef (i : BitVec 12) : Statement (.hnodef i) :=
  ⟨(fields_packWord _ _ _ _).2.2.2.2, fun _ => by simp [encode, legal_packWord, opcodeMap, formatOk]⟩
theorem htrie : Statement .htrie := ⟨by decide, fun _ => by decide⟩
theorem hcountw : Statement .hcountw := ⟨by decide, fun _ => by decide⟩
theorem hsym (sym : Byte) : Statement (.hsym sym) :=
  ⟨(fields_packWord _ _ _ _).2.2.2.2, fun _ => by simp [encode, packA, legal_packWord, opcodeMap, formatOk]⟩
theorem hsyms : Statement .hsyms := ⟨by decide, fun _ => by decide⟩
theorem hcomp : Statement .hcomp := ⟨by decide, fun _ => by decide⟩
theorem hrtrie : Statement .hrtrie := ⟨by decide, fun _ => by decide⟩
theorem hrcount : Statement .hrcount := ⟨by decide, fun _ => by decide⟩
theorem hdsym : Statement .hdsym := ⟨by decide, fun _ => by decide⟩
theorem hdsyms : Statement .hdsyms := ⟨by decide, fun _ => by decide⟩
theorem hexp : Statement .hexp := ⟨by decide, fun _ => by decide⟩

end Sys2Proof.Laws.EncodedFields
end

