-- ==== Sys2Proof/Machine/Listing.lean ====
section
/-! DEFINITION. The listing notation (30_encoding.md R118 to R121): command lines, directives and pseudo-commands as the
host actions they stand for. -/

namespace Sys2Proof.Machine

/-- A line of a listing (R118 to R120). -/
inductive Line where
  /-- A command line, followed by an implicit `.wait`. -/
  | cmd (i : Instr)
  /-- A command line that ends with `nowait`. -/
  | cmdNowait (i : Instr)
  /-- A raw write of CMD, which need not be a legal word; no `.wait`. -/
  | raw (w : Word)
  /-- `.arg v`. -/
  | arg (v : Word)
  /-- `.ilen v`. -/
  | ilen (v : Word)
  /-- `.ibuf j: bytes`, `j` a multiple of 4. -/
  | ibuf (j : Nat) (bytes : List Byte)
  /-- `.ctrl v`. -/
  | ctrl (v : Word)
  /-- `.wait`: the host reads STATUS until BUSY = 0, so the engine's turn comes before its next action. -/
  | wait
  /-- `.read name`. -/
  | read (r : Reg)
  /-- `WBITS n, v`. -/
  | pWbits (n : Byte) (v : Word)
  /-- `WBYTE v`. -/
  | pWbyte (v : Byte)
  /-- `FWR s, v`. -/
  | pFwr (sym : Byte) (v : Word)
  /-- `RBYTE`. -/
  | pRbyte
  /-- `LCODE c`. -/
  | pLcode (c : BitVec 12)
  /-- `LLAST c`. -/
  | pLlast (c : BitVec 12)
  /-- `COMPRESS`. -/
  | pCompress
  /-- `EXPAND`. -/
  | pExpand
  deriving DecidableEq, Repr

/-- The byte offset of a register (R54). -/
def regOffset : Reg → BitVec 26
  | .id => 0x000
  | .cmd => 0x004
  | .arg => 0x008
  | .result => 0x00C
  | .status => 0x010
  | .errcode => 0x014
  | .ctrl => 0x018
  | .irqstat => 0x01C
  | .ilen => 0x020
  | .iptr => 0x024
  | .rstate => 0x028
  | .optr => 0x02C
  | .wstate => 0x030
  | .total => 0x034
  | .htree => 0x038
  | .hrem => 0x03C
  | .lzwe => 0x040
  | .lzwd => 0x044
  | .cmdcnt => 0x048
  | .ibufsz => 0x04C
  | .obufsz => 0x050

/-- The write of CMD that launches `w` (R32). -/
def launchAction (w : Word) : HostAction := .write (regOffset .cmd) w

/-- A command line with its implicit `.wait` (R119). -/
def commandActions (i : Instr) : List HostAction := [launchAction (encode i), .engine]

/-- The word writes of `.ibuf j: bytes` (R119, R84): a final partial word is padded with 0x00. -/
def ibufActions : Nat → List Byte → List HostAction
  | _, [] => []
  | j, [a] => [.write (BitVec.ofNat 26 (ibufBase + j)) ((0 : Byte) ++ (0 : Byte) ++ (0 : Byte) ++ a)]
  | j, [a, b] => [.write (BitVec.ofNat 26 (ibufBase + j)) ((0 : Byte) ++ (0 : Byte) ++ b ++ a)]
  | j, [a, b, c] => [.write (BitVec.ofNat 26 (ibufBase + j)) ((0 : Byte) ++ c ++ b ++ a)]
  | j, a :: b :: c :: d :: rest =>
    .write (BitVec.ofNat 26 (ibufBase + j)) (d ++ c ++ b ++ a) :: ibufActions (j + 4) rest

/-- The transactions of a line (R119 to R121). -/
def Line.actions : Line → List HostAction
  | .cmd i => commandActions i
  | .cmdNowait i => [launchAction (encode i)]
  | .raw w => [launchAction w]
  | .arg v => [.write (regOffset .arg) v]
  | .ilen v => [.write (regOffset .ilen) v]
  | .ibuf j bytes => ibufActions j bytes
  | .ctrl v => [.write (regOffset .ctrl) v]
  | .wait => [.engine, .read (regOffset .status)]
  | .read r => [.read (regOffset r)]
  | .pWbits n v => .write (regOffset .arg) v :: commandActions (.wbits n)
  | .pWbyte v => .write (regOffset .arg) (v.setWidth 32) :: commandActions (.wbits 8)
  | .pFwr sym v => .write (regOffset .arg) v :: commandActions (.fwr sym)
  | .pRbyte => commandActions (.rbits 8)
  | .pLcode c => commandActions (.lemit c true)
  | .pLlast c => commandActions (.lemit c false)
  | .pCompress => commandActions .hcomp
  | .pExpand => commandActions .hexp

/-- The transactions of a listing, in order (R121). -/
def listingActions (ls : List Line) : List HostAction := ls.flatMap Line.actions

end Sys2Proof.Machine
end

