-- ==== Sys2Proof/Machine/LzwHost.lean ====
section
/-! DEFINITION. The host's side of LZW (43_lzw.md R202, R206): software that drives the engine's commands. The dictionary
search itself is host software (00_scope.md R6); it stands here in its plainest form, as a list of entries. -/

namespace Sys2Proof.Machine

/-! ### Running one command from the host -/

/-- The host launches `i` with a CMD write and waits for BUSY = 0 (R140, R119). A meaning never stops, so the state is
always the next one. -/
def runCommand (i : Instr) (s : State) : State :=
  match engineTurn (hostWrite (regOffset .cmd) (encode i) s) with
  | .next t => t
  | .fault _ => s
  | .refused _ => s

/-! ### Compression (R202) -/

/-- The host's compression dictionary: the entries put, newest first; the 256 single bytes are always keys. -/
abbrev CodeBook := List (List Byte × BitVec 12)

/-- Is `p` a leading part of `l`? -/
def startsWith : List Byte → List Byte → Bool
  | [], _ => true
  | _ :: _, [] => false
  | a :: p, b :: l => decide (a = b) && startsWith p l

/-- The longest key that is a leading part of the rest of the input, with its code: `dict.longest_prefix_of`. -/
def longestMatch (book : CodeBook) (first : Byte) (rest : List Byte) : List Byte × BitVec 12 :=
  book.foldl (fun best e => if startsWith e.1 (first :: rest) ∧ best.1.length < e.1.length then e else best)
    ([first], first.setWidth 12)

/-- The compression loop over the remaining input, at most `k` matches (every match takes at least one byte). -/
def compressLoop : Nat → CodeBook → List Byte → State → State
  | 0, _, _, s => s
  | _ + 1, _, [], s => s
  | k + 1, book, b :: rest, s =>
    let m := longestMatch book b rest
    let n := m.1.length
    let s1 := runCommand (.lemit m.2 (decide (n < (b :: rest).length))) s
    let book1 := if s1.result.getLsbD 31 then ((b :: rest).take (n + 1), s1.result.setWidth 12) :: book else book
    compressLoop k book1 ((b :: rest).drop n) s1

/-- The compression protocol of R202 for the input bytes. -/
def lzwCompress (input : List Byte) (s : State) : State :=
  runCommand .wflush (runCommand .leof
    (compressLoop input.length [] input (runCommand .winit (runCommand .linit s))))

/-! ### Expansion (R206) -/

/-- The host's expansion dictionary: the strings of the indices from 257 on, newest first. -/
abbrev StringBook := List (BitVec 12 × List Byte)

/-- The string of index `c`: a single byte below 256, else the entry. -/
def stringOf (book : StringBook) (c : BitVec 12) : List Byte :=
  if c.toNat < 256 then [c.setWidth 8]
  else match book.find? (fun e => decide (e.1 = c)) with
       | some e => e.2
       | none => []

/-- The expansion loop, at most `k` codewords: the output so far, then LREAD's classification decides (R206). It stops at
EOF and at an error. -/
def expandLoop : Nat → StringBook → Option (List Byte) → List Byte → State → List Byte × State
  | 0, _, _, out, s => (out, s)
  | k + 1, book, prev, out, s =>
    let s1 := runCommand .lread s
    let c : BitVec 12 := s1.result.setWidth 12
    if s1.err ∨ s1.result.getLsbD 13 then (out, s1)
    else
      let cur := match prev with
                 | none => stringOf book c
                 | some p => if s1.result.getLsbD 12 then p ++ p.take 1 else stringOf book c
      let book1 := if s1.result.getLsbD 15 then
                     (s1.result.extractLsb' 16 12, prev.getD [] ++ cur.take 1) :: book
                   else book
      expandLoop k book1 (some cur) (out ++ cur) s1

/-- The expansion protocol of R206; a stream of `ILEN` bytes holds fewer than `ILEN + 1` codewords of 12 bits. -/
def lzwExpand (s : State) : List Byte × State :=
  expandLoop (s.ilen.toNat + 1) [] none [] (runCommand .winit (runCommand .rinit (runCommand .linit s)))

end Sys2Proof.Machine
end

