-- ==== Sys2Proof/Tests/Slice0.lean ====
section
/-! SUPPORT. The model's own tests: well-formedness, words written out from the encodings of 30_encoding.md, one or two steps of
each command against the examples of the rules and of 95_test_vectors.md, and a witness for the hypotheses of each
obligation. -/

namespace Sys2Proof.Tests

open Sys2Proof.Machine

-- One theorem after the other: many at once would each hold a thread.
set_option Elab.async false

/-! ### Well-formedness: a width above 32 is the only ill-formed operand (30_encoding.md R112, R115) -/

theorem test_wf_wbits_33_refused : Instr.wf (.wbits 33) = false := by decide
theorem test_wf_rbits_33_refused : Instr.wf (.rbits 33) = false := by decide
theorem test_wf_widths_accepted : Instr.wf (.wbits 32) = true ∧ Instr.wf (.rbits 0) = true := by decide

/-! ### Decoding, words from R114, R117, R118 and 95_test_vectors.md section 2.1 -/

theorem test_decode_control :
    decode 0x00000000 = .ok .nop ∧ decode 0x00000001 = .ok .clrerr ∧ decode 0x00000002 = .ok .sreset := by decide
theorem test_decode_writer :
    decode 0x00000010 = .ok .winit ∧ decode 0x00000111 = .ok (.wbit true) ∧ decode 0x00000011 = .ok (.wbit false) ∧
      decode 0x00000C12 = .ok (.wbits 12) ∧ decode 0x00000013 = .ok .wflush := by decide
theorem test_decode_reader :
    decode 0x00000020 = .ok .rinit ∧ decode 0x00000021 = .ok .rbit ∧ decode 0x00000822 = .ok (.rbits 8) ∧
      decode 0x00002022 = .ok (.rbits 32) := by decide
theorem test_decode_lzw :
    decode 0x00000030 = .ok .linit ∧ decode 0x11010031 = .ok (.lemit 257 true) ∧
      decode 0x00410031 = .ok (.lemit 65 false) ∧ decode 0x00000032 = .ok .leof ∧ decode 0x00000033 = .ok .lread := by decide
theorem test_decode_frequency :
    decode 0x00000040 = .ok .fclr ∧ decode 0x00000041 = .ok .fcount ∧ decode 0x00004142 = .ok (.frd 0x41) ∧
      decode 0x0000FF43 = .ok (.fwr 0xFF) := by decide
theorem test_decode_build :
    decode 0x00000050 = .ok .hbuild ∧ decode 0x00004351 = .ok (.hlen 0x43) ∧ decode 0x00002152 = .ok (.hcodelo 0x21) ∧
      decode 0x00004153 = .ok (.hcodehi 0x41) ∧ decode 0x000A0054 = .ok (.hnode 10) ∧
      decode 0x00030055 = .ok (.hnodef 3) := by decide
theorem test_decode_encode :
    decode 0x00000060 = .ok .htrie ∧ decode 0x00000061 = .ok .hcountw ∧ decode 0x00004162 = .ok (.hsym 0x41) ∧
      decode 0x00000063 = .ok .hsyms ∧ decode 0x00000064 = .ok .hcomp := by decide
theorem test_decode_decode :
    decode 0x00000070 = .ok .hrtrie ∧ decode 0x00000071 = .ok .hrcount ∧ decode 0x00000072 = .ok .hdsym ∧
      decode 0x00000073 = .ok .hdsyms ∧ decode 0x00000074 = .ok .hexp := by decide
theorem test_decode_illegal_words :
    decode 0x00000003 = .error .unknownOpcode ∧ decode 0x00000100 = .error .unusedField ∧
      decode 0x20000000 = .error .reservedBits ∧ decode 0x00002112 = .error .widthOperand ∧
      decode 0x00000211 = .error .bitOperand ∧ decode 0x00010042 = .error .unusedField ∧
      decode 0x10000054 = .error .unusedField ∧ decode 0x00000131 = .error .unusedField := by decide
theorem test_encode_words :
    encode (.lemit 66 true) = 0x10420031 ∧ encode (.wbits 12) = 0x00000C12 ∧ encode (.hnodef 3) = 0x00030055 := by decide
theorem test_decodeTableWord : decodeTableWord 32 0x000A0054 = some (.hnode 10) ∧ decodeTableWord 32 0x3 = none := by decide

/-! ### Small states -/

/-- A check on the next state. -/
def after (o : Host.Outcome State Fault Refusal) (p : State → Bool) : Bool :=
  match o with
  | .next t => p t
  | _ => false

/-- An input in IBUF. -/
def withInput (bytes : List Byte) : State :=
  { State.reset with ibuf := (List.range bytes.length).zip bytes, ilen := BitVec.ofNat 32 bytes.length }

/-- The trie of the input "AB": root over the leaves 'A' (code 0) and 'B' (code 1), as HBUILD makes it. -/
def abTrie (s : State) : State :=
  { s with
    node := ((s.node.set 0 { leaf := true, sym := 0x41, left := 0, right := 0, f := 1 }).set 1
      { leaf := true, sym := 0x42, left := 0, right := 0, f := 1 }).set 2
      { leaf := false, sym := 0, left := 0, right := 1, f := 2 }
    root := 2, nodes := 3, tvalid := true, len := (s.len.set 0x41 1).set 0x42 1, code := s.code.set 0x42 1 }

/-- The trie that is one leaf, 'A', as HRTRIE makes it of the 9 bits `1 0100_0001`. -/
def leafTrie (s : State) : State :=
  { s with node := s.node.set 0 { leaf := true, sym := 0x41, left := 0, right := 0, f := 0 }, root := 0, nodes := 1,
           tvalid := true }

/-- An instance with OBUF_SIZE = 4. -/
def smallOut (s : State) : State := { s with obufExp := 0 }

/-- Every byte of a small OBUF written, OPTR at its end and 7 bits pending. -/
def fullOut (s : State) : State :=
  { smallOut s with obuf := [(0, 1), (1, 2), (2, 3), (3, 4)], optr := 4, wacc := 0x7F, wcnt := 7 }

/-! ### One step of each command -/

theorem test_nop : after (exec .nop { State.reset with cmdcnt := 5 }) (fun t =>
    decide (t.cmdcnt = 6 ∧ t.irqDone = true ∧ t.err = false)) = true := by decide +kernel
theorem test_clrerr : after (exec .clrerr { State.reset with err := true, errCode := 0x09, errOp := 0x33, irqErri := true })
    (fun t => decide (t.err = false ∧ t.errCode = 0 ∧ t.errOp = 0 ∧ t.irqErri = true)) = true := by decide +kernel
theorem test_sreset : after (exec .sreset { State.reset with err := true, cmdcnt := 9, doneIe := true, enext := 300 })
    (fun t => decide (statusWord t = 0 ∧ t.cmdcnt = 1 ∧ irqstatWord t = 1 ∧ t.doneIe = true ∧ lzweWord t = 0x101 ∧
      lzwdWord t = 0x00010101)) = true := by decide +kernel
theorem test_winit : after (exec .winit { State.reset with wacc := 5, wcnt := 3, optr := 9 })
    (fun t => decide (wstateWord t = 0 ∧ t.optr = 0)) = true := by decide +kernel
theorem test_wbit_emits : after (exec (.wbit false) { State.reset with wacc := 0x7F, wcnt := 7 })
    (fun t => decide (t.obuf = [(0, 0xFE)] ∧ t.optr = 1 ∧ wstateWord t = 0)) = true := by decide +kernel
theorem test_wbit_overflow : after (exec (.wbit true) { fullOut State.reset with pending := 0x111 })
    (fun t => decide (errcodeWord t = 0x1104 ∧ wstateWord t = 0x077F ∧ t.optr = 4)) = true := by decide +kernel
theorem test_wbits_12 : after (exec (.wbits 12) { State.reset with arg := 0xABC })
    (fun t => decide (t.obuf = [(0, 0xAB)] ∧ t.optr = 1 ∧ wstateWord t = 0x040C)) = true := by decide +kernel
theorem test_wbits_overflow_keeps_bits :
    after (exec (.wbits 8) { smallOut State.reset with arg := 0xFF, optr := 4, pending := 0x812 })
      (fun t => decide (errcodeWord t = 0x1204 ∧ wstateWord t = 0x077F)) = true := by decide +kernel
theorem test_wflush : after (exec .wflush { State.reset with wacc := 0x0C, wcnt := 4, optr := 1 })
    (fun t => decide (t.obuf = [(1, 0xC0)] ∧ t.optr = 2 ∧ wstateWord t = 0)) = true := by decide +kernel
theorem test_wflush_overflow : after (exec .wflush { smallOut State.reset with wacc := 0x0F, wcnt := 4, optr := 4, pending := 0x13 })
    (fun t => decide (errcodeWord t = 0x1304 ∧ wstateWord t = 0x040F ∧ t.obuf = [])) = true := by decide +kernel
theorem test_rinit : after (exec .rinit { State.reset with iptr := 7, racc := 0x45, rcnt := 3, eoi := true })
    (fun t => decide (t.iptr = 0 ∧ rstateWord t = 0 ∧ t.eoi = false)) = true := by decide +kernel
theorem test_rbit_refills : after (exec .rbit (withInput [0xA5]))
    (fun t => decide (t.result = 1 ∧ t.iptr = 1 ∧ rstateWord t = 0x07A5 ∧ t.eoi = false)) = true := by decide +kernel
theorem test_rbit_end : after (exec .rbit State.reset)
    (fun t => decide (t.result = 0 ∧ t.iptr = 0 ∧ t.eoi = true ∧ t.err = false)) = true := by decide +kernel
theorem test_rbits_12 : after (exec (.rbits 12) (withInput [0xAB, 0xC0]))
    (fun t => decide (t.result = 0xABC ∧ t.iptr = 2 ∧ rstateWord t = 0x04C0 ∧ t.eoi = false)) = true := by decide +kernel
theorem test_rbits_crosses_the_end :
    after (exec (.rbits 8) { withInput [0x12, 0x34, 0x56, 0x78, 0x9A] with iptr := 5, racc := 0x9A, rcnt := 4 })
      (fun t => decide (t.result = 0xA0 ∧ t.iptr = 5 ∧ rstateWord t = 0x009A ∧ t.eoi = true)) = true := by decide +kernel
theorem test_linit : after (exec .linit { State.reset with enext := 0x108, dnext := 0x105, dfirst := false })
    (fun t => decide (lzweWord t = 0x101 ∧ lzwdWord t = 0x00010101)) = true := by decide +kernel
theorem test_lemit_grows : after (exec (.lemit 65 true) State.reset)
    (fun t => decide (t.result = 0x80000101 ∧ t.enext = 258 ∧ t.obuf = [(0, 0x04)] ∧ wstateWord t = 0x0401)) = true := by
  decide +kernel
theorem test_lemit_bad_code : after (exec (.lemit 256 true) { State.reset with pending := 0x11000031 })
    (fun t => decide (errcodeWord t = 0x310A ∧ t.optr = 0 ∧ t.wcnt = 0 ∧ t.enext = 257)) = true := by decide +kernel
theorem test_leof : after (exec .leof State.reset)
    (fun t => decide (t.obuf = [(0, 0x10)] ∧ wstateWord t = 0x0400)) = true := by decide +kernel
theorem test_lread_known : after (exec .lread
      { withInput [0x04, 0x10, 0x42] with iptr := 2, racc := 0x10, rcnt := 4, dfirst := false, result := 0x41 })
    (fun t => decide (t.result = 0x01018042 ∧ t.dnext = 258)) = true := by decide +kernel
theorem test_lread_first_beyond : after (exec .lread { withInput [0x10, 0x10] with pending := 0x33 })
    (fun t => decide (errcodeWord t = 0x3309 ∧ t.iptr = 2 ∧ rstateWord t = 0x0410 ∧ t.dnext = 257 ∧ t.dfirst = true)) = true := by
  decide +kernel
theorem test_fclr : after (exec .fclr { State.reset with freq := Vector.replicate 256 1, total := 256 })
    (fun t => decide (t.freqOf 0x41 = 0 ∧ t.total = 0)) = true := by decide +kernel
theorem test_fcount : after (exec .fcount (withInput [0x41, 0x42, 0x41]))
    (fun t => decide (t.freqOf 0x41 = 2 ∧ t.freqOf 0x42 = 1 ∧ t.freqOf 0x43 = 0 ∧ t.total = 3)) = true := by decide +kernel
theorem test_frd : after (exec (.frd 0x41) { State.reset with freq := (Vector.replicate 256 0).set 0x41 5 })
    (fun t => decide (t.result = 5)) = true := by decide +kernel
theorem test_fwr : after (exec (.fwr 0x41)
      { State.reset with freq := (Vector.replicate 256 0).set 0x41 5, total := 12, arg := 7 })
    (fun t => decide (t.freqOf 0x41 = 7 ∧ t.total = 14)) = true := by decide +kernel
theorem test_fwr_overflow : after (exec (.fwr 0x41) { State.reset with total := 1, arg := 0xFFFFFFFF, pending := 0x4143 })
    (fun t => decide (errcodeWord t = 0x4305 ∧ t.total = 1 ∧ t.freqOf 0x41 = 0)) = true := by decide +kernel
theorem test_hbuild_empty : after (exec .hbuild State.reset)
    (fun t => decide (htreeWord t = 0x00030002 ∧ t.tvalid = true ∧ t.lenOf 0 = 1 ∧ t.codeOf 1 = 1 ∧ (t.nodeAt 0).sym = 0)) =
      true := by decide +kernel
theorem test_hbuild_one_symbol : after (exec .hbuild { State.reset with freq := (Vector.replicate 256 0).set 0 300, total := 300 })
    (fun t => decide ((t.nodeAt 2).left = 1 ∧ (t.nodeAt 2).right = 0 ∧ t.codeOf 0 = 1 ∧ t.codeOf 1 = 0 ∧ (t.nodeAt 2).f = 300)) =
      true := by decide +kernel
theorem test_hlen : after (exec (.hlen 0x42) (abTrie State.reset)) (fun t => decide (t.result = 1)) = true := by decide +kernel
theorem test_hcodelo : after (exec (.hcodelo 0x21) { State.reset with code := State.reset.code.set 0x21 0x500000006 })
    (fun t => decide (t.result = 6)) = true := by decide +kernel
theorem test_hcodehi : after (exec (.hcodehi 0x21) { State.reset with code := State.reset.code.set 0x21 0x500000006 })
    (fun t => decide (t.result = 5)) = true := by decide +kernel
theorem test_hnode : after (exec (.hnode 2) (abTrie State.reset)) (fun t => decide (t.result = 0x80010000)) = true ∧
    after (exec (.hnode 1) (abTrie State.reset)) (fun t => decide (t.result = 0xC0000042)) = true := by decide +kernel
theorem test_hnode_beyond : after (exec (.hnode 3) (abTrie State.reset)) (fun t => decide (t.result = 0)) = true ∧
    after (exec (.hnode 4095) (abTrie State.reset)) (fun t => decide (t.result = 0)) = true := by decide +kernel
theorem test_hnodef : after (exec (.hnodef 2) (abTrie State.reset)) (fun t => decide (t.result = 2)) = true := by decide +kernel
theorem test_htrie : after (exec .htrie (abTrie State.reset))
    (fun t => decide (t.obuf = [(0, 0x50), (1, 0x68)] ∧ wstateWord t = 0x0302)) = true := by decide +kernel
theorem test_htrie_no_trie : after (exec .htrie { State.reset with pending := 0x60 })
    (fun t => decide (errcodeWord t = 0x6006 ∧ t.optr = 0 ∧ t.wcnt = 0)) = true := by decide +kernel
theorem test_hcountw : after (exec .hcountw { State.reset with ilen := 12 })
    (fun t => decide (t.obuf = [(0, 0), (1, 0), (2, 0), (3, 0x0C)] ∧ t.optr = 4)) = true := by decide +kernel
theorem test_hsym : after (exec (.hsym 0x42) (abTrie State.reset)) (fun t => decide (wstateWord t = 0x0101)) = true := by
  decide +kernel
theorem test_hsym_no_code : after (exec (.hsym 0x43) { abTrie State.reset with pending := 0x4362 })
    (fun t => decide (errcodeWord t = 0x6207 ∧ wstateWord t = 0)) = true := by decide +kernel
theorem test_hsyms_no_code : after (exec .hsyms { abTrie (withInput [0x41, 0x42, 0x43]) with pending := 0x63 })
    (fun t => decide (errcodeWord t = 0x6307 ∧ wstateWord t = 0x0201)) = true := by decide +kernel
theorem test_hcomp_empty : after (exec .hcomp State.reset)
    (fun t => decide (t.obuf = [(0, 0x40), (1, 0x20), (2, 0x20), (3, 0), (4, 0), (5, 0), (6, 0)] ∧ t.optr = 7 ∧
      t.cmdcnt = 1 ∧ t.err = false)) = true := by decide +kernel
theorem test_hrtrie_short : after (exec .hrtrie { withInput [0x50] with pending := 0x70 })
    (fun t => decide (errcodeWord t = 0x7009 ∧ t.nodes = 2 ∧ t.tvalid = false ∧ t.eoi = true ∧ (t.nodeAt 0).leaf = false ∧
      (t.nodeAt 1).leaf = true ∧ (t.nodeAt 1).sym = 0)) = true := by decide +kernel
theorem test_hrtrie_512th_node : after (exec .hrtrie (withInput (List.replicate 64 0))) (fun t => decide (t.errCode = 0x09 ∧
    t.nodes.val = 511 ∧ t.iptr = 64 ∧ t.rcnt = 0 ∧ t.eoi = false ∧ (t.nodeAt 510) = Node.zero)) = true := by decide +kernel
theorem test_hrtrie_root_leaf : after (exec .hrtrie (withInput [0xA0, 0x80]))
    (fun t => decide (t.nodes = 1 ∧ t.tvalid = true ∧ (t.nodeAt 0).sym = 0x41 ∧ rstateWord t = 0x0780)) = true := by
  decide +kernel
theorem test_hrcount : after (exec .hrcount (withInput [0, 0, 1, 0x8B]))
    (fun t => decide (t.hrem = 0x18B ∧ t.iptr = 4 ∧ t.rcnt = 0)) = true := by decide +kernel
theorem test_hdsym : after (exec .hdsym { abTrie (withInput [0x80]) with hrem := 12 })
    (fun t => decide (t.result = 0x42 ∧ rstateWord t = 0x0780 ∧ t.hrem = 12)) = true := by decide +kernel
theorem test_hdsym_root_leaf_after_end : after (exec .hdsym { leafTrie (withInput [0x80]) with eoi := true })
    (fun t => decide (t.result = 0x41 ∧ t.iptr = 0 ∧ rstateWord t = 0 ∧ t.eoi = true ∧ t.err = false)) = true := by
  decide +kernel
theorem test_hdsyms_none_after_end : after (exec .hdsyms { abTrie (withInput [0x55]) with eoi := true })
    (fun t => decide (t.iptr = 0 ∧ t.optr = 0 ∧ t.eoi = true ∧ t.err = false)) = true := by decide +kernel
theorem test_hdsyms_short : after (exec .hdsyms { abTrie (withInput [0x55]) with hrem := 9, pending := 0x73 })
    (fun t => decide (errcodeWord t = 0x7309 ∧ t.hrem = 1 ∧ t.optr = 8 ∧ t.obuf.map Prod.snd =
      [0x41, 0x42, 0x41, 0x42, 0x41, 0x42, 0x41, 0x42])) = true := by decide +kernel
theorem test_hexp_root_leaf : after (exec .hexp (withInput [0xA0, 0x80, 0x00, 0x00, 0x01, 0x80]))
    (fun t => decide (t.obuf = [(0, 0x41), (1, 0x41), (2, 0x41)] ∧ t.optr = 3 ∧ t.iptr = 6 ∧ rstateWord t = 0x0780)) = true := by
  decide +kernel
theorem test_hexp_duplicate_leaves : after (exec .hexp (withInput [0x50, 0x68, 0x20, 0x00, 0x00, 0x00, 0x48]))
    (fun t => decide (t.obuf.map Prod.snd = [0x41, 0x41] ∧ t.err = false)) = true := by decide +kernel

/-! ### The bus and the life cycle -/

theorem test_launch_then_step :
    after (step { hostWrite 0x004 0x13 State.reset with hostq := [] }) (fun t => decide (t.cmdcnt = 1 ∧ t.busy = false)) = true := by
  decide +kernel
theorem test_step_illegal_word : after (step (State.reset.withFetchWord 32 0x2112))
    (fun t => decide (errcodeWord t = 0x1201 ∧ t.cmdcnt = 1 ∧ irqstatWord t = 3)) = true := by decide +kernel
theorem test_cmd_while_busy : errcodeWord (hostWrite 0x004 0x00 { State.reset with busy := true, pending := 0x64 }) = 0x0002 := by
  decide +kernel
theorem test_arg_while_busy : errcodeWord (hostWrite 0x008 7 { State.reset with busy := true, pending := 0x64 }) = 0x6403 ∧
    (hostWrite 0x008 7 { State.reset with busy := true, pending := 0x64 }).arg = 0 := by decide +kernel
theorem test_clrerr_with_field_dropped :
    hostWrite 0x004 0x101 { State.reset with err := true } = { State.reset with err := true } := rfl
theorem test_obuf_word_little_endian :
    (hostRead 0x2000000 { State.reset with obuf := [(0, 0x50), (1, 0x4A), (2, 0x25), (3, 0x09)] }).hostData = 0x09254A50 := by
  decide +kernel
theorem test_ibuf_write : (hostWrite 0x1000007 0x41444143 State.reset).ibuf = [(4, 0x43), (5, 0x41), (6, 0x44), (7, 0x41)] := by
  decide +kernel
theorem test_ilen_is_capped : (hostWrite 0x020 0xFFFFFFFF State.reset).ilen = 65536 := by decide +kernel
theorem test_id_and_sizes : (hostRead 0x000 State.reset).hostData = 0x48434501 ∧
    (hostRead 0x04C State.reset).hostData = 65536 ∧ (hostRead 0x054 State.reset).hostData = 0 := by decide +kernel
theorem test_irq_cleared_by_one : State.irq { State.reset with doneIe := true, irqDone := true } = true ∧
    State.irq (hostWrite 0x01C 1 { State.reset with doneIe := true, irqDone := true }) = false := by decide +kernel
theorem test_reset_abandons : (assertReset { State.reset with busy := true, pending := 0x0, cmdcnt := 4 }).cmdcnt = 0 := by
  decide +kernel
theorem test_listing : listingActions [.arg 5, .pWbits 3 5, .pLlast 65] =
    [.write 0x008 5, .write 0x008 5, .write 0x004 0x312, .engine, .write 0x004 0x00410031, .engine] := by decide
theorem test_lzw_compress_one : (lzwCompress [0x41] State.reset).obuf = [(0, 0x04), (1, 0x11), (2, 0x00)] := by decide +kernel

/-! ### Witnesses: for each statement with hypotheses, states and operands that meet them, at the ends of each clause's range -/

/-- Every command answers a next state, so the hypothesis `exec i s = next t` is always met. -/
theorem exec_next (i : Instr) (s : State) : ∃ t, exec i s = .next t := by cases i <;> exact ⟨_, rfl⟩

theorem engineTurn_next (s : State) : ∃ t, engineTurn s = .next t := by
  unfold engineTurn engineRun
  split
  · split
    · exact exec_next _ s
    · exact ⟨_, rfl⟩
  · exact ⟨_, rfl⟩

theorem step_next (s : State) : ∃ t, step s = .next t := by
  unfold step act
  split
  · exact engineTurn_next s
  · split <;> first | exact ⟨_, rfl⟩ | exact engineTurn_next _

theorem writeFields_some (fs : List StreamField) (s : State) : ∃ t, writeFields fs s = some t := by
  induction fs generalizing s with
  | nil => exact ⟨s, rfl⟩
  | cons f fs ih => exact ih _

/-- A launched command. -/
def running (w : Word) (s : State) : State := { s with busy := true, pending := w }

/-- An engine that has recorded an error. -/
def failed (s : State) : State := { s with err := true, errCode := 0x04, errOp := 0x11 }

/-- The host copies the output of `w` to the input of an engine after reset. -/
def copied (w : State) : State := { State.reset with ilen := w.optr, ibuf := w.obuf }

theorem copied_ilen (w : State) : (copied w).ilen = w.optr := rfl

/-- The trie that `abTrie` holds. -/
def abTree : Tree := .node (.leaf 0x41) (.leaf 0x42)

theorem leafTrie_holds (s : State) : (leafTrie s).HoldsTrie (.leaf 0x41) := by
  refine ⟨?_, List.Perm.refl [0]⟩
  have hr : (leafTrie s).root = 0 := rfl
  rw [hr]
  simp [Represents, leafTrie]

theorem abTrie_holds (s : State) : (abTrie s).HoldsTrie abTree := by
  have h0 : (abTrie s).node[0] = { leaf := true, sym := 0x41, left := 0, right := 0, f := 1 } := by simp [abTrie]
  have h1 : (abTrie s).node[1] = { leaf := true, sym := 0x42, left := 0, right := 0, f := 1 } := by simp [abTrie]
  have h2 : (abTrie s).node[2] = { leaf := false, sym := 0, left := 0, right := 1, f := 2 } := by simp [abTrie]
  have hr : (abTrie s).root = 2 := rfl
  have hn : (abTrie s).nodes.val = 3 := rfl
  unfold State.HoldsTrie
  rw [hr, hn]
  constructor
  · simp [Represents, abTree, h0, h1, h2]
  · simp only [abTree, indicesOf, Fin.val_two, h2]
    decide

theorem abTrie_coded (c : Byte) (h : (abTrie State.reset).lenOf c ≠ 0) : c = 0x41 ∨ c = 0x42 := by
  revert c; decide +kernel

/-- The complete trie of depth `k`: 511 nodes for `k = 8`. -/
def completeTree : Nat → Nat → Tree
  | 0, c => .leaf (BitVec.ofNat 8 c)
  | k + 1, c => .node (completeTree k (2 * c)) (completeTree k (2 * c + 1))

/-- The bytes of a bit string, at most `k` of them. -/
def packBits : Nat → List Bool → List Byte
  | 0, _ => []
  | k + 1, bs => BitVec.ofNat 8 (numOf (bs.take 8)) :: packBits k (bs.drop 8)

/-- Fields of 12, 0 and 20 bits: as many as a 4-byte OBUF holds. -/
def fields32 : List StreamField := [(0xABC, 12), (0, 0), (0xFFFFF, 20)]

theorem fields32_widths : ∀ f ∈ fields32, f.2.toNat ≤ 32 := by simp [fields32]

theorem witness_EncodeThenDecode :
    Instr.wf (.wbits 32) = true ∧ Instr.wf (.rbits 0) = true ∧ Instr.wf (.lemit 4095 true) = true ∧ Instr.wf (.hnode 4095) = true := by
  decide
theorem witness_LegalWordsDecode : legal 0x00002012 = true ∧ decode 0x00002012 = .ok (.wbits 32) ∧ legal 0x00002112 = false := by
  decide
theorem witness_StepRunsTheDecodedCommand :
    let s := running 0x00002012 State.reset
    s.rstN = true ∧ s.busy = true ∧ decode s.pending = .ok (.wbits 32) ∧ s.hostq = [] ∧
      ({ s with hostq := [.engine] } : State).hostq = .engine :: [] ∧
      decodeTableWord 32 0x1FFF0031 = some (.lemit 4095 true) := by decide
theorem witness_ExecuteByLegality :
    (running 0x00002022 State.reset).rstN = true ∧ (running 0x00002022 State.reset).busy = true ∧
      legal (running 0x00002022 State.reset).pending = true ∧ legal (running 0x00002122 State.reset).pending = false := by decide
theorem witness_CmdWriteLaunches :
    State.reset.rstN = true ∧ State.reset.busy = false ∧ (0x004 : BitVec 26).toNat / 4 = 1 ∧ (0x007 : BitVec 26).toNat / 4 = 1 ∧
      State.reset.err = false ∧ (failed State.reset).err = true ∧ (failed State.reset).busy = false := by decide
theorem witness_CmdWriteWhileBusy :
    let s := running 0x00000064 State.reset
    s.rstN = true ∧ s.busy = true ∧ (0x004 : BitVec 26).toNat / 4 = 1 ∧ (∃ t, engineTurn s = .next t) ∧ s.pending ≠ 0x00000001 ∧
      s.pending ≠ 0x00000002 ∧ s.err = false ∧ (failed s).err = true :=
  ⟨rfl, rfl, by decide, engineTurn_next _, by decide, by decide, rfl, rfl⟩
theorem witness_CmdWriteDroppedAfterError :
    (failed State.reset).rstN = true ∧ (failed State.reset).busy = false ∧ (failed State.reset).err = true ∧
      (0x004 : BitVec 26).toNat / 4 = 1 ∧ (0x00000101 : Word) ≠ 0x00000001 ∧ (0x00000101 : Word) ≠ 0x00000002 := by decide
theorem witness_WriteWhileBusy :
    let s := running 0x00000064 State.reset
    s.rstN = true ∧ s.busy = true ∧ (∃ t, engineTurn s = .next t) ∧
      ((0x00B : BitVec 26).toNat / 4 = 2 ∧ (0x020 : BitVec 26).toNat / 4 = 8) ∧
      (0x1000000 ≤ (0x1000000 : BitVec 26).toNat ∧ (0x100FFFF : BitVec 26).toNat < 0x1000000 + s.ibufSize) ∧
      (0x2000000 ≤ (0x2000000 : BitVec 26).toNat ∧ (0x200FFFF : BitVec 26).toNat < 0x2000000 + s.obufSize) ∧
      ((0x018 : BitVec 26).toNat / 4 = 6 ∧ (0x01C : BitVec 26).toNat / 4 = 7) ∧
      ((0x000 : BitVec 26).toNat / 4 ∉ [1, 2, 6, 7, 8] ∧ (0xFFFFFF : BitVec 26).toNat / 4 ∉ [1, 2, 6, 7, 8] ∧
        (0xFFFFFF : BitVec 26).toNat < 0x1000000) ∧
      (0x1000000 + s.ibufSize ≤ (0x1010000 : BitVec 26).toNat ∧ (0x1FFFFFF : BitVec 26).toNat < 0x2000000) ∧
      (0x2000000 + s.obufSize ≤ (0x2010000 : BitVec 26).toNat ∧ 0x2000000 + s.obufSize ≤ (0x3FFFFFF : BitVec 26).toNat) := by
  refine ⟨rfl, rfl, engineTurn_next _, ?_⟩
  decide
theorem witness_EveryCommandCompletes : Instr.hexp ≠ .sreset ∧ Instr.hexp ≠ .clrerr := by decide
theorem witness_ReturnFromError :
    (failed State.reset).rstN = true ∧ (failed State.reset).busy = false ∧ (failed State.reset).err = true ∧
      (0x004 : BitVec 26).toNat / 4 = 1 ∧ (0x00000000 : Word) ≠ 0x00000001 ∧ (0x00000000 : Word) ≠ 0x00000002 := by decide
theorem witness_RegisterReads :
    State.reset.rstN = true ∧ State.reset.busy = false ∧ (0x000 : BitVec 26).toNat < 0x54 ∧ (0x053 : BitVec 26).toNat < 0x54 := by
  decide
theorem witness_BusIsIdempotent :
    State.reset.BuffersOk ∧ (fullOut State.reset).BuffersOk ∧ (fullOut State.reset).rstN = true ∧
      (fullOut State.reset).busy = false ∧ (0x2000003 : BitVec 26).toNat / 4 ≠ 1 := by
  unfold State.BuffersOk; decide
theorem witness_BufferWindows :
    State.reset.rstN = true ∧ State.reset.busy = false ∧ (running 0 State.reset).busy = true ∧
      (0 < State.reset.ibufSize / 4 ∧ (0x1000003 : BitVec 26).toNat / 4 * 4 = 0x1000000 + 4 * 0) ∧
      (16383 < State.reset.ibufSize / 4 ∧ (0x100FFFC : BitVec 26).toNat / 4 * 4 = 0x1000000 + 4 * 16383) ∧
      (0 < State.reset.obufSize / 4 ∧ (0x2000000 : BitVec 26).toNat / 4 * 4 = 0x2000000 + 4 * 0) ∧
      (16383 < State.reset.obufSize / 4 ∧ (0x200FFFF : BitVec 26).toNat / 4 * 4 = 0x2000000 + 4 * 16383) := by decide
theorem witness_UnmappedAddresses :
    (0x54 ≤ (0x054 : BitVec 26).toNat ∧ (0xFFFFFF : BitVec 26).toNat < 0x1000000) ∧
      (0x1000000 + State.reset.ibufSize ≤ (0x1010000 : BitVec 26).toNat ∧ (0x1FFFFFF : BitVec 26).toNat < 0x2000000) ∧
      0x2000000 + State.reset.obufSize ≤ (0x2010000 : BitVec 26).toNat ∧
      0x2000000 + State.reset.obufSize ≤ (0x3FFFFFF : BitVec 26).toNat := by decide
theorem witness_ReadsWhileBusy :
    let s := running 0x00000064 State.reset
    s.rstN = true ∧ s.busy = true ∧ (0x000 : BitVec 26).toNat / 4 ∈ [0, 6, 7, 19, 20] ∧
      (0x053 : BitVec 26).toNat / 4 ∈ [0, 6, 7, 19, 20] ∧ (0x010 : BitVec 26).toNat / 4 = 4 ∧
      ((0x04B : BitVec 26).toNat < 0x54 ∧ (0x04B : BitVec 26).toNat / 4 ∉ [0, 4, 6, 7, 19, 20]) ∧
      (0x1000000 ≤ (0x1000000 : BitVec 26).toNat ∧ (0x100FFFF : BitVec 26).toNat < 0x1000000 + s.ibufSize) ∧
      (0x2000000 ≤ (0x2000000 : BitVec 26).toNat ∧ (0x200FFFF : BitVec 26).toNat < 0x2000000 + s.obufSize) := by decide
theorem witness_HostRegisterWrites :
    State.reset.rstN = true ∧ State.reset.busy = false ∧ (0x008 : BitVec 26).toNat / 4 = 2 ∧ (0x018 : BitVec 26).toNat / 4 = 6 ∧
      (0x01F : BitVec 26).toNat / 4 = 7 ∧ (0x020 : BitVec 26).toNat / 4 = 8 ∧ (0x050 : BitVec 26).toNat / 4 ∉ [1, 2, 6, 7, 8] ∧
      (0x050 : BitVec 26).toNat < 0x1000000 ∧ (0x000 : BitVec 26).toNat / 4 ∉ [1, 2, 6, 7, 8] := by decide
theorem witness_ResetValues : State.reset.busy = false ∧ (running 0x00000010 State.reset).busy = true := by decide
theorem witness_HardwareReset :
    (running 0x00000064 State.reset).rstN = true ∧ (running 0x00000064 State.reset).busy = true ∧
      (∃ t, engineTurn (running 0x00000064 State.reset) = .next t) ∧ (0x053 : BitVec 26).toNat < 0x54 :=
  ⟨rfl, rfl, engineTurn_next _, by decide⟩
theorem witness_BuffersAndPointersKept :
    let s := running 0x00000111 (fullOut State.reset)
    s.BuffersOk ∧ s.PointersOk ∧ s.optr.toNat = s.obufSize ∧ ∃ t, step s = .next t :=
  ⟨by unfold State.BuffersOk; decide, by unfold State.PointersOk; decide, by decide, step_next _⟩
theorem witness_RegisterRangesKept :
    let s := running 0x00000033 { fullOut State.reset with
      enext := 4096, dnext := 4096, err := true, errCode := 0x0A, errOp := 0x31 }
    s.WriterOk ∧ s.LzwOk ∧ s.ErrorOk ∧ State.reset.ErrorOk ∧ ∃ t, step s = .next t :=
  ⟨by unfold State.WriterOk; decide, by unfold State.LzwOk; decide, by unfold State.ErrorOk; decide,
    by unfold State.ErrorOk; decide, step_next _⟩
theorem witness_TotalIsTheSum :
    let s := running 0x00004143 { State.reset with freq := (Vector.replicate 256 0).set 0x41 0xFFFFFFFF, total := 0xFFFFFFFF }
    s.TotalOk ∧ ∃ t, step s = .next t := ⟨by unfold State.TotalOk; decide +kernel, step_next _⟩
theorem witness_CodeTableKept : (abTrie State.reset).CodesOk ∧ (abTrie State.reset).PrefixFree ∧
    ∃ t, step (running 0x00000050 (abTrie State.reset)) = .next t := by
  refine ⟨by unfold State.CodesOk; decide +kernel, ?_, step_next _⟩
  intro c d hne hc hd
  rcases abTrie_coded c hc with rfl | rfl <;> rcases abTrie_coded d hd with rfl | rfl
  · exact absurd rfl hne
  · decide +kernel
  · decide +kernel
  · exact absurd rfl hne
theorem witness_TrieKept : (abTrie State.reset).TrieOk ∧ (abTrie State.reset).tvalid = true ∧
    ∃ t, step (running 0x00000050 (abTrie State.reset)) = .next t :=
  ⟨fun _ => ⟨abTree, abTrie_holds _⟩, rfl, step_next _⟩
theorem witness_ResetHeld : (assertReset State.reset).ResetOk ∧ (assertReset State.reset).rstN = false ∧
    ∃ t, step (assertReset State.reset) = .next t := ⟨fun _ => resetAll_atReset State.reset, rfl, step_next _⟩
theorem witness_ResultWriters :
    (Instr.wflush ≠ .sreset ∧ writesResult .wflush = false) ∧
      ∃ t, exec .hdsym State.reset = .next t ∧ State.reset.err = false ∧ t.err = true :=
  ⟨by decide, _, rfl, rfl, by decide +kernel⟩
theorem witness_FlagWriters :
    writesEoi .htrie = false ∧ writesTvalid .htrie = false ∧ writesDfirst .htrie = false ∧ Instr.htrie ≠ .sreset ∧
      ∃ t, exec .htrie State.reset = .next t := ⟨rfl, rfl, rfl, by decide, exec_next _ _⟩
theorem witness_BufferWriters :
    (fullOut State.reset).optr.toNat ≤ (fullOut State.reset).obufSize ∧ ∃ t, exec (.wbit true) (fullOut State.reset) = .next t :=
  ⟨by decide, exec_next _ _⟩
theorem witness_UnreadBytesDoNotMatter :
    let s := withInput [0x41]
    s.optr.toNat ≤ s.obufSize ∧ (∃ t, exec .hcomp s = .next t) ∧
      ∀ j < s.ilen.toNat, ({ s with ibuf := [(0, 0x41), (1, 0x42)] } : State).ibufByte j = s.ibufByte j :=
  ⟨by decide, exec_next _ _, by decide +kernel⟩
theorem witness_ErrorsByCommand :
    Instr.wf (.hsym 0x43) = true ∧ State.reset.TotalOk ∧ (abTrie State.reset).TotalOk ∧ (fullOut State.reset).TotalOk ∧
      State.reset.err = false ∧
      (∃ t, exec (.hsym 0x43) State.reset = .next t ∧ t.err = true) ∧
      (∃ t, exec (.hsym 0x43) (abTrie State.reset) = .next t ∧ t.err = true) ∧
      ∃ t, exec (.wbit true) (fullOut State.reset) = .next t ∧ t.err = true :=
  ⟨rfl, by unfold State.TotalOk; decide +kernel, by unfold State.TotalOk; decide +kernel,
    by unfold State.TotalOk; decide +kernel, rfl, ⟨_, rfl, by decide +kernel⟩, ⟨_, rfl, by decide +kernel⟩,
    _, rfl, by decide +kernel⟩
theorem witness_FailedChecksChangeNothing :
    32 < (33 : Byte).toNat ∧ 32 < (255 : Byte).toNat ∧
      2 ^ 32 ≤ ({ State.reset with total := 0xFFFFFFFF, ilen := 1 } : State).total.toNat + (1 : Word).toNat ∧
      2 ^ 32 + (State.reset.freqOf 0x41).toNat ≤ (0xFFFFFFFF : Word).toNat + (1 : Word).toNat ∧ (256 : BitVec 12).toNat = 256 ∧
      State.reset.enext.toNat ≤ (257 : BitVec 12).toNat ∧ State.reset.tvalid = false ∧ needsTrie .hdsyms = true ∧
      (abTrie State.reset).tvalid = true ∧ (abTrie State.reset).lenOf 0x43 = 0 := by decide +kernel
theorem witness_WriterCommandsSend :
    (fullOut State.reset).optr.toNat ≤ (fullOut State.reset).obufSize ∧ (32 : Byte).toNat ≤ 32 ∧ (0 : Byte).toNat ≤ 32 ∧
      (fullOut State.reset).room < [true].length ∧
      [true].length ≤ ({ fullOut State.reset with wcnt := 6 } : State).room := by decide
theorem witness_FlushCompletesTheByte :
    (State.reset.optr.toNat ≤ State.reset.obufSize ∧ State.reset.wcnt = 0) ∧
      ((fullOut State.reset).wcnt ≠ 0 ∧ (fullOut State.reset).optr.toNat = (fullOut State.reset).obufSize) ∧
      (let s := { fullOut State.reset with optr := 3, wcnt := 1 }
       s.wcnt ≠ 0 ∧ s.optr.toNat < s.obufSize) := by decide
theorem witness_LengthLaw :
    (∀ f ∈ fields32, f.2.toNat ≤ 32) ∧ (fields32.map fun f => f.2.toNat).sum = 8 * (smallOut State.reset).obufSize ∧
      ∃ a, exec .winit (smallOut State.reset) = .next a := ⟨fields32_widths, rfl, exec_next _ _⟩
theorem witness_RbitReadsOneBit :
    ({ State.reset with rcnt := 1 } : State).rcnt.val = (0 : Fin 8).val + 1 ∧
      ({ State.reset with rcnt := 8 } : State).rcnt.val = (7 : Fin 8).val + 1 ∧
      ((withInput [0xA5]).rcnt = 0 ∧ (withInput [0xA5]).iptr.toNat < (withInput [0xA5]).ilen.toNat) ∧
      (State.reset.rcnt = 0 ∧ State.reset.ilen.toNat ≤ State.reset.iptr.toNat) ∧
      State.reset.ilen.toNat ≤ ({ State.reset with iptr := 5 } : State).iptr.toNat := by decide
theorem witness_RbitsReadsANumber : (0 : Byte).toNat ≤ 32 ∧ (32 : Byte).toNat ≤ 32 := by decide
theorem witness_FieldsReadBackExactly :
    ∃ s a w u r b : State, (∀ f ∈ fields32, f.2.toNat ≤ 32) ∧ (fields32.map fun f => f.2.toNat).sum = 8 * s.obufSize ∧
      exec .winit s = .next a ∧ writeFields fields32 a = some w ∧ exec .wflush w = .next u ∧ r.ilen = u.optr ∧
      (∀ i < u.optr.toNat, r.ibufByte i = u.obufByte i) ∧ exec .rinit r = .next b := by
  let a := complete (winit (smallOut State.reset))
  let w1 := complete (wbits 12 { a with arg := 0xABC })
  let w2 := complete (wbits 0 { w1 with arg := 0 })
  let w := complete (wbits 20 { w2 with arg := 0xFFFFF })
  let u := complete (flush w)
  exact ⟨smallOut State.reset, a, w, u, copied u, _, fields32_widths, rfl, rfl, rfl, rfl, copied_ilen u,
    by decide +kernel, rfl⟩
theorem witness_DecodeAfterEndOfInput :
    let s := { abTrie State.reset with eoi := true, hrem := 1 }
    s.eoi = true ∧ s.tvalid = true ∧ (s.nodeAt s.root).leaf = false ∧ s.hrem ≠ 0 := by decide +kernel
theorem witness_LemitEmitsAndAssigns :
    let s := smallOut State.reset
    (s.optr.toNat ≤ s.obufSize ∧ (256 : BitVec 12).toNat = 256 ∧ s.enext.toNat ≤ (257 : BitVec 12).toNat) ∧
      ((255 : BitVec 12).toNat ≠ 256 ∧ (255 : BitVec 12).toNat < s.enext.toNat) ∧
      (4095 : BitVec 12).toNat < ({ s with enext := 4096 } : State).enext.toNat ∧
      ({ s with optr := 3, wcnt := 3 } : State).room = 12 ∧ ({ s with optr := 3, wcnt := 4 } : State).room < 12 := by decide
theorem witness_LreadClassifies :
    (withInput [0x10]).eoi = false ∧ ({ withInput [0x10] with rcnt := 4 } : State).remaining.length = 12 ∧
      ({ withInput [0x10] with rcnt := 3 } : State).remaining.length < 12 := by decide +kernel
theorem witness_FcountCounts :
    (let s := { withInput [0x41] with total := 0xFFFFFFFF }
     2 ^ 32 ≤ s.total.toNat + s.ilen.toNat) ∧
      (let s := { withInput [0x41] with freq := (Vector.replicate 256 0).set 0x41 0xFFFFFFFE, total := 0xFFFFFFFE }
       s.TotalOk ∧ s.total.toNat + s.ilen.toNat < 2 ^ 32) := by unfold State.TotalOk; decide +kernel
theorem witness_FrdAndFwr :
    (let s := { State.reset with freq := (Vector.replicate 256 0).set 0x41 5, total := 6, arg := 0xFFFFFFFF }
     2 ^ 32 + s.counts 0x41 ≤ s.total.toNat + s.arg.toNat ∧ s.counts 0x41 ≤ s.total.toNat) ∧
      (let s := { State.reset with freq := (Vector.replicate 256 0).set 0x41 5, total := 5, arg := 0xFFFFFFFF }
       s.counts 0x41 ≤ s.total.toNat ∧ s.total.toNat + s.arg.toNat < 2 ^ 32 + s.counts 0x41) := by decide +kernel
theorem witness_HbuildBuildsTheHuffmanTrie :
    State.reset.TotalOk ∧ ({ State.reset with freq := Vector.replicate 256 0xFFFFFF, total := 0xFFFFFF00 } : State).TotalOk := by
  unfold State.TotalOk; decide +kernel
theorem witness_HbuildFollowsTheQueue :
    let s : State := { State.reset with freq := (Vector.replicate 256 0).set 0x41 5, total := 5 }
    s.TotalOk ∧ (leafSymbols s.counts)[1]? = some 0x00 ∧ (leafSymbols s.counts).length ≤ 2 := by
  unfold State.TotalOk; decide +kernel
theorem witness_BuiltTrieLaws :
    let s : State := { State.reset with freq := ((Vector.replicate 256 0).set 0x41 5).set 0x42 1, total := 6 }
    s.TotalOk ∧ 2 ≤ distinctCount s.counts := by unfold State.TotalOk; decide +kernel
theorem witness_TableReads :
    (abTrie State.reset).nodes.val ≤ (3 : BitVec 12).toNat ∧ (abTrie State.reset).nodes.val ≤ (4095 : BitVec 12).toNat ∧
      (2 : Fin 511).val = (2 : BitVec 12).toNat ∧ (2 : BitVec 12).toNat < (abTrie State.reset).nodes.val ∧
      (0 : Fin 511).val = (0 : BitVec 12).toNat := by decide +kernel
theorem witness_HtrieAndHsymSend :
    let s := abTrie (smallOut State.reset)
    s.tvalid = true ∧ s.optr.toNat ≤ s.obufSize ∧ s.HoldsTrie abTree ∧ s.lenOf 0x43 = 0 ∧ s.lenOf 0x42 ≠ 0 :=
  ⟨rfl, by decide, abTrie_holds _, by decide +kernel, by decide +kernel⟩
theorem witness_HsymsSendsTheInput :
    let s := abTrie (withInput [0x41, 0x42, 0x43])
    let e := abTrie (withInput [0x41, 0x42])
    s.tvalid = true ∧ s.optr.toNat ≤ s.obufSize ∧ (∀ c ∈ (List.range e.ilen.toNat).map e.ibufByte, e.lenOf c ≠ 0) ∧
      (List.range s.ilen.toNat).map s.ibufByte = [0x41, 0x42] ++ 0x43 :: [] ∧ (∀ d ∈ ([0x41, 0x42] : List Byte), s.lenOf d ≠ 0) ∧
      s.lenOf 0x43 = 0 ∧ (([0x41, 0x42] : List Byte).flatMap s.codeBits).length ≤ s.room ∧
      ([0x41, 0x42] : List Byte).flatMap s.codeBits = [false, true] ∧
      ({ smallOut s with optr := 4, wcnt := 5 } : State).room = 2 ∧ ({ smallOut s with optr := 4, wcnt := 6 } : State).room < 2 := by
  decide +kernel
theorem witness_HcompWritesTheFormat :
    (huffmanStream (List.replicate 13 0x41)).length = 8 * ({ State.reset with obufExp := 1 } : State).obufSize ∧
      8 * ({ State.reset with obufExp := 1 } : State).obufSize + 1 = (huffmanStream (List.replicate 14 0x41)).length := by
  decide +kernel
/-- The serialization of a trie has a leaf's tag in it. -/
theorem true_mem_bits (t : Tree) : true ∈ t.bits := by
  induction t with
  | leaf c => exact List.mem_cons_self
  | node l r ihl _ => exact List.mem_cons_of_mem _ (List.mem_append_left _ ihl)
theorem witness_HrtrieReadsATrie :
    (let s := withInput (packBits 320 ((completeTree 8 0).bits ++ [false]))
     s.eoi = false ∧ s.remaining = (completeTree 8 0).bits ++ [false] ∧ (completeTree 8 0).size = 511) ∧
      ((withInput [0xA0, 0x80]).remaining = (Tree.leaf 0x41).bits ++ List.replicate 7 false ∧ (Tree.leaf 0x41).size ≤ 511) ∧
      ({ State.reset with eoi := true } : State).eoi = true ∧
      (∀ (t : Tree) (rest : List Bool), t.size ≤ 511 → State.reset.remaining ≠ t.bits ++ rest) ∧
      ∀ (t : Tree) (rest : List Bool), t.size ≤ 511 → (withInput (List.replicate 64 0)).remaining ≠ t.bits ++ rest := by
  refine ⟨by decide +kernel, by decide +kernel, rfl, fun t rest _ h => (by cases t <;> cases h), fun t rest _ h => ?_⟩
  rw [show (withInput (List.replicate 64 0)).remaining = List.replicate 512 false by decide +kernel] at h
  have ht : true ∈ List.replicate 512 false := by rw [h]; exact List.mem_append_left rest (true_mem_bits t)
  exact absurd (List.eq_of_mem_replicate ht) (by decide)
theorem witness_HrcountReadsTheCount :
    (withInput [0, 0, 1, 0x8B]).eoi = false ∧ (withInput [0, 0, 1, 0x8B]).remaining.length = 32 ∧
      ({ withInput [0, 0, 1] with rcnt := 7 } : State).remaining.length < 32 := by decide +kernel
theorem witness_HdsymDecodesOneSymbol :
    let s := abTrie (withInput [0x80])
    s.tvalid = true ∧ s.HoldsTrie abTree ∧ s.eoi = false ∧ (0x42, [true]) ∈ abTree.paths ∧
      s.remaining = [true] ++ List.replicate 7 false ∧ [true] = (abTrie State.reset).remaining ++ [true] ∧
      let r := { leafTrie (withInput [0x80]) with eoi := true }
      r.tvalid = true ∧ r.HoldsTrie (.leaf 0x41) ∧ (0x41, []) ∈ (Tree.leaf 0x41).paths ∧ r.remaining = [] ++ r.remaining :=
  ⟨rfl, abTrie_holds _, rfl, by decide, by decide +kernel, rfl, rfl, leafTrie_holds _, by decide, rfl⟩
theorem witness_HdsymsDecodesHremSymbols :
    let s := { abTrie (smallOut (withInput [0x80])) with optr := 3, wcnt := 7, hrem := 1, iptr := 1, racc := 1, rcnt := 1 }
    let es : List (Byte × List Bool) := [(0x42, [true])]
    s.tvalid = true ∧ s.eoi = false ∧ s.optr.toNat ≤ s.obufSize ∧ (∀ e ∈ es, e ∈ abTree.paths) ∧
      s.remaining = es.flatMap Prod.snd ++ [] ∧ s.room = 8 * es.length ∧ es.length = s.hrem.toNat ∧
      es.length < ({ s with hrem := 2 } : State).hrem.toNat ∧
      ((0x41, [false]) ∈ abTree.paths ∧ [false] ≠ ([] : List Bool) ∧ [false] = [] ++ [false]) ∧
      ({ s with optr := 4, wcnt := 0 } : State).room < 8 * es.length ∧ s.HoldsTrie abTree := by
  refine ⟨rfl, rfl, ?_, ?_, ?_, ?_, ?_, ?_, ?_, ?_, abTrie_holds _⟩ <;> decide +kernel
theorem witness_HdsymsDecodesHremSymbols_after_end :
    let s := { leafTrie (smallOut State.reset) with eoi := true, hrem := 4 }
    let es : List (Byte × List Bool) := List.replicate 4 (0x41, [])
    s.tvalid = true ∧ s.HoldsTrie (.leaf 0x41) ∧ es.flatMap Prod.snd = [] ∧ s.optr.toNat ≤ s.obufSize ∧
      (∀ e ∈ es, e ∈ (Tree.leaf 0x41).paths) ∧ s.remaining = es.flatMap Prod.snd ++ [] ∧ es.length = s.hrem.toNat ∧
      8 * es.length ≤ s.room ∧ ({ s with optr := 1 } : State).room < 8 * es.length :=
  ⟨rfl, leafTrie_holds _, rfl, by decide, by decide, rfl, rfl, by decide, by decide⟩
theorem witness_HexpExpands :
    let es : List (Byte × List Bool) := [(0x42, [true]), (0x41, [false]), (0x41, [false]), (0x42, [true]), (0x42, [true])]
    let bits (n : Word) := abTree.bits ++ bitsMsb (n.setWidth 64) 32 ++ es.flatMap Prod.snd ++ []
    abTree.size ≤ 511 ∧ (∀ e ∈ es, e ∈ abTree.paths) ∧ es.length ≤ (5 : Word).toNat ∧
      ((List.range 7).flatMap fun i => byteBits ((withInput [0x50, 0x68, 0x40, 0, 0, 0, 0xB3]).ibufByte i)) = bits 5 ∧
      ((List.range 7).flatMap fun i => byteBits ((withInput [0x50, 0x68, 0x40, 0, 0, 0, 0xD3]).ibufByte i)) = bits 6 ∧
      (es.length = (5 : Word).toNat ∧ (5 : Word).toNat ≤ State.reset.obufSize) ∧ es.length < (6 : Word).toNat ∧
      ((0x41, [false]) ∈ abTree.paths ∧ [false] = [] ++ [false]) ∧ (smallOut State.reset).obufSize < es.length := by
  decide +kernel
theorem witness_HexpExpands_no_stream (t : Tree) (cnt rest : List Bool) (_ : t.size ≤ 511) (_ : cnt.length = 32) :
    ((List.range State.reset.ilen.toNat).flatMap fun i => byteBits (State.reset.ibufByte i)) ≠ t.bits ++ cnt ++ rest := by
  intro h; cases t <;> cases h
theorem witness_CompositesAreTheirParts : State.reset.err = false := rfl
theorem witness_HuffmanRoundTrip :
    ∃ s w r : State, s.ilen = 2 ∧ exec .hcomp s = .next w ∧ s.err = false ∧ w.err = false ∧ r.ilen = w.optr ∧
      (∀ i < w.optr.toNat, r.ibufByte i = w.obufByte i) ∧ s.ilen.toNat ≤ r.obufSize := by
  let w := complete (hcomp (withInput [0x41, 0x42]))
  exact ⟨withInput [0x41, 0x42], w, copied w, rfl, rfl, rfl, by decide +kernel, copied_ilen w, by decide +kernel, by decide⟩

end Sys2Proof.Tests
end

/-! What a step can do, said once. Every command body is a sequence of primitive operations, and so is every step of the machine;
an operation changes only the parts of the state it names. An invariant is then proved operation by operation, and only for the
operations that change a part it speaks of. -/

namespace Sys2Proof.Machine

/-! ### The parts of the state -/

/-- The parts of the state, by who changes them (10_state.md). -/
inductive Part where
  /-- BUSY, DONE, ERRI, CMDCNT. -/
  | status
  /-- ERR, ERRCODE. -/
  | error
  /-- CTRL. -/
  | ctrl
  | arg
  | result
  | ilen
  /-- IPTR, RSTATE, EOI. -/
  | reader
  /-- OPTR, WSTATE. -/
  | writer
  /-- FREQ, TOTAL. -/
  | counters
  /-- TVALID, LEN, CODE, NODE, HTREE. -/
  | trie
  | hrem
  /-- ENEXT. -/
  | lzwEnc
  /-- DNEXT, DFIRST. -/
  | lzwDec
  | ibuf
  | obuf
  | pending
  /-- The pin `rst_n`. -/
  | pin
  /-- IBUF_SIZE, OBUF_SIZE (00_scope.md R14). -/
  | sizes
  /-- The schedule, the bus data and the free values drawn: the model's own. -/
  | ports
  deriving DecidableEq

/-- The type of a part's contents. -/
abbrev Part.Contents : Part → Type
  | .status => Bool × Bool × Bool × Word
  | .error => Bool × Byte × Byte
  | .ctrl => Bool × Bool
  | .arg | .result | .ilen | .hrem | .pending => Word
  | .reader => Word × Byte × Fin 9 × Bool
  | .writer => Word × Byte × Fin 8
  | .counters => Vector Word 256 × Word
  | .trie => Bool × Vector (BitVec 7) 256 × Vector (BitVec 64) 256 × Vector Node 511 × Fin 511 × Fin 512
  | .lzwEnc => BitVec 13
  | .lzwDec => BitVec 13 × Bool
  | .ibuf | .obuf => Memory
  | .pin => Bool
  | .sizes => Fin 23 × Fin 23
  | .ports => List HostAction × Word × Nat

/-- A part's contents. -/
def Part.view : (q : Part) → State → q.Contents
  | .status, s => (s.busy, s.irqDone, s.irqErri, s.cmdcnt)
  | .error, s => (s.err, s.errCode, s.errOp)
  | .ctrl, s => (s.doneIe, s.errIe)
  | .arg, s => s.arg
  | .result, s => s.result
  | .ilen, s => s.ilen
  | .reader, s => (s.iptr, s.racc, s.rcnt, s.eoi)
  | .writer, s => (s.optr, s.wacc, s.wcnt)
  | .counters, s => (s.freq, s.total)
  | .trie, s => (s.tvalid, s.len, s.code, s.node, s.root, s.nodes)
  | .hrem, s => s.hrem
  | .lzwEnc, s => s.enext
  | .lzwDec, s => (s.dnext, s.dfirst)
  | .ibuf, s => s.ibuf
  | .obuf, s => s.obuf
  | .pending, s => s.pending
  | .pin, s => s.rstN
  | .sizes, s => (s.ibufExp, s.obufExp)
  | .ports, s => (s.hostq, s.hostData, s.draws)

/-! ### Primitive operations -/

/-- The operations of which the commands and the steps are built. -/
inductive Prim where
  | finish | record | clearError | sreset
  | setResult | setHrem
  | winit | writeBit | flush
  | rinit | readBit
  | linit | assignCode | classify
  | fclr | fcount | fwr
  | hbuild | hrtrie
  | schedule | answer | launch | storeArg | writeCtrl | writeIrqstat | storeIlen | storeIbuf | storeObuf
  | resetLow | resetHigh
  deriving DecidableEq

/-- `p.Does s t`: the operation `p` can take the state from `s` to `t`. -/
inductive Prim.Does : Prim → State → State → Prop where
  | finish (s : State) : Does .finish s (Machine.finish s)
  | record (e : ErrKind) (op : Byte) (s : State) : Does .record s (Machine.record e op s)
  | clearError (s : State) : Does .clearError s (Machine.clearError s)
  | sreset (s : State) : Does .sreset s (resetEngine s)
  | setResult (v : Word) (s : State) : Does .setResult s { s with result := v }
  | setHrem (v : Word) (s : State) : Does .setHrem s { s with hrem := v }
  | winit (s : State) : Does .winit s (Machine.winit s).state
  | writeBit (b : Bool) (s : State) : Does .writeBit s (Machine.writeBit b s).state
  | flush (s : State) : Does .flush s (Machine.flush s).state
  | rinit (s : State) : Does .rinit s (Machine.rinit s).state
  | readBit (s : State) : Does .readBit s (Machine.readBit s).2
  | linit (s : State) : Does .linit s (Machine.linit s).state
  | assignCode (g : Bool) (s : State) : Does .assignCode s (Machine.assignCode g s)
  | classify (c : BitVec 12) (s : State) : Does .classify s (Machine.classify c s).state
  | fclr (s : State) : Does .fclr s (Machine.fclr s).state
  | fcount (s : State) : Does .fcount s (Machine.fcount s).state
  | fwr (c : Byte) (s : State) : Does .fwr s (Machine.fwr c s).state
  | hbuild (s : State) : Does .hbuild s (Machine.hbuild s).state
  | hrtrie (s : State) : Does .hrtrie s (Machine.hrtrie s).state
  | schedule (q : List HostAction) (s : State) : Does .schedule s { s with hostq := q }
  | answer (v : Word) (n : Nat) (s : State) : Does .answer s { s with hostData := v, draws := n }
  | launch (w : Word) (s : State) : Does .launch s { s with pending := w, busy := true }
  | storeArg (v : Word) (s : State) : Does .storeArg s { s with arg := v }
  | writeCtrl (v : Word) (s : State) : Does .writeCtrl s (Machine.writeCtrl v s)
  | writeIrqstat (v : Word) (s : State) : Does .writeIrqstat s (Machine.writeIrqstat v s)
  | storeIlen (v : Word) (s : State) : Does .storeIlen s (Machine.storeIlen v s)
  | storeIbuf (k : Nat) (v : Word) (s : State) (h : k < s.ibufSize / 4) :
    Does .storeIbuf s (storeWord (fun i b s => s.setIbufByte i b) k v s)
  | storeObuf (k : Nat) (v : Word) (s : State) (h : k < s.obufSize / 4) :
    Does .storeObuf s (storeWord (fun i b s => s.setObufByte i b) k v s)
  | resetLow (s : State) : Does .resetLow s (assertReset s)
  | resetHigh (s : State) : Does .resetHigh s (releaseReset s)

/-- The parts an operation may change. -/
def Prim.parts : Prim → List Part
  | .finish => [.status]
  | .record => [.status, .error]
  | .clearError => [.error]
  | .sreset =>
    [.status, .error, .arg, .result, .ilen, .reader, .writer, .counters, .trie, .hrem, .lzwEnc, .lzwDec]
  | .setResult => [.result]
  | .setHrem => [.hrem]
  | .winit => [.writer]
  | .writeBit | .flush => [.writer, .obuf]
  | .rinit | .readBit => [.reader]
  | .linit => [.lzwEnc, .lzwDec]
  | .assignCode => [.result, .lzwEnc]
  | .classify => [.result, .lzwDec]
  | .fclr | .fcount | .fwr => [.counters]
  | .hbuild => [.trie]
  | .hrtrie => [.reader, .trie]
  | .schedule | .answer => [.ports]
  | .launch => [.status, .pending]
  | .storeArg => [.arg]
  | .writeCtrl => [.ctrl]
  | .writeIrqstat => [.status]
  | .storeIlen => [.ilen]
  | .storeIbuf => [.ibuf]
  | .storeObuf => [.obuf]
  | .resetLow =>
    [.status, .error, .ctrl, .arg, .result, .ilen, .reader, .writer, .counters, .trie, .hrem, .lzwEnc, .lzwDec, .obuf,
      .pin, .ports]
  | .resetHigh => [.pin]

/-! ### An operation leaves the parts it does not name -/

theorem OnlyWriter.view_eq {s t : State} (h : OnlyWriter s t) {q : Part} (hq : q ∉ [Part.writer, .obuf]) :
    q.view t = q.view s := by
  rw [h]
  revert hq
  cases q <;> simp [Part.view]

theorem OnlyReader.view_eq {s t : State} (h : OnlyReader s t) {q : Part} (hq : q ∉ [Part.reader]) :
    q.view t = q.view s := by
  rw [h]
  revert hq
  cases q <;> simp [Part.view]

theorem OnlyParser.view_eq {s t : State} (h : OnlyParser s t) {q : Part} (hq : q ∉ [Part.reader, .trie]) :
    q.view t = q.view s := by
  rw [h]
  revert hq
  cases q <;> simp [Part.view]

/-- The state in which HRTRIE begins to parse: no trie and no code (47_huffman_decode.md R282). -/
def dropTrie (s : State) : State :=
  { s with tvalid := false, len := Vector.replicate 256 0, code := Vector.replicate 256 0, nodes := 0, root := 0 }

theorem hrtrie_eq (s : State) :
    hrtrie s = (parse parseDepth (dropTrie s)).bind fun _ s => .ok () { s with tvalid := true } := rfl

/-- HRTRIE ends in what `parse` made of the emptied trie; TVALID tells whether it was a whole one (R282). -/
theorem hrtrie_state (s : State) :
    (∃ e u, parse parseDepth (dropTrie s) = .raised e u ∧ (hrtrie s).state = u ∧ OnlyParser (dropTrie s) u) ∨
    ∃ i u, parse parseDepth (dropTrie s) = .ok i u ∧ (hrtrie s).state = { u with tvalid := true } ∧
      OnlyParser (dropTrie s) u := by
  have hp := parse_onlyParser parseDepth (dropTrie s)
  rw [hrtrie_eq]
  cases h : parse parseDepth (dropTrie s) with
  | raised e u => rw [h] at hp; exact .inl ⟨e, u, rfl, rfl, hp⟩
  | ok i u => rw [h] at hp; exact .inr ⟨i, u, rfl, rfl, hp⟩

theorem hrtrie_view_eq (s : State) {q : Part} (hq : q ∉ [Part.reader, .trie]) :
    q.view (hrtrie s).state = q.view s := by
  have hdrop : q.view (dropTrie s) = q.view s := by
    revert hq
    cases q <;> simp [Part.view, dropTrie]
  obtain ⟨_, u, -, hu, hf⟩ | ⟨_, u, -, hu, hf⟩ := hrtrie_state s
  · rw [hu, hf.view_eq hq, hdrop]
  · have hvalid : q.view { u with tvalid := true } = q.view u := by
      revert hq
      cases q <;> simp [Part.view]
    rw [hu, hvalid, hf.view_eq hq, hdrop]

/-- The classification of a codeword changes RESULT, DNEXT and DFIRST only (43_lzw.md R205). -/
theorem classify_state (c : BitVec 12) (s : State) :
    ∃ r n d, (classify c s).state = { s with result := r, dnext := n, dfirst := d } := by
  unfold classify appendEntry
  split_ifs <;> exact ⟨_, _, _, rfl⟩

theorem classify_view_eq (c : BitVec 12) (s : State) {q : Part} (hq : q ∉ [Part.result, .lzwDec]) :
    q.view (classify c s).state = q.view s := by
  obtain ⟨r, n, d, hst⟩ := classify_state c s
  rw [hst]
  revert hq
  cases q <;> simp [Part.view]

/-- Hardware reset leaves reset's values, whatever it abandons, with `rst_n` at 0 and some OBUF (R340). -/
theorem assertReset_eq (s : State) :
    ∃ m n, assertReset s = { resetAll s with rstN := false, obuf := m, draws := n } := by
  unfold assertReset
  split_ifs
  · exact ⟨_, _, rfl⟩
  · exact ⟨s.obuf, s.draws, rfl⟩

theorem assertReset_view_eq (s : State) {q : Part} (hq : q ∉ Prim.resetLow.parts) :
    q.view (assertReset s) = q.view s := by
  obtain ⟨m, n, hr⟩ := assertReset_eq s
  rw [hr]
  revert hq
  cases q <;> simp [Part.view, Prim.parts, resetAll, resetEngine]

/-- The frame of every operation. -/
theorem view_eq_of_does {p : Prim} {s t : State} (h : p.Does s t) {q : Part} (hq : q ∉ p.parts) :
    q.view t = q.view s := by
  cases h with
  | writeBit b => exact OnlyWriter.view_eq (by rw [writeBit_eq]; exact writeList_onlyWriter [b] s) hq
  | flush => exact (flush_onlyWriter s).view_eq hq
  | readBit => exact (readBit_onlyReader s).view_eq hq
  | hrtrie => exact hrtrie_view_eq s hq
  | classify c => exact classify_view_eq c s hq
  | resetLow => exact assertReset_view_eq s hq
  | assignCode | fcount | fwr =>
    simp only [assignCode, fcount, fwr]
    revert hq
    cases q <;> split_ifs <;> simp [Part.view, Prim.parts]
  | hbuild =>
    simp only [hbuild]
    revert hq
    cases q <;> split_ifs <;> simp [Part.view, Prim.parts, buildTrie]
  | _ =>
    revert hq
    cases q <;> simp [Part.view, Prim.parts, resetEngine, winit, rinit, linit, fclr, writeCtrl, writeIrqstat, storeIlen,
      storeWord, releaseReset]

/-! ### Sequences of operations -/

/-- A sequence of operations of `ps` takes the state from `s` to `t`. -/
def Runs (ps : List Prim) : State → State → Prop := Relation.ReflTransGen fun s t => ∃ p ∈ ps, p.Does s t

theorem Prim.Does.runs {p : Prim} {ps : List Prim} {s t : State} (h : p.Does s t) (hp : p ∈ ps) : Runs ps s t :=
  .single ⟨p, hp, h⟩

theorem Runs.mono {ps ps' : List Prim} {s t : State} (h : Runs ps s t) (hps : ps ⊆ ps') : Runs ps' s t := by
  refine Relation.ReflTransGen.mono ?_ _ _ h
  rintro _ _ ⟨p, hp, hd⟩
  exact ⟨p, hps hp, hd⟩

/-- What every operation keeps, a sequence of them keeps. -/
theorem Runs.keeps {ps : List Prim} {s t : State} {P : State → Prop} (h : Runs ps s t)
    (hP : ∀ p ∈ ps, ∀ s t, p.Does s t → P s → P t) (hs : P s) : P t := by
  induction h with
  | refl => exact hs
  | tail _ hstep ih =>
    obtain ⟨p, hp, hd⟩ := hstep
    exact hP p hp _ _ hd ih

/-- A part that no operation names is left alone by a sequence of them. -/
theorem Runs.view_eq {ps : List Prim} {s t : State} (h : Runs ps s t) {q : Part} (hq : ∀ p ∈ ps, q ∉ p.parts) :
    q.view t = q.view s :=
  h.keeps (P := fun u => q.view u = q.view s) (fun p hp _ _ hd hu => (view_eq_of_does hd (hq p hp)).trans hu) rfl

/-- The body is a sequence of operations of `ps`, however it ends. -/
def Performs {α : Type} (ps : List Prim) (body : State → Res α) : Prop := ∀ s, Runs ps s (body s).state

theorem performs_ok {α : Type} (ps : List Prim) (a : α) : Performs ps fun s => .ok a s := fun _ => .refl

theorem performs_raised {α : Type} (ps : List Prim) (e : ErrKind) : Performs (α := α) ps fun s => .raised e s :=
  fun _ => .refl

theorem Performs.bind {α β : Type} {ps : List Prim} {f : State → Res α} {k : α → State → Res β} (hf : Performs ps f)
    (hk : ∀ a, Performs ps (k a)) : Performs ps fun s => (f s).bind k := by
  intro s
  have h := hf s
  simp only
  cases hfs : f s with
  | ok a t => rw [hfs] at h; exact Relation.ReflTransGen.trans h (hk a t)
  | raised e t => rw [hfs] at h; exact h

/-! ### The bodies -/

section bodies

variable {ps : List Prim}

/-! #### Writer (41_bitwriter.md, 46_huffman_encode.md) -/

theorem writeBit_performs (h : .writeBit ∈ ps) (b : Bool) : Performs ps (writeBit b) := fun s =>
  (Prim.Does.writeBit b s).runs h

theorem writeBits_performs (h : .writeBit ∈ ps) (v : BitVec 64) (n : Nat) : Performs ps (writeBits v n) := by
  induction n with
  | zero => exact performs_ok ps ()
  | succ n ih => exact (writeBit_performs h _).bind fun _ => ih

theorem wbits_performs (h : .writeBit ∈ ps) (n : Byte) : Performs ps (wbits n) := by
  intro s
  unfold wbits
  split_ifs
  · exact writeBits_performs h _ _ s
  · exact .refl

theorem ser_performs (h : .writeBit ∈ ps) (k : Nat) (i : Fin 511) : Performs ps (ser k i) := by
  induction k generalizing i with
  | zero => exact performs_raised ps _
  | succ k ih =>
    intro s
    simp only [ser]
    split_ifs
    · exact ((writeBit_performs h true).bind fun _ => writeBits_performs h _ _) s
    · exact ((writeBit_performs h false).bind fun _ => (ih _).bind fun _ => ih _) s

theorem emitCode_performs (h : .writeBit ∈ ps) (c : Byte) : Performs ps (emitCode c) := by
  intro s
  unfold emitCode
  split_ifs
  · exact .refl
  · exact writeBits_performs h _ _ s

theorem emitAll_performs (h : .writeBit ∈ ps) (cs : List Byte) : Performs ps (emitAll cs) := by
  induction cs with
  | nil => exact performs_ok ps ()
  | cons c cs ih => exact (emitCode_performs h c).bind fun _ => ih

theorem needTrie_performs {body : State → Res Unit} (h : Performs ps body) : Performs ps (needTrie body) := by
  intro s
  unfold needTrie
  split_ifs
  · exact h s
  · exact .refl

theorem htrie_performs (h : .writeBit ∈ ps) : Performs ps htrie :=
  needTrie_performs fun s => ser_performs h serDepth s.root s

theorem hcountw_performs (h : .writeBit ∈ ps) : Performs ps hcountw := fun s => writeBits_performs h _ _ s

theorem hsyms_performs (h : .writeBit ∈ ps) : Performs ps hsyms :=
  needTrie_performs fun s => emitAll_performs h s.input s

theorem flush_performs (h : .flush ∈ ps) : Performs ps flush := fun s => (Prim.Does.flush s).runs h

theorem winit_performs (h : .winit ∈ ps) : Performs ps winit := fun s => (Prim.Does.winit s).runs h

/-! #### Reader (42_bitreader.md, 47_huffman_decode.md) -/

theorem rinit_performs (h : .rinit ∈ ps) : Performs ps rinit := fun s => (Prim.Does.rinit s).runs h

theorem readBitsFrom_runs (h : .readBit ∈ ps) (n : Nat) (v : Word) (s : State) : Runs ps s (readBitsFrom n v s).2 := by
  induction n generalizing v s with
  | zero => exact .refl
  | succ n ih => exact Relation.ReflTransGen.trans ((Prim.Does.readBit s).runs h) (ih _ _)

theorem setResult_runs (h : .setResult ∈ ps) (v : Word) (s : State) : Runs ps s { s with result := v } :=
  (Prim.Does.setResult v s).runs h

theorem rbit_performs (h : .readBit ∈ ps) (h' : .setResult ∈ ps) : Performs ps rbit := fun s =>
  Relation.ReflTransGen.trans ((Prim.Does.readBit s).runs h) (setResult_runs h' _ _)

theorem rbits_performs (h : .readBit ∈ ps) (h' : .setResult ∈ ps) (n : Byte) : Performs ps (rbits n) := by
  intro s
  unfold rbits
  split_ifs
  · exact Relation.ReflTransGen.trans (readBitsFrom_runs h _ _ s) (setResult_runs h' _ _)
  · exact .refl

theorem decBit_performs (h : .readBit ∈ ps) : Performs ps decBit := by
  intro s
  have hr : Runs ps s (readBit s).2 := (Prim.Does.readBit s).runs h
  simp only [decBit]
  split_ifs <;> exact hr

theorem decBitsFrom_performs (h : .readBit ∈ ps) (n : Nat) (v : Word) : Performs ps (decBitsFrom n v) := by
  induction n generalizing v with
  | zero => exact performs_ok ps v
  | succ n ih => exact (decBit_performs h).bind fun _ => ih _

theorem decodeFrom_performs (h : .readBit ∈ ps) (k : Nat) (i : Fin 511) : Performs ps (decodeFrom k i) := by
  induction k generalizing i with
  | zero => exact performs_raised ps _
  | succ k ih =>
    intro s
    simp only [decodeFrom]
    split_ifs
    · exact .refl
    · exact ((decBit_performs h).bind fun _ => ih _) s

theorem decodeSymbol_performs (h : .readBit ∈ ps) : Performs ps decodeSymbol := fun s =>
  decodeFrom_performs h decodeDepth s.root s

theorem decodeAll_performs (hr : .readBit ∈ ps) (hw : .writeBit ∈ ps) (hh : .setHrem ∈ ps) (n : Nat) :
    Performs ps (decodeAll n) := by
  induction n with
  | zero => exact performs_ok ps ()
  | succ n ih =>
    exact (decodeSymbol_performs hr).bind fun _ => (writeBits_performs hw _ _).bind fun _ s =>
      Relation.ReflTransGen.trans ((Prim.Does.setHrem _ s).runs hh) (ih _)

theorem hrtrie_performs (h : .hrtrie ∈ ps) : Performs ps hrtrie := fun s => (Prim.Does.hrtrie s).runs h

theorem hrcount_performs (hr : .readBit ∈ ps) (hh : .setHrem ∈ ps) : Performs ps hrcount :=
  (decBitsFrom_performs hr _ _).bind fun v s => (Prim.Does.setHrem v s).runs hh

theorem hdsym_performs (h : .readBit ∈ ps) (h' : .setResult ∈ ps) : Performs ps hdsym :=
  needTrie_performs ((decodeSymbol_performs h).bind fun _ s => setResult_runs h' _ s)

theorem hdsyms_performs (hr : .readBit ∈ ps) (hw : .writeBit ∈ ps) (hh : .setHrem ∈ ps) : Performs ps hdsyms :=
  needTrie_performs fun s => decodeAll_performs hr hw hh s.hrem.toNat s

/-! #### LZW, counters, trie (43_lzw.md, 44_frequency.md, 45_huffman_build.md) -/

theorem lemit_performs (h : .writeBit ∈ ps) (h' : .assignCode ∈ ps) (c : BitVec 12) (g : Bool) :
    Performs ps (lemit c g) := by
  intro s
  unfold lemit
  split_ifs
  · exact .refl
  · exact (writeBits_performs h _ _).bind (k := fun _ s => .ok () (assignCode g s))
      (fun _ t => (Prim.Does.assignCode g t).runs h') s

theorem lread_performs (h : .readBit ∈ ps) (h' : .classify ∈ ps) : Performs ps lread :=
  (decBitsFrom_performs h _ _).bind fun _ s => (Prim.Does.classify _ s).runs h'

theorem fclr_performs (h : .fclr ∈ ps) : Performs ps fclr := fun s => (Prim.Does.fclr s).runs h

theorem fcount_performs (h : .fcount ∈ ps) : Performs ps fcount := fun s => (Prim.Does.fcount s).runs h

theorem hbuild_performs (h : .hbuild ∈ ps) : Performs ps hbuild := fun s => (Prim.Does.hbuild s).runs h

end bodies

/-! ### The commands -/

/-- The operations of a command's body (30_encoding.md R114). -/
def primsOf : Instr → List Prim
  | .nop => []
  | .clrerr => [.clearError]
  | .sreset => [.sreset]
  | .winit => [.winit]
  | .wbit _ | .wbits _ | .leof | .htrie | .hcountw | .hsym _ | .hsyms => [.writeBit]
  | .wflush => [.flush]
  | .rinit => [.rinit]
  | .rbit | .rbits _ | .hdsym => [.readBit, .setResult]
  | .linit => [.linit]
  | .lemit _ _ => [.writeBit, .assignCode]
  | .lread => [.readBit, .classify]
  | .fclr => [.fclr]
  | .fcount => [.fcount]
  | .fwr _ => [.fwr]
  | .frd _ | .hlen _ | .hcodelo _ | .hcodehi _ | .hnode _ | .hnodef _ => [.setResult]
  | .hbuild => [.hbuild]
  | .hcomp => [.winit, .fclr, .fcount, .hbuild, .writeBit, .flush]
  | .hrtrie => [.hrtrie]
  | .hrcount => [.readBit, .setHrem]
  | .hdsyms => [.readBit, .writeBit, .setHrem]
  | .hexp => [.rinit, .winit, .hrtrie, .readBit, .writeBit, .setHrem, .flush]

/-- Every command completes a body made of its operations. -/
theorem exec_performs (i : Instr) : ∃ body, Performs (primsOf i) body ∧ ∀ s, exec i s = completed (body s) := by
  cases i with
  | nop => exact ⟨_, performs_ok _ (), fun _ => rfl⟩
  | clrerr => exact ⟨_, fun s => (Prim.Does.clearError s).runs (by decide), fun _ => rfl⟩
  | sreset => exact ⟨_, fun s => (Prim.Does.sreset s).runs (by decide), fun _ => rfl⟩
  | winit => exact ⟨_, winit_performs (by decide), fun _ => rfl⟩
  | wbit b => exact ⟨_, writeBit_performs (by simp [primsOf]) b, fun _ => rfl⟩
  | wbits n => exact ⟨_, wbits_performs (by simp [primsOf]) n, fun _ => rfl⟩
  | wflush => exact ⟨_, flush_performs (by decide), fun _ => rfl⟩
  | rinit => exact ⟨_, rinit_performs (by decide), fun _ => rfl⟩
  | rbit => exact ⟨_, rbit_performs (by decide) (by decide), fun _ => rfl⟩
  | rbits n => exact ⟨_, rbits_performs (by simp [primsOf]) (by simp [primsOf]) n, fun _ => rfl⟩
  | linit => exact ⟨_, fun s => (Prim.Does.linit s).runs (by decide), fun _ => rfl⟩
  | lemit c g => exact ⟨_, lemit_performs (by simp [primsOf]) (by simp [primsOf]) c g, fun _ => rfl⟩
  | leof => exact ⟨_, writeBits_performs (by decide) _ _, fun _ => rfl⟩
  | lread => exact ⟨_, lread_performs (by decide) (by decide), fun _ => rfl⟩
  | fclr => exact ⟨_, fclr_performs (by decide), fun _ => rfl⟩
  | fcount => exact ⟨_, fcount_performs (by decide), fun _ => rfl⟩
  | frd c => exact ⟨_, fun s => setResult_runs (by simp [primsOf]) (s.freqOf c) s, fun _ => rfl⟩
  | fwr c => exact ⟨_, fun s => (Prim.Does.fwr c s).runs (by simp [primsOf]), fun _ => rfl⟩
  | hbuild => exact ⟨_, hbuild_performs (by decide), fun _ => rfl⟩
  | hlen c => exact ⟨hlen c, fun s => setResult_runs (by simp [primsOf]) _ s, fun _ => rfl⟩
  | hcodelo c => exact ⟨hcodelo c, fun s => setResult_runs (by simp [primsOf]) _ s, fun _ => rfl⟩
  | hcodehi c => exact ⟨hcodehi c, fun s => setResult_runs (by simp [primsOf]) _ s, fun _ => rfl⟩
  | hnode n => exact ⟨hnode n, fun s => setResult_runs (by simp [primsOf]) _ s, fun _ => rfl⟩
  | hnodef n => exact ⟨hnodef n, fun s => setResult_runs (by simp [primsOf]) _ s, fun _ => rfl⟩
  | htrie => exact ⟨_, htrie_performs (by decide), fun _ => rfl⟩
  | hcountw => exact ⟨_, hcountw_performs (by decide), fun _ => rfl⟩
  | hsym c => exact ⟨_, needTrie_performs (emitCode_performs (by simp [primsOf]) c), fun _ => rfl⟩
  | hsyms => exact ⟨_, hsyms_performs (by decide), fun _ => rfl⟩
  | hcomp =>
    exact ⟨_, (winit_performs (by decide)).bind fun _ => (fclr_performs (by decide)).bind fun _ =>
      (fcount_performs (by decide)).bind fun _ => (hbuild_performs (by decide)).bind fun _ =>
      (htrie_performs (by decide)).bind fun _ => (hcountw_performs (by decide)).bind fun _ =>
      (hsyms_performs (by decide)).bind fun _ => flush_performs (by decide), fun _ => rfl⟩
  | hrtrie => exact ⟨_, hrtrie_performs (by decide), fun _ => rfl⟩
  | hrcount => exact ⟨_, hrcount_performs (by decide) (by decide), fun _ => rfl⟩
  | hdsym => exact ⟨_, hdsym_performs (by decide) (by decide), fun _ => rfl⟩
  | hdsyms => exact ⟨_, hdsyms_performs (by decide) (by decide) (by decide), fun _ => rfl⟩
  | hexp =>
    exact ⟨_, (rinit_performs (by decide)).bind fun _ => (winit_performs (by decide)).bind fun _ =>
      (hrtrie_performs (by decide)).bind fun _ => (hrcount_performs (by decide) (by decide)).bind fun _ =>
      (hdsyms_performs (by decide) (by decide) (by decide)).bind fun _ => flush_performs (by decide), fun _ => rfl⟩

/-- The completion of a command (40_control.md R141). -/
theorem complete_runs {ps : List Prim} {s : State} (r : Res Unit) (h : Runs ps s r.state) :
    Runs (.finish :: .record :: ps) s (complete r) := by
  have h' : Runs (.finish :: .record :: ps) s r.state := h.mono fun _ hp => .tail _ (.tail _ hp)
  have hfin : ∀ t, Runs (.finish :: .record :: ps) t (finish t) := fun t => (Prim.Does.finish t).runs (.head _)
  cases r with
  | ok _ t => exact Relation.ReflTransGen.trans h' (hfin t)
  | raised e t =>
    exact Relation.ReflTransGen.trans h'
      (Relation.ReflTransGen.trans ((Prim.Does.record e (fieldOp t.pending) t).runs (.tail _ (.head _))) (hfin _))

/-- The execution of a command is a sequence of its operations and those of completion. -/
theorem exec_runs {i : Instr} {s t : State} (h : exec i s = .next t) : Runs (.finish :: .record :: primsOf i) s t := by
  obtain ⟨body, hb, he⟩ := exec_performs i
  rw [he, completed, Host.Outcome.next.injEq] at h
  rw [← h]
  exact complete_runs (body s) (hb s)

/-- The parts a command may change: those of its operations and of completion. -/
def partsOf (i : Instr) : List Part := (Prim.finish :: .record :: primsOf i).flatMap Prim.parts

/-- The frame of every command. -/
theorem exec_view_eq {i : Instr} {s t : State} (h : exec i s = .next t) {q : Part} (hq : q ∉ partsOf i) :
    q.view t = q.view s :=
  (exec_runs h).view_eq fun _ hp hqp => hq (List.mem_flatMap_of_mem hp hqp)

/-! ### The steps -/

/-- The operations of all commands. -/
def enginePrims : List Prim :=
  [.finish, .record, .clearError, .sreset, .setResult, .setHrem, .winit, .writeBit, .flush, .rinit, .readBit, .linit,
    .assignCode, .classify, .fclr, .fcount, .fwr, .hbuild, .hrtrie]

theorem primsOf_subset (i : Instr) : Prim.finish :: .record :: primsOf i ⊆ enginePrims := by
  cases i <;> (simp only [primsOf]; decide)

theorem engineRun_runs {s t : State} (h : engineRun s = .next t) : Runs enginePrims s t := by
  unfold engineRun at h
  split at h
  · next i _ => exact (exec_runs h).mono (primsOf_subset i)
  · rw [execIllegal, completed, Host.Outcome.next.injEq] at h
    rw [← h]
    exact (complete_runs (ps := []) (.raised .illegalCmd s) .refl).mono (primsOf_subset .nop)

theorem readIdle_state (g : Target) (s : State) : ∃ v n, readIdle g s = { s with hostData := v, draws := n } := by
  cases g <;> exact ⟨_, _, rfl⟩

theorem readInReset_state (g : Target) (s : State) :
    ∃ v n, readInReset g s = { s with hostData := v, draws := n } := by
  cases g <;> exact ⟨_, _, rfl⟩

theorem readBusy_state (g : Target) (s : State) : ∃ v n, readBusy g s = { s with hostData := v, draws := n } := by
  cases g with
  | reg r => cases r <;> exact ⟨_, _, rfl⟩
  | ibufWord _ | obufWord _ | nothing => exact ⟨_, _, rfl⟩

/-- A read changes nothing but the bus data and the count of free values drawn (20_memory.md R93). -/
theorem hostRead_state (addr : BitVec 26) (s : State) :
    ∃ v n, hostRead addr s = { s with hostData := v, draws := n } := by
  unfold hostRead
  split_ifs
  · exact readBusy_state _ s
  · exact readIdle_state _ s
  · exact readInReset_state _ s

/-- A buffer word that an address names lies in its buffer (20_memory.md R86). -/
theorem target_word_lt {s : State} {addr : BitVec 26} {k : Nat} :
    (target s addr = .ibufWord k → k < s.ibufSize / 4) ∧ (target s addr = .obufWord k → k < s.obufSize / 4) := by
  simp only [target]
  split
  · cases regAt (addr.toNat / 4 * 4) <;> simp
  · split
    · split
      · next hk => exact ⟨fun h => (by cases h; exact hk), fun h => (by cases h)⟩
      · simp
    · split
      · split
        · next hk => exact ⟨fun h => (by cases h), fun h => (by cases h; exact hk)⟩
        · simp
      · simp

/-- What a checked write can do: its store while BUSY is 0, the record of an error while BUSY is 1 (40_control.md R149). -/
theorem checkedWrite_does {store : State → State} {p : Prim} {s : State} (h : p.Does s (store s)) :
    ∃ p : Prim, p.Does s (checkedWrite store s) := by
  unfold checkedWrite
  split_ifs
  · exact ⟨_, .record _ _ s⟩
  · exact ⟨p, h⟩

theorem writeCmd_does (w : Word) (s : State) : writeCmd w s = s ∨ ∃ p : Prim, p.Does s (writeCmd w s) := by
  unfold writeCmd
  split_ifs
  · exact .inr ⟨_, .record _ _ s⟩
  · exact .inl rfl
  · exact .inr ⟨_, .launch w s⟩

/-- Everything a write can do: nothing, or one operation. -/
theorem hostWrite_does (addr : BitVec 26) (v : Word) (s : State) :
    hostWrite addr v s = s ∨ ∃ p : Prim, p.Does s (hostWrite addr v s) := by
  unfold hostWrite
  split_ifs
  · cases htgt : target s addr with
    | reg r =>
      cases r with
      | cmd => exact writeCmd_does v s
      | arg => exact .inr (checkedWrite_does (store := fun s => { s with arg := v }) (.storeArg v s))
      | ctrl => exact .inr ⟨_, .writeCtrl v s⟩
      | irqstat => exact .inr ⟨_, .writeIrqstat v s⟩
      | ilen => exact .inr (checkedWrite_does (.storeIlen v s))
      | _ => exact .inl rfl
    | ibufWord k => exact .inr (checkedWrite_does (.storeIbuf k v s (target_word_lt.1 htgt)))
    | obufWord k => exact .inr (checkedWrite_does (.storeObuf k v s (target_word_lt.2 htgt)))
    | nothing => exact .inl rfl
  · exact .inl rfl

section invariants

variable {P : State → Prop} {s t : State}

/-- What the operations of the commands keep, the engine keeps. -/
theorem engineRun_keeps (hP : ∀ p ∈ enginePrims, ∀ s t, p.Does s t → P s → P t) (h : engineRun s = .next t) (hs : P s) :
    P t :=
  (engineRun_runs h).keeps hP hs

theorem engineTurn_keeps (hP : ∀ p ∈ enginePrims, ∀ s t, p.Does s t → P s → P t) (h : engineTurn s = .next t)
    (hs : P s) : P t := by
  unfold engineTurn at h
  split_ifs at h
  · exact engineRun_keeps hP h hs
  · cases h; exact hs

/-- What every operation keeps, every step of the machine keeps. -/
theorem step_keeps (hP : ∀ p s t, Prim.Does p s t → P s → P t) (h : step s = .next t) (hs : P s) : P t := by
  have hE : ∀ p ∈ enginePrims, ∀ s t, Prim.Does p s t → P s → P t := fun p _ => hP p
  unfold step at h
  split at h
  · exact engineTurn_keeps hE h hs
  · next a q _ =>
    have hs' : P { s with hostq := q } := hP _ _ _ (.schedule q s) hs
    revert hs' h
    generalize { s with hostq := q } = s'
    intro h hs'
    cases a with
    | read addr =>
      cases h
      obtain ⟨v, n, hr⟩ := hostRead_state addr s'
      rw [hr]
      exact hP _ _ _ (.answer v n s') hs'
    | write addr v =>
      cases h
      obtain hw | ⟨p, hw⟩ := hostWrite_does addr v s'
      · rw [hw]; exact hs'
      · exact hP _ _ _ hw hs'
    | engine => exact engineTurn_keeps hE h hs'
    | resetLow => cases h; exact hP _ _ _ (.resetLow s') hs'
    | resetHigh => cases h; exact hP _ _ _ (.resetHigh s') hs'

end invariants

end Sys2Proof.Machine

/-! The code table and the trie stay sound (10_state.md R56 to R60). -/

namespace Sys2Proof.Machine

/-! ### The code table -/

/-- What HBUILD leaves: the new trie with its code table, or, where a code is too long, no trie and no code (R244, R245). -/
theorem hbuild_state (s : State) :
    ((codeTable (buildTrie s).node (buildTrie s).root).tooLong = true ∧
      (hbuild s).state = { buildTrie s with len := Vector.replicate 256 0, code := Vector.replicate 256 0 }) ∨
    ((codeTable (buildTrie s).node (buildTrie s).root).tooLong = false ∧
      (hbuild s).state = { buildTrie s with
        len := (codeTable (buildTrie s).node (buildTrie s).root).len,
        code := (codeTable (buildTrie s).node (buildTrie s).root).code, tvalid := true }) := by
  cases h : (codeTable (buildTrie s).node (buildTrie s).root).tooLong <;> simp [hbuild, h]

/-- The code table holds no code: LEN and CODE are all 0 (R243, R282). -/
def State.NoCodes (s : State) : Prop := s.len = Vector.replicate 256 0 ∧ s.code = Vector.replicate 256 0

/-- The code table holds the paths of a trie with distinct symbols, none of them longer than a code may be (R243). -/
structure State.HoldsPaths (s : State) (t : Tree) : Prop where
  distinct : t.leafSyms.Nodup
  short : ∀ e ∈ t.paths, e.2.length ≤ 64
  lenOf_eq : ∀ c : Byte, s.lenOf c = BitVec.ofNat 7 (t.pathOf c).length
  codeOf_eq : ∀ c : Byte, s.codeOf c = BitVec.ofNat 64 (numOf (t.pathOf c))

theorem State.NoCodes.tableOk {s : State} (h : s.NoCodes) : s.CodesOk ∧ s.PrefixFree := by
  have hlen : ∀ c, s.lenOf c = 0 := fun c => by simp [State.lenOf, h.1]
  have hcode : ∀ c, s.codeOf c = 0 := fun c => by simp [State.codeOf, h.2]
  exact ⟨fun c => by simp [hlen, hcode], fun c _ _ hc => absurd (hlen c) hc⟩

theorem Tree.pathOf_mem {t : Tree} (hn : t.leafSyms.Nodup) {c : Byte} (h : t.pathOf c ≠ []) : (c, t.pathOf c) ∈ t.paths := by
  by_cases hc : c ∈ t.leafSyms
  · obtain ⟨p, hp⟩ := Tree.mem_paths_of_mem_leafSyms hc
    rwa [Tree.pathOf_eq hn hp]
  · exact absurd (Tree.pathOf_eq_nil hc) h

theorem State.HoldsPaths.length_le {s : State} {t : Tree} (h : s.HoldsPaths t) (c : Byte) : (t.pathOf c).length ≤ 64 := by
  by_cases hc : t.pathOf c = []
  · simp [hc]
  · exact h.short _ (Tree.pathOf_mem h.distinct hc)

theorem State.HoldsPaths.lenOf_toNat {s : State} {t : Tree} (h : s.HoldsPaths t) (c : Byte) :
    (s.lenOf c).toNat = (t.pathOf c).length := by
  have := h.length_le c
  rw [h.lenOf_eq, BitVec.toNat_ofNat]
  omega

/-- A symbol's code is its path. -/
theorem State.HoldsPaths.codeBits_eq {s : State} {t : Tree} (h : s.HoldsPaths t) (c : Byte) : s.codeBits c = t.pathOf c := by
  rw [State.codeBits, h.lenOf_toNat, h.codeOf_eq, bitsMsb_numOf _ (h.length_le c)]

theorem State.HoldsPaths.tableOk {s : State} {t : Tree} (h : s.HoldsPaths t) : s.CodesOk ∧ s.PrefixFree := by
  constructor
  · intro c
    have hlt := numOf_lt (t.pathOf c)
    rw [h.lenOf_toNat, h.codeOf_eq, BitVec.toNat_ofNat]
    exact ⟨h.length_le c, (Nat.mod_le _ _).trans_lt hlt⟩
  · intro c d hcd hc hd hpre
    have mem : ∀ {c}, s.lenOf c ≠ 0 → (c, t.pathOf c) ∈ t.paths := fun {c} hc =>
      Tree.pathOf_mem h.distinct fun h0 => hc (BitVec.eq_of_toNat_eq (by rw [h.lenOf_toNat, h0]; rfl))
    rw [h.codeBits_eq, h.codeBits_eq] at hpre
    exact hcd (congrArg Prod.fst (Tree.paths_prefix t (mem hc) (mem hd) hpre h.distinct))

/-- HBUILD leaves no code, or the paths of the trie it built, from any state (R243 to R245). -/
theorem hbuild_codes (s : State) : (hbuild s).state.NoCodes ∨ ∃ t, (hbuild s).state.HoldsPaths t := by
  obtain ⟨-, hst⟩ | ⟨hshort, hst⟩ := hbuild_state s
  · exact .inl (by rw [hst]; exact ⟨rfl, rfl⟩)
  · right
    obtain ⟨t, hholds, -, hperm⟩ := buildTrie_holds s
    have hn : t.leafSyms.Nodup := hperm.nodup_iff.mpr (leafSymbols_nodup _)
    have hl : ∀ e ∈ t.paths, e.2.length ≤ 64 := by
      rw [codeTable_tooLong hholds.1 hholds.height_lt] at hshort
      simpa using hshort
    have htable := codeTable_eq hholds.1 hholds.height_lt hn hl
    rw [hst]
    exact ⟨t, hn, hl, fun c => (htable c).2.1, fun c => (htable c).2.2⟩

/-- HRTRIE leaves no code, whether it reads a trie or not (47_huffman_decode.md R282). -/
theorem hrtrie_noCodes (s : State) : (hrtrie s).state.NoCodes := by
  obtain ⟨_, u, -, hu, hf⟩ | ⟨_, u, -, hu, hf⟩ := hrtrie_state s <;> (rw [hu, hf]; exact ⟨rfl, rfl⟩)

/-- After an operation the code table is as before, empty, or the paths of a trie. -/
theorem codes_of_does {p : Prim} {s t : State} (h : p.Does s t) :
    Part.trie.view t = Part.trie.view s ∨ t.NoCodes ∨ ∃ tr, t.HoldsPaths tr := by
  by_cases hq : Part.trie ∈ p.parts
  · right
    cases h with
    | hbuild => exact hbuild_codes s
    | hrtrie => exact .inl (hrtrie_noCodes s)
    | sreset => exact .inl ⟨rfl, rfl⟩
    | resetLow =>
      obtain ⟨m, n, hr⟩ := assertReset_eq s
      exact .inl (by rw [hr]; exact ⟨rfl, rfl⟩)
    | _ => simp [Prim.parts] at hq
  · exact .inl (view_eq_of_does h hq)

theorem tableOk_congr {s t : State} (h : Part.trie.view t = Part.trie.view s) (hs : s.CodesOk ∧ s.PrefixFree) :
    t.CodesOk ∧ t.PrefixFree := by
  simp only [Part.view, Prod.mk.injEq] at h
  obtain ⟨-, hlen, hcode, -⟩ := h
  simpa only [State.CodesOk, State.PrefixFree, State.codeBits, State.lenOf, State.codeOf, hlen, hcode] using hs

/-- Settles O24: whatever a step does to the code table, it empties it or enters the paths of a trie, of which no two are
leading parts of each other. -/
theorem codeTableKept : Obligations.CodeTableKept := by
  intro s t hc hp h
  refine step_keeps (P := fun s => s.CodesOk ∧ s.PrefixFree) (fun p s t hd hs => ?_) h ⟨hc, hp⟩
  obtain hsame | hnone | ⟨_, hpaths⟩ := codes_of_does hd
  · exact tableOk_congr hsame hs
  · exact hnone.tableOk
  · exact hpaths.tableOk

/-! ### The trie -/

theorem trieOk_of_not_tvalid {s : State} (h : s.tvalid = false) : s.TrieOk := by
  intro hv
  rw [h] at hv
  cases hv

theorem hbuild_trieOk (s : State) : (hbuild s).state.TrieOk := by
  obtain ⟨-, hst⟩ | ⟨-, hst⟩ := hbuild_state s
  · exact trieOk_of_not_tvalid (by rw [hst]; rfl)
  · obtain ⟨t, hholds, -⟩ := buildTrie_holds s
    exact fun _ => ⟨t, by rw [hst]; exact hholds⟩

/-- HRTRIE ends with TVALID = 1 only where `parse` read a whole trie, which it lays down from entry 0 on (R281, R282). -/
theorem hrtrie_trieOk (s : State) : (hrtrie s).state.TrieOk := by
  obtain ⟨_, u, -, hu, hf⟩ | ⟨i, u, hp, hu, hf⟩ := hrtrie_state s
  · exact trieOk_of_not_tvalid (by rw [hu, hf]; rfl)
  · obtain ⟨t, heoi, hrem, -, hsize⟩ := parse_ok_inv hp
    have hnodes : (dropTrie s).nodes.val = 0 := rfl
    have hlt := u.nodes.isLt
    obtain ⟨j, w, hw, hj, -, -, -, hwn, hrep, hind, -⟩ :=
      parse_ok (k := parseDepth) hrem heoi (by omega) (by have := t.height_lt_size; unfold parseDepth; omega)
    rw [hp] at hw
    cases hw
    have hroot : u.root = i := by
      rw [hf]
      exact Fin.ext (by rw [hj]; rfl)
    refine fun _ => ⟨t, ?_⟩
    rw [hu]
    constructor
    · show Represents u.node u.root t
      rw [hroot]; exact hrep
    · show (indicesOf u.node u.root t).Perm (List.range u.nodes.val)
      rw [hroot, hind, hwn, hnodes, Nat.zero_add, List.range_eq_range']

theorem trieOk_of_does {p : Prim} {s t : State} (h : p.Does s t) (hs : s.TrieOk) : t.TrieOk := by
  by_cases hq : Part.trie ∈ p.parts
  · cases h with
    | hbuild => exact hbuild_trieOk s
    | hrtrie => exact hrtrie_trieOk s
    | sreset => exact trieOk_of_not_tvalid rfl
    | resetLow =>
      obtain ⟨m, n, hr⟩ := assertReset_eq s
      exact trieOk_of_not_tvalid (by rw [hr]; rfl)
    | _ => simp [Prim.parts] at hq
  · have hv := view_eq_of_does h hq
    simp only [Part.view, Prod.mk.injEq] at hv
    obtain ⟨hvalid, -, -, hnode, hroot, hnodes⟩ := hv
    simpa only [State.TrieOk, State.HoldsTrie, hvalid, hnode, hroot, hnodes] using hs

/-- Settles O25: HBUILD and HRTRIE set TVALID only on the trie they have just laid down from entry 0 on; the other writers of
the arena clear it. -/
theorem trieKept : Obligations.TrieKept := fun _ _ hs h => step_keeps (fun _ _ _ => trieOk_of_does) h hs

end Sys2Proof.Machine

/-! Flags and register ranges: who changes EOI, TVALID and DFIRST (10_state.md R63), and what WSTATE, LZWE, LZWD and ERRCODE hold. -/

namespace Sys2Proof.Machine

/-! ### Which commands change which parts -/

/-- The commands that change the reader's state are those that may change EOI (10_state.md R63). -/
theorem reader_mem_partsOf (i : Instr) : Part.reader ∈ partsOf i ↔ writesEoi i = true := by
  cases i <;> simp [partsOf, primsOf, Prim.parts, writesEoi]

theorem trie_mem_partsOf (i : Instr) : Part.trie ∈ partsOf i ↔ writesTvalid i = true := by
  cases i <;> simp [partsOf, primsOf, Prim.parts, writesTvalid]

theorem lzwDec_mem_partsOf (i : Instr) : Part.lzwDec ∈ partsOf i ↔ writesDfirst i = true := by
  cases i <;> simp [partsOf, primsOf, Prim.parts, writesDfirst]

/-- ARG and ILEN are the host's: among the commands only SRESET changes them (10_state.md R33, R40). -/
theorem operand_mem_partsOf (i : Instr) : (Part.arg ∈ partsOf i ↔ i = .sreset) ∧ (Part.ilen ∈ partsOf i ↔ i = .sreset) := by
  cases i <;> simp [partsOf, primsOf, Prim.parts]

/-- No command changes PENDING, CTRL, the pin, the buffer sizes or the model's own fields (R38, 00_scope.md R14; log 7). -/
theorem fixed_not_mem_partsOf (i : Instr) {q : Part} (hq : q ∈ [Part.pending, .ctrl, .pin, .sizes, .ports]) :
    q ∉ partsOf i := by
  have h : ∀ p ∈ enginePrims, ∀ q ∈ [Part.pending, .ctrl, .pin, .sizes, .ports], q ∉ p.parts := by decide
  intro hm
  obtain ⟨p, hp, hqp⟩ := List.mem_flatMap.mp hm
  exact h p (primsOf_subset i hp) q hq hqp

/-- Settles O29: a flag changes only where a command's operations name its part. -/
theorem flagWriters : Obligations.FlagWriters := by
  intro i s t h
  have keep : ∀ {q : Part}, q ∉ partsOf i → q.view t = q.view s := exec_view_eq h
  have hpending := keep (fixed_not_mem_partsOf i (q := .pending) (by decide))
  have hctrl := keep (fixed_not_mem_partsOf i (q := .ctrl) (by decide))
  have hpin := keep (fixed_not_mem_partsOf i (q := .pin) (by decide))
  have hsizes := keep (fixed_not_mem_partsOf i (q := .sizes) (by decide))
  have hports := keep (fixed_not_mem_partsOf i (q := .ports) (by decide))
  simp only [Part.view, Prod.mk.injEq] at hpending hctrl hpin hsizes hports
  refine ⟨fun hi => ?_, fun hi => ?_, fun hi => ?_, fun hi => ?_, hctrl.1, hctrl.2, hpin, hsizes.1, hsizes.2, hports⟩
  · have hreader := keep (mt (reader_mem_partsOf i).mp (by simp [hi]))
    exact congrArg (fun v => v.2.2.2) hreader
  · have htrie := keep (mt (trie_mem_partsOf i).mp (by simp [hi]))
    exact congrArg Prod.fst htrie
  · have hdec := keep (mt (lzwDec_mem_partsOf i).mp (by simp [hi]))
    exact congrArg Prod.snd hdec
  · exact ⟨keep (mt (operand_mem_partsOf i).1.mp hi), keep (mt (operand_mem_partsOf i).2.mp hi), hpending⟩

/-! ### The writer's accumulator (10_state.md R44) -/

/-- One more bit fits one more place (41_bitwriter.md R161). -/
theorem accWith_lt {s : State} (b : Bool) (hs : s.WriterOk) :
    (accWith b s).toNat < 2 ^ (s.wcnt.val + 1) := by
  have hbit : ((BitVec.ofBool b).setWidth 8).toNat < 2 ^ (s.wcnt.val + 1) := by
    cases b <;> simp
  have hacc : (s.wacc <<< 1).toNat < 2 ^ (s.wcnt.val + 1) := by
    unfold State.WriterOk at hs
    rw [BitVec.toNat_shiftLeft, Nat.shiftLeft_eq, pow_succ]
    exact (Nat.mod_le _ _).trans_lt (by omega)
  rw [accWith, BitVec.toNat_or]
  exact Nat.or_lt_two_pow hacc hbit

/-- Everything `flush` can do (R163). -/
theorem flush_cases (s : State) :
    (s.wcnt.val = 0 ∧ flush s = .ok () s) ∨ (s.optr.toNat = s.obufSize ∧ flush s = .raised .obufOverflow s) ∨
    (s.optr.toNat ≠ s.obufSize ∧ flush s = .ok () (emitByte (s.wacc <<< (8 - s.wcnt.val)) s)) := by
  unfold flush
  by_cases h0 : s.wcnt.val = 0
  · exact .inl ⟨h0, if_pos h0⟩
  · by_cases hf : s.optr.toNat = s.obufSize
    · exact .inr (.inl ⟨hf, by simp [h0, hf]⟩)
    · exact .inr (.inr ⟨hf, by simp [h0, hf]⟩)

theorem emitByte_writerOk (b : Byte) (s : State) : (emitByte b s).WriterOk := by simp [State.WriterOk]

theorem writeBit_writerOk (b : Bool) {s : State} (hs : s.WriterOk) : (writeBit b s).state.WriterOk := by
  obtain ⟨-, -, h⟩ | ⟨-, -, h⟩ | ⟨_, h⟩ := writeBit_cases b s <;> rw [h]
  · exact hs
  · exact emitByte_writerOk _ s
  · exact accWith_lt b hs

theorem flush_writerOk {s : State} (hs : s.WriterOk) : (flush s).state.WriterOk := by
  obtain ⟨-, h⟩ | ⟨-, h⟩ | ⟨-, h⟩ := flush_cases s <;> rw [h]
  · exact hs
  · exact hs
  · exact emitByte_writerOk _ s

theorem writerOk_of_does {p : Prim} {s t : State} (h : p.Does s t) (hs : s.WriterOk) : t.WriterOk := by
  by_cases hq : Part.writer ∈ p.parts
  · cases h with
    | winit => simp [State.WriterOk, winit]
    | writeBit b => exact writeBit_writerOk b hs
    | flush => exact flush_writerOk hs
    | sreset => simp [State.WriterOk, resetEngine]
    | resetLow =>
      obtain ⟨m, n, hr⟩ := assertReset_eq s
      simp [hr, State.WriterOk, resetAll, resetEngine]
    | _ => simp [Prim.parts] at hq
  · have hv := view_eq_of_does h hq
    simp only [Part.view, Prod.mk.injEq] at hv
    obtain ⟨-, hacc, hcnt⟩ := hv
    simpa only [State.WriterOk, hacc, hcnt] using hs

/-! ### The LZW indices (43_lzw.md R207) -/

/-- The range of ENEXT and of DNEXT. -/
def InLzwRange (n : BitVec 13) : Prop := 257 ≤ n.toNat ∧ n.toNat ≤ 4096

theorem inLzwRange_succ {n : BitVec 13} (h : InLzwRange n) (hlt : n.toNat < Config.lzwCap) : InLzwRange (n + 1) := by
  obtain ⟨hlo, hhi⟩ := h
  unfold Config.lzwCap at hlt
  have hsucc : (n + 1).toNat = n.toNat + 1 := by rw [BitVec.toNat_add]; simp; omega
  exact ⟨by omega, by omega⟩

theorem inLzwRange_first : InLzwRange 257 := by simp [InLzwRange]

theorem assignCode_enext {g : Bool} {s : State} (hs : InLzwRange s.enext) : InLzwRange (assignCode g s).enext := by
  unfold assignCode
  split_ifs with hg
  · exact inLzwRange_succ hs hg.2
  · exact hs

theorem appendEntry_dnext {c : BitVec 12} {self : Bool} {s : State} (hs : InLzwRange s.dnext) :
    InLzwRange (appendEntry c self s).dnext := by
  unfold appendEntry
  split_ifs with hlt
  · exact inLzwRange_succ hs hlt
  · exact hs

theorem classify_dnext {c : BitVec 12} {s : State} (hs : InLzwRange s.dnext) :
    InLzwRange (classify c s).state.dnext := by
  unfold classify
  split_ifs
  · exact hs
  · exact hs
  · exact hs
  · exact appendEntry_dnext hs
  · exact appendEntry_dnext hs
  · exact hs

theorem enext_of_does {p : Prim} {s t : State} (h : p.Does s t) (hs : InLzwRange s.enext) : InLzwRange t.enext := by
  by_cases hq : Part.lzwEnc ∈ p.parts
  · cases h with
    | linit => exact inLzwRange_first
    | assignCode => exact assignCode_enext hs
    | sreset => exact inLzwRange_first
    | resetLow =>
      obtain ⟨m, n, hr⟩ := assertReset_eq s
      rw [hr]; exact inLzwRange_first
    | _ => simp [Prim.parts] at hq
  · have hv : t.enext = s.enext := view_eq_of_does h hq
    rwa [hv]

theorem dnext_of_does {p : Prim} {s t : State} (h : p.Does s t) (hs : InLzwRange s.dnext) : InLzwRange t.dnext := by
  by_cases hq : Part.lzwDec ∈ p.parts
  · cases h with
    | linit => exact inLzwRange_first
    | classify => exact classify_dnext hs
    | sreset => exact inLzwRange_first
    | resetLow =>
      obtain ⟨m, n, hr⟩ := assertReset_eq s
      rw [hr]; exact inLzwRange_first
    | _ => simp [Prim.parts] at hq
  · have hv : t.dnext = s.dnext := congrArg Prod.fst (view_eq_of_does h hq)
    rwa [hv]

/-! ### The error record (10_state.md R37, 60_exceptions.md R301) -/

theorem errCodeOf_range (e : ErrKind) : 1 ≤ (errCodeOf e).toNat ∧ (errCodeOf e).toNat ≤ 10 := by
  cases e <;> decide

theorem record_errorOk (e : ErrKind) (op : Byte) {s : State} (hs : s.ErrorOk) : (record e op s).ErrorOk := by
  refine ⟨fun h => by simp at h, fun _ => ?_⟩
  rw [record_errCode]
  split_ifs with he
  · exact hs.2 he
  · exact errCodeOf_range e

theorem errorOk_of_noError {s : State} (h : s.err = false ∧ s.errCode = 0 ∧ s.errOp = 0) : s.ErrorOk :=
  ⟨fun _ => h.2, fun he => by rw [h.1] at he; cases he⟩

theorem errorOk_of_does {p : Prim} {s t : State} (h : p.Does s t) (hs : s.ErrorOk) : t.ErrorOk := by
  by_cases hq : Part.error ∈ p.parts
  · cases h with
    | record e op => exact record_errorOk e op hs
    | clearError => exact errorOk_of_noError ⟨rfl, rfl, rfl⟩
    | sreset => exact errorOk_of_noError ⟨rfl, rfl, rfl⟩
    | resetLow =>
      obtain ⟨m, n, hr⟩ := assertReset_eq s
      exact errorOk_of_noError (by rw [hr]; exact ⟨rfl, rfl, rfl⟩)
    | _ => simp [Prim.parts] at hq
  · have hv := view_eq_of_does h hq
    simp only [Part.view, Prod.mk.injEq] at hv
    obtain ⟨herr, hcode, hop⟩ := hv
    simpa only [State.ErrorOk, herr, hcode, hop] using hs

/-- Settles O22: each range is kept by every operation that changes its register, and so by every step. -/
theorem registerRangesKept : Obligations.RegisterRangesKept := by
  intro s t h
  refine ⟨step_keeps (fun _ _ _ => writerOk_of_does) h, fun hs => ?_, step_keeps (fun _ _ _ => errorOk_of_does) h⟩
  obtain ⟨helo, hehi, hdlo, hdhi⟩ := hs
  have henc : InLzwRange t.enext := step_keeps (fun _ _ _ => enext_of_does) h ⟨helo, hehi⟩
  have hdec : InLzwRange t.dnext := step_keeps (fun _ _ _ => dnext_of_does) h ⟨hdlo, hdhi⟩
  exact ⟨henc.1, henc.2, hdec.1, hdec.2⟩

end Sys2Proof.Machine

/-! The registers as the host reads and writes them at rest (10_state.md R31 to R54). -/

namespace Sys2Proof.Machine

/-! ### The registers on the bus -/

/-- The number of a register's word in the register block (10_state.md R54). -/
def Reg.index : Reg → Nat
  | .id => 0 | .cmd => 1 | .arg => 2 | .result => 3 | .status => 4 | .errcode => 5 | .ctrl => 6 | .irqstat => 7
  | .ilen => 8 | .iptr => 9 | .rstate => 10 | .optr => 11 | .wstate => 12 | .total => 13 | .htree => 14 | .hrem => 15
  | .lzwe => 16 | .lzwd => 17 | .cmdcnt => 18 | .ibufsz => 19 | .obufsz => 20

theorem regAt_index (r : Reg) : regAt (r.index * 4) = some r := by cases r <;> rfl

theorem exists_index {k : Nat} (h : k < 21) : ∃ r : Reg, r.index = k := by
  have all : ∀ k < 21, ∃ r ∈ (List.range 21).filterMap fun k => regAt (k * 4), r.index = k := by decide
  obtain ⟨r, -, hr⟩ := all k h
  exact ⟨r, hr⟩

theorem Reg.index_lt (r : Reg) : r.index < 21 := by cases r <;> decide

theorem offset_of_regAt {a : Nat} {r : Reg} (h : regAt a = some r) : a = r.index * 4 := by
  unfold regAt at h
  split at h <;> cases h <;> rfl

/-- Beyond the last register there are only holes (R50). -/
theorem regAt_eq_none {k : Nat} (h : 21 ≤ k) : regAt (k * 4) = none := by
  cases hr : regAt (k * 4) with
  | none => rfl
  | some r =>
    have hoff := offset_of_regAt hr
    have := r.index_lt
    omega

theorem target_of_index {s : State} {addr : BitVec 26} {r : Reg} (h : addr.toNat / 4 = r.index) :
    target s addr = .reg r := by
  have hlt := r.index_lt
  simp only [target, h, regAt_index]
  rw [if_pos (by omega)]

theorem target_of_hole {s : State} {addr : BitVec 26} (h : 21 ≤ addr.toNat / 4) (hlt : addr.toNat < 0x1000000) :
    target s addr = .nothing := by
  have hibuf : ¬ ibufBase ≤ addr.toNat / 4 * 4 := by unfold ibufBase; omega
  have hobuf : ¬ obufBase ≤ addr.toNat / 4 * 4 := by unfold obufBase; omega
  simp [target, regAt_eq_none h, hibuf, hobuf]

theorem hostRead_idle {s : State} {addr : BitVec 26} {r : Reg} (hrst : s.rstN = true) (hbusy : s.busy = false)
    (h : addr.toNat / 4 = r.index) : hostRead addr s = answer (regValue s r) s := by
  simp [hostRead, hrst, hbusy, target_of_index h, readIdle]

theorem hostWrite_reg {s : State} {addr : BitVec 26} {r : Reg} (v : Word) (hrst : s.rstN = true)
    (h : addr.toNat / 4 = r.index) : hostWrite addr v s = writeReg r v s := by
  simp [hostWrite, hrst, target_of_index h]

theorem checkedWrite_idle (store : State → State) {s : State} (h : s.busy = false) : checkedWrite store s = store s := by
  simp [checkedWrite, h]

/-! ### Fields of a register word -/

/-- Two fields side by side: the upper one from bit `k` on. -/
theorem toNat_or_shiftLeft {a b : Word} {k : Nat} (ha : a.toNat < 2 ^ k) (hb : 2 ^ k * b.toNat < 2 ^ 32) :
    (a ||| b <<< k).toNat = a.toNat + 2 ^ k * b.toNat := by
  rw [BitVec.toNat_or, BitVec.toNat_shiftLeft, Nat.shiftLeft_eq, Nat.mul_comm b.toNat, Nat.mod_eq_of_lt hb, Nat.or_comm,
    ← Nat.two_pow_add_eq_or_of_lt ha, Nat.add_comm]

theorem toNat_ofNat_word {n : Nat} (h : n < 2 ^ 32) : (BitVec.ofNat 32 n).toNat = n := by
  rw [BitVec.toNat_ofNat, Nat.mod_eq_of_lt h]

theorem statusWord_toNat (s : State) :
    (statusWord s).toNat = s.busy.toNat + 2 * s.err.toNat + 4 * s.eoi.toNat + 8 * s.tvalid.toNat := by
  have h : ∀ a b c d : Bool, (bitAt a 0 ||| bitAt b 1 ||| bitAt c 2 ||| bitAt d 3).toNat =
      a.toNat + 2 * b.toNat + 4 * c.toNat + 8 * d.toNat := by decide
  exact h _ _ _ _

theorem bitPair_toNat (a b : Bool) : (bitAt a 0 ||| bitAt b 1).toNat = a.toNat + 2 * b.toNat := by
  revert a b; decide

theorem errcodeWord_toNat (s : State) : (errcodeWord s).toNat = s.errCode.toNat + 2 ^ 8 * s.errOp.toNat := by
  have hcode := BitVec.toNat_setWidth_of_le (w' := 32) (b := s.errCode) (by decide)
  have hop := BitVec.toNat_setWidth_of_le (w' := 32) (b := s.errOp) (by decide)
  rw [errcodeWord, toNat_or_shiftLeft, hcode, hop] <;> omega

theorem rstateWord_toNat (s : State) : (rstateWord s).toNat = s.racc.toNat + 2 ^ 8 * s.rcnt.val := by
  have hacc := BitVec.toNat_setWidth_of_le (w' := 32) (b := s.racc) (by decide)
  have hcnt := toNat_ofNat_word (n := s.rcnt.val) (by omega)
  rw [rstateWord, toNat_or_shiftLeft, hacc, hcnt] <;> omega

theorem wstateWord_toNat (s : State) : (wstateWord s).toNat = s.wacc.toNat + 2 ^ 8 * s.wcnt.val := by
  have hacc := BitVec.toNat_setWidth_of_le (w' := 32) (b := s.wacc) (by decide)
  have hcnt := toNat_ofNat_word (n := s.wcnt.val) (by omega)
  rw [wstateWord, toNat_or_shiftLeft, hacc, hcnt] <;> omega

theorem htreeWord_toNat (s : State) : (htreeWord s).toNat = s.root.val + 2 ^ 16 * s.nodes.val := by
  have hroot := toNat_ofNat_word (n := s.root.val) (by omega)
  have hnodes := toNat_ofNat_word (n := s.nodes.val) (by omega)
  rw [htreeWord, toNat_or_shiftLeft, hroot, hnodes] <;> omega

theorem lzwdWord_toNat (s : State) : (lzwdWord s).toNat = s.dnext.toNat + 2 ^ 16 * s.dfirst.toNat := by
  have hnext := BitVec.toNat_setWidth_of_le (w' := 32) (b := s.dnext) (by decide)
  have hfirst : ((BitVec.ofBool s.dfirst).setWidth 32).toNat = s.dfirst.toNat := by cases s.dfirst <;> rfl
  have hle := Bool.toNat_le s.dfirst
  rw [lzwdWord, bitAt, toNat_or_shiftLeft, hnext, hfirst] <;> omega

theorem bufSize_toNat (e : Fin 23) : (BitVec.ofNat 32 (Config.bufSize e)).toNat = Config.bufSize e := by
  have := (bufSize_bounds e).2
  exact toNat_ofNat_word (by omega)

/-- Settles O12, register by register. -/
theorem registerReads : Obligations.RegisterReads := by
  intro s addr hrst hbusy haddr
  obtain ⟨r, hr⟩ := exists_index (k := addr.toNat / 4) (by omega)
  rw [hostRead_idle hrst hbusy hr.symm, ← hr]
  refine ⟨rfl, ?_⟩
  show (regValue s r).toNat = _
  cases r with
  | status => exact statusWord_toNat s
  | errcode => exact errcodeWord_toNat s
  | ctrl => exact bitPair_toNat s.doneIe s.errIe
  | irqstat => exact bitPair_toNat s.irqDone s.irqErri
  | rstate => exact rstateWord_toNat s
  | wstate => exact wstateWord_toNat s
  | htree => exact htreeWord_toNat s
  | lzwe => exact BitVec.toNat_setWidth_of_le (by decide)
  | lzwd => exact lzwdWord_toNat s
  | ibufsz => exact bufSize_toNat s.ibufExp
  | obufsz => exact bufSize_toNat s.obufExp
  | _ => rfl

/-- ILEN is WARL (R40). -/
theorem storeIlen_toNat (v : Word) (s : State) : (storeIlen v s).ilen.toNat = min v.toNat s.ibufSize := by
  have := v.isLt
  exact toNat_ofNat_word (by omega)

/-- Writes of read-only registers and of holes are ignored (R50, R51). -/
theorem hostWrite_ignored {s : State} {addr : BitVec 26} (v : Word) (h : addr.toNat / 4 ∉ [1, 2, 6, 7, 8])
    (hlt : addr.toNat < 0x1000000) : hostWrite addr v s = s := by
  by_cases hrst : s.rstN = true
  · by_cases hreg : addr.toNat / 4 < 21
    · obtain ⟨r, hr⟩ := exists_index hreg
      rw [hostWrite_reg v hrst hr.symm]
      rw [← hr] at h
      cases r with
      | cmd | arg | ctrl | irqstat | ilen => simp [Reg.index] at h
      | _ => rfl
    · simp [hostWrite, target_of_hole (by omega) hlt]
  · simp [hostWrite, hrst]

theorem irq_iff (s : State) :
    s.irq = true ↔ (s.doneIe = true ∧ s.irqDone = true) ∨ (s.errIe = true ∧ s.irqErri = true) := by
  simp only [State.irq, Bool.or_eq_true, Bool.and_eq_true]

/-- Settles O17: an idle write of a register is its `writeReg`. -/
theorem hostRegisterWrites : Obligations.HostRegisterWrites := by
  refine ⟨irq_iff, fun s addr v hrst hbusy => ⟨fun h => ?_, fun h => ?_, fun h => ?_, fun h => ?_, hostWrite_ignored v⟩⟩
  · rw [hostWrite_reg (r := .arg) v hrst h]
    exact checkedWrite_idle (fun s => { s with arg := v }) hbusy
  · exact hostWrite_reg (r := .ctrl) v hrst h
  · exact hostWrite_reg (r := .irqstat) v hrst h
  · refine ⟨_, storeIlen_toNat v s, ?_⟩
    rw [hostWrite_reg (r := .ilen) v hrst h]
    exact checkedWrite_idle (storeIlen v) hbusy

end Sys2Proof.Machine

/-! The buffers and their pointers stay within the buffer sizes (10_state.md R40 to R43, R61, R62). -/

namespace Sys2Proof.Machine

/-! ### The buffers and their pointers -/

/-- IBUF is in canonical form and within its size (10_state.md R61). -/
def State.IbufOk (s : State) : Prop := s.ibuf.wf = true ∧ s.ibuf.below s.ibufSize = true

/-- ILEN and IPTR are within IBUF_SIZE (R40, R41). -/
def State.InputOk (s : State) : Prop := s.ilen.toNat ≤ s.ibufSize ∧ s.iptr.toNat ≤ s.ibufSize

/-- OBUF is in canonical form and, as OPTR, within its size (R62, R43). -/
def State.OutputOk (s : State) : Prop :=
  s.obuf.wf = true ∧ s.obuf.below s.obufSize = true ∧ s.optr.toNat ≤ s.obufSize

theorem Memory.set_ok {m : Memory} {a n : Nat} (b : Byte) (ha : a < n) (h : m.wf = true ∧ m.below n = true) :
    (m.set a b).wf = true ∧ (m.set a b).below n = true :=
  ⟨wf_set a b h.1, below_set b ha h.2⟩

/-- The stores of a buffer word, in the order of its bytes (20_memory.md R84, R85). -/
def Memory.setWord (m : Memory) (k : Nat) (v : Word) : Memory :=
  (((m.set (4 * k) (v.extractLsb' 0 8)).set (4 * k + 1) (v.extractLsb' 8 8)).set (4 * k + 2) (v.extractLsb' 16 8)).set
    (4 * k + 3) (v.extractLsb' 24 8)

theorem storeWord_ibuf (k : Nat) (v : Word) (s : State) :
    (storeWord (fun i b s => s.setIbufByte i b) k v s).ibuf = s.ibuf.setWord k v := by
  simp [storeWord, Memory.setWord]

theorem storeWord_obuf (k : Nat) (v : Word) (s : State) :
    (storeWord (fun i b s => s.setObufByte i b) k v s).obuf = s.obuf.setWord k v := by
  simp [storeWord, Memory.setWord]

theorem Memory.setWord_ok {m : Memory} {k n : Nat} (v : Word) (hk : k < n / 4) (h : m.wf = true ∧ m.below n = true) :
    (m.setWord k v).wf = true ∧ (m.setWord k v).below n = true :=
  set_ok _ (by omega) (set_ok _ (by omega) (set_ok _ (by omega) (set_ok _ (by omega) h)))

/-- No operation changes the buffer sizes (00_scope.md R14). -/
theorem sizes_not_mem_parts (p : Prim) : Part.sizes ∉ p.parts := by
  cases p <;> decide

/-! #### The input side: IBUF, ILEN, IPTR -/

theorem ibufOk_of_does {p : Prim} {s t : State} (h : p.Does s t) (hs : s.IbufOk) : t.IbufOk := by
  have hsz := view_eq_of_does h (sizes_not_mem_parts p)
  simp only [Part.view, Prod.mk.injEq] at hsz
  unfold State.IbufOk State.ibufSize at *
  rw [hsz.1]
  by_cases hq : Part.ibuf ∈ p.parts
  · cases h with
    | storeIbuf k v _ hk => rw [storeWord_ibuf]; exact Memory.setWord_ok v hk hs
    | _ => simp [Prim.parts] at hq
  · have hibuf : t.ibuf = s.ibuf := view_eq_of_does h hq
    rwa [hibuf]

/-- However many bits were taken, IPTR stays where it was or within ILEN (42_bitreader.md R181). -/
theorem Took.iptr_le {s u : State} (h : Took s u) : u.iptr.toNat ≤ max s.iptr.toNat s.ilen.toNat := by
  obtain ⟨-, n, ⟨-, -, hpos, hrcnt, hzero, -⟩, -⟩ := h
  have hlen := length_remaining s
  by_cases hn : n = 0
  · rw [hzero hn]; exact Nat.le_max_left _ _
  · have := hrcnt (by omega)
    omega

theorem hrtrie_took (s : State) : Took s (hrtrie s).state := by
  have hp := parse_takes parseDepth (dropTrie s)
  obtain ⟨_, u, hu, hst, -⟩ | ⟨_, u, hu, hst, -⟩ := hrtrie_state s <;> (rw [hu] at hp; rw [hst]; exact hp)

theorem inputOk_of_took {s u : State} (h : Took s u) (hsz : u.ibufExp = s.ibufExp) (hs : s.InputOk) : u.InputOk := by
  have hle := h.iptr_le
  obtain ⟨⟨hilen, -⟩, -⟩ := h
  unfold State.InputOk State.ibufSize at *
  rw [hsz, hilen]
  omega

theorem inputOk_of_does {p : Prim} {s t : State} (h : p.Does s t) (hs : s.InputOk) : t.InputOk := by
  have hsz := view_eq_of_does h (sizes_not_mem_parts p)
  simp only [Part.view, Prod.mk.injEq] at hsz
  by_cases hq : Part.ilen ∈ p.parts ∨ Part.reader ∈ p.parts
  · cases h with
    | rinit => exact ⟨hs.1, Nat.zero_le _⟩
    | readBit => exact inputOk_of_took (readBit_took s) hsz.1 hs
    | hrtrie => exact inputOk_of_took (hrtrie_took s) hsz.1 hs
    | storeIlen v => exact ⟨(storeIlen_toNat v s).trans_le (Nat.min_le_right _ _), hs.2⟩
    | sreset => exact ⟨Nat.zero_le _, Nat.zero_le _⟩
    | resetLow =>
      obtain ⟨m, n, hr⟩ := assertReset_eq s
      rw [hr]
      exact ⟨Nat.zero_le _, Nat.zero_le _⟩
    | _ => simp [Prim.parts] at hq
  · rw [not_or] at hq
    have hilen : t.ilen = s.ilen := view_eq_of_does h hq.1
    have hiptr : t.iptr = s.iptr := congrArg Prod.fst (view_eq_of_does h hq.2)
    simpa only [State.InputOk, State.ibufSize, hilen, hiptr, hsz] using hs

/-! #### The output side: OBUF, OPTR -/

/-- A byte is emitted only where there is room for it (41_bitwriter.md R161). -/
theorem emitByte_outputOk (b : Byte) {s : State} (hs : s.OutputOk) (hne : s.optr.toNat ≠ s.obufSize) :
    (emitByte b s).OutputOk := by
  obtain ⟨hwf, hbelow, hoptr⟩ := hs
  have hlt : s.optr.toNat < s.obufSize := by omega
  have hsz : s.obufSize ≤ 2 ^ 24 := (bufSize_bounds s.obufExp).2
  have hnext : (s.optr + 1).toNat = s.optr.toNat + 1 := by rw [BitVec.toNat_add]; simp; omega
  obtain ⟨hwf', hbelow'⟩ := Memory.set_ok b hlt ⟨hwf, hbelow⟩
  refine ⟨hwf', hbelow', ?_⟩
  rw [emitByte_optr, hnext]
  exact hlt

theorem writeBit_outputOk (b : Bool) {s : State} (hs : s.OutputOk) : (writeBit b s).state.OutputOk := by
  obtain ⟨-, -, h⟩ | ⟨-, hne, h⟩ | ⟨_, h⟩ := writeBit_cases b s <;> rw [h]
  · exact hs
  · exact emitByte_outputOk _ hs hne
  · exact hs

theorem flush_outputOk {s : State} (hs : s.OutputOk) : (flush s).state.OutputOk := by
  obtain ⟨-, h⟩ | ⟨-, h⟩ | ⟨hne, h⟩ := flush_cases s <;> rw [h]
  · exact hs
  · exact hs
  · exact emitByte_outputOk _ hs hne

theorem storeObuf_outputOk {k : Nat} (v : Word) {s : State} (hk : k < s.obufSize / 4) (hs : s.OutputOk) :
    (storeWord (fun i b s => s.setObufByte i b) k v s).OutputOk := by
  obtain ⟨hwf, hbelow, hoptr⟩ := hs
  obtain ⟨hwf', hbelow'⟩ := Memory.setWord_ok v hk ⟨hwf, hbelow⟩
  unfold State.OutputOk
  rw [storeWord_obuf]
  exact ⟨hwf', by simpa [State.obufSize, storeWord] using hbelow', by simpa [State.obufSize, storeWord] using hoptr⟩

/-- Reset apart, every operation keeps OBUF and OPTR within OBUF_SIZE. -/
theorem outputOk_of_does {p : Prim} {s t : State} (h : p.Does s t) (hp : p ≠ .resetLow) (hs : s.OutputOk) :
    t.OutputOk := by
  have hsz := view_eq_of_does h (sizes_not_mem_parts p)
  simp only [Part.view, Prod.mk.injEq] at hsz
  by_cases hq : Part.writer ∈ p.parts ∨ Part.obuf ∈ p.parts
  · cases h with
    | winit => exact ⟨hs.1, hs.2.1, Nat.zero_le _⟩
    | writeBit b => exact writeBit_outputOk b hs
    | flush => exact flush_outputOk hs
    | storeObuf k v _ hk => exact storeObuf_outputOk v hk hs
    | sreset => exact ⟨hs.1, hs.2.1, Nat.zero_le _⟩
    | resetLow => exact absurd rfl hp
    | _ => simp [Prim.parts] at hq
  · rw [not_or] at hq
    have hoptr : t.optr = s.optr := congrArg Prod.fst (view_eq_of_does h hq.1)
    have hobuf : t.obuf = s.obuf := view_eq_of_does h hq.2
    simpa only [State.OutputOk, State.obufSize, hoptr, hobuf, hsz] using hs

theorem copyBytes_ok (t : State) (lo n : Nat) {m : Memory} {size : Nat} (hn : ∀ j < n, lo + j < size)
    (hm : m.wf = true ∧ m.below size = true) :
    (copyBytes t lo n m).wf = true ∧ (copyBytes t lo n m).below size = true := by
  unfold copyBytes
  induction n with
  | zero => exact hm
  | succ n ih =>
    rw [List.range_succ, List.foldl_append]
    exact Memory.set_ok _ (hn n (by omega)) (ih fun j hj => hn j (by omega))

/-- What reset leaves in OBUF of an abandoned command lies below the OPTR the command would have reached (R340; log 8). -/
theorem abandonedObuf_ok {s : State} (hs : s.OutputOk) :
    (abandonedObuf s).wf = true ∧ (abandonedObuf s).below s.obufSize = true := by
  have hm : s.obuf.wf = true ∧ s.obuf.below s.obufSize = true := ⟨hs.1, hs.2.1⟩
  unfold abandonedObuf
  cases hr : engineRun s with
  | next t =>
    have hsize : Part.sizes.view t = Part.sizes.view s :=
      (engineRun_runs hr).view_eq fun p _ => sizes_not_mem_parts p
    have hobuf : t.obufSize = s.obufSize := congrArg (fun v : Fin 23 × Fin 23 => Config.bufSize v.2) hsize
    obtain ⟨-, -, ht⟩ : t.OutputOk :=
      engineRun_keeps (fun p hp _ _ hd => outputOk_of_does hd fun h => by
        subst h; revert hp; decide) hr hs
    refine copyBytes_ok t _ _ (fun j hj => ?_) hm
    omega
  | fault _ => exact hm
  | refused _ => exact hm

theorem assertReset_outputOk {s : State} (hs : s.OutputOk) : (assertReset s).OutputOk := by
  unfold assertReset
  split_ifs
  · obtain ⟨hwf, hbelow⟩ := abandonedObuf_ok hs
    exact ⟨hwf, hbelow, Nat.zero_le _⟩
  · exact ⟨hs.1, hs.2.1, Nat.zero_le _⟩

/-- Settles O21: the input side and the output side are each kept by every operation; reset's OBUF lies within what the
abandoned command would have written. -/
theorem buffersAndPointersKept : Obligations.BuffersAndPointersKept := by
  intro s t hbuf hptr h
  obtain ⟨hiwf, howf, hibelow, hobelow⟩ := hbuf
  obtain ⟨hilen, hiptr, hoptr⟩ := hptr
  have hi : t.IbufOk := step_keeps (fun _ _ _ => ibufOk_of_does) h ⟨hiwf, hibelow⟩
  have hn : t.InputOk := step_keeps (fun _ _ _ => inputOk_of_does) h ⟨hilen, hiptr⟩
  have ho : t.OutputOk := by
    refine step_keeps (fun p a b hd ha => ?_) h (show s.OutputOk from ⟨howf, hobelow, hoptr⟩)
    by_cases hp : p = .resetLow
    · subst hp
      cases hd
      exact assertReset_outputOk ha
    · exact outputOk_of_does hd hp ha
  exact ⟨⟨hi.1, ho.1, hi.2, ho.2.1⟩, hn.1, hn.2, ho.2.2⟩

end Sys2Proof.Machine

/-! The rest of the address map (20_memory.md R81 to R86): buffer words, addresses that name nothing, reads while BUSY is 1, and
repeated transactions (R93). -/

namespace Sys2Proof.Machine

/-! ### What an address names -/

/-- A buffer is a whole number of words (00_scope.md R14). -/
theorem bufSize_eq_words (e : Fin 23) : Config.bufSize e = 4 * 2 ^ e.val := by rw [Config.bufSize, pow_add, Nat.mul_comm]; rfl

theorem target_of_ibufWord {s : State} {addr : BitVec 26} {k : Nat} (hk : k < s.ibufSize / 4)
    (h : addr.toNat / 4 * 4 = 0x1000000 + 4 * k) : target s addr = .ibufWord k := by
  have hsz : s.ibufSize ≤ 2 ^ 24 := (bufSize_bounds s.ibufExp).2
  have hword : (addr.toNat / 4 * 4 - ibufBase) / 4 = k := by unfold ibufBase; omega
  simp only [target, hword]
  rw [if_neg (by omega), if_pos (by unfold ibufBase windowSize; omega), if_pos hk]

theorem target_of_obufWord {s : State} {addr : BitVec 26} {k : Nat} (hk : k < s.obufSize / 4)
    (h : addr.toNat / 4 * 4 = 0x2000000 + 4 * k) : target s addr = .obufWord k := by
  have hsz : s.obufSize ≤ 2 ^ 24 := (bufSize_bounds s.obufExp).2
  have hword : (addr.toNat / 4 * 4 - obufBase) / 4 = k := by unfold obufBase; omega
  simp only [target, hword]
  rw [if_neg (by omega), if_neg (by unfold ibufBase windowSize; omega), if_pos (by unfold obufBase windowSize; omega),
    if_pos hk]

theorem target_of_ibufByte {s : State} {addr : BitVec 26} (hlo : 0x1000000 ≤ addr.toNat)
    (hhi : addr.toNat < 0x1000000 + s.ibufSize) : target s addr = .ibufWord ((addr.toNat - 0x1000000) / 4) := by
  have hsz : s.ibufSize = 4 * 2 ^ s.ibufExp.val := bufSize_eq_words _
  exact target_of_ibufWord (by omega) (by omega)

theorem target_of_obufByte {s : State} {addr : BitVec 26} (hlo : 0x2000000 ≤ addr.toNat)
    (hhi : addr.toNat < 0x2000000 + s.obufSize) : target s addr = .obufWord ((addr.toNat - 0x2000000) / 4) := by
  have hsz : s.obufSize = 4 * 2 ^ s.obufExp.val := bufSize_eq_words _
  exact target_of_obufWord (by omega) (by omega)

/-- A word of the IBUF window beyond the buffer names nothing (R86). -/
theorem target_beyond_ibuf {s : State} {addr : BitVec 26} (hlo : 0x1000000 + s.ibufSize ≤ addr.toNat)
    (hhi : addr.toNat < 0x2000000) : target s addr = .nothing := by
  have hword : ¬ (addr.toNat / 4 * 4 - ibufBase) / 4 < s.ibufSize / 4 := by unfold ibufBase; omega
  simp only [target]
  rw [if_neg (by omega), if_pos (by unfold ibufBase windowSize; omega), if_neg hword]

/-- Nor does anything from the end of OBUF on, be it in the window or above (R83, R86). -/
theorem target_beyond_obuf {s : State} {addr : BitVec 26} (hlo : 0x2000000 + s.obufSize ≤ addr.toNat) :
    target s addr = .nothing := by
  have hword : ¬ (addr.toNat / 4 * 4 - obufBase) / 4 < s.obufSize / 4 := by unfold obufBase; omega
  simp only [target]
  rw [if_neg (by omega), if_neg (by unfold ibufBase windowSize; omega), if_neg hword, ite_self]

theorem hostRead_nothing {s : State} {addr : BitVec 26} (h : target s addr = .nothing) : hostRead addr s = answer 0 s := by
  unfold hostRead
  rw [h]
  split_ifs <;> rfl

theorem hostWrite_nothing {s : State} {addr : BitVec 26} (v : Word) (h : target s addr = .nothing) :
    hostWrite addr v s = s := by
  unfold hostWrite
  rw [h]
  split_ifs <;> rfl

/-- Settles O15: every such address names nothing. -/
theorem unmappedAddresses : Obligations.UnmappedAddresses := by
  intro s addr v h
  have htarget : target s addr = .nothing := by
    obtain ⟨hlo, hhi⟩ | ⟨hlo, hhi⟩ | hlo := h
    · exact target_of_hole (by omega) hhi
    · exact target_beyond_ibuf hlo hhi
    · exact target_beyond_obuf hlo
  exact ⟨hostRead_nothing htarget, hostWrite_nothing v htarget⟩

/-! ### Reads while BUSY is 1 -/

theorem hostRead_busy {s : State} (addr : BitVec 26) (hrst : s.rstN = true) (hbusy : s.busy = true) :
    hostRead addr s = readBusy (target s addr) s := by
  simp [hostRead, hrst, hbusy]

/-- STATUS while BUSY is 1: bit 0 is 1, bits 3:1 are the free value's, the others 0 (R35, R97). -/
theorem busyStatus_bits (v : Word) :
    (1 ||| (v &&& 0xE)).getLsbD 0 = true ∧ (1 ||| (v &&& 0xE)).toNat < 16 ∧
      ∀ j < 3, (1 ||| (v &&& 0xE)).getLsbD (j + 1) = v.getLsbD (j + 1) := by
  refine ⟨by simp, ?_, fun j hj => ?_⟩
  · have hand : v.toNat &&& 0xE < 2 ^ 4 := Nat.and_lt_two_pow _ (by decide)
    rw [BitVec.toNat_or, BitVec.toNat_and]
    exact Nat.or_lt_two_pow (n := 4) (by decide) hand
  · have hmask : ∀ j < 3, (0xE : Word).getLsbD (j + 1) = true ∧ (1 : Word).getLsbD (j + 1) = false := by decide
    rw [BitVec.getLsbD_or, BitVec.getLsbD_and, (hmask j hj).1, (hmask j hj).2, Bool.and_true, Bool.false_or]

/-- Settles O16: by what the address names. -/
theorem readsWhileBusy : Obligations.ReadsWhileBusy := by
  intro s addr hrst hbusy
  have hread := hostRead_busy addr hrst hbusy
  refine ⟨fun h => ?_, fun h => ?_, fun hlt h => ?_, fun h => ?_⟩
  · have hlt : addr.toNat / 4 < 21 := by simp only [List.mem_cons, List.not_mem_nil, or_false] at h; omega
    obtain ⟨r, hr⟩ := exists_index hlt
    rw [hread, hostRead_idle (s := { s with busy := false }) hrst rfl hr.symm, target_of_index hr.symm]
    rw [← hr] at h
    cases r with
    | id | ctrl | irqstat | ibufsz | obufsz => rfl
    | _ => simp [Reg.index] at h
  · rw [hread, target_of_index (r := .status) h]
    exact busyStatus_bits _
  · obtain ⟨r, hr⟩ := exists_index (k := addr.toNat / 4) (by omega)
    rw [hread, target_of_index hr.symm]
    rw [← hr] at h
    cases r with
    | id | status | ctrl | irqstat | ibufsz | obufsz => simp [Reg.index] at h
    | _ => rfl
  · obtain ⟨hlo, hhi⟩ | ⟨hlo, hhi⟩ := h
    · rw [hread, target_of_ibufByte hlo hhi]; rfl
    · rw [hread, target_of_obufByte hlo hhi]; rfl

/-! ### Buffer words -/

/-- The byte that a buffer reads as at an index, given its power-on contents (10_state.md R61, R62). -/
def Memory.byteAt (m : Memory) (powerOn : Nat → Byte) (i : Nat) : Byte := (m.get? i).getD (powerOn i)

theorem ibufByte_eq (s : State) : s.ibufByte = s.ibuf.byteAt Config.powerOnIbuf := rfl
theorem obufByte_eq (s : State) : s.obufByte = s.obuf.byteAt Config.powerOnObuf := rfl

theorem Memory.get?_setWord_inside (m : Memory) (k : Nat) (v : Word) {j : Nat} (hj : j < 4) :
    (m.setWord k v).get? (4 * k + j) = some (v.extractLsb' (8 * j) 8) := by
  unfold setWord
  obtain rfl | rfl | rfl | rfl : j = 0 ∨ j = 1 ∨ j = 2 ∨ j = 3 := by omega
  all_goals simp [get?_set_other]

theorem Memory.get?_setWord_outside (m : Memory) {k i : Nat} (v : Word) (h : ¬ (4 * k ≤ i ∧ i < 4 * k + 4)) :
    (m.setWord k v).get? i = m.get? i := by
  unfold setWord
  rw [get?_set_other _ _ (by omega), get?_set_other _ _ (by omega), get?_set_other _ _ (by omega),
    get?_set_other _ _ (by omega)]

theorem Memory.byteAt_setWord_inside (m : Memory) (powerOn : Nat → Byte) (k : Nat) (v : Word) :
    ∀ j < 4, (m.setWord k v).byteAt powerOn (4 * k + j) = v.extractLsb' (8 * j) 8 := fun j hj => by
  simp [byteAt, get?_setWord_inside m k v hj]

theorem Memory.byteAt_setWord_outside (m : Memory) (powerOn : Nat → Byte) (k : Nat) (v : Word) :
    ∀ i, ¬ (4 * k ≤ i ∧ i < 4 * k + 4) → (m.setWord k v).byteAt powerOn i = m.byteAt powerOn i := fun i hi => by
  simp [byteAt, get?_setWord_outside m v hi]

/-- Storing a word twice is storing it once, the canonical form being canonical. -/
theorem Memory.setWord_setWord {m : Memory} (k : Nat) (v : Word) (hm : m.wf = true) :
    (m.setWord k v).setWord k v = m.setWord k v := by
  have hwf : ∀ {m : Memory}, m.wf = true → (m.setWord k v).wf = true := fun h =>
    wf_set _ _ (wf_set _ _ (wf_set _ _ (wf_set _ _ h)))
  refine ext_of_wf (hwf (hwf hm)) (hwf hm) fun i => ?_
  by_cases hi : 4 * k ≤ i ∧ i < 4 * k + 4
  · obtain ⟨j, hj, rfl⟩ : ∃ j < 4, i = 4 * k + j := ⟨i - 4 * k, by omega, by omega⟩
    rw [get?_setWord_inside _ k v hj, get?_setWord_inside _ k v hj]
  · rw [get?_setWord_outside _ v hi]

/-- Bits 7:0 of a word are the byte of lowest index (R90). -/
theorem bufferWord_toNat (byteAt : Nat → Byte) (k : Nat) :
    (bufferWord byteAt k).toNat = (byteAt (4 * k)).toNat + 2 ^ 8 * (byteAt (4 * k + 1)).toNat +
      2 ^ 16 * (byteAt (4 * k + 2)).toNat + 2 ^ 24 * (byteAt (4 * k + 3)).toNat := by
  have happend : ∀ {n m : Nat} (a : BitVec n) (b : BitVec m), (a ++ b).toNat = 2 ^ m * a.toNat + b.toNat := fun a b => by
    rw [BitVec.toNat_append, Nat.shiftLeft_eq, Nat.mul_comm, ← Nat.two_pow_add_eq_or_of_lt b.isLt]
  rw [bufferWord, happend, happend, happend]
  omega

/-- A word whose four bytes are those of `v` is `v`. -/
theorem bufferWord_of_bytes {byteAt : Nat → Byte} {k : Nat} {v : Word}
    (h : ∀ j < 4, byteAt (4 * k + j) = v.extractLsb' (8 * j) 8) : bufferWord byteAt k = v := by
  apply BitVec.eq_of_toNat_eq
  have hbyte : ∀ j < 4, (byteAt (4 * k + j)).toNat = v.toNat / 2 ^ (8 * j) % 2 ^ 8 := fun j hj => by
    rw [h j hj, BitVec.extractLsb'_toNat, Nat.shiftRight_eq_div_pow]
  have h0 := hbyte 0 (by omega)
  have h1 := hbyte 1 (by omega)
  have h2 := hbyte 2 (by omega)
  have h3 := hbyte 3 (by omega)
  have hv := v.isLt
  rw [bufferWord_toNat]
  simp only [Nat.add_zero, Nat.mul_zero, pow_zero, Nat.div_one] at h0
  omega

theorem hostRead_at_rest {s : State} (addr : BitVec 26) (hrst : s.rstN = true) (hbusy : s.busy = false) :
    hostRead addr s = readIdle (target s addr) s := by
  simp [hostRead, hrst, hbusy]

section windows

variable {s : State} {addr : BitVec 26} {k : Nat}

theorem hostRead_ibufWord (hrst : s.rstN = true) (hbusy : s.busy = false) (h : target s addr = .ibufWord k) :
    (hostRead addr s).hostData = bufferWord s.ibufByte k := by
  rw [hostRead_at_rest addr hrst hbusy, h]; rfl

theorem hostRead_obufWord (hrst : s.rstN = true) (hbusy : s.busy = false) (h : target s addr = .obufWord k) :
    (hostRead addr s).hostData = bufferWord s.obufByte k := by
  rw [hostRead_at_rest addr hrst hbusy, h]; rfl

theorem hostWrite_ibufWord (v : Word) (hrst : s.rstN = true) (h : target s addr = .ibufWord k) :
    hostWrite addr v s = checkedWrite (fun s => { s with ibuf := s.ibuf.setWord k v }) s := by
  simp only [hostWrite, hrst, h, if_true]
  rfl

theorem hostWrite_obufWord (v : Word) (hrst : s.rstN = true) (h : target s addr = .obufWord k) :
    hostWrite addr v s = checkedWrite (fun s => { s with obuf := s.obuf.setWord k v }) s := by
  simp only [hostWrite, hrst, h, if_true]
  rfl

/-- A checked write while BUSY is 1 writes neither buffer (40_control.md R149). -/
theorem checkedWrite_busy_buffers (store : State → State) (hbusy : s.busy = true) :
    (checkedWrite store s).ibuf = s.ibuf ∧ (checkedWrite store s).obuf = s.obuf := by
  simp [checkedWrite, hbusy]

end windows

/-- Settles O14: a window word at rest is `setWord` and `bufferWord` of its buffer; while BUSY is 1 a checked write stores
nothing. -/
theorem bufferWindows : Obligations.BufferWindows := by
  intro s addr v k hrst
  refine ⟨fun hk haddr => ?_, fun hk haddr => ?_⟩
  · have htarget := target_of_ibufWord hk haddr
    have hinside := s.ibuf.byteAt_setWord_inside Config.powerOnIbuf k v
    rw [hostWrite_ibufWord v hrst htarget]
    refine ⟨fun hbusy => ?_, fun hbusy => (checkedWrite_busy_buffers _ hbusy).1⟩
    rw [checkedWrite_idle _ hbusy, hostRead_ibufWord hrst hbusy htarget]
    exact ⟨bufferWord_toNat _ k, rfl, hinside, s.ibuf.byteAt_setWord_outside _ k v,
      (hostRead_ibufWord (s := { s with ibuf := s.ibuf.setWord k v }) hrst hbusy htarget).trans (bufferWord_of_bytes hinside)⟩
  · have htarget := target_of_obufWord hk haddr
    have hinside := s.obuf.byteAt_setWord_inside Config.powerOnObuf k v
    rw [hostWrite_obufWord v hrst htarget]
    refine ⟨fun hbusy => ?_, fun hbusy => (checkedWrite_busy_buffers _ hbusy).2⟩
    rw [checkedWrite_idle _ hbusy, hostRead_obufWord hrst hbusy htarget]
    exact ⟨bufferWord_toNat _ k, rfl, hinside, s.obuf.byteAt_setWord_outside _ k v,
      (hostRead_obufWord (s := { s with obuf := s.obuf.setWord k v }) hrst hbusy htarget).trans (bufferWord_of_bytes hinside)⟩

/-! ### Repeated transactions -/

theorem hostRead_frame (addr : BitVec 26) (s : State) :
    hostRead addr s = { s with hostData := (hostRead addr s).hostData, draws := (hostRead addr s).draws } := by
  obtain ⟨v, n, h⟩ := hostRead_state addr s
  rw [h]

theorem readIdle_eq_answer (g : Target) (s : State) : ∃ v, readIdle g s = answer v s := by
  cases g <;> exact ⟨_, rfl⟩

/-- What a read at rest returns does not depend on the data on the bus. -/
theorem readIdle_answer (g : Target) (v : Word) (s : State) : readIdle g (answer v s) = readIdle g s := by
  cases g with
  | reg r => cases r <;> rfl
  | ibufWord _ | obufWord _ | nothing => rfl

theorem hostRead_hostRead {s : State} (addr : BitVec 26) (hrst : s.rstN = true) (hbusy : s.busy = false) :
    hostRead addr (hostRead addr s) = hostRead addr s := by
  obtain ⟨v, hv⟩ := readIdle_eq_answer (target s addr) s
  calc hostRead addr (hostRead addr s) = hostRead addr (answer v s) := by rw [hostRead_at_rest addr hrst hbusy, hv]
    _ = readIdle (target s addr) (answer v s) := hostRead_at_rest (s := answer v s) addr hrst hbusy
    _ = readIdle (target s addr) s := readIdle_answer _ v s
    _ = hostRead addr s := (hostRead_at_rest addr hrst hbusy).symm

theorem record_record (e : ErrKind) (op : Byte) (s : State) : record e op (record e op s) = record e op s := by
  cases h : s.err <;> simp [record, h]

/-- A checked write repeats as its store does. -/
theorem checkedWrite_checkedWrite {store : State → State} {s : State} (hbusy : (store s).busy = s.busy)
    (hstore : store (store s) = store s) : checkedWrite store (checkedWrite store s) = checkedWrite store s := by
  cases h : s.busy <;> simp [checkedWrite, h, hbusy, hstore, record_record]

theorem writeIrqstat_writeIrqstat (v : Word) (s : State) : writeIrqstat v (writeIrqstat v s) = writeIrqstat v s := by
  simp [writeIrqstat]

theorem writeReg_writeReg {r : Reg} (hr : r ≠ .cmd) (v : Word) (s : State) :
    writeReg r v (writeReg r v s) = writeReg r v s := by
  cases r with
  | cmd => exact absurd rfl hr
  | arg => exact checkedWrite_checkedWrite (store := fun s => { s with arg := v }) rfl rfl
  | ilen => exact checkedWrite_checkedWrite (store := storeIlen v) rfl rfl
  | irqstat => exact writeIrqstat_writeIrqstat v s
  | _ => rfl

/-- From `s` to `t` neither the pin nor a buffer size changed: what decides whether an address names the same. -/
def SameMap (s t : State) : Prop := t.rstN = s.rstN ∧ t.ibufExp = s.ibufExp ∧ t.obufExp = s.obufExp

theorem SameMap.target {s t : State} (h : SameMap s t) (addr : BitVec 26) : target t addr = target s addr := by
  obtain ⟨-, hi, ho⟩ := h
  have hsizes : Machine.target t addr = Machine.target { s with ibufExp := t.ibufExp, obufExp := t.obufExp } addr := rfl
  rw [hsizes, hi, ho]

theorem record_sameMap (e : ErrKind) (op : Byte) (s : State) : SameMap s (record e op s) := by simp [SameMap]

theorem checkedWrite_sameMap {store : State → State} {s : State} (h : SameMap s (store s)) :
    SameMap s (checkedWrite store s) := by
  unfold checkedWrite
  split_ifs
  · exact record_sameMap _ _ s
  · exact h

theorem writeReg_sameMap (r : Reg) (v : Word) (s : State) : SameMap s (writeReg r v s) := by
  cases r with
  | cmd =>
    simp only [writeReg, writeCmd]
    split_ifs
    · exact record_sameMap _ _ s
    · exact ⟨rfl, rfl, rfl⟩
    · exact ⟨rfl, rfl, rfl⟩
  | arg => exact checkedWrite_sameMap (store := fun s => { s with arg := v }) ⟨rfl, rfl, rfl⟩
  | ilen => exact checkedWrite_sameMap (store := storeIlen v) ⟨rfl, rfl, rfl⟩
  | _ => exact ⟨rfl, rfl, rfl⟩

/-- No write changes the pin, the sizes, and with them the address map (20_memory.md R81). -/
theorem hostWrite_sameMap (addr : BitVec 26) (v : Word) (s : State) : SameMap s (hostWrite addr v s) := by
  unfold hostWrite
  split_ifs
  · cases target s addr with
    | reg r => exact writeReg_sameMap r v s
    | ibufWord k => exact checkedWrite_sameMap (by simp [SameMap, storeWord])
    | obufWord k => exact checkedWrite_sameMap (by simp [SameMap, storeWord])
    | nothing => exact ⟨rfl, rfl, rfl⟩
  · exact ⟨rfl, rfl, rfl⟩

theorem index_of_target {s : State} {addr : BitVec 26} {r : Reg} (h : target s addr = .reg r) :
    addr.toNat / 4 = r.index := by
  simp only [target] at h
  split_ifs at h
  cases hreg : regAt (addr.toNat / 4 * 4) with
  | none => rw [hreg] at h; cases h
  | some r' =>
    rw [hreg] at h
    cases h
    have := offset_of_regAt hreg
    omega

/-- A second identical write to any address but CMD changes nothing (R93). -/
theorem hostWrite_hostWrite {s : State} {addr : BitVec 26} (v : Word) (hbuf : s.BuffersOk) (haddr : addr.toNat / 4 ≠ 1) :
    hostWrite addr v (hostWrite addr v s) = hostWrite addr v s := by
  have hmap := hostWrite_sameMap addr v s
  have htarget' := hmap.target addr
  obtain ⟨hiwf, howf, -⟩ := hbuf
  by_cases hrst : s.rstN = true
  · have hrst' := hmap.1.trans hrst
    cases htarget : target s addr with
    | reg r =>
      have hr := index_of_target htarget
      rw [hostWrite_reg v hrst' hr, hostWrite_reg v hrst hr]
      exact writeReg_writeReg (fun hcmd => haddr (by rw [hr, hcmd]; rfl)) v s
    | ibufWord k =>
      rw [hostWrite_ibufWord v hrst' (htarget'.trans htarget), hostWrite_ibufWord v hrst htarget]
      exact checkedWrite_checkedWrite rfl (by simp only [Memory.setWord_setWord k v hiwf])
    | obufWord k =>
      rw [hostWrite_obufWord v hrst' (htarget'.trans htarget), hostWrite_obufWord v hrst htarget]
      exact checkedWrite_checkedWrite rfl (by simp only [Memory.setWord_setWord k v howf])
    | nothing => rw [hostWrite_nothing v htarget, hostWrite_nothing v htarget]
  · simp [hostWrite, hrst]

/-- Settles O13: reads by the frame of `hostRead`, writes by what the address names. -/
theorem busIsIdempotent : Obligations.BusIsIdempotent := fun s addr v hbuf =>
  ⟨hostRead_frame addr s, hostRead_hostRead addr, hostWrite_hostWrite v hbuf⟩

end Sys2Proof.Machine

/-! Which buffer bytes a command writes, and which it reads (20_memory.md R92). -/

namespace Sys2Proof.Machine

/-! ### Where a command's output starts -/

/-- The state in which a command's output starts: HCOMP begins with WINIT, HEXP with RINIT and WINIT (46_huffman_encode.md R266,
47_huffman_decode.md R287). -/
def startOf (i : Instr) (s : State) : State :=
  match i with
  | .hcomp => { s with optr := 0, wacc := 0, wcnt := 0 }
  | .hexp => { s with iptr := 0, racc := 0, rcnt := 0, eoi := false, optr := 0, wacc := 0, wcnt := 0 }
  | _ => s

theorem startOf_optr (i : Instr) (s : State) : (startOf i s).optr.toNat = outputStart i s := by cases i <;> rfl
theorem startOf_obufByte (i : Instr) (s : State) : (startOf i s).obufByte = s.obufByte := by cases i <;> rfl

/-- HCOMP after its WINIT (R266). -/
def hcompOutput (s : State) : Res Unit :=
  (fclr s).bind fun _ s => (fcount s).bind fun _ s => (hbuild s).bind fun _ s => (htrie s).bind fun _ s =>
  (hcountw s).bind fun _ s => (hsyms s).bind fun _ s => flush s

/-- HEXP after its RINIT and WINIT (R287). -/
def hexpOutput (s : State) : Res Unit :=
  (hrtrie s).bind fun _ s => (hrcount s).bind fun _ s => (hdsyms s).bind fun _ s => flush s

theorem exec_hcomp (s : State) : exec .hcomp s = completed (hcompOutput (startOf .hcomp s)) := rfl
theorem exec_hexp (s : State) : exec .hexp s = completed (hexpOutput (startOf .hexp s)) := rfl

/-! ### What is written -/

/-- From `s` to `t` OPTR only advanced, within OBUF, and only the bytes it passed were written (41_bitwriter.md R161). -/
structure Appends (s t : State) : Prop where
  advances : s.optr.toNat ≤ t.optr.toNat
  fits : t.optr.toNat ≤ t.obufSize
  outside : ObufSameOutside s t s.optr.toNat t.optr.toNat

theorem Appends.refl {s : State} (h : s.optr.toNat ≤ s.obufSize) : Appends s s := ⟨le_rfl, h, .refl s _ _⟩

theorem Appends.emitByte {s t : State} (h : Appends s t) (b : Byte) (hne : t.optr.toNat ≠ t.obufSize) :
    Appends s (emitByte b t) := by
  obtain ⟨hadv, hfits, hout⟩ := h
  have hsz : t.obufSize ≤ 2 ^ 24 := (bufSize_bounds t.obufExp).2
  have hnext : (t.optr + 1).toNat = t.optr.toNat + 1 := by rw [BitVec.toNat_add]; simp; omega
  refine ⟨?_, ?_, fun i hi => ?_⟩
  · rw [emitByte_optr, hnext]; omega
  · show (t.optr + 1).toNat ≤ t.obufSize
    omega
  · rw [emitByte_optr, hnext] at hi
    rw [obufByte_emitByte_other b t (by omega), hout i (by omega)]

theorem Appends.writeBit {s t : State} (h : Appends s t) (b : Bool) : Appends s (writeBit b t).state := by
  obtain ⟨-, -, hr⟩ | ⟨-, hne, hr⟩ | ⟨_, hr⟩ := writeBit_cases b t <;> rw [hr]
  · exact h
  · exact h.emitByte _ hne
  · exact ⟨h.advances, h.fits, h.outside⟩

theorem Appends.flush {s t : State} (h : Appends s t) : Appends s (flush t).state := by
  obtain ⟨-, hr⟩ | ⟨-, hr⟩ | ⟨hne, hr⟩ := flush_cases t <;> rw [hr]
  · exact h
  · exact h
  · exact h.emitByte _ hne

/-- The operations of the commands that never set OPTR back. -/
def appendPrims : List Prim := enginePrims.filter fun p => decide (p ≠ .winit ∧ p ≠ .sreset)

theorem appends_of_does {p : Prim} {s t u : State} (hp : p ∈ appendPrims) (hd : p.Does t u) (h : Appends s t) :
    Appends s u := by
  by_cases hq : Part.writer ∈ p.parts ∨ Part.obuf ∈ p.parts
  · cases hd with
    | writeBit b => exact h.writeBit b
    | flush => exact h.flush
    | winit | sreset | storeObuf | resetLow => exact absurd hp (by decide)
    | _ => simp [Prim.parts] at hq
  · rw [not_or] at hq
    have hsz := view_eq_of_does hd (sizes_not_mem_parts p)
    simp only [Part.view, Prod.mk.injEq] at hsz
    have hoptr : u.optr = t.optr := congrArg Prod.fst (view_eq_of_does hd hq.1)
    have hobuf : u.obuf = t.obuf := view_eq_of_does hd hq.2
    obtain ⟨hadv, hfits, hout⟩ := h
    refine ⟨by rwa [hoptr], by rwa [State.obufSize, hoptr, hsz.2], fun j hj => ?_⟩
    rw [hoptr] at hj
    rw [obufByte_eq, hobuf]
    exact hout j hj

/-- A command that writes OBUF runs from its output's start without setting OPTR back. -/
theorem exec_runs_from_start {i : Instr} {s t : State} (hq : Part.obuf ∈ partsOf i) (h : exec i s = .next t) :
    Runs appendPrims (startOf i s) t := by
  have hruns := exec_runs h
  cases i with
  | hcomp =>
    rw [exec_hcomp, completed, Host.Outcome.next.injEq] at h
    have hbody : Performs [.fclr, .fcount, .hbuild, .writeBit, .flush] hcompOutput :=
      (fclr_performs (by decide)).bind fun _ => (fcount_performs (by decide)).bind fun _ =>
      (hbuild_performs (by decide)).bind fun _ => (htrie_performs (by decide)).bind fun _ =>
      (hcountw_performs (by decide)).bind fun _ => (hsyms_performs (by decide)).bind fun _ => flush_performs (by decide)
    rw [← h]
    exact (complete_runs _ (hbody _)).mono (by decide)
  | hexp =>
    rw [exec_hexp, completed, Host.Outcome.next.injEq] at h
    have hbody : Performs [.hrtrie, .readBit, .writeBit, .setHrem, .flush] hexpOutput :=
      (hrtrie_performs (by decide)).bind fun _ => (hrcount_performs (by decide) (by decide)).bind fun _ =>
      (hdsyms_performs (by decide) (by decide) (by decide)).bind fun _ => flush_performs (by decide)
    rw [← h]
    exact (complete_runs _ (hbody _)).mono (by decide)
  | wbit _ | wbits _ | wflush | lemit _ _ | leof | htrie | hcountw | hsym _ | hsyms | hdsyms =>
    exact hruns.mono (by simp only [primsOf]; decide)
  | _ => simp [partsOf, primsOf, Prim.parts] at hq

theorem ibuf_not_mem_partsOf (i : Instr) : Part.ibuf ∉ partsOf i := by
  have h : ∀ p ∈ enginePrims, Part.ibuf ∉ p.parts := by decide
  intro hm
  obtain ⟨p, hp, hq⟩ := List.mem_flatMap.mp hm
  exact h p (primsOf_subset i hp) hq

theorem exec_appends {i : Instr} {s t : State} (hs : s.optr.toNat ≤ s.obufSize) (hq : Part.obuf ∈ partsOf i)
    (h : exec i s = .next t) : Appends (startOf i s) t := by
  have hstart : (startOf i s).optr.toNat ≤ (startOf i s).obufSize := by
    cases i with
    | hcomp | hexp => exact Nat.zero_le _
    | _ => exact hs
  exact (exec_runs_from_start hq h).keeps (P := Appends (startOf i s)) (fun p hp _ _ => appends_of_does hp) (.refl hstart)

/-- Settles O30: no operation of a command writes IBUF, and those that write OBUF only append to the output. -/
theorem bufferWriters : Obligations.BufferWriters := by
  intro i s t hs h
  refine ⟨exec_view_eq h (ibuf_not_mem_partsOf i), fun j hj => ?_⟩
  by_cases hq : Part.obuf ∈ partsOf i
  · rw [← startOf_obufByte i s]
    exact (exec_appends hs hq h).outside j (by rwa [startOf_optr])
  · have hobuf : t.obuf = s.obuf := exec_view_eq h hq
    rw [obufByte_eq, hobuf, obufByte_eq]

end Sys2Proof.Machine

/-! No command depends on what it does not read: OBUF, and IBUF at or above ILEN (20_memory.md R92, 70_reset_and_hazards.md R342).
Two runs from states that differ only there go side by side. -/

namespace Sys2Proof.Machine

/-! ### States that differ in unread bytes -/

/-- `s` with other buffers. -/
def withBuffers (ib ob : Memory) (s : State) : State := { s with ibuf := ib, obuf := ob }

/-- `s'` is `s` but for the buffers, and they agree in the input and in the output written from `lo` on. -/
def Alike (lo : Nat) (s s' : State) : Prop :=
  ∃ ib ob, s' = withBuffers ib ob s ∧ (∀ j < s.ilen.toNat, (withBuffers ib ob s).ibufByte j = s.ibufByte j) ∧
    ∀ j, lo ≤ j → j < s.optr.toNat → (withBuffers ib ob s).obufByte j = s.obufByte j

theorem Alike.input {lo : Nat} {s s' : State} (h : Alike lo s s') : s'.input = s.input := by
  obtain ⟨ib, ob, rfl, hin, -⟩ := h
  exact List.map_congr_left fun j hj => hin j (List.mem_range.mp hj)

/-- An update that neither reads nor writes a buffer, and moves neither ILEN nor OPTR up. -/
structure Blind (f : State → State) : Prop where
  comm : ∀ ib ob s, f (withBuffers ib ob s) = withBuffers ib ob (f s) := by exact fun _ _ _ => rfl
  ilen : ∀ s, (f s).ilen.toNat ≤ s.ilen.toNat := by exact fun _ => le_rfl
  optr : ∀ s, (f s).optr.toNat ≤ s.optr.toNat := by exact fun _ => le_rfl

theorem Alike.update {lo : Nat} {s s' : State} (h : Alike lo s s') {f : State → State} (hf : Blind f) :
    Alike lo (f s) (f s') := by
  obtain ⟨ib, ob, rfl, hin, hout⟩ := h
  have hkeep : f s = withBuffers s.ibuf s.obuf (f s) := hf.comm s.ibuf s.obuf s
  refine ⟨ib, ob, hf.comm ib ob s, fun j hj => ?_, fun j hlo hj => ?_⟩
  · rw [hkeep]; exact hin j (hj.trans_le (hf.ilen s))
  · rw [hkeep]; exact hout j hlo (hj.trans_le (hf.optr s))

/-- Two bodies ended alike: with the same value or error, in states alike. -/
inductive ResAlike {α : Type} (lo : Nat) : Res α → Res α → Prop where
  | ok (a : α) {s s' : State} (h : Alike lo s s') : ResAlike lo (.ok a s) (.ok a s')
  | raised (e : ErrKind) {s s' : State} (h : Alike lo s s') : ResAlike lo (.raised e s) (.raised e s')

/-- A body that runs alike from states alike. -/
def Agrees {α : Type} (body : State → Res α) : Prop :=
  ∀ ⦃lo : Nat⦄ ⦃s s' : State⦄, Alike lo s s' → ResAlike lo (body s) (body s')

theorem Agrees.ok {α : Type} (a : α) {f : State → State} (hf : Blind f) : Agrees fun s => .ok a (f s) :=
  fun _ _ _ h => .ok a (h.update hf)

theorem Agrees.raised {α : Type} (e : ErrKind) {f : State → State} (hf : Blind f) :
    Agrees (α := α) fun s => .raised e (f s) :=
  fun _ _ _ h => .raised e (h.update hf)

theorem Agrees.raise {α : Type} (e : ErrKind) : Agrees (α := α) fun s => .raised e s := fun _ _ _ h => .raised e h

theorem Agrees.bind {α β : Type} {f : State → Res α} {k : α → State → Res β} (hf : Agrees f) (hk : ∀ a, Agrees (k a)) :
    Agrees fun s => (f s).bind k := by
  intro lo s s' h
  have hr := hf h
  revert hr
  simp only
  generalize f s = r
  generalize f s' = r'
  intro hr
  cases hr with
  | ok a ht => exact hk a ht
  | raised e ht => exact .raised e ht

/-- A body run after a blind update. -/
theorem Agrees.comp {α : Type} {f : State → State} {body : State → Res α} (hb : Agrees body) (hf : Blind f) :
    Agrees fun s => body (f s) :=
  fun _ _ _ h => hb (h.update hf)

/-- A body that depends on something read outside the buffers. -/
theorem Agrees.read {α β : Type} (g : State → β) (hg : ∀ ib ob s, g (withBuffers ib ob s) = g s) {k : β → State → Res α}
    (hk : ∀ b, Agrees (k b)) : Agrees fun s => k (g s) s := by
  intro lo s s' h
  have hread : g s' = g s := by
    obtain ⟨ib, ob, rfl, -⟩ := h
    exact hg ib ob s
  simp only [hread]
  exact hk _ h

/-- A body that depends on the input. -/
theorem Agrees.readInput {α : Type} {k : List Byte → State → Res α} (hk : ∀ l, Agrees (k l)) :
    Agrees fun s => k s.input s := by
  intro lo s s' h
  simp only [h.input]
  exact hk _ h

theorem Agrees.ite {α : Type} (p : State → Prop) [∀ s, Decidable (p s)] {f g : State → Res α}
    (hp : ∀ ib ob s, p (withBuffers ib ob s) ↔ p s) (hf : Agrees f) (hg : Agrees g) :
    Agrees fun s => if p s then f s else g s := by
  intro lo s s' h
  have hps : p s' ↔ p s := by
    obtain ⟨ib, ob, rfl, -⟩ := h
    exact hp ib ob s
  by_cases hs : p s
  · simpa only [hs, hps.mpr hs, if_true] using hf h
  · simpa only [hs, hps.not.mpr hs, if_false] using hg h

/-! ### Writer -/

/-- The byte emitted is the same in both runs, whatever OBUF held. -/
theorem Alike.emitByte {lo : Nat} {s s' : State} (h : Alike lo s s') (b : Byte) :
    Alike lo (emitByte b s) (emitByte b s') := by
  obtain ⟨ib, ob, rfl, hin, hout⟩ := h
  refine ⟨ib, ob.set s.optr.toNat b, rfl, hin, fun j hlo hj => ?_⟩
  have hle : (s.optr + 1).toNat ≤ s.optr.toNat + 1 := by rw [BitVec.toNat_add]; exact Nat.mod_le _ _
  show (Machine.emitByte b (withBuffers ib ob s)).obufByte j = (Machine.emitByte b s).obufByte j
  by_cases hlast : j = s.optr.toNat
  · subst hlast
    exact (obufByte_emitByte_same b (withBuffers ib ob s)).trans (obufByte_emitByte_same b s).symm
  · rw [obufByte_emitByte_other b s hlast, obufByte_emitByte_other b (withBuffers ib ob s) hlast]
    rw [emitByte_optr] at hj
    exact hout j hlo (by omega)

theorem emitByte_agrees (b : Byte) : Agrees fun s => .ok () (emitByte b s) := fun _ _ _ h => .ok () (h.emitByte b)

theorem writeBit_agrees (b : Bool) : Agrees (writeBit b) := by
  intro lo s s' h
  have hemit := emitByte_agrees (accWith b s) h
  obtain ⟨ib, ob, rfl, hin, hout⟩ := h
  obtain ⟨h7, hfull, hr⟩ | ⟨h7, hfull, hr⟩ | ⟨h7, hr⟩ := writeBit_cases b s
  · have hr' : writeBit b (withBuffers ib ob s) = .raised .obufOverflow (withBuffers ib ob s) :=
      (dif_pos h7).trans (if_pos hfull)
    rw [hr, hr']
    exact .raised _ ⟨ib, ob, rfl, hin, hout⟩
  · have hr' : writeBit b (withBuffers ib ob s) = .ok () (emitByte (accWith b s) (withBuffers ib ob s)) :=
      (dif_pos h7).trans (if_neg hfull)
    rw [hr, hr']
    exact hemit
  · have hr' : writeBit b (withBuffers ib ob s) =
        .ok () (withBuffers ib ob { s with wacc := accWith b s, wcnt := ⟨s.wcnt.val + 1, by omega⟩ }) :=
      dif_neg (by show s.wcnt.val ≠ 7; omega)
    rw [hr, hr']
    exact .ok () ⟨ib, ob, rfl, hin, hout⟩

theorem writeBits_agrees (v : BitVec 64) (n : Nat) : Agrees (writeBits v n) := by
  induction n with
  | zero => exact .ok () {}
  | succ n ih => exact (writeBit_agrees _).bind fun _ => ih

theorem flush_agrees : Agrees flush :=
  .ite (fun s => s.wcnt.val = 0) (fun _ _ _ => Iff.rfl) (.ok () {})
    (.ite (fun s => s.optr.toNat = s.obufSize) (fun _ _ _ => Iff.rfl) (.raise _)
      (.read (fun s => s.wacc <<< (8 - s.wcnt.val)) (fun _ _ _ => rfl) emitByte_agrees))

theorem wbits_agrees (n : Byte) : Agrees (wbits n) :=
  .ite (fun _ => widthOk n = true) (fun _ _ _ => Iff.rfl)
    (.read (fun s => wideOfWord (argOperand s)) (fun _ _ _ => rfl) fun v => writeBits_agrees v (widthOperand n)) (.raise _)

/-! ### Reader -/

/-- A byte is loaded only below ILEN (42_bitreader.md R181). -/
theorem refill_withBuffers {ib ob : Memory} {s : State}
    (hin : ∀ j < s.ilen.toNat, (withBuffers ib ob s).ibufByte j = s.ibufByte j) :
    refill (withBuffers ib ob s) = (refill s).map (withBuffers ib ob) := by
  show (if s.rcnt.val = 0 then if s.iptr < s.ilen then _ else _ else _) = _
  unfold refill
  split_ifs with h0 hlt
  · have hbyte : (withBuffers ib ob s).ibufByte (withBuffers ib ob s).iptr.toNat = s.ibufByte s.iptr.toNat := hin _ hlt
    rw [hbyte]
    rfl
  · rfl
  · rfl

theorem readBit_withBuffers {ib ob : Memory} {s : State}
    (hin : ∀ j < s.ilen.toNat, (withBuffers ib ob s).ibufByte j = s.ibufByte j) :
    readBit (withBuffers ib ob s) = ((readBit s).1, withBuffers ib ob (readBit s).2) := by
  simp only [readBit, refill_withBuffers hin]
  cases refill s <;> rfl

theorem Alike.readBit {lo : Nat} {s s' : State} (h : Alike lo s s') :
    (readBit s').1 = (readBit s).1 ∧ Alike lo (readBit s).2 (readBit s').2 := by
  obtain ⟨ib, ob, rfl, hin, hout⟩ := h
  have hf := readBit_onlyReader s
  rw [readBit_withBuffers hin]
  refine ⟨rfl, ib, ob, rfl, ?_, ?_⟩
  · rw [hf]; exact hin
  · rw [hf]; exact hout

theorem Alike.readBitsFrom {lo : Nat} (n : Nat) (v : Word) {s s' : State} (h : Alike lo s s') :
    (readBitsFrom n v s').1 = (readBitsFrom n v s).1 ∧ Alike lo (readBitsFrom n v s).2 (readBitsFrom n v s').2 := by
  induction n generalizing v s s' with
  | zero => exact ⟨rfl, h⟩
  | succ n ih =>
    obtain ⟨hbit, hnext⟩ := h.readBit
    simp only [Machine.readBitsFrom, hbit]
    exact ih _ hnext

theorem setResult_blind (v : Word) : Blind fun s => { s with result := v } := {}

theorem rbit_agrees : Agrees rbit := by
  intro lo s s' h
  obtain ⟨hbit, hnext⟩ := h.readBit
  simp only [rbit, hbit]
  exact .ok () (hnext.update (setResult_blind _))

theorem rbits_agrees (n : Byte) : Agrees (rbits n) := by
  refine .ite (fun _ => widthOk n = true) (fun _ _ _ => Iff.rfl) (fun lo s s' h => ?_) (.raise _)
  obtain ⟨hbits, hnext⟩ := h.readBitsFrom (widthOperand n) 0
  simp only [readBits, hbits]
  exact .ok () (hnext.update (setResult_blind _))

theorem decBit_agrees : Agrees decBit := by
  intro lo s s' h
  obtain ⟨hbit, hnext⟩ := h.readBit
  have hend := Agrees.ite (fun s : State => s.eoi = true) (fun _ _ _ => Iff.rfl) (.raise .malformedStream)
    (.ok (readBit s).1 (f := id) {}) hnext
  simp only [decBit, hbit]
  exact hend

theorem decBitsFrom_agrees (n : Nat) (v : Word) : Agrees (decBitsFrom n v) := by
  induction n generalizing v with
  | zero => exact .ok v {}
  | succ n ih => exact decBit_agrees.bind fun _ => ih _

theorem decBits_agrees (n : Nat) : Agrees (decBits n) := decBitsFrom_agrees n 0

/-! ### LZW and the frequency counter -/

theorem assignCode_blind (g : Bool) : Blind (assignCode g) where
  comm ib ob s := by
    show (if g = true ∧ s.enext.toNat < Config.lzwCap then _ else _) = _
    unfold assignCode
    split_ifs <;> rfl
  ilen s := by unfold assignCode; split_ifs <;> exact le_rfl
  optr s := by unfold assignCode; split_ifs <;> exact le_rfl

theorem lemit_agrees (c : BitVec 12) (g : Bool) : Agrees (lemit c g) :=
  .ite (fun s => codeOperand c = Config.lzwEof ∨ s.enext.toNat ≤ codeOperand c) (fun _ _ _ => Iff.rfl) (.raise _)
    ((writeBits_agrees _ _).bind fun _ => .ok () (assignCode_blind g))

theorem appendEntry_blind (c : BitVec 12) (self : Bool) : Blind (appendEntry c self) where
  comm ib ob s := by
    show (if s.dnext.toNat < Config.lzwCap then _ else _) = _
    unfold appendEntry
    split_ifs <;> rfl
  ilen s := by unfold appendEntry; split_ifs <;> exact le_rfl
  optr s := by unfold appendEntry; split_ifs <;> exact le_rfl

theorem classify_agrees (c : BitVec 12) : Agrees (classify c) :=
  .ite (fun _ => c.toNat = Config.lzwEof) (fun _ _ _ => Iff.rfl) (.ok () {})
    (.ite (fun s => s.dfirst = true) (fun _ _ _ => Iff.rfl)
      (.ite (fun _ => Config.lzwFirst ≤ c.toNat) (fun _ _ _ => Iff.rfl) (.raise _) (.ok () {}))
      (.ite (fun s => c.toNat < s.dnext.toNat) (fun _ _ _ => Iff.rfl) (.ok () (appendEntry_blind c false))
        (.ite (fun s => c.toNat = s.dnext.toNat) (fun _ _ _ => Iff.rfl) (.ok () (appendEntry_blind c true)) (.raise _))))

theorem lread_agrees : Agrees lread := (decBits_agrees _).bind fun _ => classify_agrees _

theorem fcount_agrees : Agrees fcount :=
  .ite (fun s => 2 ^ 32 - 1 < s.total.toNat + s.ilen.toNat) (fun _ _ _ => Iff.rfl) (.raise _)
    (.readInput (k := fun l s => .ok () { s with freq := countAll s.freq l, total := s.total + s.ilen }) fun _ => .ok () {})

theorem fwr_agrees (c : Byte) : Agrees (fwr c) :=
  .ite (fun s => 2 ^ 32 - 1 < newTotal c s) (fun _ _ _ => Iff.rfl) (.raise _) (.ok () {})

/-! ### Huffman -/

theorem hbuild_agrees : Agrees hbuild :=
  .ite (fun s => (codeTable (buildTrie s).node (buildTrie s).root).tooLong = true) (fun _ _ _ => Iff.rfl)
    (.raised _ {}) (.ok () {})

theorem needTrie_agrees {body : State → Res Unit} (h : Agrees body) : Agrees (needTrie body) :=
  .ite (fun s => s.tvalid = true) (fun _ _ _ => Iff.rfl) h (.raise _)

theorem ser_agrees (k : Nat) (i : Fin 511) : Agrees (ser k i) := by
  induction k generalizing i with
  | zero => exact .raise _
  | succ k ih =>
    refine .read (fun s => s.nodeAt i) (fun _ _ _ => rfl) (k := fun n s =>
      if n.leaf then (writeBit true s).bind fun _ s => writeBits (wideOfByte n.sym) 8 s
      else (writeBit false s).bind fun _ s => (ser k n.left s).bind fun _ s => ser k n.right s) fun n => ?_
    exact .ite (fun _ => n.leaf = true) (fun _ _ _ => Iff.rfl)
      ((writeBit_agrees true).bind fun _ => writeBits_agrees _ _)
      ((writeBit_agrees false).bind fun _ => (ih n.left).bind fun _ => ih n.right)

theorem htrie_agrees : Agrees htrie :=
  needTrie_agrees (.read State.root (fun _ _ _ => rfl) (ser_agrees serDepth))

theorem hcountw_agrees : Agrees hcountw :=
  .read (fun s => wideOfWord s.ilen) (fun _ _ _ => rfl) fun v => writeBits_agrees v Config.countBits

theorem emitCode_agrees (c : Byte) : Agrees (emitCode c) :=
  .ite (fun s => s.lenOf c = 0) (fun _ _ _ => Iff.rfl) (.raise _)
    (.read (fun s => (s.codeOf c, (s.lenOf c).toNat)) (fun _ _ _ => rfl) fun code => writeBits_agrees code.1 code.2)

theorem emitAll_agrees (cs : List Byte) : Agrees (emitAll cs) := by
  induction cs with
  | nil => exact .ok () {}
  | cons c cs ih => exact (emitCode_agrees c).bind fun _ => ih

theorem hsyms_agrees : Agrees hsyms := needTrie_agrees (.readInput emitAll_agrees)

theorem parse_agrees (k : Nat) : Agrees (parse k) := by
  induction k with
  | zero => exact .raise _
  | succ k ih =>
    intro lo s s' h
    have hd := decBit_agrees h
    generalize hb : decBit s = r at hd
    generalize hb' : decBit s' = r' at hd
    cases hd with
    | raised e ht =>
      simp only [parse, hb, hb', Res.bind_raised]
      exact .raised e ht
    | @ok b t t' ht =>
      obtain ⟨ib, ob, rfl, hin, hout⟩ := ht
      by_cases hfull : t.nodes.val = 511
      · have hfull' : (withBuffers ib ob t).nodes.val = 511 := hfull
        simp only [parse, hb, hb', Res.bind_ok, hfull, hfull', dif_pos]
        exact .raised _ ⟨ib, ob, rfl, hin, hout⟩
      · have halloc : Alike lo (allocNode b t hfull) (allocNode b (withBuffers ib ob t) hfull) :=
          ⟨ib, ob, rfl, hin, hout⟩
        rw [parse_tag hb hfull, parse_tag hb' hfull]
        split_ifs
        · exact ((decBits_agrees 8).bind fun _ => .ok _ {}) halloc
        · exact (ih.bind fun _ => (ih.bind fun _ => .ok _ {}).comp {}) halloc

theorem hrtrie_agrees : Agrees hrtrie :=
  ((parse_agrees parseDepth).bind fun _ => .ok () (f := fun s => { s with tvalid := true }) {}).comp (f := dropTrie) {}

theorem hrcount_agrees : Agrees hrcount := (decBits_agrees _).bind fun _ => .ok () {}

theorem decodeFrom_agrees (k : Nat) (i : Fin 511) : Agrees (decodeFrom k i) := by
  induction k generalizing i with
  | zero => exact .raise _
  | succ k ih =>
    refine .read (fun s => s.nodeAt i) (fun _ _ _ => rfl) (k := fun n s =>
      if n.leaf then .ok n.sym s else (decBit s).bind fun b s => decodeFrom k (if b then n.right else n.left) s) fun n => ?_
    exact .ite (fun _ => n.leaf = true) (fun _ _ _ => Iff.rfl) (.ok n.sym {}) (decBit_agrees.bind fun _ => ih _)

theorem decodeSymbol_agrees : Agrees decodeSymbol := .read State.root (fun _ _ _ => rfl) (decodeFrom_agrees decodeDepth)

theorem decodeAll_agrees (n : Nat) : Agrees (decodeAll n) := by
  induction n with
  | zero => exact .ok () {}
  | succ n ih =>
    exact decodeSymbol_agrees.bind fun c => (writeBits_agrees _ _).bind fun _ =>
      ih.comp (f := fun s => { s with hrem := s.hrem - 1 }) {}

theorem hdsym_agrees : Agrees hdsym := needTrie_agrees (decodeSymbol_agrees.bind fun _ => .ok () (setResult_blind _))

theorem hdsyms_agrees : Agrees hdsyms :=
  needTrie_agrees (.read (fun s => s.hrem.toNat) (fun _ _ _ => rfl) decodeAll_agrees)

theorem hcompOutput_agrees : Agrees hcompOutput :=
  (Agrees.ok () {}).bind fun _ => fcount_agrees.bind fun _ => hbuild_agrees.bind fun _ => htrie_agrees.bind fun _ =>
  hcountw_agrees.bind fun _ => hsyms_agrees.bind fun _ => flush_agrees

theorem hexpOutput_agrees : Agrees hexpOutput :=
  hrtrie_agrees.bind fun _ => hrcount_agrees.bind fun _ => hdsyms_agrees.bind fun _ => flush_agrees

/-! ### The commands -/

/-- From where its output starts, every command completes a body that runs alike. -/
theorem exec_agrees (i : Instr) : ∃ body, Agrees body ∧ ∀ s, exec i s = completed (body (startOf i s)) := by
  cases i with
  | nop => exact ⟨_, .ok () (f := id) {}, fun _ => rfl⟩
  | clrerr => exact ⟨_, .ok () (f := clearError) {}, fun _ => rfl⟩
  | sreset =>
    exact ⟨_, .ok () (f := resetEngine) { ilen := fun _ => Nat.zero_le _, optr := fun _ => Nat.zero_le _ }, fun _ => rfl⟩
  | winit =>
    exact ⟨winit, .ok () { optr := fun _ => Nat.zero_le _ }, fun _ => rfl⟩
  | wbit b => exact ⟨_, writeBit_agrees b, fun _ => rfl⟩
  | wbits n => exact ⟨_, wbits_agrees n, fun _ => rfl⟩
  | wflush => exact ⟨_, flush_agrees, fun _ => rfl⟩
  | rinit => exact ⟨rinit, .ok () {}, fun _ => rfl⟩
  | rbit => exact ⟨_, rbit_agrees, fun _ => rfl⟩
  | rbits n => exact ⟨_, rbits_agrees n, fun _ => rfl⟩
  | linit => exact ⟨linit, .ok () {}, fun _ => rfl⟩
  | lemit c g => exact ⟨_, lemit_agrees c g, fun _ => rfl⟩
  | leof => exact ⟨_, writeBits_agrees _ _, fun _ => rfl⟩
  | lread => exact ⟨_, lread_agrees, fun _ => rfl⟩
  | fclr => exact ⟨fclr, .ok () {}, fun _ => rfl⟩
  | fcount => exact ⟨_, fcount_agrees, fun _ => rfl⟩
  | frd c => exact ⟨frd c, .ok () {}, fun _ => rfl⟩
  | fwr c => exact ⟨_, fwr_agrees c, fun _ => rfl⟩
  | hbuild => exact ⟨_, hbuild_agrees, fun _ => rfl⟩
  | hlen c => exact ⟨hlen c, .ok () {}, fun _ => rfl⟩
  | hcodelo c => exact ⟨hcodelo c, .ok () {}, fun _ => rfl⟩
  | hcodehi c => exact ⟨hcodehi c, .ok () {}, fun _ => rfl⟩
  | hnode n => exact ⟨hnode n, .ok () {}, fun _ => rfl⟩
  | hnodef n => exact ⟨hnodef n, .ok () {}, fun _ => rfl⟩
  | htrie => exact ⟨_, htrie_agrees, fun _ => rfl⟩
  | hcountw => exact ⟨_, hcountw_agrees, fun _ => rfl⟩
  | hsym c => exact ⟨_, needTrie_agrees (emitCode_agrees c), fun _ => rfl⟩
  | hsyms => exact ⟨_, hsyms_agrees, fun _ => rfl⟩
  | hcomp => exact ⟨_, hcompOutput_agrees, exec_hcomp⟩
  | hrtrie => exact ⟨_, hrtrie_agrees, fun _ => rfl⟩
  | hrcount => exact ⟨_, hrcount_agrees, fun _ => rfl⟩
  | hdsym => exact ⟨_, hdsym_agrees, fun _ => rfl⟩
  | hdsyms => exact ⟨_, hdsyms_agrees, fun _ => rfl⟩
  | hexp => exact ⟨_, hexpOutput_agrees, exec_hexp⟩

theorem record_blind (e : ErrKind) : Blind fun s => record e (fieldOp s.pending) s where
  comm ib ob s := by
    show record e (fieldOp s.pending) (withBuffers ib ob s) = _
    unfold record
    show (if s.err = true then _ else _) = _
    split_ifs <;> rfl
  ilen s := by simp
  optr s := by simp

theorem ResAlike.complete {lo : Nat} {r r' : Res Unit} (h : ResAlike lo r r') : Alike lo (complete r) (complete r') := by
  have hfinish : Blind finish := {}
  cases h with
  | ok _ h => exact h.update hfinish
  | raised e h => exact (h.update (record_blind e)).update hfinish

theorem startOf_withBuffers (i : Instr) (ib ob : Memory) (s : State) :
    startOf i (withBuffers ib ob s) = withBuffers ib ob (startOf i s) := by
  cases i <;> rfl

/-- Where the output starts, nothing of it is written: states that differ in unread bytes are alike. -/
theorem startOf_alike {i : Instr} {s : State} {ib : Memory} (ob : Memory)
    (hin : ∀ j < s.ilen.toNat, (withBuffers ib ob s).ibufByte j = s.ibufByte j) :
    Alike (outputStart i s) (startOf i s) (startOf i (withBuffers ib ob s)) := by
  refine ⟨ib, ob, startOf_withBuffers i ib ob s, ?_, fun j hlo hj => ?_⟩
  · cases i <;> exact hin
  · rw [startOf_optr] at hj
    omega

/-- Settles O31: the two runs go side by side from where the output starts. -/
theorem unreadBytesDoNotMatter : Obligations.UnreadBytesDoNotMatter := by
  intro i s t ib ob _ h hin
  obtain ⟨body, hbody, hexec⟩ := exec_agrees i
  have h' := hexec (withBuffers ib ob s)
  rw [hexec, completed, Host.Outcome.next.injEq] at h
  obtain ⟨ib', ob', ht', -, hout⟩ := (hbody (startOf_alike (i := i) ob hin)).complete
  rw [completed, ht', h] at h'
  rw [h] at hout
  have hib : ib' = ib := exec_view_eq h' (ibuf_not_mem_partsOf i)
  subst hib
  exact ⟨ob', h', hout⟩

end Sys2Proof.Machine

/-! The decoder inverts the encoder, and decodes exactly the legal words (30_encoding.md R111 to R117). -/

namespace Sys2Proof.Machine

/-! ### The fields of a packed word -/

@[simp] theorem fieldOp_packWord (op a : Byte) (b : BitVec 12) (g : Bool) : fieldOp (packWord op a b g) = op :=
  (fields_packWord op a b g).1
@[simp] theorem fieldA_packWord (op a : Byte) (b : BitVec 12) (g : Bool) : fieldA (packWord op a b g) = a :=
  (fields_packWord op a b g).2.1
@[simp] theorem fieldB_packWord (op a : Byte) (b : BitVec 12) (g : Bool) : fieldB (packWord op a b g) = b :=
  (fields_packWord op a b g).2.2.1
@[simp] theorem fieldG_packWord (op a : Byte) (b : BitVec 12) (g : Bool) : fieldG (packWord op a b g) = g :=
  (fields_packWord op a b g).2.2.2.1
@[simp] theorem fieldRsv_packWord (op a : Byte) (b : BitVec 12) (g : Bool) : fieldRsv (packWord op a b g) = 0 :=
  (fields_packWord op a b g).2.2.2.2

/-- A word is packed from the fields it has. -/
theorem packWord_eq_of_fields {w : Word} {a : Byte} {b : BitVec 12} {g : Bool} (hrsv : fieldRsv w = 0) (ha : fieldA w = a)
    (hb : fieldB w = b) (hg : fieldG w = g) : packWord (fieldOp w) a b g = w := by
  rw [← ha, ← hb, ← hg, packWord_fields w hrsv]

/-- `legal` says of a word's fields what R115 says of its number. -/
theorem legal_eq_fields (w : Word) :
    legal w = (decide (fieldRsv w = 0) &&
      (opcodeMap.filter fun e => e.1 == (fieldOp w).toNat).any fun e =>
        formatOk e.2 (fieldA w).toNat (fieldB w).toNat (fieldG w).toNat) := by
  have hrsv : (w.toNat / 2 ^ 29 == 0) = decide (fieldRsv w = 0) := by
    rw [beq_eq_decide, decide_eq_decide, BitVec.toNat_eq, fieldRsv_toNat]
    have := w.isLt
    change _ ↔ _ = 0
    omega
  rw [legal, hrsv, ← fieldOp_toNat, ← fieldA_toNat, ← fieldB_toNat, ← fieldG_toNat, List.any_filter]

/-! ### The decoder on packed words (R112) -/

@[simp] theorem decode_packWord (op a : Byte) (b : BitVec 12) (g : Bool) :
    decode (packWord op a b g) = decodeOp (packWord op a b g) := if_pos (fieldRsv_packWord op a b g)

@[simp] theorem decodeBit_packWord (mk : Bool → Instr) (op : Byte) (b : Bool) :
    decodeBit mk (packWord op ((BitVec.ofBool b).setWidth 8) 0#12 false) = .ok (mk b) := by
  cases b <;> simp [decodeBit]

@[simp] theorem decodeW_packWord (mk : Byte → Instr) (op n : Byte) :
    decodeW mk (packWord op n 0#12 false) = if widthOk n then .ok (mk n) else .error .widthOperand := by simp [decodeW]

@[simp] theorem decodeS_packWord (mk : Byte → Instr) (op sym : Byte) :
    decodeS mk (packWord op sym 0#12 false) = .ok (mk sym) := by simp [decodeS]

@[simp] theorem decodeX_packWord (mk : BitVec 12 → Instr) (op : Byte) (i : BitVec 12) :
    decodeX mk (packWord op 0#8 i false) = .ok (mk i) := by simp [decodeX]

@[simp] theorem decodeL_packWord (mk : BitVec 12 → Bool → Instr) (op : Byte) (c : BitVec 12) (g : Bool) :
    decodeL mk (packWord op 0#8 c g) = .ok (mk c g) := by simp [decodeL]

/-- Settles O1: the word of a command without operands is a number; else the word has the command's opcode, and the decoder of
its format reads the operands where the encoder put them. -/
theorem encodeThenDecode : Obligations.EncodeThenDecode := by
  intro i hwf
  cases i with
  | nop | clrerr | sreset | winit | wflush | rinit | rbit | linit | leof | lread | fclr | fcount | hbuild | htrie | hcountw
  | hsyms | hcomp | hrtrie | hrcount | hdsym | hdsyms | hexp => rfl
  | wbit b => simp [encode, packA, decodeOp]
  | wbits n | rbits n =>
    have hn : widthOk n = true := hwf
    simp [encode, packA, decodeOp, hn]
  | frd sym | fwr sym | hlen sym | hcodelo sym | hcodehi sym | hsym sym => simp [encode, packA, decodeOp]
  | hnode j | hnodef j | lemit c g => simp [encode, decodeOp]

/-! ### The rows of the opcode map (R114) -/

/-- What a row of the map says of opcode `op`: the format, the format's decoder for the row's command, and that the command's
encoder packs the same fields. -/
inductive OpcodeRow (op : Byte) : Format → (Word → Except IllegalWord Instr) → Prop
  | n {i} (hwf : i.wf = true) (henc : encode i = packN op) : OpcodeRow op .n (decodeN i)
  | bit {mk} (hwf : ∀ b, (mk b).wf = true) (henc : ∀ b, encode (mk b) = packA op ((BitVec.ofBool b).setWidth 8)) :
    OpcodeRow op .bit (decodeBit mk)
  | w {mk} (hwf : ∀ n, (mk n).wf = widthOk n) (henc : ∀ n, encode (mk n) = packA op n) : OpcodeRow op .w (decodeW mk)
  | s {mk} (hwf : ∀ c, (mk c).wf = true) (henc : ∀ c, encode (mk c) = packA op c) : OpcodeRow op .s (decodeS mk)
  | x {mk} (hwf : ∀ j, (mk j).wf = true) (henc : ∀ j, encode (mk j) = packWord op 0 j false) : OpcodeRow op .x (decodeX mk)
  | l {mk} (hwf : ∀ c g, (mk c g).wf = true) (henc : ∀ c g, encode (mk c g) = packWord op 0 c g) :
    OpcodeRow op .l (decodeL mk)

/-- The decoder follows the map: the word's opcode has one row, or it has none and the word is refused. Each row is read off
the model's tables at its opcode. -/
theorem decodeOp_row (w : Word) :
    (∃ f dec, (opcodeMap.filter fun e => e.1 == (fieldOp w).toNat) = [((fieldOp w).toNat, f)] ∧
      OpcodeRow (BitVec.ofNat 8 (fieldOp w).toNat) f dec ∧ decodeOp w = dec w) ∨
    ((opcodeMap.filter fun e => e.1 == (fieldOp w).toNat) = [] ∧ decodeOp w = .error .unknownOpcode) := by
  unfold decodeOp
  generalize (fieldOp w).toNat = n
  split
  case h_35 =>
    exact .inr ⟨by simp [opcodeMap, eq_comm (b := n)]; tauto, rfl⟩
  all_goals exact .inl ⟨_, _, rfl, by constructor <;> intros <;> rfl, rfl⟩

/-! ### What the decoder answers (R115) -/

/-- The answer `r` to the word `w`: a well-formed command that has this word if `ok` holds, else a reason to refuse it. -/
def Answers (ok : Bool) (w : Word) (r : Except IllegalWord Instr) : Prop :=
  (ok = true ∧ ∃ i, r = .ok i ∧ i.wf = true ∧ encode i = w) ∨ (ok = false ∧ ∃ e, r = .error e)

/-- An answer by one check. -/
theorem answers_ite {ok : Bool} {w : Word} {c : Prop} [Decidable c] {i : Instr} {e : IllegalWord} (hok : ok = true ↔ c)
    (hi : c → i.wf = true ∧ encode i = w) : Answers ok w (if c then .ok i else .error e) := by
  by_cases hc : c
  · exact .inl ⟨hok.2 hc, i, if_pos hc, hi hc⟩
  · exact .inr ⟨Bool.eq_false_iff.2 (mt hok.1 hc), e, if_neg hc⟩

/-- An answer by two checks, one after the other. -/
theorem answers_ite_ite {ok : Bool} {w : Word} {c d : Prop} [Decidable c] [Decidable d] {i : Instr} {e e' : IllegalWord}
    (hok : ok = true ↔ c ∧ d) (hi : c → d → i.wf = true ∧ encode i = w) :
    Answers ok w (if c then if d then .ok i else .error e else .error e') := by
  by_cases hc : c
  · rw [if_pos hc]
    exact answers_ite (hok.trans (and_iff_right hc)) (hi hc)
  · exact .inr ⟨Bool.eq_false_iff.2 fun h => hc (hok.1 h).1, e', if_neg hc⟩

theorem widthOk_iff {n : Byte} : widthOk n = true ↔ n.toNat ≤ 32 := decide_eq_true_iff

/-- The operand of format BIT. -/
theorem setWidth_ofBool_getLsbD_zero {a : Byte} (h : a.toNat ≤ 1) : (BitVec.ofBool (a.getLsbD 0)).setWidth 8 = a := by
  obtain h | h : a = 0 ∨ a = 1 := by simp only [BitVec.toNat_eq]; simp; omega
  all_goals subst h; rfl

/-- The decoder of a row answers by the row's format. -/
theorem OpcodeRow.answers {w : Word} {f : Format} {dec : Word → Except IllegalWord Instr} (hrow : OpcodeRow (fieldOp w) f dec)
    (hrsv : fieldRsv w = 0) :
    Answers (formatOk f (fieldA w).toNat (fieldB w).toNat (fieldG w).toNat) w (dec w) := by
  cases hrow with
  | n hwf henc =>
    refine answers_ite (by simp [formatOk, BitVec.toNat_eq, and_assoc]) fun ⟨ha, hb, hg⟩ => ⟨hwf, ?_⟩
    rw [henc, packN, packWord_eq_of_fields hrsv ha hb hg]
  | bit hwf henc =>
    refine answers_ite_ite (by simp [formatOk, BitVec.toNat_eq]; tauto) fun ⟨hb, hg⟩ ha => ⟨hwf _, ?_⟩
    rw [henc, setWidth_ofBool_getLsbD_zero ha, packA, packWord_eq_of_fields hrsv rfl hb hg]
  | w hwf henc =>
    refine answers_ite_ite (by simp [formatOk, BitVec.toNat_eq, widthOk_iff]; tauto) fun ⟨hb, hg⟩ ha =>
      ⟨(hwf _).trans ha, ?_⟩
    rw [henc, packA, packWord_eq_of_fields hrsv rfl hb hg]
  | s hwf henc =>
    refine answers_ite (by simp [formatOk, BitVec.toNat_eq]) fun ⟨hb, hg⟩ => ⟨hwf _, ?_⟩
    rw [henc, packA, packWord_eq_of_fields hrsv rfl hb hg]
  | x hwf henc =>
    refine answers_ite (by simp [formatOk, BitVec.toNat_eq]) fun ⟨ha, hg⟩ => ⟨hwf _, ?_⟩
    rw [henc, packWord_eq_of_fields hrsv ha rfl hg]
  | l hwf henc =>
    refine answers_ite (by simp [formatOk, BitVec.toNat_eq]) fun ha => ⟨hwf _ _, ?_⟩
    rw [henc, packWord_eq_of_fields hrsv ha rfl rfl]

/-- The decoder answers by `legal`. -/
theorem decode_answers (w : Word) : Answers (legal w) w (decode w) := by
  rw [legal_eq_fields, decode]
  by_cases hrsv : fieldRsv w = 0
  · rw [if_pos hrsv, decide_eq_true hrsv, Bool.true_and]
    obtain ⟨f, dec, hmap, hrow, hdec⟩ | ⟨hmap, hdec⟩ := decodeOp_row w
    · rw [BitVec.ofNat_toNat, BitVec.setWidth_eq] at hrow
      rw [hmap, hdec, List.any_cons, List.any_nil, Bool.or_false]
      exact hrow.answers hrsv
    · rw [hmap, hdec]
      exact .inr ⟨rfl, _, rfl⟩
  · rw [if_neg hrsv, decide_eq_false hrsv, Bool.false_and]
    exact .inr ⟨rfl, _, rfl⟩

/-- Settles O2: from the decoder's answer to the word. -/
theorem legalWordsDecode : Obligations.LegalWordsDecode := by
  intro w
  obtain ⟨hlegal, i, hdec, hwf, henc⟩ | ⟨hlegal, e, hdec⟩ := decode_answers w
  · refine ⟨⟨fun _ => ⟨i, hdec⟩, fun _ => hlegal⟩, fun j hj => ?_⟩
    obtain rfl : i = j := Except.ok.inj (hdec.symm.trans hj)
    exact ⟨hwf, henc⟩
  · simp [hlegal, hdec]

/-- Settles O3: each listed word is a literal, which the decoder evaluates. -/
theorem listedWordsDecode : Obligations.ListedWordsDecode := by
  unfold Obligations.ListedWordsDecode
  decide

end Sys2Proof.Machine

/-! The life cycle of a command: launch, execution, completion (40_control.md R140 to R149). -/

namespace Sys2Proof.Machine

/-! ### Completion, in the words of the statements (R141, 60_exceptions.md R310) -/

theorem fieldOp_eq_setWidth (w : Word) : fieldOp w = w.setWidth 8 := by
  apply BitVec.eq_of_toNat_eq
  rw [fieldOp_toNat, BitVec.toNat_setWidth]

theorem record_eq_recorded (e : ErrKind) (op : Byte) (s : State) : record e op s = recorded (errCodeOf e) op s := by
  cases h : s.err <;> simp [record, recorded, h]

theorem complete_ok (s : State) : complete (.ok () s) = doneOk s := rfl

theorem complete_raised (e : ErrKind) (s : State) : complete (.raised e s) = doneErr (errCodeOf e) s := by
  rw [complete, record_eq_recorded, fieldOp_eq_setWidth]
  rfl

@[simp] theorem complete_busy (r : Res Unit) : (complete r).busy = false := by cases r <;> rfl
@[simp] theorem complete_irqDone (r : Res Unit) : (complete r).irqDone = true := by cases r <;> rfl
@[simp] theorem complete_cmdcnt (r : Res Unit) : (complete r).cmdcnt = r.state.cmdcnt + 1 := by cases r <;> simp [complete]
@[simp] theorem complete_result (r : Res Unit) : (complete r).result = r.state.result := by cases r <;> simp [complete]
@[simp] theorem complete_pending (r : Res Unit) : (complete r).pending = r.state.pending := by cases r <;> simp [complete]

/-- Every command completes (R141). -/
theorem exec_completes (i : Instr) (s : State) : ∃ r, exec i s = .next (complete r) := by
  obtain ⟨body, -, hexec⟩ := exec_performs i
  exact ⟨body s, hexec s⟩

/-- Settles O34: each is the completion of a body without an error. -/
theorem nopAndClrerr : Obligations.NopAndClrerr := fun s =>
  ⟨congrArg Host.Outcome.next (complete_ok s), congrArg Host.Outcome.next (complete_ok (clearError s))⟩

theorem resetEngine_eq_freshEngine (s : State) : resetEngine s = freshEngine s.pending s := rfl

/-- Settles O19: the latch keeps its word. -/
theorem softReset : Obligations.SoftReset := by
  intro s
  have hexec : exec .sreset s = .next (doneOk (freshEngine s.pending s)) := by
    rw [← resetEngine_eq_freshEngine, ← complete_ok]
    rfl
  have hlzwd : (257 : BitVec 13).setWidth 32 ||| bitAt true 16 = (0x00010101 : Word) := by decide
  exact ⟨s.pending, _, hexec, rfl, rfl, BitVec.eq_of_toNat_eq (statusWord_toNat _),
    BitVec.eq_of_toNat_eq (errcodeWord_toNat _), BitVec.eq_of_toNat_eq (bitPair_toNat true false), rfl, hlzwd⟩

/-! ### The engine's turn (R144) -/

theorem engineTurn_running {s : State} (hrst : s.rstN = true) (hbusy : s.busy = true) : engineTurn s = engineRun s := by
  simp [engineTurn, hrst, hbusy]

theorem engineRun_of_decode {s : State} {i : Instr} (h : decode s.pending = .ok i) : engineRun s = exec i s := by
  simp [engineRun, fetch, h]

theorem engineRun_of_illegal {s : State} {e : IllegalWord} (h : decode s.pending = .error e) :
    engineRun s = completed (.raised .illegalCmd s) := by
  simp [engineRun, fetch, h, execIllegal]

theorem engineRun_completes (s : State) : ∃ r, engineRun s = .next (complete r) := by
  cases h : decode s.pending with
  | ok i => rw [engineRun_of_decode h]; exact exec_completes i s
  | error e => exact ⟨_, engineRun_of_illegal h⟩

theorem decode_tableWord {nbits w : Nat} {i : Instr} (h : decodeTableWord nbits w = some i) :
    decode (tableWord nbits w) = .ok i := by
  unfold decodeTableWord at h
  split at h
  · next j hj => rw [hj, Option.some.inj h]
  · cases h

/-- Settles O4: with no entry before the engine's, the step is the engine's turn. -/
theorem stepRunsTheDecodedCommand : Obligations.StepRunsTheDecodedCommand := by
  have turn : ∀ (s : State) (i : Instr), s.rstN = true → s.busy = true → decode s.pending = .ok i →
      engineTurn s = exec i s := fun s i hrst hbusy hdec =>
    (engineTurn_running hrst hbusy).trans (engineRun_of_decode hdec)
  refine ⟨fun s i hrst hbusy hdec => ⟨fun hq => ?_, fun q hq => ?_⟩, fun s nbits w i hdec => ?_⟩
  · simp only [step, hq]
    exact turn s i hrst hbusy hdec
  · simp only [step, hq]
    exact turn { s with hostq := q } i hrst hbusy hdec
  · exact turn { s with pending := tableWord nbits w, busy := true, rstN := true } i rfl rfl (decode_tableWord hdec)

/-- Settles O5: by the decoder's answer to PENDING. -/
theorem executeByLegality : Obligations.ExecuteByLegality := by
  intro s hrst hbusy
  rw [engineTurn_running hrst hbusy]
  obtain ⟨hlegal, i, hdec, hwf, henc⟩ | ⟨hlegal, e, hdec⟩ := decode_answers s.pending
  · exact ⟨fun _ => ⟨i, hwf, henc, engineRun_of_decode hdec⟩, by simp [hlegal]⟩
  · refine ⟨by simp [hlegal], fun _ => ?_⟩
    rw [engineRun_of_illegal hdec, completed, complete_raised]
    rfl

/-! ### Writes of CMD (R140, R143) -/

theorem recoveryWord_iff (w : Word) : recoveryWord w = true ↔ w = 0x00000001 ∨ w = 0x00000002 := by
  simp [recoveryWord]

theorem hostWrite_cmd {s : State} {addr : BitVec 26} (w : Word) (hrst : s.rstN = true) (haddr : addr.toNat / 4 = 1) :
    hostWrite addr w s = writeCmd w s :=
  hostWrite_reg (r := .cmd) w hrst haddr

theorem writeCmd_launches {s : State} {w : Word} (hbusy : s.busy = false) (h : s.err = false ∨ recoveryWord w = true) :
    writeCmd w s = { s with pending := w, busy := true } := by
  obtain h | h := h <;> simp [writeCmd, hbusy, h]

theorem writeCmd_dropped {s : State} {w : Word} (hbusy : s.busy = false) (herr : s.err = true)
    (h : recoveryWord w = false) : writeCmd w s = s := by
  simp [writeCmd, hbusy, herr, h]

/-- Settles O6: what is launched completes in the engine's turn. -/
theorem cmdWriteLaunches : Obligations.CmdWriteLaunches := by
  intro s addr w hrst hbusy haddr hw
  rw [← recoveryWord_iff] at hw
  rw [hostWrite_cmd w hrst haddr, writeCmd_launches hbusy hw]
  refine ⟨rfl, ?_⟩
  obtain ⟨r, hr⟩ := engineRun_completes { s with pending := w, busy := true }
  have hturn := (engineTurn_running (s := { s with pending := w, busy := true }) hrst rfl).trans hr
  exact ⟨complete r, hturn, complete_busy r, complete_irqDone r⟩

/-- Settles O8: such a word is no recovery word. -/
theorem cmdWriteDroppedAfterError : Obligations.CmdWriteDroppedAfterError := by
  intro s addr w hrst hbusy herr haddr h1 h2
  have hw : recoveryWord w = false := by
    rw [Bool.eq_false_iff, Ne, recoveryWord_iff]
    exact not_or.2 ⟨h1, h2⟩
  rw [hostWrite_cmd w hrst haddr, writeCmd_dropped hbusy herr hw]

/-! ### What a body leaves of the life cycle (R141) -/

/-- Recording an error is setting the life-cycle fields, to the same values in states where they agree. -/
theorem record_eq_withLife {s u : State} (h : u.life = s.life) (e : ErrKind) (op : Byte) :
    record e op u = withLife (record e op s).life u := by
  simp only [State.life, LifeCycle.mk.injEq] at h
  obtain ⟨hbusy, herr, hcode, hop, hdone, -, hcnt⟩ := h
  simp [record_eq_recorded, recorded, withLife, State.life, ← hbusy, ← herr, ← hcode, ← hop, ← hdone, ← hcnt]

/-- A life-free body does not see an error recorded before it runs, and keeps the record. -/
theorem LifeFree.record {α : Type} {body : State → Res α} (h : LifeFree body) (e : ErrKind) (op : Byte) (s : State) :
    body (record e op s) = (body s).mapState (Machine.record e op) := by
  have hlife := h.state s
  rw [record_eq_withLife rfl, h]
  cases hb : body s with
  | ok a u =>
    rw [hb, Res.state_ok] at hlife
    rw [Res.mapState_ok, Res.mapState_ok, record_eq_withLife hlife]
  | raised e' u =>
    rw [hb, Res.state_raised] at hlife
    rw [Res.mapState_raised, Res.mapState_raised, record_eq_withLife hlife]

/-- The first error is kept: what completes after an error adds nothing to its record. -/
theorem complete_record (r : Res Unit) (e : ErrKind) (op : Byte) :
    complete (r.mapState (record e op)) = record e op (finish r.state) := by
  cases r <;> simp [complete, record_eq_recorded, recorded, finish]

theorem complete_sameButErrors (r : Res Unit) (e : ErrKind) (op : Byte) :
    SameButErrors (complete r) (record e op (finish r.state)) := by
  cases r <;> simp [complete, record_eq_recorded, recorded, finish, SameButErrors]

/-- The error record after a completion (R141, 60_exceptions.md R310). -/
theorem complete_error (r : Res Unit) :
    ((complete r).err = r.state.err ∧ (complete r).errCode = r.state.errCode ∧ (complete r).errOp = r.state.errOp ∧
      (complete r).irqErri = r.state.irqErri) ∨
    ∃ e, r.error? = some e ∧ (complete r).err = true ∧ (complete r).irqErri = true ∧
      (complete r).errCode = (if r.state.err then r.state.errCode else errCodeOf e) ∧
      (complete r).errOp = if r.state.err then r.state.errOp else fieldOp r.state.pending := by
  cases r with
  | ok _ u => exact .inl ⟨rfl, rfl, rfl, rfl⟩
  | raised e u => exact .inr ⟨e, rfl, record_err _ _ u, record_irqErri _ _ u, record_errCode _ _ u, record_errOp _ _ u⟩

/-- Settles O10: the body of a command other than CLRERR and SRESET leaves the life cycle to its completion. -/
theorem everyCommandCompletes : Obligations.EveryCommandCompletes := by
  intro i s
  obtain rfl | hs := eq_or_ne i .sreset
  · exact ⟨_, rfl, rfl, rfl, rfl, fun h => absurd rfl h⟩
  obtain rfl | hc := eq_or_ne i .clrerr
  · exact ⟨_, rfl, rfl, rfl, rfl, fun _ h => absurd rfl h⟩
  obtain ⟨body, hlife, hexec⟩ := exec_lifeFree i hc hs
  have hpending : (body s).state.pending = s.pending := by
    rw [← complete_pending]
    exact exec_view_eq (hexec s) (fixed_not_mem_partsOf i (q := .pending) (by decide))
  have hkept := hlife.state s
  simp only [State.life, LifeCycle.mk.injEq] at hkept
  obtain ⟨-, herr, hcode, hop, -, herri, hcnt⟩ := hkept
  refine ⟨_, hexec s, complete_busy _, complete_irqDone _, by rw [complete_cmdcnt, hcnt, if_neg hs], fun _ _ => ?_⟩
  have hrec := complete_error (body s)
  rw [herr, hcode, hop, herri, hpending, fieldOp_eq_setWidth] at hrec
  obtain hsame | ⟨e, -, hrec⟩ := hrec
  · exact .inl hsame
  · exact .inr ⟨errCodeOf e, (errCodeOf_range e).1, (errCodeOf_range e).2, hrec⟩

/-! ### Errors the host makes while a command runs (R142, R149) -/

/-- What the word PENDING makes of any state: it clears the error, resets the engine, or completes a life-free body. -/
theorem engineRun_cases (w : Word) :
    (w = 0x00000001 ∧ ∀ s : State, s.pending = w → engineRun s = .next (finish (clearError s))) ∨
    (w = 0x00000002 ∧ ∀ s : State, s.pending = w → engineRun s = .next (finish (resetEngine s))) ∨
    ∃ body, LifeFree body ∧ ∀ s : State, s.pending = w → engineRun s = completed (body s) := by
  obtain ⟨-, i, hdec, -, henc⟩ | ⟨-, e, hdec⟩ := decode_answers w
  · have hrun : ∀ s : State, s.pending = w → engineRun s = exec i s := fun s hs => engineRun_of_decode (hs ▸ hdec)
    obtain rfl | hc := eq_or_ne i .clrerr
    · exact .inl ⟨henc ▸ by decide, hrun⟩
    obtain rfl | hr := eq_or_ne i .sreset
    · exact .inr (.inl ⟨henc ▸ by decide, hrun⟩)
    obtain ⟨body, hlife, hexec⟩ := exec_lifeFree i hc hr
    exact .inr (.inr ⟨body, hlife, fun s hs => (hrun s hs).trans (hexec s)⟩)
  · exact .inr (.inr ⟨_, .raised .illegalCmd, fun s hs => engineRun_of_illegal (hs ▸ hdec)⟩)

/-- An error recorded while a command runs does not disturb it, and is kept unless the command is CLRERR or SRESET. -/
theorem engineTurn_record {s t : State} (hrst : s.rstN = true) (hbusy : s.busy = true) (ht : engineTurn s = .next t)
    (e : ErrKind) (op : Byte) :
    ∃ t', engineTurn (record e op s) = .next t' ∧ SameButErrors t t' ∧
      (s.pending ≠ 0x00000001 → s.pending ≠ 0x00000002 →
        t'.err = true ∧ t'.errCode = (if s.err then s.errCode else errCodeOf e) ∧
          t'.errOp = if s.err then s.errOp else op) := by
  rw [engineTurn_running hrst hbusy] at ht
  rw [engineTurn_running (by simpa using hrst) (by simpa using hbusy)]
  have hpending := record_pending e op s
  obtain ⟨hw, hrun⟩ | ⟨hw, hrun⟩ | ⟨body, hlife, hrun⟩ := engineRun_cases s.pending
  · rw [hrun s rfl, Host.Outcome.next.injEq] at ht
    refine ⟨_, hrun _ hpending, ?_, fun h => absurd hw h⟩
    rw [← ht, record_eq_recorded]
    rfl
  · rw [hrun s rfl, Host.Outcome.next.injEq] at ht
    refine ⟨_, hrun _ hpending, ?_, fun _ h => absurd hw h⟩
    rw [← ht, record_eq_recorded]
    rfl
  · rw [hrun s rfl, completed, Host.Outcome.next.injEq] at ht
    have hkept := hlife.state s
    simp only [State.life, LifeCycle.mk.injEq] at hkept
    obtain ⟨-, herr, hcode, hop, -⟩ := hkept
    refine ⟨record e op (finish (body s).state), ?_, ht ▸ complete_sameButErrors _ e op, fun _ _ => ?_⟩
    · rw [hrun _ hpending, hlife.record, completed, complete_record]
    · simp [herr, hcode, hop]

theorem writeCmd_busy {s : State} (w : Word) (hbusy : s.busy = true) :
    writeCmd w s = record .cmdWhileBusy (fieldOp w) s := by
  simp [writeCmd, hbusy]

/-- Settles O7: the write is the record of an error. -/
theorem cmdWriteWhileBusy : Obligations.CmdWriteWhileBusy := by
  intro s addr w hrst hbusy haddr
  have hwrite : hostWrite addr w s = record .cmdWhileBusy (w.setWidth 8) s := by
    rw [hostWrite_cmd w hrst haddr, writeCmd_busy w hbusy, fieldOp_eq_setWidth]
  rw [hwrite]
  exact ⟨record_eq_recorded _ _ s, fun t ht => engineTurn_record hrst hbusy ht _ _⟩

theorem checkedWrite_busy (store : State → State) {s : State} (hbusy : s.busy = true) :
    checkedWrite store s = record .writeWhileBusy (s.pending.setWidth 8) s := by
  simp [checkedWrite, hbusy, fieldOp_eq_setWidth]

/-- The writes that are checked against BUSY: of ARG, ILEN and the buffer words (R149). -/
theorem hostWrite_checked {s : State} {addr : BitVec 26} (v : Word) (hrst : s.rstN = true)
    (h : addr.toNat / 4 = 2 ∨ addr.toNat / 4 = 8 ∨ (0x1000000 ≤ addr.toNat ∧ addr.toNat < 0x1000000 + s.ibufSize) ∨
      (0x2000000 ≤ addr.toNat ∧ addr.toNat < 0x2000000 + s.obufSize)) :
    ∃ store, hostWrite addr v s = checkedWrite store s := by
  obtain h | h | ⟨hlo, hhi⟩ | ⟨hlo, hhi⟩ := h
  · exact ⟨fun s => { s with arg := v }, hostWrite_reg (r := .arg) v hrst h⟩
  · exact ⟨storeIlen v, hostWrite_reg (r := .ilen) v hrst h⟩
  · exact ⟨_, hostWrite_ibufWord v hrst (target_of_ibufByte hlo hhi)⟩
  · exact ⟨_, hostWrite_obufWord v hrst (target_of_obufByte hlo hhi)⟩

/-- Settles O9, by what the address names; a checked write is the record of an error. -/
theorem writeWhileBusy : Obligations.WriteWhileBusy := by
  intro s addr v hrst hbusy
  refine ⟨fun h => ?_, hostWrite_reg (r := .ctrl) v hrst, hostWrite_reg (r := .irqstat) v hrst, hostWrite_ignored v,
    fun hlo hhi => hostWrite_nothing v (target_beyond_ibuf hlo hhi), fun hlo => hostWrite_nothing v (target_beyond_obuf hlo)⟩
  obtain ⟨store, hstore⟩ := hostWrite_checked v hrst h
  rw [hstore, checkedWrite_busy store hbusy]
  refine ⟨record_eq_recorded _ _ s, fun t ht => ?_⟩
  obtain ⟨t', ht', hsame, -⟩ := engineTurn_record hrst hbusy ht .writeWhileBusy (s.pending.setWidth 8)
  exact ⟨t', ht', hsame⟩

/-! ### Who writes RESULT (R145) -/

theorem result_mem_partsOf (i : Instr) : Part.result ∈ partsOf i ↔ writesResult i = true ∨ i = .sreset := by
  cases i <;> simp [partsOf, primsOf, Prim.parts, writesResult]

/-- A body that leaves RESULT where it raises an error. -/
def ErrorKeepsResult {α : Type} (body : State → Res α) : Prop :=
  ∀ s e u, body s = .raised e u → u.result = s.result

theorem ErrorKeepsResult.ok {α : Type} (a : State → α) (f : State → State) : ErrorKeepsResult fun s => .ok (a s) (f s) :=
  fun _ _ _ h => by cases h

theorem ErrorKeepsResult.raised {α : Type} (e : ErrKind) : ErrorKeepsResult (α := α) fun s => .raised e s :=
  fun _ _ _ h => by cases h; rfl

theorem ErrorKeepsResult.ite {α : Type} (p : State → Prop) [∀ s, Decidable (p s)] {f g : State → Res α}
    (hf : ErrorKeepsResult f) (hg : ErrorKeepsResult g) : ErrorKeepsResult fun s => if p s then f s else g s := by
  intro s e u h
  by_cases hp : p s
  · exact hf s e u (by simpa only [if_pos hp] using h)
  · exact hg s e u (by simpa only [if_neg hp] using h)

/-- What comes first must not write RESULT at all, since an error of what follows does not take it back (00_scope.md R21). -/
theorem ErrorKeepsResult.bind {α β : Type} {ps : List Prim} {f : State → Res α} {k : α → State → Res β}
    (hf : Performs ps f) (hps : ∀ p ∈ ps, Part.result ∉ p.parts) (hk : ∀ a, ErrorKeepsResult (k a)) :
    ErrorKeepsResult fun s => (f s).bind k := by
  intro s e u h
  have hfirst : (f s).state.result = s.result := (hf s).view_eq (q := .result) hps
  simp only at h
  cases hfs : f s with
  | raised e' t =>
    rw [hfs] at h hfirst
    cases h
    exact hfirst
  | ok a t =>
    rw [hfs] at h hfirst
    exact (hk a t e u h).trans hfirst

theorem rbits_errorKeepsResult (n : Byte) : ErrorKeepsResult (rbits n) :=
  .ite (fun _ => widthOk n = true) (.ok _ _) (.raised _)

theorem lemit_errorKeepsResult (c : BitVec 12) (g : Bool) : ErrorKeepsResult (lemit c g) :=
  .ite (fun s => codeOperand c = Config.lzwEof ∨ s.enext.toNat ≤ codeOperand c) (.raised _)
    (.bind (writeBits_performs (ps := [.writeBit]) (by decide) _ _) (by decide) fun _ => .ok _ _)

theorem classify_errorKeepsResult (c : BitVec 12) : ErrorKeepsResult (classify c) :=
  .ite (fun _ => c.toNat = Config.lzwEof) (.ok _ _) <|
    .ite (fun s => s.dfirst = true) (.ite (fun _ => Config.lzwFirst ≤ c.toNat) (.raised _) (.ok _ _)) <|
      .ite (fun s => c.toNat < s.dnext.toNat) (.ok _ _) <| .ite (fun s => c.toNat = s.dnext.toNat) (.ok _ _) (.raised _)

theorem lread_errorKeepsResult : ErrorKeepsResult lread :=
  .bind (decBitsFrom_performs (ps := [.readBit]) (by decide) _ _) (by decide) fun _ => classify_errorKeepsResult _

theorem hdsym_errorKeepsResult : ErrorKeepsResult hdsym :=
  .ite (fun s => s.tvalid = true)
    (.bind (decodeSymbol_performs (ps := [.readBit]) (by decide)) (by decide) fun _ => .ok _ _) (.raised _)

/-- Every result-producing command completes a life-free body that writes RESULT only at its end. -/
theorem exec_errorKeepsResult {i : Instr} (h : writesResult i = true) :
    ∃ body, LifeFree body ∧ ErrorKeepsResult body ∧ ∀ s, exec i s = completed (body s) := by
  cases i with
  | rbit => exact ⟨rbit, rbit_lifeFree, .ok _ _, fun _ => rfl⟩
  | rbits n => exact ⟨_, rbits_lifeFree n, rbits_errorKeepsResult n, fun _ => rfl⟩
  | lemit c g => exact ⟨_, lemit_lifeFree c g, lemit_errorKeepsResult c g, fun _ => rfl⟩
  | lread => exact ⟨_, lread_lifeFree, lread_errorKeepsResult, fun _ => rfl⟩
  | frd c => exact ⟨frd c, frd_lifeFree c, .ok _ _, fun _ => rfl⟩
  | hlen c => exact ⟨hlen c, hlen_lifeFree c, .ok _ _, fun _ => rfl⟩
  | hcodelo c => exact ⟨hcodelo c, hcodelo_lifeFree c, .ok _ _, fun _ => rfl⟩
  | hcodehi c => exact ⟨hcodehi c, hcodehi_lifeFree c, .ok _ _, fun _ => rfl⟩
  | hnode j => exact ⟨hnode j, hnode_lifeFree j, .ok _ _, fun _ => rfl⟩
  | hnodef j => exact ⟨hnodef j, hnodef_lifeFree j, .ok _ _, fun _ => rfl⟩
  | hdsym => exact ⟨_, hdsym_lifeFree, hdsym_errorKeepsResult, fun _ => rfl⟩
  | _ => cases h

/-- An error that a command raises leaves RESULT. -/
theorem exec_result_of_error {i : Instr} {s t : State} (hi : writesResult i = true) (h : exec i s = .next t)
    (hs : s.err = false) (ht : t.err = true) : t.result = s.result := by
  obtain ⟨body, hlife, hbody, hexec⟩ := exec_errorKeepsResult hi
  rw [hexec, completed, Host.Outcome.next.injEq] at h
  subst h
  have herr : (body s).state.err = false := (congrArg LifeCycle.err (hlife.state s)).trans hs
  rw [complete_result]
  cases hb : body s with
  | ok _ u =>
    rw [hb] at ht herr
    exact absurd (ht.symm.trans herr) (by decide)
  | raised e u => exact hbody s e u hb

/-- Settles O28: by the frame of the commands that name no RESULT, and for the others by the error case of their bodies. -/
theorem resultWriters : Obligations.ResultWriters := by
  intro i s t h
  have hframe : i ≠ .sreset → writesResult i = false → t.result = s.result := fun hs hi =>
    exec_view_eq h (mt (result_mem_partsOf i).1 (by simp [hs, hi]))
  refine ⟨hframe, ?_, fun hs ht => ?_⟩
  · rintro rfl
    cases h
    rfl
  · obtain rfl | hi := eq_or_ne i .sreset
    · cases h
      cases ht
    · cases hres : writesResult i with
      | false => exact hframe hi hres
      | true => exact exec_result_of_error hres h hs ht

end Sys2Proof.Machine

/-! The output stream: its commands in terms of the bits they write, and its length and bytes (41_bitwriter.md R163 to R169). -/

namespace Sys2Proof.Machine

/-! ### Commands that write a bit string (R161, R162) -/

/-- A command whose body writes a bit string sends it: all of it where it fits, else the first bits and OBUF_OVERFLOW. -/
theorem sends_of_exec_eq_writeList {i : Instr} {s : State} {bits : List Bool} (hp : s.optr.toNat ≤ s.obufSize)
    (hexec : exec i s = completed (writeList bits s)) : Sends i s bits := by
  refine ⟨fun hfits => ?_, fun hover => ?_⟩
  · obtain ⟨u, hu, hframe, hwritten, -, -, -, hout⟩ := writeList_fits bits hp hfits
    exact ⟨u, by rw [hexec, hu, completed, complete_ok], hframe, hwritten, hout⟩
  · obtain ⟨u, hu, hframe, hwritten, -, -, -, hout⟩ := writeList_overflows bits hp hover
    exact ⟨u, by rw [hexec, hu, completed, complete_raised]; rfl, hframe, hwritten, hout⟩

theorem exec_wbit (b : Bool) (s : State) : exec (.wbit b) s = completed (writeList [b] s) :=
  congrArg completed (writeBit_eq b s)

theorem exec_wbits {n : Byte} (hn : n.toNat ≤ 32) (s : State) :
    exec (.wbits n) s = completed (writeList (bitsMsb (s.arg.setWidth 64) n.toNat) s) := by
  refine congrArg completed ?_
  rw [wbits, if_pos (widthOk_iff.2 hn), writeBits_eq]
  rfl

theorem exec_leof (s : State) : exec .leof s = completed (writeList (bitsMsb 256 12) s) :=
  congrArg completed (writeBits_eq 256 12 s)

theorem exec_hcountw (s : State) : exec .hcountw s = completed (writeList (bitsMsb (s.ilen.setWidth 64) 32) s) :=
  congrArg completed (writeBits_eq _ 32 s)

/-- Settles O36: each of the four bodies writes its bit string. -/
theorem writerCommandsSend : Obligations.WriterCommandsSend := fun s hp =>
  ⟨fun b => sends_of_exec_eq_writeList hp (exec_wbit b s), fun _ hn => sends_of_exec_eq_writeList hp (exec_wbits hn s),
    sends_of_exec_eq_writeList hp (exec_leof s), sends_of_exec_eq_writeList hp (exec_hcountw s)⟩

/-! ### `flush`, case by case (R163) -/

theorem flush_of_no_pending {s : State} (h : s.wcnt = 0) : flush s = .ok () s := by simp [flush, h]

theorem flush_overflows {s : State} (h : s.wcnt ≠ 0) (hfull : s.optr.toNat = s.obufSize) :
    flush s = .raised .obufOverflow s := by
  rw [flush, if_neg (Fin.val_ne_zero_iff.2 h), if_pos hfull]

theorem flush_emits {s : State} (h : s.wcnt ≠ 0) (hlt : s.optr.toNat < s.obufSize) :
    flush s = .ok () (emitByte (s.wacc <<< (8 - s.wcnt.val)) s) := by
  rw [flush, if_neg (Fin.val_ne_zero_iff.2 h), if_neg hlt.ne]

theorem exec_wflush (s : State) : exec .wflush s = .next (complete (flush s)) := rfl

theorem exec_wflush_of_ok {s u : State} (h : flush s = .ok () u) : exec .wflush s = .next (doneOk u) := by
  rw [exec_wflush, h, complete_ok]

/-- Settles O37, by the three cases of `flush`; what it emits is the padded byte, after which nothing is pending. -/
theorem flushCompletesTheByte : Obligations.FlushCompletesTheByte := by
  intro s hp
  refine ⟨fun h => exec_wflush_of_ok (flush_of_no_pending h), fun h hfull => ?_, fun h hlt => ?_⟩
  · rw [exec_wflush, flush_overflows h hfull, complete_raised]
    rfl
  · have hemits := flush_emits h hlt
    obtain ⟨u, hu, hframe, hwritten, -⟩ := flush_ok hp (.inr hlt)
    obtain rfl : emitByte _ s = u := by
      rw [hemits] at hu
      injection hu
    exact ⟨_, exec_wflush_of_ok hemits, hframe, rfl, rfl, rfl, hwritten,
      fun i hi => obufByte_emitByte_other _ s (by omega), exec_wflush_of_ok (flush_of_no_pending rfl)⟩

/-! ### The length law (R169) -/

/-- The bits of a list of fields, in stream order (R162, R188). -/
def fieldBits (fs : List StreamField) : List Bool := fs.flatMap fun f => bitsMsb (f.1.setWidth 64) f.2.toNat

theorem length_fieldBits (fs : List StreamField) : (fieldBits fs).length = (fs.map fun f => f.2.toNat).sum := by
  simp [fieldBits, List.length_flatMap]

/-- Fields that fit are appended to the stream, one after the other. -/
theorem writeFields_fits {fs : List StreamField} (hwidth : ∀ f ∈ fs, f.2.toNat ≤ 32) {s : State}
    (hp : s.optr.toNat ≤ s.obufSize) (hroom : (fieldBits fs).length ≤ s.room) :
    ∃ t, writeFields fs s = some t ∧ t.written = s.written ++ fieldBits fs ∧ t.optr.toNat ≤ t.obufSize ∧
      t.obufSize = s.obufSize := by
  induction fs generalizing s with
  | nil => exact ⟨s, rfl, (List.append_nil _).symm, hp, rfl⟩
  | cons f fs ih =>
    have hbits : fieldBits (f :: fs) = bitsMsb (f.1.setWidth 64) f.2.toNat ++ fieldBits fs := rfl
    obtain ⟨hf, hfs⟩ := List.forall_mem_cons.1 hwidth
    rw [hbits, List.length_append] at hroom
    have hfits : (bitsMsb (f.1.setWidth 64) f.2.toNat).length ≤ ({ s with arg := f.1 } : State).room :=
      (Nat.le_add_right _ _).trans hroom
    obtain ⟨u, hu, hframe, hwritten, hpu, hroomu, -⟩ := writeList_fits _ (s := { s with arg := f.1 }) hp hfits
    have hexec : exec (.wbits f.2) { s with arg := f.1 } = .next (doneOk u) := by
      rw [exec_wbits hf, hu, completed, complete_ok]
    have hrest : (fieldBits fs).length ≤ u.room := by
      have : u.room + _ = s.room := hroomu
      omega
    obtain ⟨t, ht, hwrittent, hpt, hsize⟩ := ih hfs (s := doneOk u) hpu hrest
    refine ⟨t, by rw [writeFields, hexec]; exact ht, ?_, hpt, hsize.trans hframe.obufSize⟩
    calc t.written = u.written ++ fieldBits fs := hwrittent
      _ = s.written ++ fieldBits (f :: fs) := by rw [hwritten, hbits, List.append_assoc]; rfl

/-- Where no bit is pending, the stream is the bytes OBUF[0..OPTR-1]. -/
theorem written_of_no_pending {s : State} (h : s.wcnt = 0) :
    s.written = (List.range s.optr.toNat).flatMap fun i => byteBits (s.obufByte i) := by
  rw [written_eq, h]
  exact List.append_nil _

theorem length_padBits (n : Nat) : (padBits n).length = (8 - n % 8) % 8 := List.length_replicate

/-- A stream no longer than OBUF can be flushed: its last bits are pending only where a byte is free for them. -/
theorem flush_of_written_fits {s : State} (hp : s.optr.toNat ≤ s.obufSize) (hlen : s.written.length ≤ 8 * s.obufSize) :
    ∃ t, flush s = .ok () t ∧ t.wcnt = 0 ∧ t.written = s.written ++ padBits s.written.length := by
  rw [length_written] at hlen
  obtain ⟨t, ht, -, hwritten, hcnt, -⟩ := flush_ok hp (by omega)
  exact ⟨t, ht, hcnt, hwritten⟩

/-- Settles O38: the fields are appended to the empty stream and fit, so the flush pads them to whole bytes. -/
theorem lengthLaw : Obligations.LengthLaw := by
  intro s a fs hwidth hsum ha
  obtain rfl : doneOk { s with optr := 0, wacc := 0, wcnt := 0 } = a := by injection ha
  rw [← length_fieldBits] at hsum ⊢
  obtain ⟨w, hw, hwritten, hpw, hsize⟩ := writeFields_fits hwidth
    (s := doneOk { s with optr := 0, wacc := 0, wcnt := 0 }) (Nat.zero_le _) (hsum.trans (Nat.le_add_right _ 7))
  replace hwritten : w.written = fieldBits fs := hwritten
  obtain ⟨t, ht, hcnt, hpadded⟩ := flush_of_written_fits hpw (by rw [hwritten, hsize]; exact hsum)
  rw [hwritten] at hpadded
  refine ⟨w, doneOk t, hw, exec_wflush_of_ok ht, ?_, hcnt, ?_⟩
  · have hlen : 8 * t.optr.toNat + t.wcnt.val = (fieldBits fs).length + (8 - (fieldBits fs).length % 8) % 8 := by
      rw [← length_written, hpadded, List.length_append, length_padBits]
    rw [hcnt, Fin.val_zero] at hlen
    change t.optr.toNat = _
    omega
  · exact (written_of_no_pending hcnt).symm.trans hpadded

/-! ### The start of each stream (R164, R184, R201, R221) -/

/-- With RACC empty and IPTR at 0, all of the input remains (R187). -/
theorem remaining_of_start {s : State} (hcnt : s.rcnt = 0) (hptr : s.iptr = 0) :
    s.remaining = (List.range s.ilen.toNat).flatMap fun i => byteBits (s.ibufByte i) := by
  simp [State.remaining, hcnt, hptr]

/-- Settles O35: the bodies are the frames; what remains after RINIT is the whole input. -/
theorem streamStarts : Obligations.StreamStarts := fun s =>
  ⟨rfl, rfl, remaining_of_start (s := { s with iptr := 0, racc := 0, rcnt := 0, eoi := false }) rfl rfl, rfl,
    Vector.replicate 256 0, rfl, fun c => by simp [symbol_lt c]⟩

end Sys2Proof.Machine

/-! The input stream: what each read returns, the fields that come back, and decode commands after the end of input
(42_bitreader.md R181 to R188). -/

namespace Sys2Proof.Machine

/-! ### One bit (R181) -/

theorem readBit_pending {s : State} {k : Fin 8} (h : s.rcnt.val = k.val + 1) :
    readBit s = (s.racc.getLsbD k.val, { s with rcnt := k.castSucc }) := by
  have hrefill : refill s = some s := by rw [refill, if_neg (by omega)]
  rw [readBit, hrefill]
  simp only [takeBit, h, Nat.add_sub_cancel]
  rfl

theorem readBit_refills {s : State} (h : s.rcnt = 0) (hlt : s.iptr.toNat < s.ilen.toNat) :
    readBit s = ((s.ibufByte s.iptr.toNat).getLsbD 7,
      { s with racc := s.ibufByte s.iptr.toNat, iptr := s.iptr + 1, rcnt := 7 }) := by
  have hrefill : refill s = some { s with racc := s.ibufByte s.iptr.toNat, iptr := s.iptr + 1, rcnt := 8 } := by
    rw [refill, if_pos (Fin.val_eq_zero_iff.2 h), if_pos (BitVec.lt_def.2 hlt)]
  rw [readBit, hrefill]
  rfl

theorem readBit_at_end {s : State} (h : s.rcnt = 0) (hle : s.ilen.toNat ≤ s.iptr.toNat) :
    readBit s = (false, setEoi s) := by
  have hrefill : refill s = none := by
    rw [refill, if_pos (Fin.val_eq_zero_iff.2 h), if_neg (BitVec.not_lt.2 (BitVec.le_def.2 hle))]
  rw [readBit, hrefill]

theorem exec_rbit {s t : State} {b : Bool} (h : readBit s = (b, t)) :
    exec .rbit s = .next (doneOk { t with result := BitVec.ofNat 32 b.toNat }) := by
  have hzext : (BitVec.ofBool b).setWidth 32 = BitVec.ofNat 32 b.toNat := by cases b <;> rfl
  have hbody : rbit s = .ok () { t with result := BitVec.ofNat 32 b.toNat } := by
    simp only [rbit, h, hzext]
  rw [← complete_ok, ← hbody]
  rfl

/-- Settles O39, by the three cases of `read_bit`. -/
theorem rbitReadsOneBit : Obligations.RbitReadsOneBit := fun _ =>
  ⟨fun _ hk => exec_rbit (readBit_pending hk), fun h hlt => exec_rbit (readBit_refills h hlt),
    fun h hle => exec_rbit (readBit_at_end h hle)⟩

/-! ### Numbers (R182) -/

/-- `read_bits(n)` with the reader's position: what `readBitsFrom_spec` says, and that the bits were taken in order. -/
theorem readBits_spec (n : Nat) (s : State) :
    ∃ u, readBits n s =
        (BitVec.ofNat 32 (numOf (s.remaining.take n ++ List.replicate (n - s.remaining.length) false)), u) ∧
      OnlyReader s u ∧ Consumed n s u ∧ u.eoi = (s.eoi || decide (s.remaining.length < n)) := by
  obtain ⟨u, hu, hframe, hrem, heoi⟩ := readBitsFrom_spec n 0 s
  have htook := readBitsFrom_took n 0 s
  rw [hu] at htook
  exact ⟨u, hu, hframe, htook.consumed hrem, heoi⟩

theorem exec_rbits {n : Byte} (hn : n.toNat ≤ 32) {s u : State} {v : Word} (h : readBits n.toNat s = (v, u)) :
    exec (.rbits n) s = .next (doneOk { u with result := v }) := by
  have hbody : rbits n s = .ok () { u with result := v } := by
    rw [rbits, if_pos (widthOk_iff.2 hn)]
    simp only [widthOperand, h]
  rw [← complete_ok, ← hbody]
  rfl

/-- Settles O40: RBITS is `read_bits(n)` with its value in RESULT. -/
theorem rbitsReadsANumber : Obligations.RbitsReadsANumber := by
  intro s n hn
  obtain ⟨u, hu, hreader⟩ := readBits_spec n.toNat s
  exact ⟨u, exec_rbits hn hu, hreader⟩

/-! ### Fields read back (R188) -/

/-- RBITS where the next `n` bits are known: it returns their number, and the rest remains. -/
theorem exec_rbits_of_remaining {s : State} {n : Byte} {bits rest : List Bool} (hn : n.toNat ≤ 32)
    (hlen : bits.length = n.toNat) (hrem : s.remaining = bits ++ rest) :
    ∃ t, exec (.rbits n) s = .next t ∧ t.result = BitVec.ofNat 32 (numOf bits) ∧ t.remaining = rest ∧ t.eoi = s.eoi := by
  obtain ⟨u, hu, -, ⟨-, hdrop, -⟩, heoi⟩ := rbitsReadsANumber s n hn
  have hle : n.toNat ≤ s.remaining.length := by
    rw [hrem, List.length_append]
    omega
  refine ⟨_, hu, ?_, ?_, ?_⟩
  · change BitVec.ofNat 32 (numOf _) = _
    rw [Nat.sub_eq_zero_of_le hle, List.replicate_zero, List.append_nil, hrem, ← hlen, List.take_left]
  · change u.remaining = rest
    rw [hdrop, hrem, ← hlen, List.drop_left]
  · change u.eoi = s.eoi
    rw [heoi, decide_eq_false (Nat.not_lt.2 hle), Bool.or_false]

/-- A reader that stands before the bits of some fields reads the fields' values, and no end of input. -/
theorem readFields_of_remaining {fs : List StreamField} (hwidth : ∀ f ∈ fs, f.2.toNat ≤ 32) {s : State} {rest : List Bool}
    (hrem : s.remaining = fieldBits fs ++ rest) (heoi : s.eoi = false) :
    ∃ v, readFields (fs.map Prod.snd) s = some (fs.map fun f => BitVec.ofNat 32 (f.1.toNat % 2 ^ f.2.toNat), v) ∧
      v.eoi = false := by
  induction fs generalizing s with
  | nil => exact ⟨s, rfl, heoi⟩
  | cons f fs ih =>
    obtain ⟨hf, hfs⟩ := List.forall_mem_cons.1 hwidth
    have hbits : fieldBits (f :: fs) = bitsMsb (f.1.setWidth 64) f.2.toNat ++ fieldBits fs := rfl
    rw [hbits, List.append_assoc] at hrem
    obtain ⟨t, ht, hresult, hremt, heoit⟩ := exec_rbits_of_remaining hf (bitsMsb_length _ _) hrem
    obtain ⟨v, hv, heoiv⟩ := ih hfs hremt (heoit.trans heoi)
    have hvalue : t.result = BitVec.ofNat 32 (f.1.toNat % 2 ^ f.2.toNat) := by
      rw [hresult, numOf_bitsMsb, BitVec.toNat_setWidth_of_le (by decide)]
    refine ⟨v, ?_, heoiv⟩
    simp only [List.map_cons, readFields, ht, hv, hvalue, Option.map_some]

/-- Settles O41: after RINIT the fields' bits remain, by the length law, with the padding after them. -/
theorem fieldsReadBackExactly : Obligations.FieldsReadBackExactly := by
  intro s a w u r b fs hwidth hsum ha hw hu hilen hcopy hb
  obtain ⟨w', u', hw', hu', -, -, hbytes⟩ := lengthLaw s a fs hwidth hsum ha
  obtain rfl : w = w' := Option.some.inj (hw.symm.trans hw')
  obtain rfl : u = u' := Host.Outcome.next.inj (hu.symm.trans hu')
  obtain rfl : doneOk { r with iptr := 0, racc := 0, rcnt := 0, eoi := false } = b := Host.Outcome.next.inj hb
  refine readFields_of_remaining hwidth (rest := padBits (fs.map fun f => f.2.toNat).sum)
    ((remaining_of_start rfl rfl).trans ?_) rfl
  calc (List.range r.ilen.toNat).flatMap (fun i => byteBits (r.ibufByte i))
    _ = (List.range u.optr.toNat).flatMap fun i => byteBits (u.obufByte i) := by
      rw [hilen]
      exact List.flatMap_congr fun i hi => by rw [hcopy i (List.mem_range.1 hi)]
    _ = fieldBits fs ++ padBits (fs.map fun f => f.2.toNat).sum := hbytes

/-! ### Decode commands after the end of input (R183) -/

/-- From `s` with EOI = 1 a body ended at its first bit read: MALFORMED_STREAM, with nothing but that bit consumed. -/
def FailsAtFirstBit {α : Type} (s : State) (r : Res α) : Prop :=
  ∃ u, r = .raised .malformedStream u ∧ OnlyReader s u ∧ Consumed 1 s u ∧ u.eoi = true

theorem FailsAtFirstBit.bind {α β : Type} {s : State} {r : Res α} (h : FailsAtFirstBit s r) (k : α → State → Res β) :
    FailsAtFirstBit s (r.bind k) := by
  obtain ⟨u, rfl, hu⟩ := h
  exact ⟨u, rfl, hu⟩

/-- The command of such a body completes with code 0x09 (60_exceptions.md R301). -/
theorem FailsAtFirstBit.completed {s : State} {r : Res Unit} (h : FailsAtFirstBit s r) :
    ∃ u, completed r = .next (doneErr 0x09 u) ∧ OnlyReader s u ∧ Consumed 1 s u ∧ u.eoi = true := by
  obtain ⟨u, rfl, hu⟩ := h
  exact ⟨u, congrArg Host.Outcome.next (complete_raised _ u), hu⟩

theorem decBit_failsAtFirstBit {s : State} (h : s.eoi = true) : FailsAtFirstBit s (decBit s) := by
  have htook := readBit_took s
  obtain ⟨hnone, hread⟩ | ⟨b, t, hread, hrem, hframe, heoi⟩ := readBit_cases s <;> rw [hread] at htook
  · exact ⟨setEoi s, decBit_end hnone, rfl, htook.consumed (by rw [remaining_setEoi, hnone]; rfl), rfl⟩
  · have heoit : t.eoi = true := heoi.trans h
    exact ⟨t, by simp only [decBit, hread, heoit, if_true], hframe, htook.consumed (by rw [hrem]; rfl), heoit⟩

theorem decBits_failsAtFirstBit {s : State} (h : s.eoi = true) (n : Nat) : FailsAtFirstBit s (decBits (n + 1) s) :=
  (decBit_failsAtFirstBit h).bind _

/-- From an internal node a decode begins with a bit read. -/
theorem decodeFrom_failsAtFirstBit {s : State} (h : s.eoi = true) {i : Fin 511} (hnode : (s.nodeAt i).leaf = false) (k : Nat) :
    FailsAtFirstBit s (decodeFrom (k + 1) i s) := by
  simp only [decodeFrom, hnode, Bool.false_eq_true, if_false]
  exact (decBit_failsAtFirstBit h).bind _

theorem decodeSymbol_failsAtFirstBit {s : State} (h : s.eoi = true) (hroot : (s.nodeAt s.root).leaf = false) :
    FailsAtFirstBit s (decodeSymbol s) := by
  have hdepth : decodeDepth = 2 ^ 36 - 1 + 1 := by simp [decodeDepth]
  rw [decodeSymbol, hdepth]
  exact decodeFrom_failsAtFirstBit h hroot _

theorem needTrie_of_tvalid (body : State → Res Unit) {s : State} (h : s.tvalid = true) : needTrie body s = body s :=
  if_pos h

theorem decodeAll_failsAtFirstBit {s : State} (h : s.eoi = true) (hroot : (s.nodeAt s.root).leaf = false) {n : Nat}
    (hn : n ≠ 0) : FailsAtFirstBit s (decodeAll n s) := by
  obtain ⟨m, rfl⟩ := Nat.exists_eq_succ_of_ne_zero hn
  exact (decodeSymbol_failsAtFirstBit h hroot).bind _

theorem hdsym_failsAtFirstBit {s : State} (h : s.eoi = true) (hvalid : s.tvalid = true)
    (hroot : (s.nodeAt s.root).leaf = false) : FailsAtFirstBit s (hdsym s) := by
  rw [hdsym, needTrie_of_tvalid _ hvalid]
  exact (decodeSymbol_failsAtFirstBit h hroot).bind _

theorem hdsyms_failsAtFirstBit {s : State} (h : s.eoi = true) (hvalid : s.tvalid = true)
    (hroot : (s.nodeAt s.root).leaf = false) (hrem : s.hrem ≠ 0) : FailsAtFirstBit s (hdsyms s) := by
  rw [hdsyms, needTrie_of_tvalid _ hvalid]
  exact decodeAll_failsAtFirstBit h hroot fun h0 => hrem (BitVec.eq_of_toNat_eq h0)

/-- Settles O42: each of the four bodies begins with a decode read. -/
theorem decodeAfterEndOfInput : Obligations.DecodeAfterEndOfInput := fun _ h =>
  ⟨((decBits_failsAtFirstBit h _).bind _).completed, ((decBits_failsAtFirstBit h _).bind _).completed,
    fun hvalid hroot => ⟨(hdsym_failsAtFirstBit h hvalid hroot).completed,
      fun hrem => (hdsyms_failsAtFirstBit h hvalid hroot hrem).completed⟩⟩

end Sys2Proof.Machine

/-! The LZW commands: LEMIT's code and next code, and LREAD's classes (43_lzw.md R203, R205). -/

namespace Sys2Proof.Machine

/-! ### RESULT words as numbers -/

/-- Fields that do not overlap add up: `a` below bit `k`, `y` from bit `k` on. -/
theorem ofNat_or_shiftLeft {a k : Nat} (ha : a < 2 ^ k) (y : Word) :
    BitVec.ofNat 32 a ||| y <<< k = BitVec.ofNat 32 (a + 2 ^ k * y.toNat) := by
  have hdisjoint : BitVec.ofNat 32 a &&& y <<< k = 0#32 := by
    apply BitVec.eq_of_getLsbD_eq
    intro i _
    by_cases hik : i < k
    · simp [hik]
    · have hbit : a.testBit i = false :=
        Nat.testBit_lt_two_pow (ha.trans_le (Nat.pow_le_pow_right (by decide) (Nat.le_of_not_lt hik)))
      simp [BitVec.getLsbD_ofNat, hbit]
  rw [← BitVec.add_eq_or_of_and_eq_zero _ _ hdisjoint]
  apply BitVec.eq_of_toNat_eq
  simp [Nat.shiftLeft_eq, Nat.mul_comm]

theorem lemitResult_eq (e : BitVec 13) : lemitResult e = BitVec.ofNat 32 (0x80000000 + e.toNat) := by
  rw [lemitResult, BitVec.or_comm, ← BitVec.ofNat_toNat, Nat.add_comm]
  exact ofNat_or_shiftLeft (k := 31) (by omega) 1

theorem lreadResult_none (c : BitVec 12) (self : Bool) :
    lreadResult c self none = BitVec.ofNat 32 (c.toNat + if self then 0x1000 else 0) := by
  rw [lreadResult, ← BitVec.ofNat_toNat]
  refine (ofNat_or_shiftLeft c.isLt _).trans ?_
  cases self <;> rfl

/-- ADDED and the created index stand above the codeword and its class. -/
theorem lreadResult_some (c : BitVec 12) (self : Bool) (d : BitVec 13) :
    lreadResult c self (some d) =
      BitVec.ofNat 32 ((c.toNat + if self then 0x1000 else 0) + 0x8000 + 0x10000 * d.toNat) := by
  have hsplit : lreadResult c self (some d) = lreadResult c self none ||| (1 : Word) <<< 15 ||| d.setWidth 32 <<< 16 := rfl
  have hlow : (c.toNat + if self then 0x1000 else 0) < 2 ^ 15 := by split <;> omega
  have hd : (d.setWidth 32).toNat = d.toNat := BitVec.toNat_setWidth_of_le (by decide)
  rw [hsplit, lreadResult_none, ofNat_or_shiftLeft hlow, ofNat_or_shiftLeft (Nat.add_lt_add_right hlow _), hd]
  rfl

/-! ### LEMIT (R203) -/

theorem OnlyWriter.enext_eq {s t : State} (h : OnlyWriter s t) : t.enext = s.enext := by rw [h]

theorem lemit_badCode {s : State} {c : BitVec 12} (h : c.toNat = 256 ∨ s.enext.toNat ≤ c.toNat) (g : Bool) :
    lemit c g s = .raised .badCode s := if_pos h

/-- A code that the dictionary holds is written; then the next code is assigned. -/
theorem lemit_eq_writeList {s : State} {c : BitVec 12} (hc : c.toNat ≠ 256) (hlt : c.toNat < s.enext.toNat) (g : Bool) :
    lemit c g s = (writeList (bitsMsb (c.setWidth 64) 12) s).bind fun _ t => .ok () (assignCode g t) := by
  have hlegal : lemit c g s = (writeBits (wideOfCode c) 12 s).bind fun _ t => .ok () (assignCode g t) :=
    if_neg (not_or.2 ⟨hc, Nat.not_le.2 hlt⟩)
  rw [hlegal, writeBits_eq]
  rfl

theorem assignCode_eq (g : Bool) (s : State) :
    assignCode g s = if g = true ∧ s.enext.toNat < 4096 then
      { s with result := BitVec.ofNat 32 (0x80000000 + s.enext.toNat), enext := s.enext + 1 }
    else { s with result := 0 } := by
  rw [← lemitResult_eq]
  rfl

theorem exec_lemit (c : BitVec 12) (g : Bool) (s : State) : exec (.lemit c g) s = .next (complete (lemit c g s)) := rfl

/-- Settles O43: `writeList` either fits, and then the code assignment follows, or overflows, and then it does not. -/
theorem lemitEmitsAndAssigns : Obligations.LemitEmitsAndAssigns := by
  intro s c g hp
  refine ⟨fun hbad => ?_, fun hc hlt hroom => ?_, fun hc hlt hroom => ?_⟩
  · rw [exec_lemit, lemit_badCode hbad, complete_raised]
    rfl
  · obtain ⟨u, hu, hframe, hwritten, -, -, -, hout⟩ :=
      writeList_fits _ hp ((bitsMsb_length (c.setWidth 64) 12).trans_le hroom)
    refine ⟨u, hframe, hwritten, hout, ?_⟩
    rw [exec_lemit, lemit_eq_writeList hc hlt, hu, Res.bind_ok, complete_ok, assignCode_eq, hframe.enext_eq]
  · obtain ⟨u, hu, hframe, hwritten, -, -, -, hout⟩ :=
      writeList_overflows _ hp (hroom.trans_eq (bitsMsb_length (c.setWidth 64) 12).symm)
    refine ⟨u, hframe, hwritten, hout, ?_⟩
    rw [exec_lemit, lemit_eq_writeList hc hlt, hu, Res.bind_raised, complete_raised]
    rfl

/-! ### `dec_bits` with the reader's position (42_bitreader.md R183) -/

theorem decBits_consumes {n : Nat} {s : State} (he : s.eoi = false) (hn : n ≤ s.remaining.length) :
    ∃ u, decBits n s = .ok (BitVec.ofNat 32 (numOf (s.remaining.take n))) u ∧ OnlyReader s u ∧ Consumed n s u ∧
      u.eoi = false := by
  obtain ⟨u, hu, hframe, hrem, heoi⟩ := decBits_ok he hn
  have htook := decBits_takes n s
  rw [hu] at htook
  exact ⟨u, hu, hframe, htook.consumed hrem, heoi⟩

theorem decBits_truncated {n : Nat} {s : State} (he : s.eoi = false) (hn : s.remaining.length < n) :
    ∃ u, decBits n s = .raised .malformedStream u ∧ OnlyReader s u ∧ Consumed n s u ∧ u.eoi = true := by
  obtain ⟨u, hu, hframe, hrem, heoi⟩ := decBitsFrom_short n (v := 0) he hn
  have htook := decBits_takes n s
  rw [decBits, hu] at htook
  exact ⟨u, hu, hframe, htook.consumed (hrem.trans (List.drop_of_length_le hn.le).symm), heoi⟩

/-! ### LREAD (R205) -/

theorem OnlyReader.dnext_eq {s t : State} (h : OnlyReader s t) : t.dnext = s.dnext := by rw [h]

theorem OnlyReader.dfirst_eq {s t : State} (h : OnlyReader s t) : t.dfirst = s.dfirst := by rw [h]

/-- With 12 bits left LREAD classifies their number. -/
theorem lread_of_codeword {s : State} (he : s.eoi = false) (hlen : 12 ≤ s.remaining.length) :
    ∃ (c : BitVec 12) (u : State), c.toNat = numOf (s.remaining.take 12) ∧ lread s = classify c u ∧ OnlyReader s u ∧
      Consumed 12 s u ∧ u.eoi = false := by
  obtain ⟨u, hu, hreader⟩ := decBits_consumes he hlen
  have hlt : numOf (s.remaining.take 12) < 2 ^ 12 := by
    simpa [List.length_take, Nat.min_eq_left hlen] using numOf_lt (s.remaining.take 12)
  refine ⟨(BitVec.ofNat 32 (numOf (s.remaining.take 12))).setWidth 12, u, ?_, congrArg (Res.bind · _) hu, hreader⟩
  rw [BitVec.toNat_setWidth, BitVec.toNat_ofNat]
  omega

section classes

variable {c : BitVec 12} {s : State}

theorem classify_eof (h : c.toNat = 256) : classify c s = .ok () { s with result := 0x2100 } := by
  obtain rfl : c = 256 := BitVec.eq_of_toNat_eq h
  rfl

theorem classify_first_beyond (hfirst : s.dfirst = true) (h : 257 ≤ c.toNat) :
    classify c s = .raised .malformedStream s := by
  rw [classify, Config.lzwEof, Config.lzwFirst, if_neg (Nat.ne_of_gt h), if_pos hfirst, if_pos h]

theorem classify_first_known (hfirst : s.dfirst = true) (hc : c.toNat ≠ 256) (h : ¬ 257 ≤ c.toNat) :
    classify c s = .ok () { s with dfirst := false, result := BitVec.ofNat 32 c.toNat } := by
  rw [classify, Config.lzwEof, Config.lzwFirst, if_neg hc, if_pos hfirst, if_neg h, lreadResult_none]
  rfl

theorem classify_beyond (hfirst : s.dfirst ≠ true) (hc : c.toNat ≠ 256) (h : s.dnext.toNat < c.toNat) :
    classify c s = .raised .malformedStream s := by
  rw [classify, Config.lzwEof, if_neg hc, if_neg hfirst, if_neg h.not_gt, if_neg h.ne']

/-- KNOWN and SELF: a codeword up to DNEXT, SELF where it is DNEXT. -/
theorem classify_within (hfirst : s.dfirst ≠ true) (hc : c.toNat ≠ 256) (h : ¬ s.dnext.toNat < c.toNat) :
    classify c s = .ok () (appendEntry c (decide (c.toNat = s.dnext.toNat)) s) := by
  rw [classify, Config.lzwEof, if_neg hc, if_neg hfirst]
  obtain hlt | heq := (Nat.le_of_not_lt h).lt_or_eq
  · rw [if_pos hlt, decide_eq_false hlt.ne]
  · rw [if_neg heq.not_lt, if_pos heq, decide_eq_true heq]

theorem appendEntry_grows (self : Bool) (h : s.dnext.toNat < 4096) :
    appendEntry c self s = { s with
      dnext := s.dnext + 1
      result := BitVec.ofNat 32 ((c.toNat + if self then 0x1000 else 0) + 0x8000 + 0x10000 * s.dnext.toNat) } := by
  rw [appendEntry, Config.lzwCap, if_pos h, lreadResult_some]

theorem appendEntry_full (self : Bool) (h : ¬ s.dnext.toNat < 4096) :
    appendEntry c self s = { s with result := BitVec.ofNat 32 (c.toNat + if self then 0x1000 else 0) } := by
  rw [appendEntry, Config.lzwCap, if_neg h, lreadResult_none]

end classes

theorem exec_lread_of_ok {s u : State} (h : lread s = .ok () u) : exec .lread s = .next (doneOk u) := by
  rw [← complete_ok, ← h]
  rfl

theorem exec_lread_of_malformed {s u : State} (h : lread s = .raised .malformedStream u) :
    exec .lread s = .next (doneErr 0x09 u) := by
  change Host.Outcome.next (complete (lread s)) = _
  rw [h, complete_raised]
  rfl

/-- Settles O44: the codeword read goes through the classes of `classify`; a truncated one ends in `dec_bits`. -/
theorem lreadClassifies : Obligations.LreadClassifies := by
  intro s he
  refine ⟨fun hlen => ?_, fun hshort => ?_⟩
  · obtain ⟨c, u, hc, hread, hframe, hconsumed, heoi⟩ := lread_of_codeword he hlen
    refine ⟨u, hframe, hconsumed, heoi, ?_⟩
    simp only [← hc, ← hframe.dnext_eq, ← hframe.dfirst_eq]
    split
    case isTrue heof => exact exec_lread_of_ok (hread.trans (classify_eof heof))
    case isFalse hne =>
      split
      case isTrue hfirst =>
        split
        case isTrue hbeyond => exact exec_lread_of_malformed (hread.trans (classify_first_beyond hfirst hbeyond))
        case isFalse hknown => exact exec_lread_of_ok (hread.trans (classify_first_known hfirst hne hknown))
      case isFalse hlater =>
        split
        case isTrue hbeyond => exact exec_lread_of_malformed (hread.trans (classify_beyond hlater hne hbeyond))
        case isFalse hwithin =>
          rw [exec_lread_of_ok (hread.trans (classify_within hlater hne hwithin))]
          split
          case isTrue hgrows => simp only [appendEntry_grows _ hgrows, decide_eq_true_eq]
          case isFalse hfull => simp only [appendEntry_full _ hfull, decide_eq_true_eq]
  · obtain ⟨u, hu, hreader⟩ := decBits_truncated he hshort
    exact ⟨u, exec_lread_of_malformed (congrArg (Res.bind · _) hu), hreader⟩

end Sys2Proof.Machine

/-! The frequency counter (44_frequency.md): what FCOUNT, FRD and FWR do to the counters, and TOTAL as their sum. -/

namespace Sys2Proof.Machine

/-! ### The counters and their sum (10_state.md R45) -/

section counters

variable (freq : Vector Word 256) (c : Byte) (v : Word)

theorem countsOf_set (d : Byte) :
    countsOf (freq.set c.toNat v (symbol_lt c)) d = if c = d then v.toNat else countsOf freq d := by
  unfold countsOf
  rw [Vector.getElem_set, apply_ite BitVec.toNat]
  simp only [BitVec.toNat_inj]

/-- A new value for one counter changes the sum by the difference. -/
theorem freqSum_set_add :
    freqSum (freq.set c.toNat v (symbol_lt c)) + countsOf freq c = freqSum freq + v.toNat := by
  have hlt : c.toNat < (freq.toList.map BitVec.toNat).length := by simpa using symbol_lt c
  have hsplit := List.sum_take_add_sum_drop (freq.toList.map BitVec.toNat) c.toNat
  rw [List.drop_eq_getElem_cons hlt, List.sum_cons] at hsplit
  simp only [List.getElem_map, Vector.getElem_toList] at hsplit
  unfold freqSum countsOf
  rw [Vector.toList_set, List.map_set, List.sum_set, if_pos hlt]
  omega

theorem countsOf_le_freqSum : countsOf freq c ≤ freqSum freq := by
  have := freqSum_set_add freq c 0
  simp only [BitVec.ofNat_eq_ofNat, BitVec.toNat_zero] at this
  omega

theorem freqSum_replicate_zero : freqSum (Vector.replicate 256 0) = 0 := by
  rw [freqSum, Vector.toList_replicate, List.map_replicate, List.sum_replicate]
  rfl

/-- No counter passes TOTAL (R225). -/
theorem State.TotalOk.counts_le {s : State} (h : s.TotalOk) (c : Byte) : s.counts c ≤ s.total.toNat :=
  (countsOf_le_freqSum s.freq c).trans_eq h.symm

end counters

/-! ### The counting pass of FCOUNT (R222) -/

section counting

variable {freq : Vector Word 256} {c : Byte}

theorem toNat_succ {v : Word} (h : v.toNat + 1 < 2 ^ 32) : (v + 1).toNat = v.toNat + 1 :=
  BitVec.toNat_add_of_lt h

theorem freqSum_bump (h : countsOf freq c + 1 < 2 ^ 32) : freqSum (bump freq c) = freqSum freq + 1 := by
  have hset := freqSum_set_add freq c (freq[c.toNat]'(symbol_lt c) + 1)
  rw [toNat_succ h] at hset
  unfold bump
  unfold countsOf at hset
  omega

theorem countsOf_bump (h : countsOf freq c + 1 < 2 ^ 32) (d : Byte) :
    countsOf (bump freq c) d = countsOf freq d + [c].count d := by
  rw [bump, countsOf_set, toNat_succ h, List.count_singleton]
  by_cases hcd : c = d
  · subst hcd; simp [countsOf]
  · simp [hcd]

theorem countAll_cons (l : List Byte) : countAll freq (c :: l) = countAll (bump freq c) l := rfl

/-- While the sum has room for it, the pass adds each byte's occurrences to its counter, and their number to the sum. -/
theorem countAll_counts {l : List Byte} (h : freqSum freq + l.length < 2 ^ 32) :
    freqSum (countAll freq l) = freqSum freq + l.length ∧
      ∀ d, countsOf (countAll freq l) d = countsOf freq d + l.count d := by
  induction l generalizing freq with
  | nil => exact ⟨rfl, fun _ => rfl⟩
  | cons c l ih =>
    rw [List.length_cons] at h ⊢
    have hroom : countsOf freq c + 1 < 2 ^ 32 := by
      have := countsOf_le_freqSum freq c
      omega
    have hbump := freqSum_bump hroom
    obtain ⟨hsum, hcounts⟩ := ih (freq := bump freq c) (by omega)
    rw [countAll_cons]
    refine ⟨by omega, fun d => ?_⟩
    rw [hcounts, countsOf_bump hroom, ← List.singleton_append (l := l), List.count_append, Nat.add_assoc]

end counting

/-! ### FCOUNT -/

section commands

variable {s : State} {c : Byte}

/-- FCOUNT's effect where it does not overflow. -/
def State.counted (s : State) : State := { s with freq := countAll s.freq s.input, total := s.total + s.ilen }

theorem fcount_overflows (h : 2 ^ 32 ≤ s.total.toNat + s.ilen.toNat) : fcount s = .raised .countOverflow s :=
  if_pos (by omega)

theorem fcount_fits (h : s.total.toNat + s.ilen.toNat < 2 ^ 32) : fcount s = .ok () s.counted :=
  if_neg (by omega)

theorem counted_total (h : s.total.toNat + s.ilen.toNat < 2 ^ 32) :
    s.counted.total.toNat = s.total.toNat + s.ilen.toNat := BitVec.toNat_add_of_lt h

theorem input_length (s : State) : s.input.length = s.ilen.toNat := by simp [State.input]

/-- TOTAL bounds the sum that the counting pass reaches (R225). -/
theorem freqSum_add_input_lt (hs : s.TotalOk) (h : s.total.toNat + s.ilen.toNat < 2 ^ 32) :
    freqSum s.freq + s.input.length < 2 ^ 32 := by
  rwa [input_length, ← hs]

theorem counted_counts (hs : s.TotalOk) (h : s.total.toNat + s.ilen.toNat < 2 ^ 32) (d : Byte) :
    s.counted.counts d = s.counts d + s.input.count d :=
  (countAll_counts (freqSum_add_input_lt hs h)).2 d

theorem counted_totalOk (hs : s.TotalOk) (h : s.total.toNat + s.ilen.toNat < 2 ^ 32) : s.counted.TotalOk := by
  have hsum : freqSum s.counted.freq = freqSum s.freq + s.input.length :=
    (countAll_counts (freqSum_add_input_lt hs h)).1
  rw [State.TotalOk, counted_total h, hsum, input_length, hs]

theorem exec_fcount (s : State) : exec .fcount s = .next (complete (fcount s)) := rfl

/-! ### FRD and FWR -/

/-- FWR's effect where it does not overflow. -/
def State.withCounter (c : Byte) (s : State) : State :=
  { s with
    freq := s.freq.set c.toNat s.arg (symbol_lt c)
    total := BitVec.ofNat 32 (s.total.toNat - s.counts c + s.arg.toNat) }

theorem newTotal_eq (c : Byte) (s : State) :
    newTotal c s = (s.total.toNat : Int) - (s.counts c : Int) + (s.arg.toNat : Int) := rfl

theorem fwr_overflows (h : 2 ^ 32 + s.counts c ≤ s.total.toNat + s.arg.toNat) : fwr c s = .raised .countOverflow s :=
  if_pos (by rw [newTotal_eq]; omega)

theorem fwr_fits (hle : s.counts c ≤ s.total.toNat) (h : s.total.toNat + s.arg.toNat < 2 ^ 32 + s.counts c) :
    fwr c s = .ok () (s.withCounter c) := by
  have hnew : newTotal c s = (s.total.toNat - s.counts c + s.arg.toNat : Nat) := by rw [newTotal_eq]; omega
  rw [fwr, hnew, if_neg (by omega), BitVec.ofInt_natCast]
  rfl

theorem withCounter_total (hle : s.counts c ≤ s.total.toNat) (h : s.total.toNat + s.arg.toNat < 2 ^ 32 + s.counts c) :
    (s.withCounter c).total.toNat = s.total.toNat - s.counts c + s.arg.toNat :=
  toNat_ofNat_word (by omega)

theorem withCounter_freqOf_self (c : Byte) (s : State) : (s.withCounter c).freqOf c = s.arg :=
  Vector.getElem_set_self _

theorem withCounter_freqOf_ne {d : Byte} (h : d ≠ c) : (s.withCounter c).freqOf d = s.freqOf d :=
  Vector.getElem_set_ne (symbol_lt c) _ fun hcd => h (BitVec.eq_of_toNat_eq hcd.symm)

theorem withCounter_totalOk (hs : s.TotalOk) (h : s.total.toNat + s.arg.toNat < 2 ^ 32 + s.counts c) :
    (s.withCounter c).TotalOk := by
  have hle := hs.counts_le c
  have hsum : freqSum (s.withCounter c).freq + s.counts c = freqSum s.freq + s.arg.toNat := freqSum_set_add s.freq c s.arg
  rw [State.TotalOk, withCounter_total hle h]
  rw [State.TotalOk] at hs
  omega

theorem exec_frd (c : Byte) (s : State) : exec (.frd c) s = .next (complete (frd c s)) := rfl

theorem exec_fwr (c : Byte) (s : State) : exec (.fwr c) s = .next (complete (fwr c s)) := rfl

/-! ### TOTAL stays the sum (R225) -/

theorem fcount_totalOk (hs : s.TotalOk) : (fcount s).state.TotalOk := by
  by_cases h : s.total.toNat + s.ilen.toNat < 2 ^ 32
  · rw [fcount_fits h]
    exact counted_totalOk hs h
  · rw [fcount_overflows (Nat.not_lt.1 h)]
    exact hs

theorem fwr_totalOk (c : Byte) (hs : s.TotalOk) : (fwr c s).state.TotalOk := by
  by_cases h : s.total.toNat + s.arg.toNat < 2 ^ 32 + s.counts c
  · rw [fwr_fits (hs.counts_le c) h]
    exact withCounter_totalOk hs h
  · rw [fwr_overflows (Nat.not_lt.1 h)]
    exact hs

theorem totalOk_of_does {p : Prim} {t : State} (h : p.Does s t) (hs : s.TotalOk) : t.TotalOk := by
  by_cases hq : Part.counters ∈ p.parts
  · cases h with
    | fclr => exact freqSum_replicate_zero.symm
    | fcount => exact fcount_totalOk hs
    | fwr c => exact fwr_totalOk c hs
    | sreset => exact freqSum_replicate_zero.symm
    | resetLow =>
      obtain ⟨m, n, hr⟩ := assertReset_eq s
      rw [hr]
      exact freqSum_replicate_zero.symm
    | _ => simp [Prim.parts] at hq
  · have hv := view_eq_of_does h hq
    simp only [Part.view, Prod.mk.injEq] at hv
    obtain ⟨hfreq, htotal⟩ := hv
    simpa only [State.TotalOk, hfreq, htotal] using hs

end commands

/-- Settles O23: only FCLR, FCOUNT, FWR and reset change the counters or TOTAL, and each keeps TOTAL their sum. -/
theorem totalIsTheSum : Obligations.TotalIsTheSum := fun _ _ hs h => step_keeps (fun _ _ _ => totalOk_of_does) h hs

/-- Settles O45: the check comes first; where it passes, no counter of the pass can overflow, being at most TOTAL. -/
theorem fcountCounts : Obligations.FcountCounts := by
  refine fun s => ⟨fun hfull => ?_, fun hs hfits => ⟨s.counted, ?_, rfl, counted_total hfits, counted_counts hs hfits⟩⟩
  · rw [exec_fcount, fcount_overflows hfull, complete_raised]
    rfl
  · rw [exec_fcount, fcount_fits hfits, complete_ok]

/-- Settles O46: the check is on the exact sum, so the 32-bit TOTAL holds it. -/
theorem frdAndFwr : Obligations.FrdAndFwr := by
  intro s c
  refine ⟨?_, fun hfull => ?_, fun hle hfits => ⟨s.withCounter c, ?_, rfl, withCounter_total hle hfits,
    withCounter_freqOf_self c s, fun _ => withCounter_freqOf_ne⟩⟩
  · rw [exec_frd, frd, complete_ok]
  · rw [exec_fwr, fwr_overflows hfull, complete_raised]
    rfl
  · rw [exec_fwr, fwr_fits hle hfits, complete_ok]

end Sys2Proof.Machine

/-! What HBUILD leaves: the source's Huffman trie, laid down in the queue's order, and its code table (45_huffman_build.md
R240 to R245, R251). -/

namespace Sys2Proof.Machine

/-! ### The least element of the queue (R242) -/

/-- The queue's order on exact numbers. -/
def QueueLe (a b : QueueItem) : Prop := a.1.toNat < b.1.toNat ∨ (a.1.toNat = b.1.toNat ∧ a.2 ≤ b.2)

theorem QueueLe.trans {a b c : QueueItem} (hab : QueueLe a b) (hbc : QueueLe b c) : QueueLe a c := by
  unfold QueueLe at *
  omega

theorem queueLe_of_queueLt {a b : QueueItem} (h : queueLt a b = true) : QueueLe a b := by
  simp only [queueLt, Bool.or_eq_true, Bool.and_eq_true, decide_eq_true_eq, BitVec.lt_def, ← BitVec.toNat_inj] at h
  unfold QueueLe
  omega

theorem queueLe_of_not_queueLt {a b : QueueItem} (h : ¬ queueLt a b = true) : QueueLe b a := by
  simp only [queueLt, Bool.or_eq_true, Bool.and_eq_true, decide_eq_true_eq, BitVec.lt_def, ← BitVec.toNat_inj] at h
  unfold QueueLe
  omega

theorem mem_of_extractLeast {q r : List QueueItem} {x : QueueItem} (h : extractLeast q = some (x, r)) :
    x ∈ q ∧ ∀ e ∈ r, e ∈ q :=
  ⟨(extractLeast_perm h).mem_iff.2 List.mem_cons_self,
    fun _ he => (extractLeast_perm h).mem_iff.2 (List.mem_cons_of_mem _ he)⟩

/-- What is extracted comes before all that stays. -/
theorem extractLeast_queueLe {q r : List QueueItem} {x : QueueItem} (h : extractLeast q = some (x, r)) :
    ∀ e ∈ r, QueueLe x e := by
  induction q generalizing r x with
  | nil => cases h
  | cons a q ih =>
    cases hq : extractLeast q with
    | none =>
      simp only [extractLeast, hq, Option.some.injEq, Prod.mk.injEq] at h
      simp [← h.2]
    | some p =>
      obtain ⟨m, r'⟩ := p
      simp only [extractLeast, hq] at h
      split_ifs at h with hlt
      · cases h
        intro e he
        obtain rfl | he' := List.mem_cons.1 ((extractLeast_perm hq).mem_iff.1 he)
        · exact queueLe_of_queueLt hlt
        · exact (queueLe_of_queueLt hlt).trans (ih hq e he')
      · cases h
        intro e he
        obtain rfl | he' := List.mem_cons.1 he
        · exact queueLe_of_not_queueLt hlt
        · exact ih hq e he'

/-- The element extracted is the least one of a queue that stands for the indices `l`. -/
theorem isLeast_of_extractLeast {arena : Vector Node 511} {q r : List QueueItem} {x : QueueItem} {l : List Nat}
    (h : extractLeast q = some (x, r)) (hl : (q.map Prod.snd).Perm l) (hw : ∀ e ∈ q, e.1.toNat = weightAt arena e.2) :
    IsLeast arena l x.2 := by
  obtain ⟨hx, -⟩ := mem_of_extractLeast h
  refine ⟨hl.mem_iff.1 (List.mem_map_of_mem hx), fun i hi => ?_⟩
  obtain ⟨e, he, rfl⟩ := List.mem_map.1 (hl.mem_iff.2 hi)
  rw [← hw x hx, ← hw e he]
  obtain rfl | he' := List.mem_cons.1 ((extractLeast_perm h).mem_iff.1 he)
  · exact .inr ⟨rfl, Nat.le_refl _⟩
  · exact extractLeast_queueLe h e he'

theorem extractLeast_erase {q r : List QueueItem} {x : QueueItem} {l : List Nat} (h : extractLeast q = some (x, r))
    (hl : (q.map Prod.snd).Perm l) : (r.map Prod.snd).Perm (l.erase x.2) := by
  have hp := (((extractLeast_perm h).map Prod.snd).symm.trans hl).erase x.2
  rwa [List.map_cons, List.erase_cons_head] at hp

/-! ### The queue as the arena shows it -/

section queue

variable {arena : Vector Node 511} {L n : Nat}

theorem queueAt_nodup : (queueAt arena L n).Nodup := List.nodup_range.filter _

theorem lt_of_mem_queueAt {i : Nat} (h : i ∈ queueAt arena L n) : i < n := List.mem_range.1 (List.mem_filter.1 h).1

/-- Before the first merge the queue holds every leaf. -/
theorem queueAt_leaves : queueAt arena L L = List.range L := by
  refine List.filter_eq_self.2 fun i _ => ?_
  simp only [Bool.not_eq_true', List.any_eq_false, List.mem_range, Bool.and_eq_true, decide_eq_true_eq, not_and]
  omega

theorem hasChild_iff {m i : Nat} {e : Node} (h : arena[m]? = some e) :
    hasChild arena m i = true ↔ e.left.val = i ∨ e.right.val = i := by
  simp [hasChild, h]

/-- A merge puts the new entry in the queue, and leaves of the others those that are not its children. -/
theorem queueAt_succ (hL : L ≤ n) (hnew : ∀ m, L ≤ m → m ≤ n → ¬ hasChild arena m n = true) :
    queueAt arena L (n + 1) = (queueAt arena L n).filter (fun i => !hasChild arena n i) ++ [n] := by
  have hkeep : ∀ i, (!(List.range (n + 1)).any fun m => decide (L ≤ m) && hasChild arena m i) =
      (!hasChild arena n i && !(List.range n).any fun m => decide (L ≤ m) && hasChild arena m i) := by
    intro i
    rw [List.range_succ, List.any_append, Bool.not_or, Bool.and_comm, List.any_cons, List.any_nil, Bool.or_false,
      decide_eq_true hL, Bool.true_and]
  have hlast : (!(List.range (n + 1)).any fun m => decide (L ≤ m) && hasChild arena m n) = true := by
    simp only [Bool.not_eq_true', List.any_eq_false, List.mem_range, Bool.and_eq_true, decide_eq_true_eq, not_and]
    exact fun m hm hLm => hnew m hLm (Nat.le_of_lt_succ hm)
  rw [queueAt, List.range_succ, List.filter_append, ← List.range_succ, List.filter_singleton, hlast, cond_true, queueAt,
    List.filter_filter]
  simp only [hkeep]

theorem filter_not_hasChild {e : Node} {l : List Nat} (he : arena[n]? = some e) (hl : l.Nodup) :
    l.filter (fun i => !hasChild arena n i) = (l.erase e.left.val).erase e.right.val := by
  rw [(hl.erase _).erase_eq_filter, hl.erase_eq_filter, List.filter_filter]
  refine List.filter_congr fun i _ => ?_
  rw [Bool.eq_iff_iff, Bool.not_eq_true', ← Bool.not_eq_true, hasChild_iff he, Bool.and_eq_true, bne_iff_ne, bne_iff_ne]
  omega

/-- Entry `n` is the internal node of R242: over the two least elements of the queue, left child first, with their sum. -/
def MergedAt (arena : Vector Node 511) (L n : Nat) : Prop :=
  ∃ (x y : Fin 511) (f : Word),
    arena[n]? = some { leaf := false, sym := 0, left := x, right := y, f := f } ∧
    f.toNat = weightAt arena x.val + weightAt arena y.val ∧
    IsLeast arena (queueAt arena L n) x.val ∧ IsLeast arena ((queueAt arena L n).erase x.val) y.val

theorem getElem_of_getElem? {i : Fin 511} {e : Node} (h : arena[i.val]? = some e) : arena[i.val]'i.isLt = e :=
  (Vector.getElem?_eq_some_iff.1 h).2

theorem weightAt_of_getElem? {i : Nat} {e : Node} (h : arena[i]? = some e) : weightAt arena i = e.f.toNat := by
  simp [weightAt, h]

/-- The sum of a queue's weights. -/
def queueWeight (q : List QueueItem) : Nat := (q.map fun e => e.1.toNat).sum

theorem queueWeight_extract {q r : List QueueItem} {x : QueueItem} (h : extractLeast q = some (x, r)) :
    queueWeight q = x.1.toNat + queueWeight r :=
  ((extractLeast_perm h).map _).sum_eq

theorem queueWeight_append (q r : List QueueItem) : queueWeight (q ++ r) = queueWeight q + queueWeight r := by
  simp [queueWeight]

/-- `q` is the queue when entry `n` is made, its weights fit 32 bits, and the internal nodes made so far have earlier
entries as children. -/
structure QueueStands (arena : Vector Node 511) (L n : Nat) (q : List QueueItem) : Prop where
  indices : (q.map Prod.snd).Perm (queueAt arena L n)
  weights : ∀ e ∈ q, e.1.toNat = weightAt arena e.2
  fits : queueWeight q < 2 ^ 32
  earlier : ∀ m i, L ≤ m → m < n → hasChild arena m i = true → i < m

theorem internalNode_children {i j : Nat} (hi : i < 511) (hj : j < 511) (f : Word) :
    (internalNode i j f).left.val = i ∧ (internalNode i j f).right.val = j :=
  ⟨Nat.mod_eq_of_lt hi, Nat.mod_eq_of_lt hj⟩

section merge

variable {q q1 q2 : List QueueItem} {x y : QueueItem} (h : QueueStands arena L n q)
  (hx : extractLeast q = some (x, q1)) (hy : extractLeast q1 = some (y, q2))

include h hx hy

/-- No sum of two weights overflows (R242). -/
theorem QueueStands.toNat_add :
    (x.1 + y.1).toNat = x.1.toNat + y.1.toNat ∧ x.1.toNat + y.1.toNat + queueWeight q2 < 2 ^ 32 := by
  have hfits := h.fits
  rw [queueWeight_extract hx, queueWeight_extract hy] at hfits
  exact ⟨BitVec.toNat_add_of_lt (by omega), by omega⟩

/-- The two elements extracted are the least of the queue and the least of its rest. -/
theorem QueueStands.least :
    IsLeast arena (queueAt arena L n) x.2 ∧ IsLeast arena ((queueAt arena L n).erase x.2) y.2 :=
  ⟨isLeast_of_extractLeast hx h.indices h.weights,
    isLeast_of_extractLeast hy (extractLeast_erase hx h.indices) fun e he =>
      h.weights e ((mem_of_extractLeast hx).2 e he)⟩

theorem QueueStands.children_lt : x.2 < n ∧ y.2 < n := by
  obtain ⟨hleastx, hleasty⟩ := h.least hx hy
  exact ⟨lt_of_mem_queueAt hleastx.1, lt_of_mem_queueAt (List.mem_of_mem_erase hleasty.1)⟩

variable (hn : arena[n]? = some (internalNode x.2 y.2 (x.1 + y.1)))

include hn

/-- The merged node's children are the two elements extracted. -/
theorem QueueStands.children_eq :
    (internalNode x.2 y.2 (x.1 + y.1)).left.val = x.2 ∧ (internalNode x.2 y.2 (x.1 + y.1)).right.val = y.2 := by
  obtain ⟨hxn, hyn⟩ := h.children_lt hx hy
  obtain ⟨hn511, -⟩ := Vector.getElem?_eq_some_iff.1 hn
  exact internalNode_children (hxn.trans hn511) (hyn.trans hn511) _

/-- The entry that one turn of the merging loop makes. -/
theorem QueueStands.mergedAt : MergedAt arena L n := by
  obtain ⟨hleft, hright⟩ := h.children_eq hx hy hn
  obtain ⟨hleastx, hleasty⟩ := h.least hx hy
  obtain ⟨hxq, hq1⟩ := mem_of_extractLeast hx
  obtain ⟨hyq, -⟩ := mem_of_extractLeast hy
  refine ⟨(internalNode x.2 y.2 (x.1 + y.1)).left, (internalNode x.2 y.2 (x.1 + y.1)).right, x.1 + y.1, hn, ?_⟩
  rw [hleft, hright, (h.toNat_add hx hy).1, h.weights x hxq, h.weights y (hq1 y hyq)]
  exact ⟨rfl, hleastx, hleasty⟩

/-- The queue that one turn of the merging loop leaves. -/
theorem QueueStands.next (hL : L ≤ n) : QueueStands arena L (n + 1) (q2 ++ [(x.1 + y.1, n)]) := by
  obtain ⟨hleft, hright⟩ := h.children_eq hx hy hn
  obtain ⟨hxn, hyn⟩ := h.children_lt hx hy
  obtain ⟨hadd, hfits⟩ := h.toNat_add hx hy
  have hearlier : ∀ m i, L ≤ m → m < n + 1 → hasChild arena m i = true → i < m := by
    intro m i hLm hm hi
    obtain hm' | rfl := Nat.lt_succ_iff_lt_or_eq.1 hm
    · exact h.earlier m i hLm hm' hi
    · rw [hasChild_iff hn, hleft, hright] at hi
      omega
  refine ⟨?_, fun e he => ?_, ?_, hearlier⟩
  · have hnew : ∀ m, L ≤ m → m ≤ n → ¬ hasChild arena m n = true := fun m hLm hm hc =>
      Nat.not_lt.2 hm (hearlier m n hLm (Nat.lt_succ_of_le hm) hc)
    rw [queueAt_succ hL hnew, filter_not_hasChild hn queueAt_nodup, hleft, hright, List.map_append]
    exact (extractLeast_erase hy (extractLeast_erase hx h.indices)).append_right [n]
  · obtain he | he := List.mem_append.1 he
    · exact h.weights e ((mem_of_extractLeast hx).2 e ((mem_of_extractLeast hy).2 e he))
    · rw [List.mem_singleton.1 he, weightAt_of_getElem? hn]
      rfl
  · rw [queueWeight_append, Nat.add_comm]
    show (x.1 + y.1).toNat + queueWeight q2 < 2 ^ 32
    rwa [hadd]

end merge

theorem getElem?_of_prefix {ns ms : List Node} {i : Nat} {e : Node} (h : ns <+: ms) (he : ns[i]? = some e) :
    ms[i]? = some e := by
  obtain ⟨_, rfl⟩ := h
  exact getElem?_append_of_some he

theorem mergeLoop_prefix (k : Nat) (q : List QueueItem) (ns : List Node) : ns <+: mergeLoop k q ns := by
  induction k generalizing q ns with
  | zero => exact List.prefix_refl _
  | succ k ih =>
    obtain ⟨-, hm⟩ | ⟨x, q1, y, q2, -, -, -, hm⟩ := mergeLoop_succ k q ns
    · rw [hm]
    · rw [hm]
      exact (List.prefix_append _ _).trans (ih _ _)

/-- Every entry the merging loop makes is the node of R242, in an arena that starts with the loop's entries. -/
theorem mergeLoop_mergedAt {k : Nat} {q : List QueueItem} {ns : List Node}
    (ha : ∀ (j : Nat) (e : Node), (mergeLoop k q ns)[j]? = some e → arena[j]? = some e) (hL : L ≤ ns.length)
    (h : QueueStands arena L ns.length q) (hn : ns.length ≤ n) (hlt : n < (mergeLoop k q ns).length) :
    MergedAt arena L n := by
  induction k generalizing q ns with
  | zero => exact absurd hlt (Nat.not_lt.2 hn)
  | succ k ih =>
    obtain ⟨-, hm⟩ | ⟨x, q1, y, q2, hx, hy, -, hm⟩ := mergeLoop_succ k q ns
    · rw [hm] at hlt
      exact absurd hlt (Nat.not_lt.2 hn)
    · rw [hm] at ha hlt
      have hlast : (ns ++ [internalNode x.2 y.2 (x.1 + y.1)])[ns.length]? = some (internalNode x.2 y.2 (x.1 + y.1)) := by
        simp
      have hentry := ha _ _ (getElem?_of_prefix (mergeLoop_prefix _ _ _) hlast)
      have hlen : (ns ++ [internalNode x.2 y.2 (x.1 + y.1)]).length = ns.length + 1 := List.length_append
      obtain rfl | hn' := Nat.eq_or_lt_of_le hn
      · exact h.mergedAt hx hy hentry
      · refine ih ha ?_ ?_ ?_ hlt
        · rw [hlen]; exact Nat.le_succ_of_le hL
        · rw [hlen]; exact h.next hx hy hentry hL
        · rw [hlen]; exact hn'

end queue

/-! ### What a successful HBUILD leaves -/

/-- The state HBUILD's body reaches where no code is too long: the new trie with its code table (R245). -/
def State.built (s : State) : State :=
  { buildTrie s with
    len := (codeTable (buildTrie s).node (buildTrie s).root).len,
    code := (codeTable (buildTrie s).node (buildTrie s).root).code, tvalid := true }

/-- CODE_TOO_LONG does not occur while TOTAL is the sum of the counters (R244). -/
theorem exec_hbuild {s : State} (h : s.TotalOk) : exec .hbuild s = .next (doneOk s.built) := by
  have hbody : hbuild s = .ok () s.built := by simp [hbuild, (buildTrie_codes h 0).1, State.built]
  show Host.Outcome.next (complete (hbuild s)) = _
  rw [hbody, complete_ok]

theorem built_nodes (s : State) : s.built.nodes.val = (buildNodes s.freq).length := buildTrie_nodes s

theorem built_nodes_succ (s : State) : s.built.nodes.val + 1 = 2 * (leafSymbols s.counts).length := by
  obtain ⟨_, -, -, -, hlen, -⟩ := buildNodes_trie s.freq
  rw [built_nodes, hlen, leaves_length, s.counts_eq]

theorem built_root_succ (s : State) : s.built.root.val + 1 = s.built.nodes.val := by
  have hroot : s.built.root.val = (buildNodes s.freq).length - 1 := buildTrie_root s
  have := buildNodes_length s.freq
  rw [hroot, built_nodes]
  omega

theorem built_node {s : State} {j : Nat} {e : Node} (h : (buildNodes s.freq)[j]? = some e) :
    s.built.node[j]? = some e := by
  have hj : j < 511 := by
    have := (List.getElem?_eq_some_iff.1 h).1
    have := buildNodes_length s.freq
    omega
  rw [Vector.getElem?_eq_getElem hj]
  exact congrArg some (storeNodes_get_new hj h)

/-- The entries at NODES and above keep their stale contents (R60). -/
theorem built_node_stale {s : State} {j : Nat} (h : s.built.nodes.val ≤ j) : s.built.node[j]? = s.node[j]? := by
  rw [built_nodes] at h
  by_cases hj : j < 511
  · rw [Vector.getElem?_eq_getElem hj, Vector.getElem?_eq_getElem hj]
    exact congrArg some (storeNodes_get_old hj h)
  · rw [Vector.getElem?_eq_none (Nat.not_lt.1 hj), Vector.getElem?_eq_none (Nat.not_lt.1 hj)]

theorem built_holdsTrie {s : State} (h : s.TotalOk) : s.built.HoldsTrie (huffmanTree s.counts) := (buildTrie_huffman h).1

theorem built_holdsPaths {s : State} (h : s.TotalOk) : s.built.HoldsPaths (huffmanTree s.counts) where
  distinct := (buildTrie_huffman h).2.nodup_iff.2 (leafSymbols_nodup _)
  short e he := by
    have := (huffmanTree s.counts).paths_length_le he
    have := huffmanTree_height h
    omega
  lenOf_eq c := (buildTrie_codes h c).2.1
  codeOf_eq c := (buildTrie_codes h c).2.2

/-- Settles O47: the arena's trie is that of the exact algorithm, and the walk enters its paths. -/
theorem hbuildBuildsTheHuffmanTrie : Obligations.HbuildBuildsTheHuffmanTrie := fun s h =>
  ⟨s.built, exec_hbuild h, rfl, built_holdsTrie h, built_root_succ s, (built_holdsPaths h).codeBits_eq,
    (built_holdsPaths h).tableOk.1, fun _ => built_node_stale⟩

/-! ### The arena in the queue's order (R241, R242) -/

theorem built_leaf {s : State} {j : Nat} {c : Byte} (h : (leafSymbols s.counts)[j]? = some c) :
    s.built.node[j]? = some (leafNode c (s.freqOf c)) := by
  obtain ⟨_, -, -, -, -, hprefix⟩ := buildNodes_trie s.freq
  refine built_node (getElem?_of_prefix hprefix ?_)
  rw [leaves_eq, ← s.counts_eq, List.getElem?_map, h]
  rfl

theorem initialQueue_weight (freq : Vector Word 256) : queueWeight (initialQueue (leaves freq)) = freqSum freq := by
  have hmap : (initialQueue (leaves freq)).map (fun e => e.1.toNat) = (leafQueue (countsOf freq)).map Prod.fst := by
    rw [← List.forall₂_eq_eq_eq, List.forall₂_map_left_iff, List.forall₂_map_right_iff]
    exact (leafQueue_matches freq).imp fun _ _ h => h.1
  rw [queueWeight, hmap, leafQueue_sum, freqSum_eq]

/-- The first queue: every leaf, with its counter (R241). -/
theorem built_queueStands {s : State} (h : s.TotalOk) :
    QueueStands s.built.node (leaves s.freq).length (leaves s.freq).length (initialQueue (leaves s.freq)) := by
  obtain ⟨_, -, -, -, -, hprefix⟩ := buildNodes_trie s.freq
  refine ⟨?_, fun e he => ?_, ?_, fun m i hL hm => absurd hm (Nat.not_lt.2 hL)⟩
  · rw [queueAt_leaves, initialQueue, List.map_snd_zip (by simp)]
  · rw [initialQueue_eq, List.mem_map] at he
    obtain ⟨⟨e, j⟩, hj, rfl⟩ := he
    exact (weightAt_of_getElem? (built_node (getElem?_of_prefix hprefix (List.mem_zipIdx_iff_getElem?.1 hj)))).symm
  · rw [initialQueue_weight, ← h]
    exact s.total.isLt

theorem built_mergedAt {s : State} (h : s.TotalOk) {n : Nat} (hL : (leafSymbols s.counts).length ≤ n)
    (hn : n < s.built.nodes.val) : MergedAt s.built.node (leafSymbols s.counts).length n := by
  rw [built_nodes] at hn
  rw [s.counts_eq, ← leaves_length] at hL ⊢
  exact mergeLoop_mergedAt (fun _ _ => built_node) (Nat.le_refl _) (built_queueStands h) hL hn

/-- Settles O48: the arena starts with the leaves, and the loop lays each later entry over the two least of the queue. -/
theorem hbuildFollowsTheQueue : Obligations.HbuildFollowsTheQueue := fun s h =>
  ⟨s.built, exec_hbuild h, built_nodes_succ s, built_root_succ s, fun _ _ => built_leaf, fun _ => built_mergedAt h⟩

/-! ### Laws of the built trie (R251) -/

/-- The leaves take up the whole code space: `2^-LEN` sums to 1. -/
theorem Tree.sum_pow_paths {t : Tree} {k : Nat} (h : t.height ≤ k) :
    (t.paths.map fun e => 2 ^ (k - e.2.length)).sum = 2 ^ k := by
  induction t generalizing k with
  | leaf c => simp [paths]
  | node l r ihl ihr =>
    obtain ⟨k, rfl⟩ : ∃ k', k = k' + 1 := ⟨k - 1, by simp only [height] at h; omega⟩
    simp only [height] at h
    have hl := ihl (k := k) (by omega)
    have hr := ihr (k := k) (by omega)
    simp only [paths, List.map_append, List.map_map, Function.comp_def, List.length_cons, Nat.add_sub_add_right,
      List.sum_append, hl, hr]
    rw [pow_succ, Nat.mul_two]

/-- The same over the symbols, by their codes' lengths. -/
theorem State.HoldsPaths.sum_pow {s : State} {t : Tree} (h : s.HoldsPaths t) (ht : t.height ≤ 64) :
    (t.leafSyms.map fun c => 2 ^ (64 - (s.lenOf c).toNat)).sum = 2 ^ 64 := by
  rw [← t.paths_fst, List.map_map, ← Tree.sum_pow_paths ht]
  refine congrArg List.sum (List.map_congr_left fun e he => ?_)
  rw [Function.comp_apply, h.lenOf_toNat, Tree.pathOf_eq h.distinct he]

/-- The leaf frequencies sum to TOTAL. -/
theorem huffmanTree_sum {s : State} (h : s.TotalOk) : ((huffmanTree s.counts).leafSyms.map s.counts).sum = s.total.toNat := by
  rw [((buildTrie_huffman h).2.map s.counts).sum_eq, leafSymbols_sum, s.counts_eq, ← freqSum_eq, h]

/-- An entry below NODES is a leaf with its symbol's counter, or the node of R242. -/
theorem built_entry {s : State} (h : s.TotalOk) {n : Nat} (hn : n < s.built.nodes.val) :
    (∃ c, s.built.node[n]? = some (leafNode c (s.freqOf c))) ∨
      MergedAt s.built.node (leafSymbols s.counts).length n := by
  obtain hL | hL := Nat.lt_or_ge n (leafSymbols s.counts).length
  · exact .inl ⟨_, built_leaf (List.getElem?_eq_getElem hL)⟩
  · exact .inr (built_mergedAt h hL hn)

/-- In the built arena a trie's root weighs what its leaves weigh together. -/
theorem built_weightAt {s : State} (h : s.TotalOk) {t : Tree} {i : Fin 511} (hi : i.val < s.built.nodes.val)
    (ht : Represents s.built.node i t) : weightAt s.built.node i.val = t.weight s.counts := by
  induction t generalizing i with
  | leaf c =>
    obtain ⟨hleaf, hsym⟩ := ht
    obtain ⟨d, hd⟩ | ⟨_, _, _, hn, -⟩ := built_entry h hi
    · rw [getElem_of_getElem? hd] at hsym
      rw [weightAt_of_getElem? hd, ← hsym]
      rfl
    · rw [getElem_of_getElem? hn] at hleaf
      cases hleaf
  | node l r ihl ihr =>
    obtain ⟨hleaf, hl, hr⟩ := ht
    obtain ⟨d, hd⟩ | ⟨x, y, f, hn, hf, hx, hy⟩ := built_entry h hi
    · rw [getElem_of_getElem? hd] at hleaf
      cases hleaf
    · rw [getElem_of_getElem? hn] at hl hr
      have hxn := (lt_of_mem_queueAt hx.1).trans hi
      have hyn := (lt_of_mem_queueAt (List.mem_of_mem_erase hy.1)).trans hi
      rw [weightAt_of_getElem? hn, hf, ihl hxn hl, ihr hyn hr]
      rfl

/-- `NODE[ROOT].F = TOTAL`. -/
theorem built_root_f {s : State} (h : s.TotalOk) : (s.built.nodeAt s.built.root).f = s.total := by
  have hroot := built_root_succ s
  apply BitVec.eq_of_toNat_eq
  rw [← huffmanTree_sum h, ← Tree.weight_eq, ← built_weightAt h (by omega) (built_holdsTrie h).1]
  exact (weightAt_of_getElem? (Vector.getElem?_eq_getElem _)).symm

/-- Settles O49: the trie's leaves are `leafSymbols`, and its code lengths are the depths of its leaves. -/
theorem builtTrieLaws : Obligations.BuiltTrieLaws := by
  intro s h
  have hperm := (buildTrie_huffman h).2
  have hlen := leafSymbols_length s.counts
  have hheight := huffmanTree_height h
  refine ⟨s.built, huffmanTree s.counts, exec_hbuild h, built_holdsTrie h, ?_, ?_, ?_, (built_holdsPaths h).distinct,
    huffmanTree_sum h, built_root_f h, (built_holdsPaths h).sum_pow (by omega)⟩
  · rw [hperm.length_eq, hlen]
  · rw [built_nodes_succ, hlen]
  · exact fun hD c => hperm.mem_iff.trans (mem_leafSymbols_of_two hD c)

end Sys2Proof.Machine

/-! The commands that read the code table and the arena (45_huffman_build.md R246 to R250). -/

namespace Sys2Proof.Machine

/-! ### Table reads (R246 to R250) -/

section reads

variable {s : State} {c : Byte} {i : BitVec 12}

theorem exec_hlen : exec (.hlen c) s = .next (doneOk { s with result := (s.lenOf c).setWidth 32 }) := rfl

theorem exec_hcodelo : exec (.hcodelo c) s = .next (doneOk { s with result := (s.codeOf c).extractLsb' 0 32 }) := rfl

theorem exec_hcodehi : exec (.hcodehi c) s = .next (doneOk { s with result := (s.codeOf c).extractLsb' 32 32 }) := rfl

theorem namedNode_beyond (h : s.nodes.val ≤ i.toNat) : namedNode i s = none := if_neg (Nat.not_lt.2 h)

theorem namedNode_below {j : Fin 511} (hj : j.val = i.toNat) (h : i.toNat < s.nodes.val) :
    namedNode i s = some (s.nodeAt j) := by
  have hofNat : Fin.ofNat 511 (indexOperand i) = j := by
    rw [indexOperand, ← hj]
    exact Fin.ofNat_val_eq_self j
  rw [namedNode, hofNat]
  exact if_pos h

theorem exec_hnode :
    exec (.hnode i) s = .next (doneOk { s with result := ((namedNode i s).map hnodeResult).getD 0 }) := by
  show completed (hnode i s) = _
  unfold hnode
  cases namedNode i s <;> rfl

theorem exec_hnodef : exec (.hnodef i) s = .next (doneOk { s with result := ((namedNode i s).map Node.f).getD 0 }) := by
  show completed (hnodef i s) = _
  unfold hnodef
  cases namedNode i s <;> rfl

end reads

/-- A leaf's layout: VALID and LEAF above SYM. -/
theorem hnodeResult_leaf {n : Node} (h : n.leaf = true) :
    hnodeResult n = BitVec.ofNat 32 (0xC0000000 + n.sym.toNat) := by
  rw [hnodeResult, if_pos h, BitVec.or_comm, ← BitVec.ofNat_toNat, Nat.add_comm]
  exact ofNat_or_shiftLeft (k := 30) (by omega) 3

/-- An internal node's layout: VALID above RIGHT above LEFT. -/
theorem hnodeResult_internal {n : Node} (h : n.leaf = false) :
    hnodeResult n = BitVec.ofNat 32 (0x80000000 + 0x10000 * n.right.val + n.left.val) := by
  have hright := toNat_ofNat_word (n := n.right.val) (by omega)
  have hchildren := ofNat_or_shiftLeft (k := 16) (a := n.left.val) (by omega) (BitVec.ofNat 32 n.right.val)
  rw [hright] at hchildren
  have hsum : 0x80000000 + 0x10000 * n.right.val + n.left.val =
      n.left.val + 2 ^ 16 * n.right.val + 2 ^ 31 * (1 : Word).toNat := by
    rw [show (1 : Word).toNat = 1 from rfl]
    omega
  rw [hsum, ← ofNat_or_shiftLeft (by omega), ← hchildren, hnodeResult, h, if_neg Bool.false_ne_true, BitVec.or_assoc,
    BitVec.or_comm, BitVec.or_comm (_ <<< _)]
  rfl

/-- Settles O50: an operand below NODES names an arena entry, any other names none. -/
theorem tableReads : Obligations.TableReads := by
  intro s c i
  have hlen : (s.lenOf c).setWidth 32 = BitVec.ofNat 32 (s.lenOf c).toNat := (BitVec.ofNat_toNat 32 _).symm
  have hlo : (s.codeOf c).extractLsb' 0 32 = BitVec.ofNat 32 ((s.codeOf c).toNat % 2 ^ 32) := by
    apply BitVec.eq_of_toNat_eq
    simp
  have hhi : (s.codeOf c).extractLsb' 32 32 = BitVec.ofNat 32 ((s.codeOf c).toNat / 2 ^ 32) := by
    apply BitVec.eq_of_toNat_eq
    simp [Nat.shiftRight_eq_div_pow]
  refine ⟨?_, ?_, ?_, fun h => ?_, fun j hj h => ⟨?_, ?_⟩⟩
  · rw [exec_hlen, hlen]
  · rw [exec_hcodelo, hlo]
  · rw [exec_hcodehi, hhi]
  · rw [exec_hnode, exec_hnodef, namedNode_beyond h]
    exact ⟨rfl, rfl⟩
  · rw [exec_hnodef, namedNode_below hj h]
    rfl
  · rw [exec_hnode, namedNode_below hj h, Option.map_some, Option.getD_some]
    cases hleaf : (s.nodeAt j).leaf with
    | false => rw [hnodeResult_internal hleaf]; rfl
    | true => rw [hnodeResult_leaf hleaf]; rfl

end Sys2Proof.Machine

/-! The Huffman encoder: HTRIE, HSYM, HSYMS and HCOMP in terms of the bits they write (46_huffman_encode.md R260 to R267). -/

namespace Sys2Proof.Machine

/-! ### HTRIE and HSYM (R261, R264) -/

section commands

variable {s : State}

theorem htrie_eq_writeList {t : Tree} (hv : s.tvalid = true) (ht : s.HoldsTrie t) : htrie s = writeList t.bits s := by
  have hdepth : 511 < serDepth := by norm_num [serDepth]
  exact (needTrie_of_tvalid _ hv).trans (ser_eq ht.1 (ht.height_lt.trans hdepth))

theorem exec_htrie {t : Tree} (hv : s.tvalid = true) (ht : s.HoldsTrie t) :
    exec .htrie s = completed (writeList t.bits s) := congrArg completed (htrie_eq_writeList hv ht)

theorem emitCode_without_code {c : Byte} (h : s.lenOf c = 0) : emitCode c s = .raised .noCode s := if_pos h

theorem exec_hsym (hv : s.tvalid = true) (c : Byte) : exec (.hsym c) s = completed (emitCode c s) :=
  congrArg completed (needTrie_of_tvalid _ hv)

/-! ### HSYMS (R265) -/

theorem hsyms_eq (hv : s.tvalid = true) : hsyms s = emitAll s.input s := needTrie_of_tvalid _ hv

theorem exec_hsyms (hv : s.tvalid = true) : exec .hsyms s = completed (emitAll s.input s) :=
  congrArg completed (hsyms_eq hv)

theorem emitAll_append (xs ys : List Byte) (s : State) :
    emitAll (xs ++ ys) s = (emitAll xs s).bind fun _ s => emitAll ys s := by
  induction xs generalizing s with
  | nil => rfl
  | cons c xs ih =>
    rw [List.cons_append, emitAll, emitAll, Res.bind_assoc]
    congr 1; funext _ s; exact ih s

theorem OnlyWriter.lenOf_eq {t : State} (h : OnlyWriter s t) (c : Byte) : t.lenOf c = s.lenOf c := by
  rw [h]; rfl

/-- A byte without a code ends the loop, after the codes of the bytes before it. -/
theorem emitAll_stops {pre : List Byte} {c : Byte} (hpre : ∀ d ∈ pre, s.lenOf d ≠ 0) (hc : s.lenOf c = 0)
    (post : List Byte) :
    emitAll (pre ++ c :: post) s = (writeList (pre.flatMap s.codeBits) s).bind fun _ t => .raised .noCode t := by
  rw [emitAll_append, emitAll_eq hpre]
  refine Res.bind_congr fun _ t ht => ?_
  have hct : t.lenOf c = 0 := ((writeList_ok_onlyWriter ht).lenOf_eq c).trans hc
  rw [emitAll, emitCode_without_code hct, Res.bind_raised]

end commands

/-- Settles O51: each body writes its bit string; HSYM looks at LEN first. -/
theorem htrieAndHsymSend : Obligations.HtrieAndHsymSend := by
  refine fun s hv hp => ⟨fun t ht => ⟨sends_of_exec_eq_writeList hp (exec_htrie hv ht), t.bits_length⟩,
    fun c => ⟨fun hc => ?_, fun hc => sends_of_exec_eq_writeList hp ?_⟩⟩
  · rw [exec_hsym hv, emitCode_without_code hc, completed, complete_raised]
    rfl
  · rw [exec_hsym hv, emitCode_eq hc]

/-- Settles O52: the codes before the first byte without one are a bit string, which fits, and NO_CODE follows, or overflows. -/
theorem hsymsSendsTheInput : Obligations.HsymsSendsTheInput := by
  refine fun s hv hp => ⟨fun (hcodes : ∀ c ∈ s.input, _) => sends_of_exec_eq_writeList hp ?_,
    fun pre post c (hinput : s.input = _) hpre hc => ?_⟩
  · rw [exec_hsyms hv, emitAll_eq hcodes]
    rfl
  · have hexec := exec_hsyms hv
    rw [hinput, emitAll_stops hpre hc] at hexec
    refine ⟨fun hfits => ?_, fun hover => ?_⟩
    · obtain ⟨u, hu, hframe, hwritten, -, -, -, hout⟩ := writeList_fits _ hp hfits
      refine ⟨u, ?_, hframe, hwritten, hout⟩
      rw [hexec, hu, Res.bind_ok, completed, complete_raised]
      rfl
    · obtain ⟨u, hu, hframe, hwritten, -, -, -, hout⟩ := writeList_overflows _ hp hover
      refine ⟨u, ?_, hframe, hwritten, hout⟩
      rw [hexec, hu, Res.bind_raised, completed, complete_raised]
      rfl

/-! ### A bit string and its padding (41_bitwriter.md R163) -/

theorem ObufSameOutside.trans {s t u : State} {lo mid hi : Nat} (hst : ObufSameOutside s t lo mid)
    (htu : ObufSameOutside t u mid hi) (hlo : lo ≤ mid) (hhi : mid ≤ hi) : ObufSameOutside s u lo hi :=
  fun i hi => (htu i (by omega)).trans (hst i (by omega))

theorem room_eq_of_nothing_written {s : State} (h : s.written = []) : s.room = 8 * s.obufSize + 7 := by
  have hlen := length_written s
  rw [h, List.length_nil] at hlen
  unfold State.room
  omega

/-- Where no bit is pending, OPTR counts the bytes of a padded stream. -/
theorem optr_of_padded {s : State} {bits : List Bool} (hcnt : s.wcnt = 0)
    (h : s.written = bits ++ padBits bits.length) : s.optr.toNat = (bits.length + 7) / 8 := by
  have hlen := length_written s
  rw [h, hcnt, Fin.val_zero, List.length_append, length_padBits] at hlen
  omega

/-- A first stream that OBUF can hold is written and padded to whole bytes. -/
theorem writeList_flush_fits {s : State} {bits : List Bool} (hs : s.written = []) (hfits : bits.length ≤ 8 * s.obufSize) :
    ∃ u, ((writeList bits s).bind fun _ t => flush t) = .ok () u ∧ OnlyWriter s u ∧
      u.written = bits ++ padBits bits.length ∧ u.wcnt = 0 ∧ ObufSameOutside s u s.optr.toNat u.optr.toNat := by
  have hlen := length_written s
  rw [hs, List.length_nil] at hlen
  obtain ⟨t, ht, hframe, hwritten, hpt, -, hle, hout⟩ :=
    writeList_fits bits (s := s) (by omega) (by rw [room_eq_of_nothing_written hs]; omega)
  rw [hs, List.nil_append] at hwritten
  have hlent := length_written t
  rw [hwritten] at hlent
  have hsize := hframe.obufSize
  obtain ⟨u, hu, hframeu, hwrittenu, hcnt, -, hleu, houtu⟩ := flush_ok hpt (by omega)
  rw [hwritten] at hwrittenu
  exact ⟨u, by rw [ht, Res.bind_ok, hu], hframe.trans hframeu, hwrittenu, hcnt, hout.trans houtu hle hleu⟩

/-- A first stream longer than OBUF overflows, in its last bits' padding at the latest, with every bit for which there is
room written. -/
theorem writeList_flush_overflows {s : State} {bits : List Bool} (hs : s.written = [])
    (hover : 8 * s.obufSize < bits.length) :
    ∃ u, ((writeList bits s).bind fun _ t => flush t) = .raised .obufOverflow u ∧ OnlyWriter s u ∧
      u.written = bits.take (8 * s.obufSize + 7) ∧ ObufSameOutside s u s.optr.toNat u.optr.toNat := by
  have hlen := length_written s
  rw [hs, List.length_nil] at hlen
  have hp : s.optr.toNat ≤ s.obufSize := by omega
  rw [← room_eq_of_nothing_written hs]
  obtain hroom | hfits := Nat.lt_or_ge s.room bits.length
  · obtain ⟨t, ht, hframe, hwritten, -, -, -, hout⟩ := writeList_overflows bits hp hroom
    exact ⟨t, by rw [ht, Res.bind_raised], hframe, by rw [hwritten, hs, List.nil_append], hout⟩
  · obtain ⟨t, ht, hframe, hwritten, hpt, -, -, hout⟩ := writeList_fits bits hp hfits
    rw [hs, List.nil_append] at hwritten
    have hlent := length_written t
    rw [hwritten] at hlent
    have hsize := hframe.obufSize
    have hcnt : t.wcnt ≠ 0 := Fin.val_ne_zero_iff.1 (by omega)
    refine ⟨t, ?_, hframe, by rw [hwritten, List.take_of_length_le hfits], hout⟩
    rw [ht, Res.bind_ok, flush_overflows hcnt (by omega)]

/-! ### Codes of the built trie (45_huffman_build.md R251) -/

/-- Every leaf of a trie with two leaves or more has a path. -/
theorem Tree.path_ne_nil {t : Tree} (h : 2 ≤ t.leafSyms.length) {e : Byte × List Bool} (he : e ∈ t.paths) : e.2 ≠ [] := by
  cases t with
  | leaf c => simp [leafSyms] at h
  | node l r =>
    simp only [paths, List.mem_append, List.mem_map] at he
    obtain ⟨_, -, rfl⟩ | ⟨_, -, rfl⟩ := he <;> exact List.cons_ne_nil _ _

theorem mem_leafSymbols_of_count {count : Byte → Nat} {c : Byte} (h : count c ≠ 0) : c ∈ leafSymbols count :=
  List.mem_append_left _ (List.mem_filter.2 ⟨mem_symbols c, decide_eq_true h⟩)

/-- A symbol that occurs has a path of its own in Huffman's trie. -/
theorem huffmanTree_pathOf_ne_nil {s : State} (h : s.TotalOk) {c : Byte} (hc : s.counts c ≠ 0) :
    (huffmanTree s.counts).pathOf c ≠ [] := by
  obtain ⟨-, hperm⟩ := buildTrie_huffman h
  have htwo : 2 ≤ (huffmanTree s.counts).leafSyms.length := by
    rw [hperm.length_eq, leafSymbols_length]
    exact Nat.le_max_right _ _
  obtain ⟨p, hpath⟩ := Tree.mem_paths_of_mem_leafSyms (hperm.mem_iff.2 (mem_leafSymbols_of_count hc))
  rw [Tree.pathOf_eq (hperm.nodup_iff.2 (leafSymbols_nodup _)) hpath]
  exact Tree.path_ne_nil htwo hpath

theorem lenOf_ne_zero_of_codeBits {s : State} {c : Byte} (h : s.codeBits c ≠ []) : s.lenOf c ≠ 0 := fun h0 =>
  h (List.eq_nil_of_length_eq_zero (by rw [State.codeBits, bitsMsb_length, h0]; rfl))

/-! ### HCOMP (R266, R267) -/

/-- Counters, TOTAL, trie and code table are those of the input: what HCOMP's first four parts prepare. -/
structure State.CodesInput (s : State) (input : List Byte) : Prop where
  tvalid : s.tvalid = true
  trie : s.HoldsTrie (huffmanTree fun c => input.count c)
  counts : ∀ c : Byte, s.counts c = input.count c
  total : s.total.toNat = input.length
  codeBits : ∀ c : Byte, s.codeBits c = (huffmanTree fun c => input.count c).pathOf c
  coded : ∀ c ∈ input, s.lenOf c ≠ 0

/-- Writing leaves them alone. -/
theorem State.CodesInput.of_onlyWriter {s t : State} {input : List Byte} (hs : s.CodesInput input) (h : OnlyWriter s t) :
    t.CodesInput input := by
  rw [h]
  exact ⟨hs.tvalid, hs.trie, hs.counts, hs.total, hs.codeBits, hs.coded⟩

/-- The three parts of HCOMP that write bits write the source's format. -/
theorem encode_eq_writeList {s : State} (hs : s.CodesInput s.input) :
    ((htrie s).bind fun _ s => (hcountw s).bind fun _ s => hsyms s) = writeList (huffmanStream s.input) s := by
  rw [huffmanStream, writeList_append, writeList_append, Res.bind_assoc, htrie_eq_writeList hs.tvalid hs.trie]
  refine Res.bind_congr fun _ t ht => ?_
  have hst := writeList_ok_onlyWriter ht
  have hcount : hcountw t = writeList (bitsMsb (BitVec.ofNat 64 s.input.length) 32) t := by
    rw [← hst.input, input_length, BitVec.ofNat_toNat]
    exact writeBits_eq _ 32 t
  rw [hcount]
  refine Res.bind_congr fun _ u hu => ?_
  have hsu := hst.trans (writeList_ok_onlyWriter hu)
  have hu' := hs.of_onlyWriter hsu
  rw [hsyms_eq hu'.tvalid, hsu.input, emitAll_eq hu'.coded, funext hu'.codeBits]

theorem hbuild_eq_built {s : State} (h : s.TotalOk) : hbuild s = .ok () s.built := by
  simp [hbuild, (buildTrie_codes h 0).1, State.built]

/-- The state after HCOMP's WINIT and FCLR (R266). -/
def State.cleared (s : State) : State :=
  { s with optr := 0, wacc := 0, wcnt := 0, freq := Vector.replicate 256 0, total := 0 }

theorem cleared_totalOk (s : State) : s.cleared.TotalOk := freqSum_replicate_zero.symm

/-- After FCLR the count of the input fits TOTAL, so COUNT_OVERFLOW does not occur (R266). -/
theorem cleared_total_fits (s : State) : s.cleared.total.toNat + s.cleared.ilen.toNat < 2 ^ 32 :=
  (Nat.zero_add _).trans_lt s.ilen.isLt

theorem cleared_counts (s : State) (c : Byte) : s.cleared.counts c = 0 := by
  simp [State.counts, State.freqOf, State.cleared]

/-- The state in which HCOMP starts to send: the input is counted, its trie and code table are built. -/
def State.prepared (s : State) : State := s.cleared.counted.built

theorem prepared_written (s : State) : s.prepared.written = [] := rfl

theorem prepared_counts (s : State) (c : Byte) : s.prepared.counts c = s.input.count c := by
  have hcount : s.prepared.counts c = s.cleared.counts c + s.input.count c :=
    counted_counts (cleared_totalOk s) (cleared_total_fits s) c
  rw [hcount, cleared_counts, Nat.zero_add]

theorem prepared_total (s : State) : s.prepared.total.toNat = s.ilen.toNat :=
  (counted_total (cleared_total_fits s)).trans (Nat.zero_add _)

/-- HCOMP's first four parts leave the input's own tables, whatever the state held before (R266). -/
theorem prepared_codesInput (s : State) : s.prepared.CodesInput s.input := by
  have hok : s.cleared.counted.TotalOk := counted_totalOk (cleared_totalOk s) (cleared_total_fits s)
  have hcounts : s.cleared.counted.counts = fun c => s.input.count c := funext (prepared_counts s)
  have hpaths := (built_holdsPaths hok).codeBits_eq
  have htrie := built_holdsTrie hok
  have hpath := fun c => huffmanTree_pathOf_ne_nil hok (c := c)
  rw [hcounts] at hpaths htrie hpath
  refine ⟨rfl, htrie, prepared_counts s, by rw [prepared_total, input_length], hpaths, fun c hc => ?_⟩
  have hoccurs : s.input.count c ≠ 0 := (List.count_pos_iff.2 hc).ne'
  exact lenOf_ne_zero_of_codeBits (by rw [State.prepared, hpaths]; exact hpath c hoccurs)

/-- HCOMP's first four parts raise no error (R266); the others send the source's format and flush it. -/
theorem exec_hcomp_eq (s : State) :
    exec .hcomp s = completed ((writeList (huffmanStream s.input) s.prepared).bind fun _ t => flush t) := by
  have hcount : fcount s.cleared = .ok () s.cleared.counted := fcount_fits (cleared_total_fits s)
  have hbuilt : hbuild s.cleared.counted = .ok () s.prepared :=
    hbuild_eq_built (counted_totalOk (cleared_totalOk s) (cleared_total_fits s))
  have hparts : exec .hcomp s = completed ((fcount s.cleared).bind fun _ s => (hbuild s).bind fun _ s =>
    (htrie s).bind fun _ s => (hcountw s).bind fun _ s => (hsyms s).bind fun _ s => flush s) := rfl
  have hsend : _ = writeList (huffmanStream s.input) s.prepared := encode_eq_writeList (prepared_codesInput s)
  rw [hparts, hcount, Res.bind_ok, hbuilt, Res.bind_ok, ← hsend]
  simp only [Res.bind_assoc]

/-- HCOMP changes only the writer, the counters, the trie and the code table, wherever its writing ends. -/
theorem hcomp_frame {s u : State} (h : OnlyWriter s.prepared u) :
    u = { s with optr := u.optr, wacc := u.wacc, wcnt := u.wcnt, obuf := u.obuf, freq := u.freq, total := u.total,
                 len := u.len, code := u.code, tvalid := true, node := u.node, root := u.root, nodes := u.nodes } := by
  conv_lhs => rw [h]
  rw [h]
  rfl

/-- Settles O53: the format is a bit string written from an empty OBUF and flushed; it fits, and is padded, or overflows. -/
theorem hcompWritesTheFormat : Obligations.HcompWritesTheFormat := by
  intro s
  obtain hfits | hover := le_or_gt (huffmanStream s.input).length (8 * s.obufSize)
  · obtain ⟨u, hu, hframe, hwritten, hcnt, hout⟩ := writeList_flush_fits (prepared_written s) hfits
    have hcodes := (prepared_codesInput s).of_onlyWriter hframe
    refine ⟨u, hcomp_frame hframe, hcodes.trie, hcodes.counts, hcodes.total.trans (input_length s), hcodes.codeBits, hout,
      fun _ => ⟨?_, hwritten, hcnt, optr_of_padded hcnt hwritten⟩, fun hover => absurd hfits hover.not_ge⟩
    rw [exec_hcomp_eq, hu, completed, complete_ok]
  · obtain ⟨u, hu, hframe, hwritten, hout⟩ := writeList_flush_overflows (prepared_written s) hover
    have hcodes := (prepared_codesInput s).of_onlyWriter hframe
    refine ⟨u, hcomp_frame hframe, hcodes.trie, hcodes.counts, hcodes.total.trans (input_length s), hcodes.codeBits, hout,
      fun hfits => absurd hfits hover.not_ge, fun _ => ⟨?_, hwritten⟩⟩
    rw [exec_hcomp_eq, hu, completed, complete_raised]
    rfl

end Sys2Proof.Machine

/-! The Huffman decoder: the trie that HRTRIE reads, and the symbols that HDSYM, HDSYMS and HEXP decode with it
(47_huffman_decode.md R281 to R289). -/

namespace Sys2Proof.Machine

/-! ### How a body's end completes (40_control.md R141) -/

theorem completed_of_ok {r : Res Unit} {u : State} (h : r = .ok () u) : completed r = .next (doneOk u) := by
  rw [h, completed, complete_ok]

theorem completed_of_raised {r : Res Unit} {e : ErrKind} {u : State} (h : r = .raised e u) :
    completed r = .next (doneErr (errCodeOf e) u) := by
  rw [h, completed, complete_raised]

/-! ### HRTRIE (R281, R282) -/

/-- Entries that `parse` did not allocate are as HRTRIE found them. -/
theorem Grows.stale {s u : State} (h : Grows (dropTrie s) u) {j : Fin 511} (hj : u.nodes.val ≤ j.val) :
    u.nodeAt j = s.nodeAt j :=
  (h.2 j.val j.isLt).1 (.inr hj)

/-- The entries HRTRIE allocated have the shape of parsed ones. -/
theorem Grows.parsed {s u : State} (h : Grows (dropTrie s) u) {j : Fin 511} (hj : j.val < u.nodes.val) :
    (u.nodeAt j).Parsed :=
  (h.2 j.val j.isLt).2 (Nat.zero_le _) hj

/-- From `s` to `u` HRTRIE read the trie `t` (R282). -/
structure TrieRead (t : Tree) (s u : State) : Prop where
  frame : u = { s with iptr := u.iptr, racc := u.racc, rcnt := u.rcnt, node := u.node, nodes := u.nodes, root := 0,
                       tvalid := true, len := Vector.replicate 256 0, code := Vector.replicate 256 0 }
  consumed : Consumed t.bits.length s u
  nodes : u.nodes.val = t.size
  represents : Represents u.node 0 t
  indices : indicesOf u.node 0 t = List.range t.size
  grows : Grows (dropTrie s) u

/-- The trie is then the current one. -/
theorem TrieRead.holdsTrie {t : Tree} {s u : State} (h : TrieRead t s u) : u.HoldsTrie t := by
  have hroot : u.root = 0 := by rw [h.frame]
  rw [State.HoldsTrie, hroot, h.indices, h.nodes]
  exact ⟨h.represents, .refl _⟩

theorem TrieRead.eoi {t : Tree} {s u : State} (h : TrieRead t s u) : u.eoi = s.eoi := by
  rw [h.frame]

/-- What follows the trie in the input remains. -/
theorem TrieRead.remaining {t : Tree} {s u : State} (h : TrieRead t s u) {rest : List Bool}
    (hrem : s.remaining = t.bits ++ rest) : u.remaining = rest := by
  obtain ⟨-, hdrop, -⟩ := h.consumed
  rw [hdrop, hrem, List.drop_left]

/-- HRTRIE reads any trie that the arena has room for. -/
theorem hrtrie_reads {s : State} {t : Tree} {rest : List Bool} (he : s.eoi = false) (hrem : s.remaining = t.bits ++ rest)
    (hsize : t.size ≤ 511) : ∃ u, hrtrie s = .ok () u ∧ TrieRead t s u := by
  have hdepth : t.height < parseDepth := by
    have := t.height_lt_size
    unfold parseDepth
    omega
  obtain ⟨i, u, hu, hi, hframe, hremu, heu, hnodes, hrep, hind, -⟩ :=
    parse_ok (s := dropTrie s) hrem he (by simpa [dropTrie] using hsize) hdepth
  obtain rfl : i = 0 := Fin.ext hi
  have htook : Took (dropTrie s) u := by simpa [hu] using parse_takes parseDepth (dropTrie s)
  have hgrows : Grows (dropTrie s) u := by simpa [hu] using parse_grows parseDepth (dropTrie s)
  have hnodes0 : (dropTrie s).nodes.val = 0 := rfl
  rw [hnodes0] at hnodes hind
  refine ⟨{ u with tvalid := true }, by rw [hrtrie_eq, hu, Res.bind_ok], ?_, htook.consumed ?_,
    hnodes.trans (Nat.zero_add _), hrep, hind.trans List.range_eq_range'.symm, hgrows⟩
  · have heoi : u.eoi = s.eoi := heu.trans he.symm
    conv_lhs => rw [hframe, heoi]
    rfl
  · show u.remaining = s.remaining.drop _
    rw [hremu, hrem, List.drop_left]

/-- Why `parse` stopped inside the trie `p`, from `s` in `u`: EOI was 1, the input ended, or the node limit was met (R281,
42_bitreader.md R183, 60_exceptions.md R312). -/
def StoppedAt (p : CutTree) (s u : State) : Prop :=
  (s.eoi = true ∧ p = .tag ∧ u.eoi = true) ∨
    (s.eoi = false ∧ s.remaining = p.bits ∧ (∀ n ∈ p.symBits, n < 8) ∧ u.eoi = true) ∨
    (s.eoi = false ∧ p.symBits = none ∧ p.size = 511 ∧ (∃ b rest, s.remaining = p.bits ++ b :: rest) ∧ u.eoi = false)

/-- From `s` to `u` HRTRIE read the trie as far as `p` (R281, R282, U14). -/
structure TrieCut (p : CutTree) (s u : State) : Prop where
  frame : u = { s with iptr := u.iptr, racc := u.racc, rcnt := u.rcnt, eoi := u.eoi, node := u.node, nodes := u.nodes,
                       root := 0, tvalid := false, len := Vector.replicate 256 0, code := Vector.replicate 256 0 }
  consumed : Consumed (p.bits.length + 1) s u
  nodes : u.nodes.val = p.size
  entries : EntriesAt u 0 (p.entries 0)
  grows : Grows (dropTrie s) u
  stopped : StoppedAt p s u

/-- The entry at index `j` of the arena is that of the cut trie. -/
theorem TrieCut.entry {p : CutTree} {s u : State} (h : TrieCut p s u) {j : Fin 511} (hj : j.val < p.size) :
    (p.entries 0)[j.val]? = some (u.nodeAt j) := by
  obtain ⟨x, hx⟩ : ∃ x, (p.entries 0)[j.val]? = some x :=
    ⟨_, List.getElem?_eq_getElem ((p.entries_length 0).symm ▸ hj)⟩
  have hnode := h.entries _ _ hx
  rw [Nat.zero_add] at hnode
  rw [hx, State.nodeAt, getElem_of_getElem? hnode]

/-- After the end of input `parse` stops at its first tag. -/
theorem parse_failsAtFirstBit {s : State} (h : s.eoi = true) (k : Nat) : FailsAtFirstBit s (parse (k + 1) s) :=
  (decBit_failsAtFirstBit h).bind _

/-- Where HRTRIE's `parse` stops: at the first tag, or where `parse_leaves` says. -/
theorem parse_stops {s : State}
    (h : s.eoi = true ∨ ∀ (t : Tree) (rest : List Bool), t.size ≤ 511 → s.remaining ≠ t.bits ++ rest) :
    ∃ p u, parse parseDepth (dropTrie s) = .raised .malformedStream u ∧ u.nodes.val = p.size ∧
      EntriesAt u 0 (p.entries 0) ∧ Consumed (p.bits.length + 1) s u ∧ StoppedAt p s u := by
  by_cases he : s.eoi = true
  · obtain ⟨u, hu, hframe, hconsumed, heoi⟩ := parse_failsAtFirstBit (s := dropTrie s) he 511
    exact ⟨.tag, u, hu, by rw [hframe]; rfl, EntriesAt.nil u 0, hconsumed, .inl ⟨he, rfl, heoi⟩⟩
  · have hnone := h.resolve_left he
    rw [Bool.not_eq_true] at he
    have hleaves := parse_leaves parseDepth (s := dropTrie s) he (by unfold parseDepth; omega)
    have htook := parse_takes parseDepth (dropTrie s)
    have hnodes0 : (dropTrie s).nodes.val = 0 := rfl
    cases hparse : parse parseDepth (dropTrie s) with
    | ok i u =>
      rw [hparse] at hleaves
      obtain ⟨t, -, hrem, -, hnodes, -⟩ := hleaves
      have := u.nodes.isLt
      exact absurd hrem (hnone t _ (by omega))
    | raised e u =>
      obtain rfl := parse_error hparse
      rw [hparse] at hleaves htook
      obtain ⟨p, hnodes, hentries, hstop⟩ := hleaves
      rw [hnodes0, Nat.zero_add] at hnodes
      refine ⟨p, u, rfl, hnodes, hentries, htook.consumed ?_, .inr ?_⟩
      · obtain ⟨hrem, -, hend, -⟩ | ⟨-, -, ⟨b, hrem⟩, -⟩ := hstop
        · rw [Res.state_raised, hend, hrem, List.drop_of_length_le (Nat.le_succ _)]
        · rw [hrem, List.drop_append, List.drop_of_length_le (Nat.le_succ _), Nat.add_sub_cancel_left]
          rfl
      · obtain ⟨hrem, hbits, -, heoi⟩ | ⟨hbits, hfull, ⟨b, hrem⟩, heoi⟩ := hstop
        · exact .inl ⟨he, hrem, hbits, heoi⟩
        · exact .inr ⟨he, hbits, hnodes.symm.trans hfull, ⟨b, _, hrem⟩, heoi⟩

/-- On any other input, and with EOI = 1, HRTRIE fails and keeps what it had made. -/
theorem hrtrie_fails {s : State}
    (h : s.eoi = true ∨ ∀ (t : Tree) (rest : List Bool), t.size ≤ 511 → s.remaining ≠ t.bits ++ rest) :
    ∃ p u, hrtrie s = .raised .malformedStream u ∧ TrieCut p s u := by
  obtain ⟨p, u, hu, hnodes, hentries, hconsumed, hstopped⟩ := parse_stops h
  have hframe : OnlyParser (dropTrie s) u := by simpa [hu] using parse_onlyParser parseDepth (dropTrie s)
  have hgrows : Grows (dropTrie s) u := by simpa [hu] using parse_grows parseDepth (dropTrie s)
  exact ⟨p, u, by rw [hrtrie_eq, hu, Res.bind_raised], hframe, hconsumed, hnodes, hentries, hgrows, hstopped⟩

/-- Settles O54: `hrtrie_reads` and `hrtrie_fails`, entry by entry of the arena. -/
theorem hrtrieReadsATrie : Obligations.HrtrieReadsATrie := by
  refine fun s => ⟨fun t rest he hrem hsize => ?_, fun hfail => ?_⟩
  · obtain ⟨u, hu, hread⟩ := hrtrie_reads he hrem hsize
    refine ⟨u, completed_of_ok hu, hread.frame, hread.consumed, hread.nodes, hread.represents, hread.indices,
      fun j hj => ?_, fun j hj => ?_⟩ <;> rw [← hread.nodes] at hj
    · exact hread.grows.parsed hj
    · exact hread.grows.stale hj
  · obtain ⟨p, u, hu, hcut⟩ := hrtrie_fails hfail
    exact ⟨u, completed_of_raised hu, hcut.frame, fun j => hcut.grows.stale, p, hcut.nodes, hcut.consumed,
      fun j => hcut.entry, hcut.stopped⟩

/-! ### HRCOUNT (R284) -/

/-- Settles O55: HRCOUNT is `dec_bits(32)`, with its value in HREM. -/
theorem hrcountReadsTheCount : Obligations.HrcountReadsTheCount := by
  refine fun s he => ⟨fun hlen => ?_, fun hshort => ?_⟩
  · obtain ⟨u, hu, hreader⟩ := decBits_consumes he hlen
    exact ⟨u, completed_of_ok (congrArg (Res.bind · _) hu), hreader⟩
  · obtain ⟨u, hu, hreader⟩ := decBits_truncated he hshort
    exact ⟨u, completed_of_raised (congrArg (Res.bind · _) hu), hreader⟩

/-! ### HDSYM (R283, R285) -/

/-- A reader that is left without a bit has taken all there was, however many it was asked for. -/
theorem Took.consumed_all {s u : State} {n : Nat} (h : Took s u) (hu : u.remaining = [])
    (hn : s.remaining.length ≤ n) : Consumed n s u :=
  h.consumed (hu.trans (List.drop_of_length_le hn).symm)

section symbol

variable {s : State} {t : Tree} {c : Byte} {p : List Bool}

theorem decodeSymbol_of_path {rest : List Bool} (ht : Represents s.node s.root t) (hp : (c, p) ∈ t.paths)
    (hrem : s.remaining = p ++ rest) (he : s.eoi = false ∨ p = []) :
    ∃ u, decodeSymbol s = .ok c u ∧ OnlyReader s u ∧ Consumed p.length s u ∧ u.eoi = s.eoi := by
  have hdepth : p.length < decodeDepth := by
    have := remaining_lt_decodeDepth s
    rw [hrem, List.length_append] at this
    omega
  obtain ⟨u, hu, hframe, hremu, heoi⟩ := decodeFrom_ok ht hp hrem he hdepth
  have hsym : decodeSymbol s = .ok c u := hu
  have htook := decodeSymbol_takes s
  rw [hsym] at htook
  exact ⟨u, hsym, hframe, htook.consumed (by rw [Res.state_ok, hremu, hrem, List.drop_left]), heoi⟩

theorem decodeSymbol_of_cut {more : List Bool} (ht : Represents s.node s.root t) (hp : (c, p) ∈ t.paths)
    (hrem : p = s.remaining ++ more) (hmore : more ≠ []) (he : s.eoi = false) :
    ∃ u, decodeSymbol s = .raised .malformedStream u ∧ OnlyReader s u ∧ Took s u ∧ u.remaining = [] ∧ u.eoi = true := by
  obtain ⟨u, hu, hframe, hremu, heoi⟩ := decodeFrom_short ht hp hrem hmore he (remaining_lt_decodeDepth s)
  have hsym : decodeSymbol s = .raised .malformedStream u := hu
  have htook := decodeSymbol_takes s
  rw [hsym] at htook
  exact ⟨u, hsym, hframe, htook, hremu, heoi⟩

theorem hdsym_eq (hv : s.tvalid = true) :
    hdsym s = (decodeSymbol s).bind fun c u => .ok () { u with result := c.setWidth 32 } := needTrie_of_tvalid _ hv

end symbol

/-- Settles O56: HDSYM is `decode_symbol()`, with its symbol in RESULT. -/
theorem hdsymDecodesOneSymbol : Obligations.HdsymDecodesOneSymbol := by
  refine fun s t hv ht c p hp => ⟨fun rest hrem he => ?_, fun more he hmore hcut => ?_⟩
  · obtain ⟨u, hu, hreader⟩ := decodeSymbol_of_path ht.1 hp hrem he
    exact ⟨u, completed_of_ok (by rw [hdsym_eq hv, hu, Res.bind_ok]), hreader⟩
  · obtain ⟨u, hu, hframe, htook, hend, heoi⟩ := decodeSymbol_of_cut ht.1 hp hcut hmore he
    have hbody : hdsym s = .raised .malformedStream u := by rw [hdsym_eq hv, hu, Res.bind_raised]
    refine ⟨u, completed_of_raised hbody, hframe, htook.consumed_all hend ?_, heoi⟩
    rw [hcut, List.length_append]
    exact Nat.le_add_right _ _

end Sys2Proof.Machine

/-! HDSYMS, HEXP, and the round trip with HCOMP (47_huffman_decode.md R286 to R289). -/

namespace Sys2Proof.Machine

/-! ### The frame of the decode loop (R286) -/

/-- From `s` to `u` bits were taken, bytes appended and HREM changed: what the loop of HDSYMS does, wherever it ends. -/
structure Decodes (s u : State) : Prop where
  frame : OnlyDecoder s u
  took : Took s u
  appends : Appends s u

theorem decodeAll_decodes {s : State} (n : Nat) (hp : s.optr.toNat ≤ s.obufSize) : Decodes s (decodeAll n s).state where
  frame := decodeAll_onlyDecoder n s
  took := decodeAll_takes n s
  appends := ((decodeAll_performs (by decide) (by decide) (by decide) n : Performs appendPrims _) s).keeps
    (P := Appends s) (fun _ hprim _ _ => appends_of_does hprim) (.refl hp)

theorem Decodes.flush {s u : State} (h : Decodes s u) : Decodes s (flush u).state where
  frame := h.frame.trans (flush_onlyWriter u).onlyDecoder
  took := h.took.trans (flush_onlyWriter u).took
  appends := h.appends.flush

/-- No decode changes the trie. -/
theorem OnlyDecoder.holdsTrie {s u : State} {t : Tree} (h : OnlyDecoder s u) (ht : s.HoldsTrie t) : u.HoldsTrie t := by
  rw [h]
  exact ht

theorem OnlyDecoder.obufSize {s u : State} (h : OnlyDecoder s u) : u.obufSize = s.obufSize := by
  rw [h]
  rfl

theorem OnlyReader.hrem {s u : State} (h : OnlyReader s u) : u.hrem = s.hrem := by rw [h]

theorem OnlyWriter.hrem {s u : State} (h : OnlyWriter s u) : u.hrem = s.hrem := by rw [h]

theorem OnlyWriter.eoi {s u : State} (h : OnlyWriter s u) : u.eoi = s.eoi := by rw [h]

/-- OBUF and seven pending bits: that many are written, or room (41_bitwriter.md R161). -/
theorem room_add_written {s : State} (hp : s.optr.toNat ≤ s.obufSize) : s.room + s.written.length = 8 * s.obufSize + 7 := by
  rw [length_written, State.room]
  omega

/-- What was written in between took up room. -/
theorem Decodes.room {s u : State} (h : Decodes s u) {bits : List Bool} (hwritten : u.written = s.written ++ bits) :
    u.room + bits.length = s.room := by
  have hs := room_add_written (h.appends.advances.trans (h.appends.fits.trans_eq h.frame.obufSize))
  have hu := room_add_written h.appends.fits
  rw [hwritten, List.length_append, h.frame.obufSize] at hu
  omega

theorem length_flatMap_byteBits (l : List Byte) : (l.flatMap byteBits).length = 8 * l.length := by
  simp [List.length_flatMap, Nat.mul_comm]

/-- The first `n` bits of some bytes: whole bytes, and a first part of the next one. -/
theorem take_flatMap_byteBits {pre : List Byte} {n : Nat} (h : pre.length = n / 8) (c : Byte) (post : List Byte) :
    ((pre ++ c :: post).flatMap byteBits).take n = pre.flatMap byteBits ++ (byteBits c).take (n % 8) := by
  have hn : n = (pre.flatMap byteBits).length + n % 8 := by
    rw [length_flatMap_byteBits, h]
    omega
  have hc : n % 8 ≤ (byteBits c).length := by
    rw [byteBits_length]
    omega
  conv_lhs => rw [hn]
  rw [List.flatMap_append, List.flatMap_cons, List.take_length_add_append, List.take_append_of_le_length hc]

/-! ### The outcomes of the decode loop (R286) -/

theorem decodeAll_add (m n : Nat) (s : State) :
    decodeAll (m + n) s = (decodeAll m s).bind fun _ s => decodeAll n s := by
  induction m generalizing s with
  | zero => rw [Nat.zero_add]; rfl
  | succ m ih => simp only [Nat.succ_add, decodeAll, ih, Res.bind_assoc]

/-- The current trie is `t`, and the input begins with the paths of the symbols `es`, of which HREM counts as many or more; the
paths can be read, and bytes can be written (R286). -/
structure State.Encodes (s : State) (t : Tree) (es : List (Byte × List Bool)) (rest : List Bool) : Prop where
  trie : s.HoldsTrie t
  paths : ∀ e ∈ es, e ∈ t.paths
  remaining : s.remaining = es.flatMap Prod.snd ++ rest
  eoi : s.eoi = false ∨ es.flatMap Prod.snd = []
  optr : s.optr.toNat ≤ s.obufSize
  hrem : es.length ≤ s.hrem.toNat

section loop

variable {s : State} {t : Tree} {es : List (Byte × List Bool)} {rest : List Bool}

/-- Where all the bytes fit, the loop decodes and writes them. -/
theorem State.Encodes.decodeAll_fits (h : s.Encodes t es rest) (hroom : 8 * es.length ≤ s.room) :
    ∃ u, decodeAll es.length s = .ok () u ∧ Decodes s u ∧ u.remaining = rest ∧ u.eoi = s.eoi ∧
      u.written = s.written ++ (es.map Prod.fst).flatMap byteBits ∧ u.hrem.toNat = s.hrem.toNat - es.length := by
  obtain ⟨u, hu, -, hrem, heoi, hwritten, hhrem, -⟩ := decodeAll_ok es h.trie.1 h.paths h.trie.height_lt h.remaining h.eoi
    h.optr hroom h.hrem
  have hdec := decodeAll_decodes es.length h.optr
  rw [hu] at hdec
  exact ⟨u, hu, hdec, hrem, heoi, hwritten, hhrem⟩

/-- Where the input then ends inside a path, the next symbol raises MALFORMED_STREAM. -/
theorem State.Encodes.decodeAll_cut (h : s.Encodes t es rest) (hroom : 8 * es.length ≤ s.room) (he : s.eoi = false)
    (hcut : ∃ e ∈ t.paths, ∃ more : List Bool, more ≠ [] ∧ e.2 = rest ++ more) {n : Nat} (hn : es.length < n) :
    ∃ u, decodeAll n s = .raised .malformedStream u ∧ Decodes s u ∧ u.remaining = [] ∧ u.eoi = true ∧
      u.written = s.written ++ (es.map Prod.fst).flatMap byteBits ∧ u.hrem.toNat = s.hrem.toNat - es.length := by
  obtain ⟨m, rfl⟩ := Nat.exists_eq_add_of_lt hn
  obtain ⟨w, hw, hdecw, hremw, heoiw, hwritten, hhrem⟩ := h.decodeAll_fits hroom
  obtain ⟨⟨c, p⟩, hp, more, hmore, hpath⟩ := hcut
  obtain ⟨u, hu, hreader, -, hend, heoi⟩ := decodeSymbol_of_cut (s := w) (hdecw.frame.holdsTrie h.trie).1 hp
    (hpath.trans (congrArg (· ++ more) hremw.symm)) hmore (heoiw.trans he)
  have hloop : decodeAll (es.length + m + 1) s = .raised .malformedStream u := by
    rw [Nat.add_assoc, decodeAll_add, hw, Res.bind_ok, decodeAll, hu, Res.bind_raised]
  have hdec := decodeAll_decodes (es.length + m + 1) h.optr
  rw [hloop] at hdec
  exact ⟨u, hloop, hdec, hend, heoi, hreader.written.trans hwritten, by rw [hreader.hrem, hhrem]⟩

/-- A symbol for whose byte there is no room is decoded, and the first bits of its byte are written (41_bitwriter.md R161). -/
theorem decodeAll_byte_overflows {c : Byte} {p : List Bool} (ht : Represents s.node s.root t) (hp : (c, p) ∈ t.paths)
    (hrem : s.remaining = p ++ rest) (he : s.eoi = false ∨ p = []) (hptr : s.optr.toNat ≤ s.obufSize)
    (hroom : s.room < 8) (n : Nat) :
    ∃ u, decodeAll (n + 1) s = .raised .obufOverflow u ∧ u.remaining = rest ∧ u.eoi = s.eoi ∧
      u.written = s.written ++ (byteBits c).take s.room ∧ u.hrem = s.hrem := by
  obtain ⟨a, ha, hreader, ⟨-, hrema, -⟩, heoi⟩ := decodeSymbol_of_path ht hp hrem he
  have hptra : a.optr.toNat ≤ a.obufSize := by
    rw [hreader]
    exact hptr
  obtain ⟨u, hu, hwriter, hwritten, -⟩ := writeList_overflows (byteBits c) hptra
    (by rw [hreader.room, byteBits_length]; exact hroom)
  refine ⟨u, ?_, ?_, hwriter.eoi.trans heoi, ?_, hwriter.hrem.trans hreader.hrem⟩
  · rw [decodeAll, ha, Res.bind_ok, writeBits_eq, bitsMsb_wideOfByte, hu, Res.bind_raised]
  · rw [hwriter.remaining, hrema, hrem, List.drop_left]
  · rw [hwritten, hreader.written, hreader.room]

/-- The loop on symbols `pre`, whose bytes fill the room up to less than a byte, and one more: it stops at that one. -/
theorem State.Encodes.decodeAll_stops {pre post : List (Byte × List Bool)} {c : Byte} {p : List Bool}
    (h : s.Encodes t (pre ++ (c, p) :: post) rest) (hpre : pre.length = s.room / 8) {n : Nat} (hn : pre.length < n) :
    ∃ u, decodeAll n s = .raised .obufOverflow u ∧ u.remaining = post.flatMap Prod.snd ++ rest ∧ u.eoi = s.eoi ∧
      u.written = s.written ++ ((pre.map Prod.fst).flatMap byteBits ++ (byteBits c).take (s.room % 8)) ∧
      u.hrem.toNat = s.hrem.toNat - pre.length := by
  obtain ⟨m, rfl⟩ := Nat.exists_eq_add_of_lt hn
  obtain ⟨htrie, hpaths, hrem, heoi, hptr, hhrem⟩ := h
  rw [List.forall_mem_append, List.forall_mem_cons] at hpaths
  obtain ⟨hpathspre, hpathc, -⟩ := hpaths
  simp only [List.flatMap_append, List.flatMap_cons, List.append_assoc, List.append_eq_nil_iff] at hrem heoi
  rw [List.length_append] at hhrem
  obtain ⟨w, hw, hdec, hremw, heoiw, hwritten, hhremw⟩ := State.Encodes.decodeAll_fits
    ⟨htrie, hpathspre, hrem, heoi.imp_right And.left, hptr, by omega⟩ (by omega)
  have hroom := hdec.room hwritten
  rw [length_flatMap_byteBits, List.length_map, hpre] at hroom
  have hmod : w.room = s.room % 8 := by omega
  obtain ⟨u, hu, hremu, heoiu, hwrittenu, hhremu⟩ := decodeAll_byte_overflows (hdec.frame.holdsTrie htrie).1 hpathc hremw
    (by rw [heoiw]; exact heoi.imp_right fun h => h.2.1) hdec.appends.fits (by omega) m
  refine ⟨u, ?_, hremu, heoiu.trans heoiw, by rw [hwrittenu, hwritten, hmod, List.append_assoc], by rw [hhremu, hhremw]⟩
  rw [Nat.add_assoc, decodeAll_add, hw, Res.bind_ok, hu]

/-- Where not all the bytes fit, the loop stops at the first that does not, its symbol consumed and not counted. -/
theorem State.Encodes.decodeAll_overflows (h : s.Encodes t es rest) (hroom : s.room < 8 * es.length) {n : Nat}
    (hn : es.length ≤ n) :
    ∃ u, decodeAll n s = .raised .obufOverflow u ∧ Decodes s u ∧
      u.remaining = s.remaining.drop ((es.take (s.room / 8 + 1)).flatMap Prod.snd).length ∧ u.eoi = s.eoi ∧
      u.written = s.written ++ ((es.map Prod.fst).flatMap byteBits).take s.room ∧
      u.hrem.toNat = s.hrem.toNat - s.room / 8 := by
  obtain ⟨pre, ⟨c, p⟩, post, rfl, hpre⟩ : ∃ pre e post, es = pre ++ e :: post ∧ pre.length = s.room / 8 := by
    have hk : s.room / 8 < es.length := by omega
    exact ⟨es.take (s.room / 8), es[s.room / 8], es.drop (s.room / 8 + 1),
      by rw [List.getElem_cons_drop, List.take_append_drop], List.length_take_of_le hk.le⟩
  obtain ⟨u, hu, hrem, heoi, hwritten, hhrem⟩ := h.decodeAll_stops (n := n) hpre (by omega)
  have hdec := decodeAll_decodes n h.optr
  rw [hu] at hdec
  refine ⟨u, hu, hdec, ?_, heoi, ?_, by rw [hhrem, hpre]⟩
  · have hfirst : (pre ++ (c, p) :: post).take (s.room / 8 + 1) = pre ++ [(c, p)] := by
      rw [← hpre, List.take_length_add_append, List.take_succ_cons, List.take_zero]
    have hall : s.remaining = (pre ++ [(c, p)]).flatMap Prod.snd ++ (post.flatMap Prod.snd ++ rest) := by
      rw [h.remaining]
      simp
    rw [hrem, hfirst, hall, List.drop_left]
  · rw [hwritten, List.map_append, List.map_cons, take_flatMap_byteBits (by rw [List.length_map, hpre])]

/-! ### HDSYMS (R286) -/

theorem hdsyms_eq (hv : s.tvalid = true) : hdsyms s = decodeAll s.hrem.toNat s := needTrie_of_tvalid _ hv

theorem exec_hdsyms (hv : s.tvalid = true) : exec .hdsyms s = completed (decodeAll s.hrem.toNat s) :=
  congrArg completed (hdsyms_eq hv)

end loop

/-- Settles O57: the three outcomes of the decode loop. -/
theorem hdsymsDecodesHremSymbols : Obligations.HdsymsDecodesHremSymbols := by
  intro s t es rest hv ht heoi hptr hpaths hrem hle
  have henc : s.Encodes t es rest := ⟨ht, hpaths, hrem, heoi, hptr, hle⟩
  rw [exec_hdsyms hv]
  refine ⟨fun hroom hall => ?_, fun hroom hmore he hcut => ?_, fun hroom => ?_⟩
  · obtain ⟨u, hu, hdec, hremu, heoiu, hwritten, hhrem⟩ := henc.decodeAll_fits hroom
    rw [hall] at hu
    have hzero : u.hrem = 0 := BitVec.eq_of_toNat_eq (by rw [hhrem, hall, Nat.sub_self]; rfl)
    exact ⟨u, completed_of_ok hu, hdec.frame, hdec.took.consumed (by rw [hremu, hrem, List.drop_left]), heoiu,
      hzero, hwritten, hdec.appends.outside⟩
  · obtain ⟨u, hu, hdec, hend, heoiu, hwritten, hhrem⟩ := henc.decodeAll_cut hroom he hcut hmore
    exact ⟨u, completed_of_raised hu, hdec.frame, hdec.took.consumed_all hend (Nat.le_succ _), heoiu, hhrem, hwritten,
      hdec.appends.outside⟩
  · obtain ⟨u, hu, hdec, hremu, heoiu, hwritten, hhrem⟩ := henc.decodeAll_overflows hroom hle
    exact ⟨u, completed_of_raised hu, hdec.frame, heoiu, hdec.took.consumed hremu, hhrem, hwritten, hdec.appends.outside⟩

end Sys2Proof.Machine

/-! HEXP on any stream of the format, and on HCOMP's output (47_huffman_decode.md R287 to R289). -/

namespace Sys2Proof.Machine

/-! ### The bytes of a stream (20_memory.md R87) -/

theorem byteBits_injective : Function.Injective byteBits := fun a b h =>
  BitVec.eq_of_toNat_eq (by rw [← numOf_byteBits, ← numOf_byteBits, h])

/-- Bytes whose bits begin some bytes' bits begin those bytes. -/
theorem take_of_flatMap_byteBits_prefix {xs ys : List Byte} (h : xs.flatMap byteBits <+: ys.flatMap byteBits) :
    xs = ys.take xs.length := by
  induction xs generalizing ys with
  | nil => rfl
  | cons x xs ih =>
    cases ys with
    | nil => simp [byteBits] at h
    | cons y ys =>
      obtain ⟨rest, hrest⟩ := h
      rw [List.flatMap_cons, List.flatMap_cons, List.append_assoc] at hrest
      obtain ⟨hhead, htail⟩ := List.append_inj hrest (by rw [byteBits_length, byteBits_length])
      rw [List.length_cons, List.take_succ_cons, ← ih ⟨rest, htail⟩, byteBits_injective hhead]

/-- OBUF holds the bytes whose bits were written first. -/
theorem obuf_of_written {s : State} {l : List Byte} (h : s.written <+: l.flatMap byteBits) :
    (List.range s.optr.toNat).map s.obufByte = l.take s.optr.toNat := by
  have hbytes : ((List.range s.optr.toNat).map s.obufByte).flatMap byteBits <+: l.flatMap byteBits := by
    rw [List.flatMap_map]
    exact (List.prefix_append _ _).trans h
  simpa using take_of_flatMap_byteBits_prefix hbytes

/-- Where the bits of whole bytes were written, OBUF holds the bytes and nothing is pending. -/
theorem output_of_written {s : State} {l : List Byte} (h : s.written = l.flatMap byteBits) :
    s.optr.toNat = l.length ∧ s.wcnt = 0 ∧ (List.range l.length).map s.obufByte = l := by
  have hbits := length_written s
  rw [h, length_flatMap_byteBits] at hbits
  have hptr : s.optr.toNat = l.length := by omega
  have hbytes := obuf_of_written (h ▸ List.prefix_rfl : s.written <+: l.flatMap byteBits)
  rw [hptr, List.take_length] at hbytes
  exact ⟨hptr, Fin.ext (by rw [Fin.val_zero]; omega), hbytes⟩

/-! ### HEXP up to its symbols (R287) -/

/-- HEXP's last two parts. -/
def expandSymbols (s : State) : Res Unit := (hdsyms s).bind fun _ s => flush s

theorem expandSymbols_decodes {s : State} (hv : s.tvalid = true) (hp : s.optr.toNat ≤ s.obufSize) :
    Decodes s (expandSymbols s).state := by
  have hdec := decodeAll_decodes s.hrem.toNat hp
  rw [expandSymbols, hdsyms_eq hv]
  cases h : decodeAll s.hrem.toNat s with
  | ok a u => rw [h] at hdec; exact hdec.flush
  | raised e u => rw [h] at hdec; exact hdec

/-- From `s`, HEXP's first four parts read a trie `t` and a count `n`, and left the bits `codes` (R287). -/
structure State.ReadsHeader (s v : State) (t : Tree) (n : Word) (codes : List Bool) : Prop where
  frame : v = { s with iptr := v.iptr, racc := v.racc, rcnt := v.rcnt, eoi := false, optr := 0, wacc := 0, wcnt := 0,
                       node := v.node, nodes := v.nodes, root := 0, tvalid := true, hrem := n,
                       len := Vector.replicate 256 0, code := Vector.replicate 256 0 }
  trie : v.HoldsTrie t
  remaining : v.remaining = codes

/-- The bits of HEXP's input, `IBUF[0..ILEN-1]`. -/
def State.inputBits (s : State) : List Bool := (List.range s.ilen.toNat).flatMap fun i => byteBits (s.ibufByte i)

theorem startOf_hexp_remaining (s : State) : (startOf .hexp s).remaining = s.inputBits :=
  remaining_of_start (s := startOf .hexp s) rfl rfl

/-- The count field holds the count (46_huffman_encode.md R262). -/
theorem ofNat_numOf_bitsMsb (n : Word) : BitVec.ofNat 32 (numOf (bitsMsb (n.setWidth 64) 32)) = n := by
  rw [numOf_bitsMsb, BitVec.toNat_setWidth_of_le (by decide), Nat.mod_eq_of_lt n.isLt, BitVec.ofNat_toNat, BitVec.setWidth_eq]

/-- On a trie and a count HEXP comes to its symbols. -/
theorem exec_hexp_of_header {s : State} {t : Tree} {n : Word} {codes : List Bool} (hsize : t.size ≤ 511)
    (hbits : s.inputBits = t.bits ++ (bitsMsb (n.setWidth 64) 32 ++ codes)) :
    ∃ v, exec .hexp s = completed (expandSymbols v) ∧ s.ReadsHeader v t n codes := by
  obtain ⟨a, ha, hread⟩ := hrtrie_reads (s := startOf .hexp s) rfl ((startOf_hexp_remaining s).trans hbits) hsize
  have hrema := hread.remaining ((startOf_hexp_remaining s).trans hbits)
  obtain ⟨b, hb, hreader, ⟨-, hremb, -⟩, heoib⟩ :=
    decBits_consumes (n := 32) hread.eoi (by rw [hrema, List.length_append, bitsMsb_length]; omega)
  rw [hrema, List.take_left' (bitsMsb_length _ _), ofNat_numOf_bitsMsb] at hb
  rw [hrema, List.drop_left' (bitsMsb_length _ _)] at hremb
  have hcount : hrcount a = .ok () { b with hrem := n } := congrArg (Res.bind · _) hb
  refine ⟨{ b with hrem := n }, ?_, ?_, ?_, hremb⟩
  · rw [exec_hexp, hexpOutput, ha, Res.bind_ok, hcount]
    rfl
  · conv_lhs => rw [hreader, hread.frame, heoib]
    rw [hreader]
    rfl
  · have hholds := hread.holdsTrie
    rw [hreader]
    exact hholds

/-- On an input without a trie and a count HEXP fails before it writes anything. -/
theorem exec_hexp_of_no_header {s : State}
    (h : ∀ (t : Tree) (cnt rest : List Bool), t.size ≤ 511 → cnt.length = 32 → s.inputBits ≠ t.bits ++ cnt ++ rest) :
    ∃ u, exec .hexp s = .next (doneErr 0x09 u) ∧ u.optr = 0 ∧ u.wcnt = 0 ∧ u.obuf = s.obuf ∧ u.hrem = s.hrem := by
  rw [exec_hexp, hexpOutput]
  by_cases htrie : ∃ (t : Tree) (rest : List Bool), t.size ≤ 511 ∧ (startOf .hexp s).remaining = t.bits ++ rest
  · obtain ⟨t, rest, hsize, hrem⟩ := htrie
    obtain ⟨a, ha, hread⟩ := hrtrie_reads (s := startOf .hexp s) rfl hrem hsize
    have hshort : a.remaining.length < 32 := by
      rw [hread.remaining hrem]
      by_contra hlong
      refine h t (rest.take 32) (rest.drop 32) hsize (List.length_take_of_le (Nat.le_of_not_lt hlong)) ?_
      rw [List.append_assoc, List.take_append_drop, ← startOf_hexp_remaining, hrem]
    obtain ⟨u, hu, hreader, -⟩ := decBits_truncated hread.eoi hshort
    have hcount : hrcount a = .raised .malformedStream u := congrArg (Res.bind · _) hu
    rw [ha, Res.bind_ok, hcount, Res.bind_raised]
    refine ⟨u, completed_of_raised rfl, ?_⟩
    rw [hreader, hread.frame]
    exact ⟨rfl, rfl, rfl, rfl⟩
  · obtain ⟨p, u, hu, hcut⟩ := hrtrie_fails (s := startOf .hexp s)
      (.inr fun t rest hsize hrem => htrie ⟨t, rest, hsize, hrem⟩)
    rw [hu, Res.bind_raised]
    refine ⟨u, completed_of_raised rfl, ?_⟩
    rw [hcut.frame]
    exact ⟨rfl, rfl, rfl, rfl⟩

/-! ### HEXP's symbols (R287, R288) -/

section expand

variable {s v u : State} {t : Tree} {n : Word} {codes : List Bool} {es : List (Byte × List Bool)} {rest : List Bool}

/-- What HEXP changes (R287). -/
theorem State.ReadsHeader.frame_of_decodes (h : s.ReadsHeader v t n codes) (hdec : Decodes v u) :
    u = { s with iptr := u.iptr, racc := u.racc, rcnt := u.rcnt, eoi := u.eoi, optr := u.optr, wacc := u.wacc,
                 wcnt := u.wcnt, obuf := u.obuf, node := u.node, nodes := u.nodes, root := 0, tvalid := true,
                 hrem := u.hrem, len := Vector.replicate 256 0, code := Vector.replicate 256 0 } := by
  have hframe := hdec.frame
  conv_lhs => rw [hframe, h.frame]
  rw [hframe]

/-- Symbols are written to OBUF from its first byte on. -/
theorem State.ReadsHeader.outside_of_decodes (h : s.ReadsHeader v t n codes) (hdec : Decodes v u) :
    ObufSameOutside s u 0 u.optr.toNat := by
  have hout := hdec.appends.outside
  rw [h.frame] at hout
  exact hout

/-- Before its symbols HEXP has written nothing. -/
theorem State.ReadsHeader.written (h : s.ReadsHeader v t n codes) : v.written = [] := by
  rw [h.frame]
  rfl

theorem State.ReadsHeader.room (h : s.ReadsHeader v t n codes) : v.room = 8 * s.obufSize + 7 := by
  rw [h.frame]
  rfl

theorem State.ReadsHeader.tvalid (h : s.ReadsHeader v t n codes) : v.tvalid = true := by rw [h.frame]

theorem State.ReadsHeader.eoi (h : s.ReadsHeader v t n codes) : v.eoi = false := by rw [h.frame]

theorem State.ReadsHeader.hrem (h : s.ReadsHeader v t n codes) : v.hrem = n := by rw [h.frame]

theorem State.ReadsHeader.encodes (h : s.ReadsHeader v t n (es.flatMap Prod.snd ++ rest))
    (hpaths : ∀ e ∈ es, e ∈ t.paths) (hle : es.length ≤ n.toNat) : v.Encodes t es rest where
  trie := h.trie
  paths := hpaths
  remaining := h.remaining
  eoi := .inl h.eoi
  optr := by rw [h.frame]; exact Nat.zero_le _
  hrem := by rw [h.hrem]; exact hle

theorem State.ReadsHeader.expandSymbols_eq (h : s.ReadsHeader v t n codes) :
    expandSymbols v = (decodeAll n.toNat v).bind fun _ s => flush s := by
  rw [expandSymbols, hdsyms_eq h.tvalid, h.hrem]

/-- All the symbols, where OBUF has room for them. -/
theorem State.ReadsHeader.expand_fits (h : s.ReadsHeader v t n (es.flatMap Prod.snd ++ rest))
    (hpaths : ∀ e ∈ es, e ∈ t.paths) (hlen : es.length = n.toNat) (hroom : n.toNat ≤ s.obufSize) :
    ∃ u, expandSymbols v = .ok () u ∧ u.optr.toNat = n.toNat ∧ u.wcnt = 0 ∧ u.eoi = false ∧ u.hrem = 0 ∧
      (List.range n.toNat).map u.obufByte = es.map Prod.fst := by
  obtain ⟨u, hu, -, -, heoi, hwritten, hhrem⟩ := (h.encodes hpaths hlen.le).decodeAll_fits (by rw [h.room]; omega)
  rw [h.written, List.nil_append] at hwritten
  obtain ⟨hptr, hcnt, hbytes⟩ := output_of_written hwritten
  rw [List.length_map, hlen] at hptr hbytes
  refine ⟨u, ?_, hptr, hcnt, heoi.trans h.eoi, BitVec.eq_of_toNat_eq ?_, hbytes⟩
  · rw [h.expandSymbols_eq, ← hlen, hu, Res.bind_ok, flush_of_no_pending hcnt]
  · rw [hhrem, h.hrem, hlen, Nat.sub_self]
    rfl

/-- The symbols before a code that is cut short. -/
theorem State.ReadsHeader.expand_cut (h : s.ReadsHeader v t n (es.flatMap Prod.snd ++ rest))
    (hpaths : ∀ e ∈ es, e ∈ t.paths) (hlen : es.length < n.toNat) (hroom : es.length ≤ s.obufSize)
    (hcut : ∃ e ∈ t.paths, ∃ more : List Bool, more ≠ [] ∧ e.2 = rest ++ more) :
    ∃ u, expandSymbols v = .raised .malformedStream u ∧ u.optr.toNat = es.length ∧ u.eoi = true ∧
      u.hrem.toNat = n.toNat - es.length ∧ (List.range es.length).map u.obufByte = es.map Prod.fst := by
  obtain ⟨u, hu, -, -, heoi, hwritten, hhrem⟩ :=
    (h.encodes hpaths hlen.le).decodeAll_cut (by rw [h.room]; omega) h.eoi hcut hlen
  rw [h.written, List.nil_append] at hwritten
  obtain ⟨hptr, -, hbytes⟩ := output_of_written hwritten
  rw [List.length_map] at hptr hbytes
  exact ⟨u, by rw [h.expandSymbols_eq, hu, Res.bind_raised], hptr, heoi, by rw [hhrem, h.hrem], hbytes⟩

/-- The symbols for which OBUF has room. -/
theorem State.ReadsHeader.expand_overflows (h : s.ReadsHeader v t n (es.flatMap Prod.snd ++ rest))
    (hpaths : ∀ e ∈ es, e ∈ t.paths) (hlen : es.length ≤ n.toNat) (hover : s.obufSize < es.length) :
    ∃ u, expandSymbols v = .raised .obufOverflow u ∧ u.optr.toNat = s.obufSize ∧
      u.hrem.toNat = n.toNat - s.obufSize ∧ (List.range s.obufSize).map u.obufByte = (es.map Prod.fst).take s.obufSize := by
  obtain ⟨u, hu, -, -, -, hwritten, hhrem⟩ := (h.encodes hpaths hlen).decodeAll_overflows (by rw [h.room]; omega) hlen
  rw [h.written, List.nil_append] at hwritten
  have hbits := length_written u
  rw [hwritten, h.room, List.length_take, length_flatMap_byteBits, List.length_map] at hbits
  have hptr : u.optr.toNat = s.obufSize := by omega
  have hbytes := obuf_of_written (s := u) (hwritten ▸ List.take_prefix _ _)
  rw [hptr] at hbytes
  have hcount : (8 * s.obufSize + 7) / 8 = s.obufSize := by omega
  exact ⟨u, by rw [h.expandSymbols_eq, hu, Res.bind_raised], hptr, by rw [hhrem, h.hrem, h.room, hcount], hbytes⟩

end expand

/-- Settles O58: HEXP reads the header, or fails in it; then its outcomes are those of the decode loop. -/
theorem hexpExpands : Obligations.HexpExpands := by
  refine fun s => ⟨fun t n es rest hsize hpaths hle (hbits : s.inputBits = _) => ?_, exec_hexp_of_no_header⟩
  rw [List.append_assoc, List.append_assoc] at hbits
  obtain ⟨v, hexec, hheader⟩ := exec_hexp_of_header hsize hbits
  have henc := hheader.encodes hpaths hle
  have hdec := expandSymbols_decodes hheader.tvalid henc.optr
  refine ⟨(expandSymbols v).state, hheader.frame_of_decodes hdec, hdec.frame.holdsTrie hheader.trie,
    hheader.outside_of_decodes hdec, fun hlen hroom => ?_, fun hlen hroom hcut => ?_, fun hover => ?_⟩ <;> rw [hexec]
  · obtain ⟨u, hu, hresult⟩ := hheader.expand_fits hpaths hlen hroom
    rw [hu]
    exact ⟨completed_of_ok rfl, hresult⟩
  · obtain ⟨u, hu, hresult⟩ := hheader.expand_cut hpaths hlen hroom hcut
    rw [hu]
    exact ⟨completed_of_raised rfl, hresult⟩
  · obtain ⟨u, hu, hresult⟩ := hheader.expand_overflows hpaths hle hover
    rw [hu]
    exact ⟨completed_of_raised rfl, hresult⟩

/-! ### The round trip (R289) -/

/-- The symbols of an input, each with its path in the input's trie (46_huffman_encode.md R267). -/
def pathsOf (input : List Byte) : List (Byte × List Bool) :=
  input.map fun c => (c, (huffmanTree fun d => input.count d).pathOf c)

/-- The paths of the symbols that occur are paths of the trie. -/
theorem pathsOf_mem_paths (s : State) : ∀ e ∈ pathsOf s.input, e ∈ (huffmanTree fun d => s.input.count d).paths := by
  have hok : s.cleared.counted.TotalOk := counted_totalOk (cleared_totalOk s) (cleared_total_fits s)
  have hcounts : s.cleared.counted.counts = fun d => s.input.count d := funext (prepared_counts s)
  obtain ⟨-, hperm⟩ := buildTrie_huffman hok
  rw [hcounts] at hperm
  intro e he
  obtain ⟨c, hc, rfl⟩ := List.mem_map.1 he
  have hleaf : c ∈ leafSymbols fun d => s.input.count d := mem_leafSymbols_of_count (List.count_pos_iff.2 hc).ne'
  obtain ⟨p, hp⟩ := Tree.mem_paths_of_mem_leafSyms (hperm.mem_iff.2 hleaf)
  rw [Tree.pathOf_eq (hperm.nodup_iff.2 (leafSymbols_nodup _)) hp]
  exact hp

/-- The source's format, as HEXP reads it. -/
theorem huffmanStream_eq (s : State) :
    huffmanStream s.input = (huffmanTree fun d => s.input.count d).bits ++ bitsMsb (s.ilen.setWidth 64) 32 ++
      (pathsOf s.input).flatMap Prod.snd := by
  rw [huffmanStream, input_length, BitVec.ofNat_toNat, pathsOf, List.flatMap_map]

/-- An HCOMP that raised no error wrote the format in whole bytes (R266, R267). -/
theorem hcomp_output {s w : State} (hw : exec .hcomp s = .next w) (herr : w.err = false) :
    (List.range w.optr.toNat).flatMap (fun i => byteBits (w.obufByte i)) =
      huffmanStream s.input ++ padBits (huffmanStream s.input).length := by
  obtain ⟨u, -, -, -, -, -, -, hfits, hover⟩ := hcompWritesTheFormat s
  obtain hle | hlt := le_or_gt (huffmanStream s.input).length (8 * s.obufSize)
  · obtain ⟨hexec, hwritten, hcnt, -⟩ := hfits hle
    obtain rfl : doneOk u = w := Host.Outcome.next.inj (hexec.symm.trans hw)
    exact (written_of_no_pending hcnt).symm.trans hwritten
  · obtain ⟨hexec, -⟩ := hover hlt
    obtain rfl : doneErr 0x04 u = w := Host.Outcome.next.inj (hexec.symm.trans hw)
    cases herr

/-- Settles O60: HCOMP's output is a stream of the format, with every symbol of the input and the padding after them. -/
theorem huffmanRoundTrip : Obligations.HuffmanRoundTrip := by
  intro s w r hw _ herr hilen hcopy hroom
  have hbits : (List.range r.ilen.toNat).flatMap (fun i => byteBits (r.ibufByte i)) =
      (huffmanTree fun d => s.input.count d).bits ++ bitsMsb (s.ilen.setWidth 64) 32 ++
        (pathsOf s.input).flatMap Prod.snd ++ padBits (huffmanStream s.input).length := by
    rw [← huffmanStream_eq, ← hcomp_output hw herr, hilen]
    exact List.flatMap_congr fun i hi => by rw [hcopy i (List.mem_range.1 hi)]
  have htrie := (prepared_codesInput s).trie
  have hsize : (huffmanTree fun d => s.input.count d).size ≤ 511 := by
    rw [htrie.size_eq]
    exact Nat.le_of_lt_succ (Fin.isLt _)
  have hlen : (pathsOf s.input).length = s.ilen.toNat := by rw [pathsOf, List.length_map, input_length]
  obtain ⟨u, -, -, -, hfits, -⟩ := (hexpExpands r).1 _ s.ilen _ _ hsize (pathsOf_mem_paths s) hlen.le hbits
  obtain ⟨hexec, hptr, -, heoi, hhrem, hbytes⟩ := hfits hlen hroom
  have hsame : (List.range s.ilen.toNat).map u.obufByte = (List.range s.ilen.toNat).map s.ibufByte := by
    rw [hbytes, pathsOf, List.map_map]
    exact List.map_id _
  exact ⟨u, hexec, hptr, hhrem, heoi, fun i hi => List.map_inj_left.1 hsame i (List.mem_range.2 hi)⟩

end Sys2Proof.Machine

/-! Reset: the values it leaves, and the machine while `rst_n` is 0 (70_reset_and_hazards.md R340 to R343). -/

namespace Sys2Proof.Machine

/-! ### The values (R341) -/

theorem reset_atReset : State.reset.AtReset := (resetAll_atReset State.reset).1

theorem resetEngine_atReset (s : State) : (resetEngine s).AtReset := (resetAll_atReset s).1

/-- Whatever hardware reset abandons, it leaves the reset values, CTRL included. -/
theorem assertReset_atReset (s : State) :
    (assertReset s).AtReset ∧ (assertReset s).doneIe = false ∧ (assertReset s).errIe = false := by
  obtain ⟨m, n, hr⟩ := assertReset_eq s
  rw [hr]
  exact resetAll_atReset s

theorem assertReset_ibuf (s : State) : (assertReset s).ibuf = s.ibuf :=
  assertReset_view_eq s (q := .ibuf) (by decide)

theorem assertReset_idle {s : State} (hbusy : s.busy = false) :
    assertReset s = { resetAll s with rstN := false } := by
  simp [assertReset, hbusy]

theorem assertReset_obuf_idle {s : State} (hbusy : s.busy = false) : (assertReset s).obuf = s.obuf := by
  rw [assertReset_idle hbusy]
  rfl

theorem assertReset_rstN (s : State) : (assertReset s).rstN = false := by
  obtain ⟨m, n, hr⟩ := assertReset_eq s
  rw [hr]

/-- Settles O18: each of the three leaves what `resetAll` does, or, CTRL apart, what `resetEngine` does. -/
theorem resetValues : Obligations.ResetValues := by
  refine ⟨reset_atReset, rfl, rfl, fun s => ?_, fun s => ⟨resetEngine s, rfl, resetEngine_atReset s, rfl, rfl, rfl, rfl⟩⟩
  obtain ⟨hvalues, hdone, herr⟩ := assertReset_atReset s
  have hsizes := assertReset_view_eq s (q := .sizes) (by decide)
  simp only [Part.view, Prod.mk.injEq] at hsizes
  refine ⟨hvalues, hdone, herr, assertReset_ibuf s, assertReset_obuf_idle, rfl, ?_, ?_⟩
  · rw [regValue, State.ibufSize, hsizes.1, State.ibufSize]
  · rw [regValue, State.obufSize, hsizes.2, State.obufSize]

/-- Settles O27: the buffers are empty, the pointers and counts 0, no trie is current, and `rst_n` is 1. -/
theorem resetMeetsInvariants : Obligations.ResetMeetsInvariants := by
  obtain ⟨hcodes, hprefix⟩ : State.reset.CodesOk ∧ State.reset.PrefixFree := State.NoCodes.tableOk ⟨rfl, rfl⟩
  have hlzw := inLzwRange_first
  exact ⟨⟨rfl, rfl, rfl, rfl⟩, ⟨Nat.zero_le _, Nat.zero_le _, Nat.zero_le _⟩, Nat.one_pos,
    ⟨hlzw.1, hlzw.2, hlzw.1, hlzw.2⟩, errorOk_of_noError ⟨rfl, rfl, rfl⟩, freqSum_replicate_zero.symm, hcodes, hprefix,
    trieOk_of_not_tvalid rfl, fun hrst => by cases hrst⟩

/-! ### While `rst_n` is 0 (R340) -/

section inReset

variable {s : State}

theorem engineTurn_inReset (hrst : s.rstN = false) : engineTurn s = .next s := by simp [engineTurn, hrst]

theorem hostWrite_inReset (addr : BitVec 26) (v : Word) (hrst : s.rstN = false) : hostWrite addr v s = s := by
  simp [hostWrite, hrst]

theorem hostRead_reg_inReset {addr : BitVec 26} {r : Reg} (hrst : s.rstN = false) (h : addr.toNat / 4 = r.index) :
    hostRead addr s = answer (regValue (resetAll s) r) s := by
  simp [hostRead, hrst, target_of_index h, readInReset]

end inReset

/-- On reset values a register reads as after reset, with the same buffer sizes. -/
theorem regValue_resetAll (r : Reg) (s : State) :
    regValue (resetAll s) r = regValue { State.reset with ibufExp := s.ibufExp, obufExp := s.obufExp } r := by
  cases r <;> rfl

theorem regValue_resetAll_assertReset (r : Reg) (s : State) :
    regValue (resetAll (assertReset s)) r = regValue (resetAll s) r := by
  obtain ⟨m, n, hr⟩ := assertReset_eq s
  rw [hr]
  cases r <;> rfl

/-- A copy of bytes of `t` leaves at each index what was there, or the byte of `t`. -/
theorem copyBytes_byteAt (t : State) (lo n : Nat) (m : Memory) (i : Nat) :
    (copyBytes t lo n m).byteAt Config.powerOnObuf i = m.byteAt Config.powerOnObuf i ∨
      (copyBytes t lo n m).byteAt Config.powerOnObuf i = t.obufByte i := by
  unfold copyBytes
  induction n with
  | zero => exact .inl rfl
  | succ n ih =>
    rw [List.range_succ, List.foldl_append, List.foldl_cons, List.foldl_nil]
    by_cases hi : i = lo + n
    · subst hi
      exact .inr (by simp [Memory.byteAt])
    · simpa only [Memory.byteAt, Memory.get?_set_other _ _ hi] using ih

/-- Of a command that reset abandons, OBUF holds no other bytes than the command would have written (U19; log 8). -/
theorem assertReset_obufByte {s t : State} (hrst : s.rstN = true) (hbusy : s.busy = true) (ht : engineTurn s = .next t)
    (i : Nat) : (assertReset s).obufByte i = s.obufByte i ∨ (assertReset s).obufByte i = t.obufByte i := by
  rw [engineTurn_running hrst hbusy] at ht
  have hobuf : (assertReset s).obuf =
      copyBytes t (obufStart s) (min (Config.abandonAfter s.draws) (t.optr.toNat - obufStart s)) s.obuf := by
    simp [assertReset, hrst, hbusy, abandonedObuf, ht]
  rw [obufByte_eq, hobuf]
  exact copyBytes_byteAt t _ _ s.obuf i

/-- Settles O20: with the pin at 0 engine and writes do nothing, and reads see the reset values. -/
theorem hardwareReset : Obligations.HardwareReset := by
  intro s
  have hrst := assertReset_rstN s
  obtain ⟨⟨⟨-, -, -, -, -, -, -, -, -, -, hcnt⟩, -⟩, hdone, herr⟩ := assertReset_atReset s
  refine ⟨hrst, by simp [State.irq, hdone, herr], hcnt, assertReset_ibuf s, assertReset_obuf_idle,
    fun t => assertReset_obufByte, engineTurn_inReset hrst, fun addr v => hostWrite_inReset addr v hrst,
    fun addr haddr => ?_, rfl⟩
  obtain ⟨r, hr⟩ := exists_index (k := addr.toNat / 4) (by omega)
  rw [hostRead_reg_inReset hrst hr.symm, hostRead_idle (r := r) rfl rfl hr.symm, regValue_resetAll_assertReset,
    regValue_resetAll]
  rfl

/-! ### Reset is held (R340, R341) -/

theorem resetOk_of_rstN {s : State} (hrst : s.rstN = true) : s.ResetOk := fun h => by
  rw [hrst] at h
  cases h

theorem engineTurn_resetOk {s t : State} (hs : s.ResetOk) (h : engineTurn s = .next t) : t.ResetOk := by
  cases hrst : s.rstN with
  | false =>
    rw [engineTurn_inReset hrst] at h
    cases h
    exact hs
  | true =>
    refine resetOk_of_rstN (engineTurn_keeps (P := fun s => s.rstN = true) (fun p hp a b hd ha => ?_) h hrst)
    have hpin : ∀ p ∈ enginePrims, Part.pin ∉ p.parts := by decide
    exact (view_eq_of_does hd (hpin p hp)).trans ha

theorem hostWrite_resetOk {s : State} (addr : BitVec 26) (v : Word) (hs : s.ResetOk) : (hostWrite addr v s).ResetOk := by
  cases hrst : s.rstN with
  | false => rwa [hostWrite_inReset addr v hrst]
  | true => exact resetOk_of_rstN ((hostWrite_sameMap addr v s).1.trans hrst)

theorem act_resetOk {a : HostAction} {s t : State} (hs : s.ResetOk) (h : act a s = .next t) : t.ResetOk := by
  cases a with
  | read addr =>
    obtain ⟨v, n, hr⟩ := hostRead_state addr s
    cases h
    rw [hr]
    exact hs
  | write addr v => cases h; exact hostWrite_resetOk addr v hs
  | engine => exact engineTurn_resetOk hs h
  | resetLow => cases h; exact fun _ => assertReset_atReset s
  | resetHigh => cases h; exact resetOk_of_rstN rfl

/-- Settles O26: with the pin at 0 no action but reset's own changes the engine, and no action but reset's moves the pin. -/
theorem resetHeld : Obligations.ResetHeld := by
  intro s t hs h
  unfold step at h
  split at h
  · exact engineTurn_resetOk hs h
  · next a q _ => exact act_resetOk (s := { s with hostq := q }) hs h

end Sys2Proof.Machine

/-! Errors: which a command can raise, what a failed check leaves, and the return from one (60_exceptions.md R301 to R314). -/

namespace Sys2Proof.Machine

/-! ### The return from an error (R314) -/

/-- With BUSY = 0 a recovery word is launched, and the engine's turn executes its command. -/
theorem engineTurn_recovery {s : State} {addr : BitVec 26} {w : Word} {i : Instr} (hrst : s.rstN = true)
    (hbusy : s.busy = false) (haddr : addr.toNat / 4 = 1) (hw : recoveryWord w = true) (hdec : decode w = .ok i) :
    engineTurn (hostWrite addr w s) = exec i { s with pending := w, busy := true } := by
  rw [hostWrite_cmd w hrst haddr, writeCmd_launches hbusy (.inr hw)]
  exact (engineTurn_running (s := { s with pending := w, busy := true }) hrst rfl).trans (engineRun_of_decode hdec)

/-- Settles O11: the two recovery words run CLRERR and SRESET, any other is dropped. -/
theorem returnFromError : Obligations.ReturnFromError := by
  intro s addr hrst hbusy herr haddr
  refine ⟨⟨1, ?_⟩, ⟨2, ?_⟩, fun w => cmdWriteDroppedAfterError s addr w hrst hbusy herr haddr⟩
  · rw [engineTurn_recovery hrst hbusy haddr (by decide) (i := .clrerr) (by decide)]
    rfl
  · rw [engineTurn_recovery hrst hbusy haddr (by decide) (i := .sreset) (by decide)]
    rfl

/-! ### Checks that come first (R311) -/

section checks

variable {s : State}

theorem wbits_illegal {n : Byte} (hn : 32 < n.toNat) : wbits n s = .raised .illegalCmd s :=
  if_neg (mt widthOk_iff.1 (Nat.not_le.2 hn))

theorem rbits_illegal {n : Byte} (hn : 32 < n.toNat) : rbits n s = .raised .illegalCmd s :=
  if_neg (mt widthOk_iff.1 (Nat.not_le.2 hn))

theorem needTrie_of_not_tvalid (body : State → Res Unit) (h : s.tvalid = false) :
    needTrie body s = .raised .noTrie s := by
  simp [needTrie, h]

/-- The five commands that need a trie look at TVALID first. -/
theorem exec_of_needsTrie {i : Instr} (hi : needsTrie i = true) :
    ∃ body, ∀ s, exec i s = completed (needTrie body s) := by
  cases i with
  | htrie | hsym _ | hsyms | hdsym | hdsyms => exact ⟨_, fun _ => rfl⟩
  | _ => cases hi

end checks

/-- Settles O33: each of these checks is the first thing its command does. -/
theorem failedChecksChangeNothing : Obligations.FailedChecksChangeNothing := by
  refine fun s => ⟨fun n hn => ⟨completed_of_raised (wbits_illegal hn), completed_of_raised (rbits_illegal hn)⟩,
    fun hfull => completed_of_raised (fcount_overflows hfull), fun c hfull => completed_of_raised (fwr_overflows hfull),
    fun c g hbad => completed_of_raised (lemit_badCode hbad g), fun hvalid i hi => ?_, fun c hvalid hc => ?_⟩
  · obtain ⟨body, hexec⟩ := exec_of_needsTrie hi
    rw [hexec]
    exact completed_of_raised (needTrie_of_not_tvalid body hvalid)
  · rw [exec_hsym hvalid]
    exact completed_of_raised (emitCode_without_code hc)

/-! ### Who raises what (R301) -/

/-- The body raises no error but those of `es`. -/
def RaisesOnly {α : Type} (es : List ErrKind) (body : State → Res α) : Prop := ∀ s e u, body s = .raised e u → e ∈ es

section raises

variable {α β : Type} {es : List ErrKind}

theorem RaisesOnly.ok (a : State → α) (f : State → State) : RaisesOnly es fun s => .ok (a s) (f s) := fun _ _ _ h => by
  cases h

theorem RaisesOnly.raised {e : ErrKind} (he : e ∈ es) : RaisesOnly (α := α) es fun s => .raised e s := fun _ _ _ h => by
  cases h; exact he

theorem RaisesOnly.ite (p : State → Prop) [∀ s, Decidable (p s)] {f g : State → Res α} (hf : RaisesOnly es f)
    (hg : RaisesOnly es g) : RaisesOnly es fun s => if p s then f s else g s := by
  intro s e u h
  by_cases hp : p s
  · exact hf s e u (by simpa only [if_pos hp] using h)
  · exact hg s e u (by simpa only [if_neg hp] using h)

theorem RaisesOnly.bind {f : State → Res α} {k : α → State → Res β} (hf : RaisesOnly es f)
    (hk : ∀ a, RaisesOnly es (k a)) : RaisesOnly es fun s => (f s).bind k := by
  intro s e u h
  simp only at h
  cases hfs : f s with
  | ok a t => rw [hfs] at h; exact hk a t e u h
  | raised e' t => rw [hfs] at h; cases h; exact hf s _ _ hfs

/-! #### Writer (41_bitwriter.md, 46_huffman_encode.md) -/

theorem writeList_raises (h : .obufOverflow ∈ es) (bs : List Bool) : RaisesOnly es (writeList bs) := fun _ _ _ hw => by
  rw [writeList_error hw]; exact h

theorem writeBit_raises (h : .obufOverflow ∈ es) (b : Bool) : RaisesOnly es (writeBit b) := by
  rw [funext (writeBit_eq b)]; exact writeList_raises h [b]

theorem writeBits_raises (h : .obufOverflow ∈ es) (v : BitVec 64) (n : Nat) : RaisesOnly es (writeBits v n) := by
  rw [funext (writeBits_eq v n)]; exact writeList_raises h _

theorem flush_raises (h : .obufOverflow ∈ es) : RaisesOnly es flush :=
  .ite (fun s => s.wcnt.val = 0) (.ok _ _) (.ite (fun s => s.optr.toNat = s.obufSize) (.raised h) (.ok _ _))

theorem ser_raises (h : .obufOverflow ∈ es) (k : Nat) (i : Fin 511) : RaisesOnly es (ser k i) := by
  induction k generalizing i with
  | zero => exact .raised h
  | succ k ih =>
    intro s
    simp only [ser]
    split_ifs
    · exact ((writeBit_raises h true).bind fun _ => writeBits_raises h _ _) s
    · exact ((writeBit_raises h false).bind fun _ => (ih _).bind fun _ => ih _) s

theorem emitCode_raises (h : .obufOverflow ∈ es) (h' : .noCode ∈ es) (c : Byte) : RaisesOnly es (emitCode c) :=
  .ite (fun s => s.lenOf c = 0) (.raised h') fun s => writeBits_raises h (s.codeOf c) (s.lenOf c).toNat s

theorem emitAll_raises (h : .obufOverflow ∈ es) (h' : .noCode ∈ es) (cs : List Byte) : RaisesOnly es (emitAll cs) := by
  induction cs with
  | nil => exact .ok _ _
  | cons c cs ih => exact (emitCode_raises h h' c).bind fun _ => ih

/-! #### Reader (42_bitreader.md, 47_huffman_decode.md) -/

theorem decBit_raises (h : .malformedStream ∈ es) : RaisesOnly es decBit := fun _ _ _ hd => by
  rw [decBit_error hd]; exact h

theorem decBitsFrom_raises (h : .malformedStream ∈ es) (n : Nat) (v : Word) : RaisesOnly es (decBitsFrom n v) := by
  induction n generalizing v with
  | zero => exact .ok _ _
  | succ n ih => exact (decBit_raises h).bind fun _ => ih _

theorem decodeFrom_raises (h : .malformedStream ∈ es) (k : Nat) (i : Fin 511) : RaisesOnly es (decodeFrom k i) := by
  induction k generalizing i with
  | zero => exact .raised h
  | succ k ih =>
    exact .ite (fun s => (s.nodeAt i).leaf = true) (.ok _ _) fun s =>
      ((decBit_raises h).bind fun b => ih (if b then (s.nodeAt i).right else (s.nodeAt i).left)) s

theorem decodeSymbol_raises (h : .malformedStream ∈ es) : RaisesOnly es decodeSymbol := fun s =>
  decodeFrom_raises h decodeDepth s.root s

theorem decodeAll_raises (h : .obufOverflow ∈ es) (h' : .malformedStream ∈ es) (n : Nat) :
    RaisesOnly es (decodeAll n) := by
  induction n with
  | zero => exact .ok _ _
  | succ n ih =>
    exact (decodeSymbol_raises h').bind fun _ => (writeBits_raises h _ _).bind fun _ s => ih { s with hrem := s.hrem - 1 }

theorem parse_raises (h : .malformedStream ∈ es) (k : Nat) : RaisesOnly es (parse k) := fun _ _ _ hp => by
  rw [parse_error hp]; exact h

theorem hrtrie_raises (h : .malformedStream ∈ es) : RaisesOnly es hrtrie := fun s =>
  ((parse_raises h parseDepth).bind fun _ => .ok _ _) (dropTrie s)

theorem hrcount_raises (h : .malformedStream ∈ es) : RaisesOnly es hrcount :=
  (decBitsFrom_raises h _ _).bind fun _ => .ok _ _

/-! #### LZW and counters (43_lzw.md, 44_frequency.md) -/

theorem lemit_raises (h : .obufOverflow ∈ es) (h' : .badCode ∈ es) (c : BitVec 12) (g : Bool) :
    RaisesOnly es (lemit c g) :=
  .ite (fun s => codeOperand c = Config.lzwEof ∨ s.enext.toNat ≤ codeOperand c) (.raised h')
    ((writeBits_raises h _ _).bind fun _ => .ok _ _)

theorem classify_raises (h : .malformedStream ∈ es) (c : BitVec 12) : RaisesOnly es (classify c) :=
  .ite (fun _ => c.toNat = Config.lzwEof) (.ok _ _) <|
    .ite (fun s => s.dfirst = true) (.ite (fun _ => Config.lzwFirst ≤ c.toNat) (.raised h) (.ok _ _)) <|
      .ite (fun s => c.toNat < s.dnext.toNat) (.ok _ _) <| .ite (fun s => c.toNat = s.dnext.toNat) (.ok _ _) (.raised h)

theorem lread_raises (h : .malformedStream ∈ es) : RaisesOnly es lread :=
  (decBitsFrom_raises h _ _).bind fun _ => classify_raises h _

theorem fcount_raises (h : .countOverflow ∈ es) : RaisesOnly es fcount :=
  .ite (fun s => 2 ^ 32 - 1 < s.total.toNat + s.ilen.toNat) (.raised h) (.ok _ _)

theorem fwr_raises (h : .countOverflow ∈ es) (c : Byte) : RaisesOnly es (fwr c) :=
  .ite (fun s => 2 ^ 32 - 1 < newTotal c s) (.raised h) (.ok _ _)

end raises

/-! ### HEXP has a trie when it comes to its symbols (47_huffman_decode.md R287) -/

theorem hrtrie_ok_tvalid {s t : State} (h : hrtrie s = .ok () t) : t.tvalid = true := by
  rw [hrtrie_eq] at h
  cases hp : parse parseDepth (dropTrie s) with
  | ok i u => rw [hp] at h; cases h; rfl
  | raised e u => rw [hp] at h; cases h

theorem hrcount_tvalid (s : State) : (hrcount s).state.tvalid = s.tvalid :=
  congrArg Prod.fst
    ((hrcount_performs (ps := [.readBit, .setHrem]) (by decide) (by decide) s).view_eq (q := .trie) (by decide))

theorem hexpOutput_eq (s : State) :
    hexpOutput s = (hrtrie s).bind fun _ s => (hrcount s).bind fun _ s =>
      (decodeAll s.hrem.toNat s).bind fun _ s => flush s :=
  Res.bind_congr fun _ t ht => Res.bind_congr fun _ u hu => by
    have hvalid := hrcount_tvalid t
    rw [hu, Res.state_ok, hrtrie_ok_tvalid ht] at hvalid
    rw [hdsyms_eq hvalid]

theorem hexpOutput_raises {es : List ErrKind} (h : .obufOverflow ∈ es) (h' : .malformedStream ∈ es) :
    RaisesOnly es hexpOutput := by
  rw [funext hexpOutput_eq]
  exact (hrtrie_raises h').bind fun _ => (hrcount_raises h').bind fun _ =>
    RaisesOnly.bind (fun s => decodeAll_raises h h' s.hrem.toNat s) fun _ => flush_raises h

/-! ### The errors of each command (R301) -/

/-- From `s` the command `i` may raise `e`. -/
def MayRaise (i : Instr) (s : State) (e : ErrKind) : Prop :=
  errCodeOf e ∈ errorsOf i ∨ (needsTrie i = true ∧ e = .noTrie ∧ s.tvalid = false) ∨
    (needsCode i = true ∧ e = .noCode ∧ s.tvalid = true)

section mayRaise

variable {i : Instr} {s : State} {es : List ErrKind}

theorem RaisesOnly.mayRaise {body : State → Res Unit} (h : RaisesOnly es body) (hes : es.map errCodeOf = errorsOf i)
    {s' : State} : ∀ e u, body s' = .raised e u → MayRaise i s e := fun e u hb =>
  .inl (hes ▸ List.mem_map_of_mem (h s' e u hb))

theorem needTrie_mayRaise {body : State → Res Unit} (h : RaisesOnly es body) (hi : needsTrie i = true)
    (hes : ∀ e ∈ es, errCodeOf e ∈ errorsOf i ∨ (needsCode i = true ∧ e = .noCode)) :
    ∀ e u, needTrie body s = .raised e u → MayRaise i s e := by
  intro e u hb
  cases hv : s.tvalid with
  | false =>
    rw [needTrie_of_not_tvalid body hv] at hb
    cases hb
    exact .inr (.inl ⟨hi, rfl, hv⟩)
  | true =>
    rw [needTrie_of_tvalid body hv] at hb
    obtain hcode | ⟨hneeds, hcode⟩ := hes e (h s e u hb)
    · exact .inl hcode
    · exact .inr (.inr ⟨hneeds, hcode, hv⟩)

/-- The commands that can raise an error complete a body that raises only those listed for them. -/
theorem exec_mayRaise (hwf : i.wf = true) (hi : errorsOf i ≠ []) (s : State) :
    ∃ r, exec i s = completed r ∧ r.state.life = s.life ∧ ∀ e u, r = .raised e u → MayRaise i s e := by
  have hover : ErrKind.obufOverflow ∈ [ErrKind.obufOverflow] := List.mem_singleton_self _
  have hbad : ErrKind.malformedStream ∈ [ErrKind.malformedStream] := List.mem_singleton_self _
  have hcount : ErrKind.countOverflow ∈ [ErrKind.countOverflow] := List.mem_singleton_self _
  cases i with
  | wbit b => exact ⟨_, rfl, (writeBit_lifeFree b).state s, (writeBit_raises hover b).mayRaise rfl⟩
  | wbits n =>
    exact ⟨_, exec_wbits (widthOk_iff.1 hwf) s, (writeList_lifeFree _).state s, (writeList_raises hover _).mayRaise rfl⟩
  | wflush => exact ⟨_, rfl, flush_lifeFree.state s, (flush_raises hover).mayRaise rfl⟩
  | lemit c g =>
    exact ⟨_, rfl, (lemit_lifeFree c g).state s,
      (lemit_raises (es := [.obufOverflow, .badCode]) (by decide) (by decide) c g).mayRaise rfl⟩
  | leof => exact ⟨_, rfl, leof_lifeFree.state s, (writeBits_raises hover _ _).mayRaise rfl⟩
  | lread => exact ⟨_, rfl, lread_lifeFree.state s, (lread_raises hbad).mayRaise rfl⟩
  | fcount => exact ⟨_, rfl, fcount_lifeFree.state s, (fcount_raises hcount).mayRaise rfl⟩
  | fwr c => exact ⟨_, rfl, (fwr_lifeFree c).state s, (fwr_raises hcount c).mayRaise rfl⟩
  | htrie =>
    exact ⟨_, rfl, htrie_lifeFree.state s,
      needTrie_mayRaise (fun s => ser_raises hover serDepth s.root s) rfl (by decide)⟩
  | hcountw => exact ⟨_, exec_hcountw s, (writeList_lifeFree _).state s, (writeList_raises hover _).mayRaise rfl⟩
  | hsym c =>
    exact ⟨_, rfl, (hsym_lifeFree c).state s,
      needTrie_mayRaise (emitCode_raises (es := [.obufOverflow, .noCode]) (by decide) (by decide) c) rfl
        (by simp [errorsOf, errCodeOf, needsCode])⟩
  | hsyms =>
    exact ⟨_, rfl, hsyms_lifeFree.state s,
      needTrie_mayRaise (fun s => emitAll_raises (es := [.obufOverflow, .noCode]) (by decide) (by decide) s.input s) rfl
        (by decide)⟩
  | hcomp =>
    exact ⟨_, exec_hcomp_eq s, ((writeList_lifeFree _).bind fun _ => flush_lifeFree).state s.prepared,
      ((writeList_raises hover _).bind fun _ => flush_raises hover).mayRaise rfl⟩
  | hrtrie => exact ⟨_, rfl, hrtrie_lifeFree.state s, (hrtrie_raises hbad).mayRaise rfl⟩
  | hrcount => exact ⟨_, rfl, hrcount_lifeFree.state s, (hrcount_raises hbad).mayRaise rfl⟩
  | hdsym =>
    exact ⟨_, rfl, hdsym_lifeFree.state s,
      needTrie_mayRaise ((decodeSymbol_raises hbad).bind fun _ => .ok _ _) rfl (by decide)⟩
  | hdsyms =>
    exact ⟨_, rfl, hdsyms_lifeFree.state s,
      needTrie_mayRaise (es := [.obufOverflow, .malformedStream])
        (fun s => decodeAll_raises (by decide) (by decide) s.hrem.toNat s) rfl (by decide)⟩
  | hexp =>
    exact ⟨_, exec_hexp s, hexp_lifeFree.state s,
      (hexpOutput_raises (es := [.obufOverflow, .malformedStream]) (by decide) (by decide)).mayRaise rfl⟩
  | _ => exact absurd rfl hi

/-- A body without an error leaves ERR through its completion. -/
theorem err_of_completed_ok {body : State → Res Unit} (hlife : LifeFree body) {t u : State} (hb : body s = .ok () u)
    (h : completed (body s) = .next t) : t.err = s.err := by
  have herr : (body s).state.err = s.err := congrArg LifeCycle.err (hlife.state s)
  rw [hb] at herr h
  cases h
  exact herr

/-- The other commands raise none; HBUILD's code lengths are short enough while TOTAL is the sum of the counters (R244). -/
theorem exec_raises_nothing {t : State} (hwf : i.wf = true) (hi : errorsOf i = []) (htotal : s.TotalOk)
    (hs : s.err = false) (h : exec i s = .next t) : t.err = false := by
  cases i with
  | rbit => exact (err_of_completed_ok rbit_lifeFree rfl h).trans hs
  | rbits n => exact (err_of_completed_ok (rbits_lifeFree n) (if_pos hwf) h).trans hs
  | hbuild => exact (err_of_completed_ok hbuild_lifeFree (hbuild_eq_built htotal) h).trans hs
  | clrerr | sreset => cases h; rfl
  | nop | winit | rinit | linit | fclr | frd _ | hlen _ | hcodelo _ | hcodehi _ | hnode _ | hnodef _ => cases h; exact hs
  | _ => cases hi

end mayRaise

/-- Settles O32: an error after the completion is one that the body raised. -/
theorem errorsByCommand : Obligations.ErrorsByCommand := by
  intro i s t hwf htotal hs h ht
  by_cases hi : errorsOf i = []
  · rw [exec_raises_nothing hwf hi htotal hs h] at ht
    cases ht
  · obtain ⟨r, hexec, hlife, hmay⟩ := exec_mayRaise hwf hi s
    have herr : r.state.err = false := (congrArg LifeCycle.err hlife).trans hs
    obtain rfl : complete r = t := Host.Outcome.next.inj (hexec.symm.trans h)
    cases r with
    | ok _ u =>
      rw [complete_ok] at ht
      exact absurd (ht.symm.trans herr) (by decide)
    | raised e u =>
      have hcode : (complete (.raised e u)).errCode = errCodeOf e := by
        rw [complete_raised]
        simp [doneErr, recorded, doneOk, (show u.err = false from herr)]
      obtain hlisted | ⟨hneeds, rfl, hv⟩ | ⟨hneeds, rfl, hv⟩ := hmay e u rfl
      · exact .inl (hcode ▸ hlisted)
      · exact .inr (.inl ⟨hneeds, hcode, hv⟩)
      · exact .inr (.inr ⟨hneeds, hcode, hv⟩)

end Sys2Proof.Machine

/-! The composite commands are their parts in order (46_huffman_encode.md R266, 47_huffman_decode.md R287,
70_reset_and_hazards.md R360). -/

namespace Sys2Proof.Machine

/-- `u` with the status that a completion leaves, and CMDCNT at `n` (40_control.md R141). -/
def atRest (n : Word) (u : State) : State := { u with cmdcnt := n, irqDone := true, busy := false }

/-- Only CMDCNT tells an error's completion after earlier commands from one without them. -/
theorem complete_raised_atRest (e : ErrKind) (n : Word) (u : State) :
    complete (.raised e u) = { complete (.raised e (atRest n u)) with cmdcnt := u.cmdcnt + 1 } := by
  rw [complete_raised, complete_raised]
  rfl

/-- A life-free body runs after other commands as it would before them. -/
theorem LifeFree.atRest {α : Type} {body : State → Res α} (h : LifeFree body) (n : Word) (u : State) :
    body (atRest n u) = (body u).mapState (atRest n) := by
  have hbody : body (Machine.atRest n u) = (body u).mapState (withLife (Machine.atRest n u).life) :=
    h (Machine.atRest n u).life u
  have hstate : withLife (Machine.atRest n u).life (body u).state = Machine.atRest n (body u).state := by
    have hlife := h.state u
    simp only [State.life, LifeCycle.mk.injEq] at hlife
    obtain ⟨-, herr, hcode, hop, -, herri, -⟩ := hlife
    simp only [withLife, State.life, Machine.atRest, herr, hcode, hop, herri]
  rw [hbody]
  cases hr : body u <;> (rw [hr] at hstate; exact congrArg _ hstate)

/-- Bodies one after the other, up to the first error. -/
def runBodies : List (State → Res Unit) → State → Res Unit
  | [], s => .ok () s
  | body :: bodies, s => (body s).bind fun _ s => runBodies bodies s

/-- The command completes the body, which does not look at the life cycle. -/
def CompletesBody (p : Instr × (State → Res Unit)) : Prop := LifeFree p.2 ∧ ∀ s, exec p.1 s = completed (p.2 s)

/-- A command without an error is followed by the rest. -/
theorem runParts_cons {i : Instr} {s t : State} (h : exec i s = .next t) (ht : t.err = false) (is : List Instr) :
    runParts (i :: is) s = runParts is t := by
  simp [runParts, h, ht]

/-- An error is the end. -/
theorem runParts_cons_of_error {i : Instr} {s t : State} (h : exec i s = .next t) (ht : t.err = true) (is : List Instr) :
    runParts (i :: is) s = some t := by
  simp [runParts, h, ht]

/-- Commands that run after others leave what their bodies in one command leave, but for CMDCNT. -/
theorem runParts_atRest {parts : List (Instr × (State → Res Unit))} (hparts : ∀ p ∈ parts, CompletesBody p) {u : State}
    (hu : u.err = false) (n : Word) :
    ∃ w, runParts (parts.map Prod.fst) (atRest n u) = some w ∧
      complete (runBodies (parts.map Prod.snd) u) = { w with cmdcnt := u.cmdcnt + 1 } := by
  induction parts generalizing u n with
  | nil => exact ⟨_, rfl, rfl⟩
  | cons p parts ih =>
    obtain ⟨⟨hlife, hexec⟩, hrest⟩ := List.forall_mem_cons.1 hparts
    have herr : (p.2 u).state.err = false := (congrArg LifeCycle.err (hlife.state u)).trans hu
    have hcnt : (p.2 u).state.cmdcnt = u.cmdcnt := congrArg LifeCycle.cmdcnt (hlife.state u)
    have hnext : exec p.1 (atRest n u) = .next (complete ((p.2 u).mapState (atRest n))) := by
      rw [hexec, hlife.atRest, completed]
    simp only [List.map_cons, runBodies]
    cases hr : p.2 u with
    | ok _ v =>
      rw [hr, Res.state_ok] at herr hcnt
      rw [hr] at hnext
      obtain ⟨w, hw, hdone⟩ := ih hrest herr (n + 1)
      exact ⟨w, (runParts_cons hnext herr _).trans hw, hcnt ▸ hdone⟩
    | raised e v =>
      rw [hr, Res.state_raised] at hcnt
      rw [hr] at hnext
      exact ⟨_, runParts_cons_of_error hnext (record_err e _ _) _, hcnt ▸ complete_raised_atRest e n v⟩

/-- HCOMP's parts after WINIT (R266). -/
def hcompParts : List (Instr × (State → Res Unit)) :=
  [(.fclr, fclr), (.fcount, fcount), (.hbuild, hbuild), (.htrie, htrie), (.hcountw, hcountw), (.hsyms, hsyms),
    (.wflush, flush)]

/-- HEXP's parts after RINIT and WINIT (R287). -/
def hexpParts : List (Instr × (State → Res Unit)) :=
  [(.hrtrie, hrtrie), (.hrcount, hrcount), (.hdsyms, hdsyms), (.wflush, flush)]

theorem hcompParts_complete : ∀ p ∈ hcompParts, CompletesBody p := by
  simp only [hcompParts, List.forall_mem_cons]
  exact ⟨⟨fclr_lifeFree, fun _ => rfl⟩, ⟨fcount_lifeFree, fun _ => rfl⟩, ⟨hbuild_lifeFree, fun _ => rfl⟩,
    ⟨htrie_lifeFree, fun _ => rfl⟩, ⟨hcountw_lifeFree, fun _ => rfl⟩, ⟨hsyms_lifeFree, fun _ => rfl⟩,
    ⟨flush_lifeFree, fun _ => rfl⟩, List.forall_mem_nil _⟩

theorem hexpParts_complete : ∀ p ∈ hexpParts, CompletesBody p := by
  simp only [hexpParts, List.forall_mem_cons]
  exact ⟨⟨hrtrie_lifeFree, fun _ => rfl⟩, ⟨hrcount_lifeFree, fun _ => rfl⟩, ⟨hdsyms_lifeFree, fun _ => rfl⟩,
    ⟨flush_lifeFree, fun _ => rfl⟩, List.forall_mem_nil _⟩

theorem Res.bind_ok_self (r : Res Unit) : (r.bind fun _ s => .ok () s) = r := by cases r <;> rfl

theorem runBodies_hcompParts (s : State) : runBodies (hcompParts.map Prod.snd) s = hcompOutput s := by
  simp only [hcompParts, List.map_cons, List.map_nil, runBodies, Res.bind_ok_self]
  rfl

theorem runBodies_hexpParts (s : State) : runBodies (hexpParts.map Prod.snd) s = hexpOutput s := by
  simp only [hexpParts, List.map_cons, List.map_nil, runBodies, Res.bind_ok_self]
  rfl

/-- Settles O59: WINIT, or RINIT and WINIT, raise no error, and leave the composite's start; the other parts follow it. -/
theorem compositesAreTheirParts : Obligations.CompositesAreTheirParts := by
  refine fun s hs => ⟨?_, ?_⟩
  · obtain ⟨w, hw, hdone⟩ := runParts_atRest hcompParts_complete (u := startOf .hcomp s) hs (s.cmdcnt + 1)
    rw [runBodies_hcompParts] at hdone
    have hwinit := runParts_cons (i := .winit) (s := s) rfl hs
    exact ⟨w, (hwinit _).trans hw, congrArg Host.Outcome.next hdone⟩
  · obtain ⟨w, hw, hdone⟩ := runParts_atRest hexpParts_complete (u := startOf .hexp s) hs (s.cmdcnt + 1 + 1)
    rw [runBodies_hexpParts] at hdone
    have hrinit := runParts_cons (i := .rinit) (t := complete (rinit s)) rfl hs
    have hwinit := runParts_cons (i := .winit) (s := complete (rinit s)) rfl hs
    exact ⟨w, (hrinit _).trans ((hwinit _).trans hw), congrArg Host.Outcome.next hdone⟩

end Sys2Proof.Machine
